-- ==== Sys2Proof/Word.lean ====
section
/-! DEFINITION. The widths of the spec (00_scope.md rule R10): unsigned words of 8, 16 and 32 bits. -/

namespace Sys2Proof

/-- `u8` of rule R10. -/
abbrev Byte := BitVec 8

/-- `u16` of rule R10: a peripheral register, a BTABLE word, a transfer length. -/
abbrev Half := BitVec 16

/-- `u32` of rule R10: a command word, a RAM address, a result. -/
abbrev Word := BitVec 32

end Sys2Proof
end

