-- ==== Sys2Proof/Config.lean ====
section
/-! DEFINITION. The implementation parameters (00_scope.md rules R8, R9; 20_memory.md rule R104) and the
free values. The parameters are a record the state carries and no step changes, so that a statement about
every state is a statement about every legal parameter set. -/

namespace Sys2Proof

/-- `ISO_HW_BUF` (rules R8, R360): which buffer the peripheral uses for an isochronous DTOG value. -/
inductive IsoHwBuf where
  | dtog
  | notDtog
deriving DecidableEq, Repr

/-- One mapped range of system RAM, an element of `RAM_MAP` (20_memory.md rule R104). -/
structure Region where
  base : Nat
  size : Nat
deriving DecidableEq, Repr

/-- The range holds the address `a`. -/
def Region.holds (r : Region) (a : Nat) : Bool := decide (r.base ≤ a) && decide (a < r.base + r.size)

/-- The parameters of rule R8, with `RAM_MAP` and `MSCBUF_ADDR` of rule R104. -/
structure Config where
  nEp            : Nat
  pmaSize        : Nat
  btableBase     : Nat
  bus32          : Bool
  errataRxDelay  : Bool
  ep0Size        : Nat
  mscBufSize     : Nat
  lunCount       : Nat
  asyncRet       : Word
  evqDepth       : Nat
  remoteWakeEsof : Nat
  isoHwBuf       : IsoHwBuf
  ramMap         : List Region
  mscBufAddr     : Nat
deriving DecidableEq, Repr

/-- The defaults of rule R8. The OPEN parameters take the values 95_test_vectors.md uses, and `EVQ_DEPTH`
is 16 (log entry 2). -/
def Config.default : Config where
  nEp            := 8
  pmaSize        := 512
  btableBase     := 0
  bus32          := false
  errataRxDelay  := false
  ep0Size        := 64
  mscBufSize     := 512
  lunCount       := 1
  asyncRet       := 0xFFFFFFF0#32
  evqDepth       := 16
  remoteWakeEsof := 4
  isoHwBuf       := .dtog
  ramMap         := [{ base := 0x20000000, size := 0x10000 }]
  mscBufAddr     := 0x20000000

/-- `RAM_MAP` contains `[MSCBUF_ADDR, MSCBUF_ADDR + MSC_BUFSIZE)` (rule R104), in one range or in several that
meet: the first byte is mapped, and so is every byte of the buffer at which a range ends. That every byte is
then mapped, and only then, is `Config.holdsStaging_iff`. -/
def Config.holdsStaging (c : Config) : Bool :=
  c.ramMap.any (·.holds c.mscBufAddr)
    && c.ramMap.all fun r =>
      !(decide (c.mscBufAddr < r.base + r.size) && decide (r.base + r.size < c.mscBufAddr + c.mscBufSize))
        || c.ramMap.any (·.holds (r.base + r.size))

/-- The constraints a model must check at construction and refuse otherwise: rule R9, with `EVQ_DEPTH >= 4`
(92 D8), `REMOTE_WAKE_ESOF` in 1..255 (92 D9) and the RAM map inside the 32-bit space (rule R104). -/
def Config.legal (c : Config) : Bool :=
  decide (1 ≤ c.nEp) && decide (c.nEp ≤ 8)
    && (c.pmaSize == 512 || c.pmaSize == 1024 || c.pmaSize == 2048)
    && c.btableBase % 8 == 0
    && decide (c.btableBase + 8 * c.nEp + 2 * c.ep0Size ≤ c.pmaSize)
    && (c.ep0Size == 8 || c.ep0Size == 16 || c.ep0Size == 32 || c.ep0Size == 64)
    && decide (36 ≤ c.mscBufSize) && decide (c.mscBufSize ≤ 65535)
    && decide (1 ≤ c.lunCount) && decide (c.lunCount ≤ 16)
    && decide (c.asyncRet.toInt < -1)
    && decide (4 ≤ c.evqDepth)
    && decide (1 ≤ c.remoteWakeEsof) && decide (c.remoteWakeEsof ≤ 255)
    && c.ramMap.all (fun r => decide (r.base + r.size ≤ 2 ^ 32))
    && c.holdsStaging

/-- The sense triple `(sense_key, ASC, ASCQ)` (00_scope.md rules R15, R16; 10_state.md rule R69). The key is a
4-bit category: of the byte `sense_key` only the low 4 bits are significant (10_state.md rule R63), and
`set_sense` takes 4 bits (48_scsi.md rule R481). -/
structure Sense where
  key  : BitVec 4
  asc  : Byte
  ascq : Byte
deriving DecidableEq, Repr, Inhabited

/-- One answer of the application to one callback (48_scsi.md rule R485). A callback reads the fields its
row of rule R485 names: `flag` a bool; `ret` an i32, `n` of `inquiry2` or `block_count`; `size` the
`block_size`; `keep` the absent `request_sense` callback; `data` the bytes written to `MSCBUF`, or
vendor, product and rev in this order; `sense` the triple set during the callback. -/
structure Answer where
  sense : Option Sense
  flag  : Bool
  ret   : Word
  size  : Half
  keep  : Bool
  data  : List Byte
deriving DecidableEq, Repr, Inhabited

/-- FREE VALUE (log entry 5): the application's n-th answer where the state lists none. Rule R485 makes
every answer a draw. -/
opaque Config.freeAnswer : Nat → Answer

/-- FREE VALUE (log entry 6): a quotient by 0 in rule R502 or R504, which the spec uses only with a
non-zero divisor (00_scope.md rule R18 e). -/
opaque Config.freeQuotient : Word → Word

/-- FREE VALUE (log entry 6): the remainder that goes with `Config.freeQuotient`. -/
opaque Config.freeRemainder : Word → Word

end Sys2Proof
end

