-- ==== Sys2Proof/Syntax.lean ====
section
/-! DEFINITION. The 52 commands of the command interface (30_encoding.md rule R142), one constructor per
row of the opcode table. -/

namespace Sys2Proof

/-- A decoded command. `i` is an ep_idx, `ep` an ep_addr, `b` a buffer id, `h` a FIFO handle (rule R141). -/
inductive Instr where
  -- endpoint register engine (41_epreg_engine.md)
  | eprRead      (i : BitVec 4)
  | eprWrite     (i : BitVec 4) (w : Half)
  | eprSetTxStat (i : BitVec 4) (st : BitVec 2)
  | eprSetRxStat (i : BitVec 4) (st : BitVec 2)
  | eprSetTxDtog (i : BitVec 4) (d : Bool)
  | eprSetRxDtog (i : BitVec 4) (d : Bool)
  | eprClrTxCtr  (i : BitVec 4)
  | eprClrRxCtr  (i : BitVec 4)
  | eprSetType   (i : BitVec 4) (ty : BitVec 2)
  | eprSetEa     (i : BitVec 4) (ea : BitVec 4)
  | eprMux       (i : BitVec 4) (ctl : Half)
  -- PMA allocator, BTABLE, slots (42_pma_btable.md)
  | pmaAlloc       (dbuf : Bool) (len : Half)
  | pmaReset
  | btSetAddr      (i : BitVec 4) (b : Bool) (a : Half)
  | btGetAddr      (i : BitVec 4) (b : Bool)
  | btSetCount     (i : BitVec 4) (b : Bool) (n : BitVec 10)
  | btGetCount     (i : BitVec 4) (b : Bool)
  | btSetRxBufsize (i : BitVec 4) (b : Bool) (size : Half)
  | epAlloc        (ep : Byte) (ty : BitVec 2)
  -- packet memory copy (43_pma_copy.md)
  | pmaWrite     (off : Half) (ram : Word) (len : Half)
  | pmaRead      (off : Half) (ram : Word) (len : Half)
  | pmaWriteFifo (off : Half) (h : Word) (len : Half)
  | pmaReadFifo  (off : Half) (h : Word) (len : Half)
  -- DCD operations (44_dcd_ops.md)
  | dcdInit
  | epOpen       (ep : Byte) (ty : BitVec 2) (mps : BitVec 11)
  | isoAlloc     (ep : Byte) (size : BitVec 11)
  | isoActivate  (ep : Byte) (mps : BitVec 11)
  | epCloseAll
  | xfer         (ep : Byte) (buf : Word) (total : Half)
  | xferFifo     (ep : Byte) (h : Word) (total : Half)
  | epStall      (ep : Byte)
  | epClearStall (ep : Byte)
  | setAddress   (a : BitVec 7)
  | remoteWakeup
  | sofEnable    (en : Bool)
  | connect      (en : Bool)
  | irqEnable    (en : Bool)
  -- interrupt service (46_isr.md)
  | isrService
  -- MSC Bulk-Only-Transport (47_bot_fsm.md) and SCSI (48_scsi.md)
  | mscInit
  | mscDeinit
  | mscReset
  | mscOpen        (desc : Word) (maxLen : Half)
  | mscControl     (stage : BitVec 2) (a0 : Word) (a1 : Word)
  | mscXferCb      (ep : Byte) (result : BitVec 2) (len : Word)
  | asyncIoDone    (inIsr : Bool) (v : Word)
  | taskStep
  | setSense       (key : BitVec 4) (asc : Byte) (ascq : Byte)
  | edptXfer       (ep : Byte) (buf : Word) (len : Half)
  | edptStall      (ep : Byte)
  | edptClearStall (ep : Byte)
  | edptStalled    (ep : Byte)
  | edptReady      (ep : Byte)
deriving DecidableEq, Repr

end Sys2Proof
end

