-- ==== Sys2Proof/WellFormed.lean ====
section
/-! DEFINITION. Well-formedness of a command (30_encoding.md rules R141, R145; 47_bot_fsm.md rule R440):
the operand checks whose violation is `ILLEGAL_CMD`. What the operand types already exclude (a 2-bit STAT,
a flag) needs no check here. -/

namespace Sys2Proof

/-- An ep_idx operand names an existing register: `index < N_EP` (rule R141). -/
def idxOk (nEp : Nat) (i : BitVec 4) : Bool := decide (i.toNat < nEp)

/-- An ep_addr operand: bits 6:4 must be 0 (rule R141). -/
def epOk (ep : Byte) : Bool := ep &&& 0x70#8 == 0#8

/-- The `EPR_MUX` control word: `IMM[7:5]` and `IMM[15]` must be 0 (rule R145). -/
def ctlOk (ctl : Half) : Bool := ctl &&& 0x80E0#16 == 0#16

/-- `MSC_CONTROL`: stage 3 raises `ILLEGAL_CMD` (rule R440). -/
def stageOk (stage : BitVec 2) : Bool := stage != 3#2

/-- The checks of a command's operands, for a machine of `nEp` endpoint registers. -/
def wellFormed (nEp : Nat) : Instr → Bool
  | .eprRead i | .eprWrite i _ | .eprSetTxStat i _ | .eprSetRxStat i _ | .eprSetTxDtog i _
  | .eprSetRxDtog i _ | .eprClrTxCtr i | .eprClrRxCtr i | .eprSetType i _ | .eprSetEa i _ => idxOk nEp i
  | .eprMux i ctl => idxOk nEp i && ctlOk ctl
  | .pmaAlloc _ _ | .pmaReset => true
  | .btSetAddr i _ _ | .btGetAddr i _ | .btSetCount i _ _ | .btGetCount i _
  | .btSetRxBufsize i _ _ => idxOk nEp i
  | .epAlloc ep _ => epOk ep
  | .pmaWrite _ _ _ | .pmaRead _ _ _ | .pmaWriteFifo _ _ _ | .pmaReadFifo _ _ _ => true
  | .dcdInit | .epCloseAll => true
  | .epOpen ep _ _ | .isoAlloc ep _ | .isoActivate ep _ | .xfer ep _ _ | .xferFifo ep _ _
  | .epStall ep | .epClearStall ep => epOk ep
  | .setAddress _ | .remoteWakeup | .sofEnable _ | .connect _ | .irqEnable _ => true
  | .isrService | .mscInit | .mscDeinit | .mscReset | .mscOpen _ _ => true
  | .mscControl stage _ _ => stageOk stage
  | .mscXferCb ep _ _ => epOk ep
  | .asyncIoDone _ _ | .taskStep | .setSense _ _ _ => true
  | .edptXfer ep _ _ | .edptStall ep | .edptClearStall ep | .edptStalled ep | .edptReady ep => epOk ep

end Sys2Proof
end

