-- ==== Sys2Proof/Decode.lean ====
section
/-! DEFINITION. The command word (30_encoding.md rules R140 to R143) and its decoder and encoder. -/

namespace Sys2Proof

/-- `CMD = OPC[31:24] EPA[23:16] IMM[15:0]` (rule R140). -/
def mkCmd (opc epa : Byte) (imm : Half) : Word := opc ++ epa ++ imm

/-- `OPC = CMD[31:24]`. -/
def cmdOpc (cmd : Word) : Byte := cmd.extractLsb' 24 8

/-- `EPA = CMD[23:16]`. -/
def cmdEpa (cmd : Word) : Byte := cmd.extractLsb' 16 8

/-- `IMM = CMD[15:0]`. -/
def cmdImm (cmd : Word) : Half := cmd.extractLsb' 0 16

/-- Why the decoder refuses a command word. Each is `Fault(ILLEGAL_CMD, CMD)` when it is issued. -/
inductive DecodeError where
  /-- an `OPC` not in rule R142 (rule R143) -/
  | unknownOpcode
  /-- an ep_idx with bits 7:4 set (rule R141) -/
  | epIdxHighBits
  /-- an ep_idx `>= N_EP` (rule R141) -/
  | epIdxRange
  /-- an ep_addr with bits 6:4 set (rule R141) -/
  | epAddrBits
  /-- a flag with bits 7:1 set (rule R141) -/
  | flagBits
  /-- an unused `EPA` that is not 0 (rule R141) -/
  | epaUsed
  /-- a bit of `IMM` that the row does not name (rule R141) -/
  | immBits
  /-- a bit of `ARG0` that the command's rule says must be 0 -/
  | arg0Bits
  /-- a bit of `ARG1` that the command's rule says must be 0 -/
  | arg1Bits
  /-- `MSC_CONTROL` stage 3 (47_bot_fsm.md rule R440) -/
  | controlStage
deriving DecidableEq, Repr

/-- The ep_idx operand form (rule R141). -/
def idxForm (nEp : Nat) (epa : Byte) : Except DecodeError (BitVec 4) :=
  if epa &&& 0xF0#8 != 0#8 then .error .epIdxHighBits
  else if idxOk nEp (epa.setWidth 4) then .ok (epa.setWidth 4) else .error .epIdxRange

/-- The ep_addr operand form (rule R141). -/
def epForm (epa : Byte) : Except DecodeError Byte :=
  if epOk epa then .ok epa else .error .epAddrBits

/-- The flag operand form (rule R141). -/
def flagForm (epa : Byte) : Except DecodeError Bool :=
  if epa &&& 0xFE#8 != 0#8 then .error .flagBits else .ok (epa.getLsbD 0)

/-- The unused operand form: `EPA` must be 0 (rule R141). -/
def unusedForm (epa : Byte) : Except DecodeError Unit :=
  if epa != 0#8 then .error .epaUsed else .ok ()

/-- The bits of `IMM` in `mask` must be 0 (rule R141). -/
def immForm (mask imm : Half) : Except DecodeError Unit :=
  if imm &&& mask != 0#16 then .error .immBits else .ok ()

/-- The bits of an argument word in `mask` must be 0. -/
def argForm (e : DecodeError) (mask arg : Word) : Except DecodeError Unit :=
  if arg &&& mask != 0#32 then .error e else .ok ()

/-- `MSC_CONTROL`'s stage operand (rule R440). -/
def stageForm (imm : Half) : Except DecodeError (BitVec 2) := do
  immForm 0xFFFC imm
  if stageOk (imm.setWidth 2) then .ok (imm.setWidth 2) else .error .controlStage

/-- The decoder: `OPC`, then the operand fields its row of rule R142 names. A row whose `ARG` column is
`-` ignores that word (rule R143), and so does a row for the bits of an `ARG` word that its rule neither
reads nor says must be 0 (log entry 10). -/
def decode (nEp : Nat) (cmd arg0 arg1 : Word) : Except DecodeError Instr :=
  let epa := cmdEpa cmd
  let imm := cmdImm cmd
  match (cmdOpc cmd).toNat with
  | 0x01 => do let i ← idxForm nEp epa; immForm 0xFFFF imm; .ok (.eprRead i)
  | 0x02 => do let i ← idxForm nEp epa; immForm 0xFFFF imm; .ok (.eprWrite i (arg0.setWidth 16))
  | 0x03 => do let i ← idxForm nEp epa; immForm 0xFFFC imm; .ok (.eprSetTxStat i (imm.setWidth 2))
  | 0x04 => do let i ← idxForm nEp epa; immForm 0xFFFC imm; .ok (.eprSetRxStat i (imm.setWidth 2))
  | 0x05 => do let i ← idxForm nEp epa; immForm 0xFFFE imm; .ok (.eprSetTxDtog i (imm.getLsbD 0))
  | 0x06 => do let i ← idxForm nEp epa; immForm 0xFFFE imm; .ok (.eprSetRxDtog i (imm.getLsbD 0))
  | 0x07 => do let i ← idxForm nEp epa; immForm 0xFFFF imm; .ok (.eprClrTxCtr i)
  | 0x08 => do let i ← idxForm nEp epa; immForm 0xFFFF imm; .ok (.eprClrRxCtr i)
  | 0x09 => do let i ← idxForm nEp epa; immForm 0xFFFC imm; .ok (.eprSetType i (imm.setWidth 2))
  | 0x0A => do let i ← idxForm nEp epa; immForm 0xFFF0 imm; .ok (.eprSetEa i (imm.setWidth 4))
  | 0x0B => do let i ← idxForm nEp epa; immForm 0x80E0 imm; .ok (.eprMux i imm)
  | 0x10 => do let d ← flagForm epa; .ok (.pmaAlloc d imm)
  | 0x11 => do unusedForm epa; immForm 0xFFFF imm; .ok .pmaReset
  | 0x12 => do
    let i ← idxForm nEp epa; immForm 0xFFFE imm; argForm .arg0Bits 0xFFFF0000 arg0
    .ok (.btSetAddr i (imm.getLsbD 0) (arg0.setWidth 16))
  | 0x13 => do let i ← idxForm nEp epa; immForm 0xFFFE imm; .ok (.btGetAddr i (imm.getLsbD 0))
  | 0x14 => do
    let i ← idxForm nEp epa; immForm 0xFFFE imm; argForm .arg0Bits 0xFFFFFC00 arg0
    .ok (.btSetCount i (imm.getLsbD 0) (arg0.setWidth 10))
  | 0x15 => do let i ← idxForm nEp epa; immForm 0xFFFE imm; .ok (.btGetCount i (imm.getLsbD 0))
  | 0x16 => do
    let i ← idxForm nEp epa; immForm 0xFFFE imm
    .ok (.btSetRxBufsize i (imm.getLsbD 0) (arg0.setWidth 16))
  | 0x17 => do let ep ← epForm epa; immForm 0xFFFC imm; .ok (.epAlloc ep (imm.setWidth 2))
  | 0x20 => do
    unusedForm epa; argForm .arg1Bits 0xFFFF0000 arg1
    .ok (.pmaWrite imm arg0 (arg1.setWidth 16))
  | 0x21 => do
    unusedForm epa; argForm .arg1Bits 0xFFFF0000 arg1
    .ok (.pmaRead imm arg0 (arg1.setWidth 16))
  | 0x22 => do unusedForm epa; .ok (.pmaWriteFifo imm arg0 (arg1.setWidth 16))
  | 0x23 => do unusedForm epa; .ok (.pmaReadFifo imm arg0 (arg1.setWidth 16))
  | 0x30 => do unusedForm epa; immForm 0xFFFF imm; .ok .dcdInit
  | 0x31 => do
    let ep ← epForm epa; immForm 0xFFFC imm; argForm .arg0Bits 0xFFFFF800 arg0
    .ok (.epOpen ep (imm.setWidth 2) (arg0.setWidth 11))
  | 0x32 => do let ep ← epForm epa; immForm 0xFFFF imm; .ok (.isoAlloc ep (arg0.setWidth 11))
  | 0x33 => do let ep ← epForm epa; immForm 0xFFFF imm; .ok (.isoActivate ep (arg0.setWidth 11))
  | 0x34 => do unusedForm epa; immForm 0xFFFF imm; .ok .epCloseAll
  | 0x35 => do let ep ← epForm epa; immForm 0xFFFF imm; .ok (.xfer ep arg0 (arg1.setWidth 16))
  | 0x36 => do let ep ← epForm epa; immForm 0xFFFF imm; .ok (.xferFifo ep arg0 (arg1.setWidth 16))
  | 0x37 => do let ep ← epForm epa; immForm 0xFFFF imm; .ok (.epStall ep)
  | 0x38 => do let ep ← epForm epa; immForm 0xFFFF imm; .ok (.epClearStall ep)
  | 0x39 => do unusedForm epa; immForm 0xFF80 imm; .ok (.setAddress (imm.setWidth 7))
  | 0x3A => do unusedForm epa; immForm 0xFFFF imm; .ok .remoteWakeup
  | 0x3B => do let en ← flagForm epa; immForm 0xFFFF imm; .ok (.sofEnable en)
  | 0x3C => do let en ← flagForm epa; immForm 0xFFFF imm; .ok (.connect en)
  | 0x3D => do let en ← flagForm epa; immForm 0xFFFF imm; .ok (.irqEnable en)
  | 0x40 => do unusedForm epa; immForm 0xFFFF imm; .ok .isrService
  | 0x50 => do unusedForm epa; immForm 0xFFFF imm; .ok .mscInit
  | 0x51 => do unusedForm epa; immForm 0xFFFF imm; .ok .mscDeinit
  | 0x52 => do unusedForm epa; immForm 0xFFFF imm; .ok .mscReset
  | 0x53 => do unusedForm epa; immForm 0xFFFF imm; .ok (.mscOpen arg0 (arg1.setWidth 16))
  | 0x54 => do unusedForm epa; let st ← stageForm imm; .ok (.mscControl st arg0 arg1)
  | 0x55 => do let ep ← epForm epa; immForm 0xFFFC imm; .ok (.mscXferCb ep (imm.setWidth 2) arg1)
  | 0x56 => do let f ← flagForm epa; immForm 0xFFFF imm; .ok (.asyncIoDone f arg0)
  | 0x57 => do unusedForm epa; immForm 0xFFFF imm; .ok .taskStep
  | 0x58 => do
    unusedForm epa; immForm 0xFFFF imm
    .ok (.setSense (arg0.setWidth 4) (arg0.extractLsb' 8 8) (arg0.extractLsb' 16 8))
  | 0x5A => do let ep ← epForm epa; immForm 0xFFFF imm; .ok (.edptXfer ep arg0 (arg1.setWidth 16))
  | 0x5B => do let ep ← epForm epa; immForm 0xFFFF imm; .ok (.edptStall ep)
  | 0x5C => do let ep ← epForm epa; immForm 0xFFFF imm; .ok (.edptClearStall ep)
  | 0x5D => do let ep ← epForm epa; immForm 0xFFFF imm; .ok (.edptStalled ep)
  | 0x5E => do let ep ← epForm epa; immForm 0xFFFF imm; .ok (.edptReady ep)
  | _ => .error .unknownOpcode

/-- The three words of a command (rule R140). -/
structure CmdWords where
  cmd  : Word
  arg0 : Word
  arg1 : Word
deriving DecidableEq, Repr

/-- A command with no argument words. -/
def cmd0 (opc epa : Byte) (imm : Half) : CmdWords := ⟨mkCmd opc epa imm, 0, 0⟩

/-- A 1-bit operand field. -/
def bit8 (b : Bool) : Byte := if b then 1 else 0

/-- A 1-bit operand field of `IMM`. -/
def bit16 (b : Bool) : Half := if b then 1 else 0

/-- The encoder, written from the rows of rule R142. The bits a row ignores are 0. -/
def encode : Instr → CmdWords
  | .eprRead i             => cmd0 0x01 (i.setWidth 8) 0
  | .eprWrite i w          => ⟨mkCmd 0x02 (i.setWidth 8) 0, w.setWidth 32, 0⟩
  | .eprSetTxStat i st     => cmd0 0x03 (i.setWidth 8) (st.setWidth 16)
  | .eprSetRxStat i st     => cmd0 0x04 (i.setWidth 8) (st.setWidth 16)
  | .eprSetTxDtog i d      => cmd0 0x05 (i.setWidth 8) (bit16 d)
  | .eprSetRxDtog i d      => cmd0 0x06 (i.setWidth 8) (bit16 d)
  | .eprClrTxCtr i         => cmd0 0x07 (i.setWidth 8) 0
  | .eprClrRxCtr i         => cmd0 0x08 (i.setWidth 8) 0
  | .eprSetType i ty       => cmd0 0x09 (i.setWidth 8) (ty.setWidth 16)
  | .eprSetEa i ea         => cmd0 0x0A (i.setWidth 8) (ea.setWidth 16)
  | .eprMux i ctl          => cmd0 0x0B (i.setWidth 8) ctl
  | .pmaAlloc dbuf len     => cmd0 0x10 (bit8 dbuf) len
  | .pmaReset              => cmd0 0x11 0 0
  | .btSetAddr i b a       => ⟨mkCmd 0x12 (i.setWidth 8) (bit16 b), a.setWidth 32, 0⟩
  | .btGetAddr i b         => cmd0 0x13 (i.setWidth 8) (bit16 b)
  | .btSetCount i b n      => ⟨mkCmd 0x14 (i.setWidth 8) (bit16 b), n.setWidth 32, 0⟩
  | .btGetCount i b        => cmd0 0x15 (i.setWidth 8) (bit16 b)
  | .btSetRxBufsize i b sz => ⟨mkCmd 0x16 (i.setWidth 8) (bit16 b), sz.setWidth 32, 0⟩
  | .epAlloc ep ty         => cmd0 0x17 ep (ty.setWidth 16)
  | .pmaWrite off ram len  => ⟨mkCmd 0x20 0 off, ram, len.setWidth 32⟩
  | .pmaRead off ram len   => ⟨mkCmd 0x21 0 off, ram, len.setWidth 32⟩
  | .pmaWriteFifo off h n  => ⟨mkCmd 0x22 0 off, h, n.setWidth 32⟩
  | .pmaReadFifo off h n   => ⟨mkCmd 0x23 0 off, h, n.setWidth 32⟩
  | .dcdInit               => cmd0 0x30 0 0
  | .epOpen ep ty mps      => ⟨mkCmd 0x31 ep (ty.setWidth 16), mps.setWidth 32, 0⟩
  | .isoAlloc ep sz        => ⟨mkCmd 0x32 ep 0, sz.setWidth 32, 0⟩
  | .isoActivate ep mps    => ⟨mkCmd 0x33 ep 0, mps.setWidth 32, 0⟩
  | .epCloseAll            => cmd0 0x34 0 0
  | .xfer ep buf n         => ⟨mkCmd 0x35 ep 0, buf, n.setWidth 32⟩
  | .xferFifo ep h n       => ⟨mkCmd 0x36 ep 0, h, n.setWidth 32⟩
  | .epStall ep            => cmd0 0x37 ep 0
  | .epClearStall ep       => cmd0 0x38 ep 0
  | .setAddress a          => cmd0 0x39 0 (a.setWidth 16)
  | .remoteWakeup          => cmd0 0x3A 0 0
  | .sofEnable en          => cmd0 0x3B (bit8 en) 0
  | .connect en            => cmd0 0x3C (bit8 en) 0
  | .irqEnable en          => cmd0 0x3D (bit8 en) 0
  | .isrService            => cmd0 0x40 0 0
  | .mscInit               => cmd0 0x50 0 0
  | .mscDeinit             => cmd0 0x51 0 0
  | .mscReset              => cmd0 0x52 0 0
  | .mscOpen desc n        => ⟨mkCmd 0x53 0 0, desc, n.setWidth 32⟩
  | .mscControl st a0 a1   => ⟨mkCmd 0x54 0 (st.setWidth 16), a0, a1⟩
  | .mscXferCb ep r n      => ⟨mkCmd 0x55 ep (r.setWidth 16), 0, n⟩
  | .asyncIoDone f v       => ⟨mkCmd 0x56 (bit8 f) 0, v, 0⟩
  | .taskStep              => cmd0 0x57 0 0
  | .setSense k a q        => ⟨mkCmd 0x58 0 0, (0#8 ++ q ++ a ++ (k.setWidth 8 : Byte)), 0⟩
  | .edptXfer ep buf n     => ⟨mkCmd 0x5A ep 0, buf, n.setWidth 32⟩
  | .edptStall ep          => cmd0 0x5B ep 0
  | .edptClearStall ep     => cmd0 0x5C ep 0
  | .edptStalled ep        => cmd0 0x5D ep 0
  | .edptReady ep          => cmd0 0x5E ep 0

/-- The command a table word stands for, on the default machine (`N_EP = 8`): bits 31:0 of `w` are `CMD`,
bits 63:32 `ARG0` and bits 95:64 `ARG1`, and every bit from `nbits` up is 0. -/
def decodeTableWord (nbits w : Nat) : Option Instr :=
  let v := w % 2 ^ nbits
  match decode Config.default.nEp (BitVec.ofNat 32 v) (BitVec.ofNat 32 (v / 2 ^ 32))
      (BitVec.ofNat 32 (v / 2 ^ 64)) with
  | .ok i    => some i
  | .error _ => none

end Sys2Proof
end

