-- ==== Sys2Proof/Machine/State.lean ====
section
/-! DEFINITION. The architectural state (10_state.md, 20_memory.md), the inputs of the outside world as plain
data, and the state after power-on (70_reset_and_hazards.md rule R581). -/

namespace Sys2Proof.Machine

/-- Transfer direction of an endpoint (00_scope.md rule R16): OUT from the host, IN to the host. -/
inductive Dir where
  | out
  | inn
deriving DecidableEq, Repr

/-- The opposite direction. -/
def Dir.opp : Dir → Dir
  | .out => .inn
  | .inn => .out

/-- `slot[i]` (rule R54). `FREE` is `0xFF` in both fields. -/
structure Slot where
  epNum    : Byte
  epType   : Byte
  allocOut : Bool
  allocIn  : Bool
deriving DecidableEq, Repr

/-- A free slot (rule R54). -/
def Slot.free : Slot := ⟨0xFF#8, 0xFF#8, false, false⟩

/-- `xc[epnum][dir]` (rule R56). `ff = none` is `NONE`. -/
structure XferCtx where
  buf          : Word
  ff           : Option Word
  totalLen     : Half
  queuedLen    : Half
  mps          : Half
  epIdx        : Byte
  isoInSending : Bool
deriving DecidableEq, Repr

/-- The reset value of a transfer context (rule R56). -/
def XferCtx.zero : XferCtx := ⟨0, none, 0, 0, 0, 0, false⟩

/-- `msc.stage` (rule R71). -/
inductive Stage where
  | cmd
  | data
  | status
  | statusSent
  | needReset
deriving DecidableEq, Repr

/-- The 3-bit codes of rule R71. -/
def Stage.code : Stage → BitVec 3
  | .cmd        => 0
  | .data       => 1
  | .status     => 2
  | .statusSent => 3
  | .needReset  => 4

/-- `msc.cbw` (rule R67, layout 30_encoding.md rule R160). -/
structure Cbw where
  signature  : Word
  tag        : Word
  totalBytes : Word
  dir        : Byte
  lun        : Byte
  cmdLen     : Byte
  command    : Vector Byte 16
deriving DecidableEq, Repr

/-- `msc.csw` (rule R68, layout 30_encoding.md rule R161). -/
structure Csw where
  signature   : Word
  tag         : Word
  dataResidue : Word
  status      : Byte
deriving DecidableEq, Repr

/-- `msc`, the MSC interface record (rule R63). The sense triple is one field (rule R69). -/
structure Msc where
  cbw        : Cbw
  csw        : Csw
  epIn       : Byte
  epOut      : Byte
  itfNum     : Byte
  xferredLen : Word
  totalLen   : Word
  stage      : Stage
  sense      : Sense
  pendingIo  : Bool
  ioLen      : Word
deriving DecidableEq, Repr

/-- The cleared record (rule R64). -/
def Msc.cleared : Msc where
  cbw := ⟨0, 0, 0, 0, 0, 0, Vector.replicate 16 0⟩
  csw := ⟨0, 0, 0, 0⟩
  epIn := 0
  epOut := 0
  itfNum := 0
  xferredLen := 0
  totalLen := 0
  stage := .cmd
  sense := ⟨0, 0, 0⟩
  pendingIo := false
  ioLen := 0

/-- The events of the queue (rule R61). The result of an `XFER_COMPLETE` is always SUCCESS, and a
`DEFERRED` always names `ASYNC_DONE`, so neither is a field. -/
inductive Event where
  | busReset
  | sof (frame : BitVec 11)
  | suspend
  | resume
  | setupReceived (bytes : Vector Byte 8)
  | xferComplete (ep : Byte) (len : Word)
  | deferred (v : Word)
deriving DecidableEq, Repr

/-- The kind of an event: the info of `EVQ_OVERFLOW` (60_exceptions.md rule R540). -/
inductive EventKind where
  | busReset
  | sof
  | suspend
  | resume
  | setupReceived
  | xferComplete
  | deferred
deriving DecidableEq, Repr

/-- The kind of an event. -/
def Event.kind : Event → EventKind
  | .busReset          => .busReset
  | .sof _             => .sof
  | .suspend           => .suspend
  | .resume            => .resume
  | .setupReceived _   => .setupReceived
  | .xferComplete _ _  => .xferComplete
  | .deferred _        => .deferred

/-- The callbacks whose answer is bounded by 48_scsi.md rule R486: the info of `APP_CONTRACT`. -/
inductive Callback where
  | inquiry2
  | read10
  | write10
  | scsi
  | requestSense
deriving DecidableEq, Repr

/-- A FIFO object: a ring buffer of capacity `cap` holding the bytes `q` (20_memory.md rule R106). -/
structure Fifo where
  cap : Nat
  q   : List Byte
deriving DecidableEq, Repr

/-- `DATA0` / `DATA1` (30_encoding.md rule R172). -/
inductive Pid where
  | data0
  | data1
deriving DecidableEq, Repr

/-- One BUS step: a transaction or a bus signal (30_encoding.md rule R172; 45_bus_side.md rule R352). -/
inductive BusRec where
  | setup (addr : BitVec 7) (ep : BitVec 4) (bytes : List Byte)
  | out (addr : BitVec 7) (ep : BitVec 4) (pid : Pid) (bytes : List Byte)
  | inTok (addr : BitVec 7) (ep : BitVec 4)
  | inNoAck (addr : BitVec 7) (ep : BitVec 4)
  | reset
  | suspend
  | resume
  | sof (frame : BitVec 11)
  | frameMissed
deriving DecidableEq, Repr

/-- What the device answers to a token (rules R172, R352). -/
inductive BusAnswer where
  | ack
  | nak
  | stall
  | none
  | data (pid : Pid) (bytes : List Byte)
deriving DecidableEq, Repr

/-- A callback issued to the application, with its arguments (48_scsi.md rule R485; 47_bot_fsm.md rule R455). The
argument `MSCBUF` is the bytes the buffer holds when the callback is issued, as many as `bufsize` says. -/
inductive AppCall where
  | inquiry (lun : Byte)
  | inquiry2 (lun : Byte) (bufsize : Nat)
  | capacity (lun : Byte)
  | testUnitReady (lun : Byte)
  | isWritable (lun : Byte)
  | startStop (lun : Byte) (powerCondition : BitVec 4) (start loadEject : Bool)
  | preventAllow (lun : Byte) (prohibit : BitVec 2) (control : Byte)
  | read10 (lun : Byte) (lba offset : Word) (bufsize : Nat)
  | write10 (lun : Byte) (lba offset : Word) (data : List Byte)
  | scsi (lun : Byte) (cdb : Vector Byte 16) (buf : List Byte) (bufsize : Nat)
  | requestSense (lun : Byte) (buf : List Byte) (bufsize : Nat)
  | complete (lun op : Byte)
deriving DecidableEq, Repr

/-- What a run observes beside the state (00_scope.md rule R17). -/
inductive Output where
  | bus (a : BusAnswer)
  | app (c : AppCall)
  | ctrlReply (bytes : List Byte)
  | core (e : Event)
deriving DecidableEq, Repr

/-- Whose step comes next (00_scope.md rules R13, R14, R17): an input of the outside world, or a turn of an
internal agent. `ramStore` and `setFifo` are the application's and CORE's own software preparing RAM
buffers and FIFO objects, which lie outside the engine (rule R40; 48_scsi.md rule R514). -/
inductive Turn where
  | command (cmd arg0 arg1 : Word)
  | bus (r : BusRec)
  | isr
  | task
  | ramStore (addr : Word) (bytes : List Byte)
  | setFifo (h : Word) (f : Fifo)
deriving DecidableEq, Repr

/-- `FAULT` (60_exceptions.md rule R540), with its info. Recording one is `takeFault` of Machine/Ops.lean. A
step of a faulted state answers the recorded fault, for "no agent takes a further step" (rule R74): safe,
since the spec gives no later state. -/
inductive Fault where
  /-- code 1, raised by an illegal command word or operand (R141, R143, R440); info: the command word; safe -/
  | illegalCmd (cmd : Word)
  /-- code 2, raised by a buffer length or receive size above 1024 (R242, R249); safe -/
  | pmaLen (len : Nat)
  /-- code 3, raised when the cursor would pass `PMA_SIZE` (R242): the source's assert; safe -/
  | pmaExhausted (len : Nat)
  /-- code 4, raised by a buffer offset that is no multiple of the PMA word width (R243, R281 to R286); safe -/
  | pmaAlign (off : Nat)
  /-- code 5, raised by an access at or beyond `PMA_SIZE` (R100, R281 to R286, R354); safe -/
  | pmaRange (off : Nat)
  /-- code 6, raised when no endpoint slot fits (R251): the source's assert; safe -/
  | slotExhausted (ep : Byte)
  /-- code 7, raised by a DCD operation on an endpoint that was not opened (R306); safe -/
  | epNotOpen (ep : Byte)
  /-- code 8, raised by a RAM access outside `RAM_MAP` (R104); safe -/
  | ramUnmapped (addr : Nat)
  /-- code 9, raised by a pop of more bytes than a FIFO holds (R106, R285); safe -/
  | fifoUnderrun (h : Word)
  /-- code 10, raised by a push beyond a FIFO's capacity (R106, R286); safe -/
  | fifoOverrun (h : Word)
  /-- code 11, raised by a post to a full event queue (R62); safe -/
  | evqOverflow (kind : EventKind)
  /-- code 12, raised by a host packet larger than its receive buffer (R355, R356, R358); safe -/
  | rxOverrun (i : Nat)
  /-- code 13, raised when the OUT data of a command that is not READ/WRITE_10 ends early (R437); safe -/
  | undefinedMultiXfer (xferred : Word)
  /-- code 14, raised by an application answer outside its bounds (R486, R515); safe -/
  | appContract (cb : Callback)
deriving DecidableEq, Repr

/-- The numeric codes of rule R540. -/
def Fault.code : Fault → Nat
  | .illegalCmd _         => 1
  | .pmaLen _             => 2
  | .pmaExhausted _       => 3
  | .pmaAlign _           => 4
  | .pmaRange _           => 5
  | .slotExhausted _      => 6
  | .epNotOpen _          => 7
  | .ramUnmapped _        => 8
  | .fifoUnderrun _       => 9
  | .fifoOverrun _        => 10
  | .evqOverflow _        => 11
  | .rxOverrun _          => 12
  | .undefinedMultiXfer _ => 13
  | .appContract _        => 14

/-- Why the model gives a step no meaning. -/
inductive Refusal where
  /-- raised by exec's arm of an instruction that has no meaning yet; safe -/
  | notModelled (mnemonic : String)
  /-- raised by every step of a machine whose parameters break 00_scope.md rule R9, which the model "must
  check at construction and refuse otherwise"; safe -/
  | illegalConfig
deriving DecidableEq, Repr

/-- The engine's state (rule R40), with the RAM and FIFO objects it copies from and to, and the environment
as plain data: whose turn comes next, the BUS steps that fall between accesses, the ISR steps that fall
between operations, the application's answers, and what a run has observed. -/
@[ext]
structure State where
  /-- the parameters of the run; no step changes them -/
  cfg         : Config
  /-- `EPR[0..7]`, of which `0..N_EP-1` exist (R43) -/
  epr         : Vector Half 8
  /-- `CNTR` (R46) -/
  cntr        : Half
  /-- `ISTR` (R47, R48) -/
  istr        : Half
  /-- `DADDR` (R49) -/
  daddr       : Half
  /-- `BTABLE` (R50) -/
  btable      : Half
  /-- `FNR` (R51) -/
  fnr         : Half
  /-- packet memory (R52), in the canonical form of `Memory.wf` -/
  pma         : List Host.Cell
  /-- `pma_cursor` (R53) -/
  pmaCursor   : Nat
  /-- `slot[0..7]` (R54) -/
  slots       : Vector Slot 8
  /-- `xc[epnum][dir]` at index `2*epnum + dir` (R56) -/
  xc          : Vector XferCtx 32
  /-- `ep_busy[epnum][dir]` (R57) -/
  epBusy      : Vector Bool 32
  /-- `ep_stalled[epnum][dir]` (R57) -/
  epStalled   : Vector Bool 32
  /-- `remote_wake_cd` (R58) -/
  remoteWakeCd : Byte
  /-- `pullup` (R59) -/
  pullup      : Bool
  /-- `irq_en` (R60) -/
  irqEn       : Bool
  /-- `EVQ`, head first (R61, R62) -/
  evq         : List Event
  /-- `msc` (R63 to R71) -/
  msc         : Msc
  /-- system RAM (R104), in the canonical form of `Memory.wf`; `MSCBUF` (R72) lies in it -/
  ram         : List Host.Cell
  /-- FIFO objects by handle (R106), each with its bytes: no RAM byte is part of one (log entry 29) -/
  fifos       : List (Nat × Fifo)
  /-- the command interface (R90) -/
  cmd         : Word
  arg0        : Word
  arg1        : Word
  res         : Word
  /-- `FAULT` (R74) -/
  fault       : Option Fault
  /-- the turns to come, first to be taken first -/
  schedule    : List Turn
  /-- for each access to come, the BUS steps that fall just before it (R117 b); none once it is empty -/
  busTape     : List (List BusRec)
  /-- for each operation boundary to come, how many ISR steps are offered there (R117 a); none once it is empty -/
  isrTape     : List Nat
  /-- the application's answers to come (R485) -/
  answers     : List Answer
  /-- MODEL'S OWN: how many answers were taken from `Config.freeAnswer` (log entry 5) -/
  draws       : Nat
  /-- what the run has observed, oldest first (R17) -/
  outputs     : List Output
deriving DecidableEq, Repr

/-- The power-on state (70_reset_and_hazards.md rule R581). The draws of rule R581 take the values of log
entry 4. -/
def State.reset : State where
  cfg := Config.default
  epr := Vector.replicate 8 0
  cntr := 0x0003
  istr := 0
  daddr := 0
  btable := 0
  fnr := 0
  pma := []
  pmaCursor := 64
  slots := Vector.replicate 8 Slot.free
  xc := Vector.replicate 32 XferCtx.zero
  epBusy := Vector.replicate 32 false
  epStalled := Vector.replicate 32 false
  remoteWakeCd := 0
  pullup := false
  irqEn := false
  evq := []
  msc := Msc.cleared
  ram := []
  fifos := []
  cmd := 0
  arg0 := 0
  arg1 := 0
  res := 0
  fault := none
  schedule := []
  busTape := []
  isrTape := []
  answers := []
  draws := 0
  outputs := []

end Sys2Proof.Machine
end

