-- ==== Sys2Proof/Machine/Codes.lean ====
section
/-! DEFINITION. Byte order (20_memory.md rule R107), the block-size codes (42_pma_btable.md rules R242, R246)
and the record layouts (30_encoding.md rules R160, R161). -/

namespace Sys2Proof.Machine

/-- The little-endian 16-bit word of two bytes. -/
def le16 (b0 b1 : Byte) : Half := b1 ++ b0

/-- The little-endian 32-bit word of four bytes. -/
def le32 (b0 b1 b2 b3 : Byte) : Word := b3 ++ b2 ++ b1 ++ b0

/-- The big-endian 32-bit word of four bytes. -/
def be32 (b0 b1 b2 b3 : Byte) : Word := b0 ++ b1 ++ b2 ++ b3

/-- The big-endian 16-bit word of two bytes. -/
def be16 (b0 b1 : Byte) : Half := b0 ++ b1

/-- The bytes of a 16-bit word, ascending significance. -/
def leBytes16 (v : Half) : List Byte := [v.extractLsb' 0 8, v.extractLsb' 8 8]

/-- The bytes of a 32-bit word, ascending significance. -/
def leBytes32 (v : Word) : List Byte :=
  [v.extractLsb' 0 8, v.extractLsb' 8 8, v.extractLsb' 16 8, v.extractLsb' 24 8]

/-- The bytes of a 32-bit word, descending significance. -/
def beBytes32 (v : Word) : List Byte :=
  [v.extractLsb' 24 8, v.extractLsb' 16 8, v.extractLsb' 8 8, v.extractLsb' 0 8]

/-- The bytes of a 16-bit word, descending significance. -/
def beBytes16 (v : Half) : List Byte := [v.extractLsb' 8 8, v.extractLsb' 0 8]

/-- The first `n` bytes of `bs`; a shorter list stands for itself followed by zeros. -/
def takeBytes (n : Nat) (bs : List Byte) : List Byte := (bs ++ List.replicate n 0).take n

/-- `ceil_div` (00_scope.md rule R10). -/
def ceilDiv (a b : Nat) : Nat := (a + b - 1) / b

/-- `aligned(n)` (rule R242): blocks of 2 bytes up to 62, else blocks of 32. -/
def aligned (n : Nat) : Nat := if n ≤ 62 then 2 * ceilDiv n 2 else 32 * ceilDiv n 32

/-- `encode(size)` as a count word with COUNT 0 (rules R246, R249): `BLSIZE` in bit 15, `NUM_BLOCK` in 14:10. -/
def rxSizeCode (size : Nat) : Half :=
  if size ≤ 62 then BitVec.ofNat 16 (ceilDiv size 2 * 1024)
  else 0x8000#16 ||| BitVec.ofNat 16 ((ceilDiv size 32 - 1) * 1024)

/-- `cap` of a count word (rule R246). -/
def rxCap (countw : Half) : Nat :=
  let k := (countw.extractLsb' 10 5).toNat
  if countw.getLsbD 15 then 32 * (k + 1) else 2 * k

/-- `COUNTW.COUNT` (20_memory.md rule R103). -/
def countField (countw : Half) : Nat := (countw.extractLsb' 0 10).toNat

/-- `COUNTW.COUNT <- n`, bits 15:10 kept (rule R247). Only the low 10 bits of `n` fit (log entry 12). -/
def withCount (countw : Half) (n : Nat) : Half :=
  (countw &&& 0xFC00#16) ||| (BitVec.ofNat 16 n &&& 0x03FF#16)

/-- `roundup(n, W)` (43_pma_copy.md): the least multiple of `w` that is `>= n`. -/
def roundUp (n w : Nat) : Nat := w * ceilDiv n w

/-- The word accesses of a copy of `len` bytes with word width `w` (rules R281, R283): offset and number of
bytes of each full word, then of the tail. -/
def wordSpans (w len : Nat) : List (Nat × Nat) :=
  (List.range (len / w)).map (fun k => (w * k, w))
    ++ (if len % w = 0 then [] else [(len - len % w, len % w)])

/-- A CBW from its 31 bytes (rule R160). -/
def decodeCbw (bs : List Byte) : Cbw :=
  let b := fun k => bs.getD k 0
  { signature  := le32 (b 0) (b 1) (b 2) (b 3)
    tag        := le32 (b 4) (b 5) (b 6) (b 7)
    totalBytes := le32 (b 8) (b 9) (b 10) (b 11)
    dir        := b 12
    lun        := b 13
    cmdLen     := b 14
    command    := #v[b 15, b 16, b 17, b 18, b 19, b 20, b 21, b 22, b 23, b 24, b 25, b 26, b 27,
                     b 28, b 29, b 30] }

/-- The 13 bytes of a CSW (rule R161). -/
def cswBytes (c : Csw) : List Byte :=
  leBytes32 c.signature ++ leBytes32 c.tag ++ leBytes32 c.dataResidue ++ [c.status]

/-- `is_in(cbw)`: the host expects IN data (47_bot_fsm.md). -/
def Cbw.isIn (c : Cbw) : Bool := c.dir.getLsbD 7

/-- The LUN: the low nibble of the byte (rule R160). -/
def Cbw.lunNum (c : Cbw) : Byte := c.lun &&& 0x0F#8

/-- `command[0]`, the SCSI opcode (rule R160). -/
def Cbw.op (c : Cbw) : Byte := c.command[0]

/-- `CBW_SIGNATURE` (rule R160). -/
def cbwSignature : Word := 0x43425355#32

/-- `CSW_SIGNATURE` (rule R161). -/
def cswSignature : Word := 0x53425355#32

/-- CSW status codes (rule R161). -/
def statusPassed : Byte := 0
def statusFailed : Byte := 1
def statusPhaseError : Byte := 2

/-- SCSI opcodes (rule R162). -/
def opTestUnitReady : Byte := 0x00
def opRequestSense : Byte := 0x03
def opInquiry : Byte := 0x12
def opModeSense6 : Byte := 0x1A
def opStartStopUnit : Byte := 0x1B
def opPreventAllow : Byte := 0x1E
def opReadFormatCapacity : Byte := 0x23
def opReadCapacity10 : Byte := 0x25
def opRead10 : Byte := 0x28
def opWrite10 : Byte := 0x2A

/-- `BUILTIN` (48_scsi.md rule R488). -/
def builtinOps : List Byte :=
  [opTestUnitReady, opRequestSense, opInquiry, opModeSense6, opStartStopUnit, opPreventAllow,
   opReadFormatCapacity, opReadCapacity10]

/-- The sense triples the engine sets (rule R165). -/
def senseMnp : Sense := ⟨0x02, 0x3A, 0x00⟩
def senseIllegalRequest : Sense := ⟨0x05, 0x20, 0x00⟩
def senseDataProtect : Sense := ⟨0x07, 0x27, 0x00⟩

/-- Transfer-type codes (10_state.md rule R55). -/
def xferControl : BitVec 2 := 0
def xferIso : BitVec 2 := 1
def xferBulk : BitVec 2 := 2
def xferInterrupt : BitVec 2 := 3

/-- STAT codes (rule R44). -/
def statDis : BitVec 2 := 0
def statStall : BitVec 2 := 1
def statNak : BitVec 2 := 2
def statValid : BitVec 2 := 3

/-- EP_TYPE codes (rule R45). -/
def typeBulk : BitVec 2 := 0
def typeControl : BitVec 2 := 1
def typeIso : BitVec 2 := 2
def typeInterrupt : BitVec 2 := 3

end Sys2Proof.Machine
end

