-- ==== Sys2Proof/Machine/Flags.lean ====
section
/-! DEFINITION. The fields and flags of the peripheral registers: the toggle/status multiplexer and the
hardware write (41_epreg_engine.md rules R201, R203), `ISTR` (10_state.md rules R47, R48) and the interrupt
line (60_exceptions.md rule R550). -/

namespace Sys2Proof.Machine

/-! ### Fields of an endpoint register (rule R43) -/

def ctrRx (r : Half) : Bool := r.getLsbD 15
def dtogRx (r : Half) : Bool := r.getLsbD 14
def statRx (r : Half) : BitVec 2 := r.extractLsb' 12 2
def setupBit (r : Half) : Bool := r.getLsbD 11
def epType (r : Half) : BitVec 2 := r.extractLsb' 9 2
def epKind (r : Half) : Bool := r.getLsbD 8
def ctrTx (r : Half) : Bool := r.getLsbD 7
def dtogTx (r : Half) : Bool := r.getLsbD 6
def statTx (r : Half) : BitVec 2 := r.extractLsb' 4 2
def eaField (r : Half) : BitVec 4 := r.extractLsb' 0 4

/-- `STAT` of a direction: TX for IN, RX for OUT. -/
def statOf (d : Dir) (r : Half) : BitVec 2 := match d with | .out => statRx r | .inn => statTx r

/-- The register is of type ISO. -/
def isIso (r : Half) : Bool := epType r == typeIso

/-- The select inputs of the multiplexer (rule R201). `none` is "not changed" or `KEEP`. -/
structure MuxSel where
  statTx   : Option (BitVec 2) := none
  dtogTx   : Option Bool := none
  statRx   : Option (BitVec 2) := none
  dtogRx   : Option Bool := none
  clrCtrTx : Bool := false
  clrCtrRx : Bool := false
  type     : Option (BitVec 2) := none
  kind     : Option Bool := none
  ea       : Option (BitVec 4) := none
deriving DecidableEq, Repr

/-- The bits of `r` in `mask` replaced by those of `v`. -/
def putBits (mask r v : Half) : Half := (r &&& ~~~mask) ||| (v &&& mask)

/-- A writable field of the written word: the replacement, or as read. -/
def keepOr (mask r : Half) (v : Option Half) : Half := v.getD r &&& mask

/-- A toggle field of the written word: the toggle delta, or 0. -/
def toggleTo (mask r : Half) (target : Option Half) : Half := (target.elim 0 (r ^^^ ·)) &&& mask

/-- A field's value at bit position `n` of a register. -/
def placed {w : Nat} (n : Nat) (v : BitVec w) : Half := v.setWidth 16 <<< n

/-- `MUX(r, c)` (rule R201). -/
def mux (r : Half) (c : MuxSel) : Half :=
  keepOr 0x0600 r (c.type.map (placed 9))
    ||| keepOr 0x0100 r (c.kind.map fun k => if k then 0x0100 else 0)
    ||| keepOr 0x000F r (c.ea.map (placed 0))
    ||| (if c.clrCtrRx then 0 else 0x8000#16)
    ||| (if c.clrCtrTx then 0 else 0x0080#16)
    ||| toggleTo 0x0030 r (c.statTx.map (placed 4))
    ||| toggleTo 0x0040 r (c.dtogTx.map fun d => if d then 0x0040 else 0)
    ||| toggleTo 0x3000 r (c.statRx.map (placed 12))
    ||| toggleTo 0x4000 r (c.dtogRx.map fun d => if d then 0x4000 else 0)

/-- The hardware write of `w` over `o` (rule R203): CTR write-0-to-clear, DTOG and STAT toggle, SETUP
read-only, EP_TYPE, EP_KIND and EA writable. -/
def hwWrite (o w : Half) : Half :=
  (o &&& w &&& 0x8080#16) ||| ((o ^^^ w) &&& 0x7070#16) ||| (o &&& 0x0800#16) ||| (w &&& 0x070F#16)

/-- `stat_<d>`: the select that changes the STAT of direction `d`. -/
def selStat (d : Dir) (st : BitVec 2) (c : MuxSel := {}) : MuxSel :=
  match d with | .out => { c with statRx := some st } | .inn => { c with statTx := some st }

/-- `dtog_<d>`: the select that changes the DTOG of direction `d`. -/
def selDtog (d : Dir) (v : Bool) (c : MuxSel := {}) : MuxSel :=
  match d with | .out => { c with dtogRx := some v } | .inn => { c with dtogTx := some v }

/-! ### Interrupt status (rules R47, R48) -/

/-- The smallest index below `n` of a register with a CTR bit set. -/
def firstCtr (n : Nat) (epr : Vector Half 8) : Option Nat :=
  (epr.toList.take n).findIdx? fun r => ctrRx r || ctrTx r

/-- `ISTR` with CTR, DIR and EP_ID recomputed from the endpoint registers (rule R48). -/
def istrOf (n : Nat) (epr : Vector Half 8) (old : Half) : Half :=
  match firstCtr n epr with
  | none   => old &&& 0x7FFF#16
  | some i =>
    (old &&& 0x7F00#16) ||| 0x8000#16
      ||| (if ctrRx (epr[i]?.getD 0) then 0x0010#16 else 0) ||| BitVec.ofNat 16 (i % 16)

/-- `ISTR <- w`: each rc_w0 flag becomes `f & w[f]`, no read-only field changes (rule R47). -/
def istrWrite (old w : Half) : Half := old &&& (w ||| 0x80FF#16)

def istrCtr (v : Half) : Bool := v.getLsbD 15
def istrDir (v : Half) : Bool := v.getLsbD 4
def istrEpId (v : Half) : Nat := (v.extractLsb' 0 4).toNat

/-- The flag masks of `ISTR`, and the mask bits of `CNTR` at the same positions (rules R46, R47). -/
def flagCtr : Half := 0x8000
def flagWkup : Half := 0x1000
def flagSusp : Half := 0x0800
def flagReset : Half := 0x0400
def flagSof : Half := 0x0200
def flagEsof : Half := 0x0100

/-- Control bits of `CNTR` (rule R46). -/
def cntrResume : Half := 0x0010
def cntrFsusp : Half := 0x0008
def cntrLpMode : Half := 0x0004
def cntrPdwn : Half := 0x0002
def cntrFres : Half := 0x0001

/-- A flag or control bit is set. -/
def hasBit (v mask : Half) : Bool := v &&& mask != 0#16

/-- `EPR[i]`. -/
def State.eprAt (s : State) (i : Nat) : Half := s.epr[i]?.getD 0

/-- The peripheral is held in reset: `CNTR.FRES = 1` (44_dcd_ops.md rule R301). -/
def State.fres (s : State) : Bool := hasBit s.cntr cntrFres

/-- The register `i` takes the value `v` if `on`, and `ISTR` is recomputed (rule R48). Only the registers below
`N_EP` exist (rule R41). -/
@[simps]
def State.putEpr (s : State) (on : Bool) (i : Nat) (v : Half) : State :=
  { s with
    epr  := if on && decide (i < s.cfg.nEp) then s.epr.setIfInBounds i v else s.epr
    istr := if on && decide (i < s.cfg.nEp) then istrOf s.cfg.nEp (s.epr.setIfInBounds i v) s.istr
            else s.istr }

/-- The hardware write `EPR[i] <- w` (rule R203). While the peripheral is held in reset every `EPR` is 0
(rule R301), so the write has no effect then. -/
def State.hwWriteEpr (s : State) (i : Nat) (w : Half) : State :=
  s.putEpr (!s.fres) i (hwWrite (s.eprAt i) w)

/-- BUS sets the register `i` to `f` of itself (45_bus_side.md rule R353); no effect while the peripheral is held
in reset (rule R350). -/
def State.busPutEpr (s : State) (i : Nat) (f : Half → Half) : State := s.putEpr (!s.fres) i (f (s.eprAt i))

/-- `ISTR <- w`; no effect while the peripheral is held in reset (rule R301). -/
@[simps]
def State.writeIstr (s : State) (w : Half) : State :=
  { s with istr := if s.fres then s.istr else istrWrite s.istr w }

/-- BUS sets `ISTR` flags, of the rc_w0 ones (45_bus_side.md rule R361). -/
@[simps]
def State.raiseFlag (s : State) (flag : Half) : State := { s with istr := s.istr ||| (flag &&& 0x7F00#16) }

/-- `CNTR <- w`, reserved bits 7:5 read 0 (rule R46). `FRES = 1` resets `EPR`, `ISTR` and `DADDR` (rule R301). -/
@[simps]
def State.writeCntr (s : State) (w : Half) : State :=
  { s with
    cntr  := w &&& 0xFF1F#16
    epr   := if hasBit w cntrFres then Vector.replicate 8 0 else s.epr
    istr  := if hasBit w cntrFres then 0 else s.istr
    daddr := if hasBit w cntrFres then 0 else s.daddr }

/-- `DADDR <- w`, bits 15:8 reserved 0 (rule R49); 0 while held in reset (rule R301). -/
@[simps]
def State.writeDaddr (s : State) (w : Half) : State :=
  { s with daddr := if s.fres then s.daddr else w &&& 0x00FF#16 }

/-- `BTABLE <- w`, bits 2:0 reserved 0 (rule R50). -/
@[simps]
def State.writeBtable (s : State) (w : Half) : State := { s with btable := w &&& 0xFFF8#16 }

/-- `irq_line` (rule R550): an `ISTR` flag whose `CNTR` mask bit, at the same position, is set. -/
def State.irqLine (s : State) : Bool := s.istr &&& s.cntr &&& 0xFF00#16 != 0#16

/-- The ISR agent is enabled (rule R550). A faulted state takes no step at all. -/
def State.isrEnabled (s : State) : Bool := s.irqLine && s.irqEn

end Sys2Proof.Machine
end

