-- ==== Sys2Proof/Machine/Ops.lean ====
section
/-! DEFINITION. The operations every meaning is built from: memory, the engine operation `Op` (the state, or a
fault together with the effects before it), taking a fault, the event queue, the application's answers. -/

namespace Sys2Proof.Machine

/-! ### Memory as a list of cells -/

/-- What a byte that nothing has written reads as (log entry 3; rules R52 and R72 make it a draw). -/
def unlistedByte : Byte := 0x00#8

/-- The canonical form: addresses strictly rising, no entry equal to what an unlisted address reads as. -/
abbrev Memory.wf (m : List Host.Cell) : Prop :=
  m.Pairwise (fun c d => c.1 < d.1) ∧ ∀ c ∈ m, c.2 ≠ unlistedByte

/-- One byte of memory. -/
def Memory.read : List Host.Cell → Nat → Byte
  | [], _ => unlistedByte
  | (a, b) :: m, k => if a = k then b else Memory.read m k

/-- Memory with the byte at `k` equal to `v`. -/
def Memory.write : List Host.Cell → Nat → Byte → List Host.Cell
  | [], k, v => if v = unlistedByte then [] else [(k, v)]
  | (a, b) :: m, k, v =>
    if a < k then (a, b) :: Memory.write m k v
    else if a = k then (if v = unlistedByte then m else (k, v) :: m)
    else (if v = unlistedByte then (a, b) :: m else (k, v) :: (a, b) :: m)

/-! ### Engine operations -/

/-- An engine operation: from a state to a value and a state, or to a fault and the state with the effects
that came before it (60_exceptions.md rule R541). -/
abbrev Op (α : Type) := EStateM Fault State α

/-- `raise Fault(code, info)` (00_scope.md rule R11): no later access of the operation is made. -/
def raise {α : Type} (f : Fault) : Op α := fun s => .error f s

/-- A value of the state. -/
def peek {α : Type} (f : State → α) : Op α := fun s => .ok (f s) s

/-- A change of the state. -/
def change (f : State → State) : Op Unit := fun s => .ok () (f s)

/-- An operation for each element, in order. -/
def forEach {α : Type} : List α → (α → Op Unit) → Op Unit
  | [], _ => pure ()
  | a :: as, f => do f a; forEach as f

/-- An operation performed only if `b` holds. -/
def onlyIf (b : Bool) (op : Op Unit) : Op Unit := if b then op else pure ()

/-- TAKING A FAULT (rules R74, R541): `FAULT` is recorded and everything else stays as it is at that point.
There is no handler, no saved register and no return (rules R541, R554). -/
@[simps]
def takeFault (f : Fault) (s : State) : State := { s with fault := some f }

/-- One step of the engine that performs `op`. A fault it raises is recorded in the next state. A faulted
machine takes no step (rule R74), and an illegal parameter set is refused (rule R9). -/
def perform (op : Op Unit) (s : State) : Host.Outcome State Fault Refusal :=
  match s.fault with
  | some f => .fault f
  | none =>
    if s.cfg.legal then
      match op s with
      | .ok _ t    => .next t
      | .error f t => .next (takeFault f t)
    else .refused .illegalConfig

/-- `RES <- r` (00_scope.md rule R12). -/
def setRes (r : Word) : Op Unit := change fun s => { s with res := r }

/-- Appends to what the run has observed (rule R17). -/
def emit (o : Output) : Op Unit := change fun s => { s with outputs := s.outputs ++ [o] }

/-- `post(ev)` (10_state.md rule R62). -/
def post (ev : Event) : Op Unit := do
  let s ← peek id
  if s.evq.length < s.cfg.evqDepth then change fun s => { s with evq := s.evq ++ [ev] }
  else raise (.evqOverflow ev.kind)

/-! ### Packet memory (20_memory.md rule R100) and system RAM (rule R104), byte by byte -/

/-- `PMA8(a)`. -/
def pmaRead8 (a : Nat) : Op Byte := do
  let s ← peek id
  if a < s.cfg.pmaSize then pure (Memory.read s.pma a) else raise (.pmaRange a)

/-- `PMA8(a) <- b`. -/
def pmaWrite8 (a : Nat) (b : Byte) : Op Unit := do
  let s ← peek id
  if a < s.cfg.pmaSize then change fun s => { s with pma := Memory.write s.pma a b }
  else raise (.pmaRange a)

/-- `n` bytes from `a` up. -/
def pmaReadBytes : Nat → Nat → Op (List Byte)
  | _, 0 => pure []
  | a, n + 1 => do
    let b ← pmaRead8 a
    let bs ← pmaReadBytes (a + 1) n
    pure (b :: bs)

/-- Bytes stored from `a` up. -/
def pmaWriteBytes : Nat → List Byte → Op Unit
  | _, [] => pure ()
  | a, b :: bs => do pmaWrite8 a b; pmaWriteBytes (a + 1) bs

/-- A 16-bit word of the PMA (rule R107). -/
def pmaHalf (a : Nat) : Op Half := do
  let b0 ← pmaRead8 a
  let b1 ← pmaRead8 (a + 1)
  pure (le16 b0 b1)

/-- `a` lies in `RAM_MAP`. -/
def Config.mapped (c : Config) (a : Nat) : Bool :=
  c.ramMap.any (·.holds a)

/-- One byte of RAM. -/
def ramRead8 (a : Nat) : Op Byte := do
  let s ← peek id
  if Config.mapped s.cfg a then pure (Memory.read s.ram a) else raise (.ramUnmapped a)

/-- One byte stored in RAM. -/
def ramWrite8 (a : Nat) (b : Byte) : Op Unit := do
  let s ← peek id
  if Config.mapped s.cfg a then change fun s => { s with ram := Memory.write s.ram a b }
  else raise (.ramUnmapped a)

/-- `MemRead(addr, n)` (00_scope.md rule R11). -/
def memRead : Nat → Nat → Op (List Byte)
  | _, 0 => pure []
  | a, n + 1 => do
    let b ← ramRead8 a
    let bs ← memRead (a + 1) n
    pure (b :: bs)

/-- `MemWrite(addr, n, v)` (rule R11). -/
def memWrite : Nat → List Byte → Op Unit
  | _, [] => pure ()
  | a, b :: bs => do ramWrite8 a b; memWrite (a + 1) bs

/-- `MSCBUF[off .. off+n-1]` (10_state.md rule R72). -/
def stagingRead (off n : Nat) : Op (List Byte) := do
  let base ← peek (·.cfg.mscBufAddr)
  memRead (base + off) n

/-- `MSCBUF[off ..] <- bytes`. -/
def stagingWrite (off : Nat) (bs : List Byte) : Op Unit := do
  let base ← peek (·.cfg.mscBufAddr)
  memWrite (base + off) bs

/-! ### FIFO objects (rule R106), whose bytes are kept apart from `ram` (log entry 29) -/

/-- The FIFO a handle names. A handle that names none has capacity 0 and is empty (log entry 13). -/
def fifoFind : List (Nat × Fifo) → Nat → Fifo
  | [], _ => ⟨0, []⟩
  | (h, f) :: m, k => if h = k then f else fifoFind m k

/-- The FIFO `f` under the handle `k`, handles strictly rising. -/
def fifoPut : List (Nat × Fifo) → Nat → Fifo → List (Nat × Fifo)
  | [], k, f => [(k, f)]
  | (h, g) :: m, k, f =>
    if h < k then (h, g) :: fifoPut m k f
    else if h = k then (k, f) :: m
    else (k, f) :: (h, g) :: m

/-- The FIFO of a handle in a state. -/
def State.fifo (s : State) (h : Word) : Fifo := fifoFind s.fifos h.toNat

/-- `FifoPop(h, n)`. -/
def fifoPop (h : Word) (n : Nat) : Op (List Byte) := do
  let f ← peek (·.fifo h)
  if f.q.length < n then raise (.fifoUnderrun h)
  else do
    change fun s => { s with fifos := fifoPut s.fifos h.toNat { f with q := f.q.drop n } }
    pure (f.q.take n)

/-- `FifoPush(h, bytes)`. -/
def fifoPush (h : Word) (bs : List Byte) : Op Unit := do
  let f ← peek (·.fifo h)
  if f.cap < f.q.length + bs.length then raise (.fifoOverrun h)
  else change fun s => { s with fifos := fifoPut s.fifos h.toNat { f with q := f.q ++ bs } }

/-! ### Software tables -/

/-- The index of a pair (epnum, dir) in the tables of 16 by 2 entries. -/
def ctxIx (n : BitVec 4) (d : Dir) : Nat := 2 * n.toNat + (match d with | .out => 0 | .inn => 1)

/-- Bit 7 of an ep_addr: 1 is IN (00_scope.md rule R16). -/
def epDir (ep : Byte) : Dir := if ep.getLsbD 7 then .inn else .out

/-- Bits 3:0 of an ep_addr; bits 6:4 are read by neither this nor `epDir`. -/
def epNum (ep : Byte) : BitVec 4 := ep.setWidth 4

/-- The table index of an ep_addr. -/
def epIx (ep : Byte) : Nat := ctxIx (epNum ep) (epDir ep)

/-- `xc[epnum][dir]`. -/
def State.ctx (s : State) (n : BitVec 4) (d : Dir) : XferCtx := s.xc[ctxIx n d]?.getD XferCtx.zero

/-- `xc[epnum][dir]` changed by `f`. -/
@[simps]
def State.updCtx (s : State) (n : BitVec 4) (d : Dir) (f : XferCtx → XferCtx) : State :=
  { s with xc := s.xc.setIfInBounds (ctxIx n d) (f (s.ctx n d)) }

/-- `slot[i]`. -/
def State.slotAt (s : State) (i : Nat) : Slot := s.slots[i]?.getD Slot.free

/-- `slot[i] <- v`. -/
@[simps]
def State.putSlot (s : State) (i : Nat) (v : Slot) : State := { s with slots := s.slots.setIfInBounds i v }

/-- `ep_busy[ep]`. -/
def State.busyAt (s : State) (ep : Byte) : Bool := s.epBusy[epIx ep]?.getD false

/-- `ep_stalled[ep]`. -/
def State.stalledAt (s : State) (ep : Byte) : Bool := s.epStalled[epIx ep]?.getD false

/-- `ep_busy[ep] <- b`. -/
@[simps]
def State.putBusy (s : State) (ep : Byte) (b : Bool) : State :=
  { s with epBusy := s.epBusy.setIfInBounds (epIx ep) b }

/-- `ep_stalled[ep] <- b`. -/
@[simps]
def State.putStalled (s : State) (ep : Byte) (b : Bool) : State :=
  { s with epStalled := s.epStalled.setIfInBounds (epIx ep) b }

/-- `msc` changed by `f`. -/
@[simps]
def State.updMsc (s : State) (f : Msc → Msc) : State := { s with msc := f s.msc }

/-- `set_sense(key, asc, ascq)` (48_scsi.md rule R481). -/
def setSenseTo (v : Sense) : Op Unit := change (·.updMsc fun m => { m with sense := v })

/-! ### The application agent (rule R485) -/

/-- The next answer of APP: the next listed one, else a free value (log entry 5). -/
def nextAnswer : Op Answer := fun s =>
  match s.answers with
  | a :: rest => .ok a { s with answers := rest }
  | []        => .ok (Config.freeAnswer s.draws) { s with draws := s.draws + 1 }

/-- A sense triple set during a callback (rule R485). -/
def applySense (v : Option Sense) : Op Unit :=
  match v with
  | some v => setSenseTo v
  | none   => pure ()

/-- `call APP.f(args) -> r`: the callback is observed, and a sense triple set during it is applied before the
answer is used (rule R485). -/
def ask (c : AppCall) : Op Answer := do
  emit (.app c)
  let a ← nextAnswer
  applySense a.sense
  pure a

end Sys2Proof.Machine
end

