-- ==== Sys2Proof/Machine/Bus.lean ====
section
/-! DEFINITION. The BUS agent: the peripheral's response to the host (45_bus_side.md). One BUS step is one
whole transaction or signal, atomic at the peripheral (rule R352). -/

namespace Sys2Proof.Machine

/-- `bt(i, b)`: the PMA offset of descriptor `b` of endpoint `i` (20_memory.md rule R101). -/
def btAddr (c : Config) (i : Nat) (b : Bool) : Nat := c.btableBase + 8 * i + (if b then 4 else 0)

/-- The register a token selects (rule R351): the smallest index with the endpoint number and, for the
token's direction, `STAT != DIS`. -/
def State.selectEp (s : State) (ep : BitVec 4) (d : Dir) : Option Nat :=
  (s.epr.toList.take s.cfg.nEp).findIdx? fun r => eaField r == ep && statOf d r != statDis

/-- A token is for this device: `EF = 1` and its address is `ADD` (rule R351). -/
def State.addressed (s : State) (addr : BitVec 7) : Bool :=
  s.daddr.getLsbD 7 && s.daddr.setWidth 7 == addr

/-- `hw_buf(d)`: the buffer the peripheral uses for an ISO transaction (rule R360). -/
def hwBuf (c : Config) (dtog : Bool) : Bool :=
  match c.isoHwBuf with
  | .dtog    => dtog
  | .notDtog => !dtog

/-- The PID of a data toggle. -/
def pidOf (dtog : Bool) : Pid := if dtog then .data1 else .data0

/-- BUS sets the register `i` to `f` of itself, and `ISTR` is recomputed (rule R353). -/
def busSetEpr (i : Nat) (f : Half → Half) : Op Unit := change (·.busPutEpr i f)

/-- `IN` (rule R354) and, with `ackLost`, `IN_NOACK` (rule R357). -/
def busIn (i : Nat) (ackLost : Bool) : Op Unit := do
  let s ← peek id
  let r := s.eprAt i
  if statTx r == statStall then emit (.bus .stall)
  else if statTx r == statNak then emit (.bus .nak)
  else do
    let e := btAddr s.cfg i (isIso r && hwBuf s.cfg (dtogTx r))
    let addr ← pmaHalf e
    let countw ← pmaHalf (e + 2)
    let n := countField countw
    if s.cfg.pmaSize < addr.toNat + n then raise (.pmaRange (addr.toNat + n - 1))
    else do
      let bytes ← pmaReadBytes addr.toNat n
      emit (.bus (.data (if isIso r then .data0 else pidOf (dtogTx r)) bytes))
      if ackLost && !isIso r then pure ()
      else busSetEpr i fun r =>
        let flipped := (r ^^^ 0x0040#16) ||| 0x0080#16
        if isIso r then flipped else putBits 0x0030 flipped 0x0020

/-- `OUT` (rule R355). A buffer that lies over the BTABLE is written like any other, with `ADDR(b)` read before and
`COUNTW(b)` read again after the bytes (log entry 30). -/
def busOut (i : Nat) (pid : Pid) (bytes : List Byte) : Op Unit := do
  let s ← peek id
  let r := s.eprAt i
  if statRx r == statStall then emit (.bus .stall)
  else if statRx r == statNak then emit (.bus .nak)
  else do
    let e := btAddr s.cfg i (if isIso r then hwBuf s.cfg (dtogRx r) else true)
    let addr ← pmaHalf e
    let countw ← pmaHalf (e + 2)
    if rxCap countw < bytes.length then raise (.rxOverrun i)
    else if !isIso r && pid != pidOf (dtogRx r) then emit (.bus .ack)
    else do
      pmaWriteBytes addr.toNat bytes
      let countw' ← pmaHalf (e + 2)
      pmaWriteBytes (e + 2) (leBytes16 (withCount countw' bytes.length))
      busSetEpr i fun r =>
        let done := putBits 0x0800 ((r ^^^ 0x4000#16) ||| 0x8000#16) 0
        if isIso r then done else putBits 0x3000 done 0x2000
      emit (.bus (if isIso r then .none else .ack))

/-- `SETUP` (rule R356). A buffer that lies over the BTABLE is written as in `busOut` (log entry 30). -/
def busSetup (i : Nat) (bytes : List Byte) : Op Unit := do
  let s ← peek id
  let r := s.eprAt i
  if epType r != typeControl then emit (.bus .none)
  else do
    let e := btAddr s.cfg i true
    let addr ← pmaHalf e
    let countw ← pmaHalf (e + 2)
    if rxCap countw < bytes.length then raise (.rxOverrun i)
    else do
      pmaWriteBytes addr.toNat bytes
      let countw' ← pmaHalf (e + 2)
      pmaWriteBytes (e + 2) (leBytes16 (withCount countw' bytes.length))
      busSetEpr i fun r => putBits 0x3000 (r ||| 0xC800#16) 0x2000
      emit (.bus .ack)

/-- A token: match it (rule R351), then the transaction on the selected register. -/
def busToken (addr : BitVec 7) (ep : BitVec 4) (d : Dir) (f : Nat → Op Unit) : Op Unit := do
  let s ← peek id
  if s.fres || !s.addressed addr then emit (.bus .none)
  else match s.selectEp ep d with
    | none   => emit (.bus .none)
    | some i => f i

/-- A signal: no effect while `CNTR.FRES = 1` (rule R350). -/
def busSignal (f : State → State) : Op Unit := change fun s => if s.fres then s else f s

/-- USB bus reset (rule R362). -/
@[simps]
def State.busReset (s : State) : State :=
  { s with
    epr   := Vector.replicate 8 0
    daddr := 0
    istr  := istrOf s.cfg.nEp (Vector.replicate 8 0) (s.istr ||| flagReset) }

/-- `SOF(frame)` (rule R361). The bits of `FNR` above the frame number stay (log entry 4). -/
@[simps]
def State.busSof (s : State) (frame : BitVec 11) : State :=
  { s with fnr := putBits 0x07FF s.fnr (frame.setWidth 16), istr := s.istr ||| flagSof }

/-- One BUS step. The agent is enabled iff `pullup = true` (rule R350), and a packet holds at most 1023 bytes
(rule R352): a record that breaks either is no BUS step and does nothing. -/
def busStep (r : BusRec) : Op Unit := do
  let s ← peek id
  if !s.pullup then pure ()
  else match r with
    | .setup addr ep bytes =>
      if 1023 < bytes.length then pure () else busToken addr ep .out fun i => busSetup i bytes
    | .out addr ep pid bytes =>
      if 1023 < bytes.length then pure () else busToken addr ep .out fun i => busOut i pid bytes
    | .inTok addr ep   => busToken addr ep .inn fun i => busIn i false
    | .inNoAck addr ep => busToken addr ep .inn fun i => busIn i true
    | .reset           => busSignal (·.busReset)
    | .suspend         => busSignal (·.raiseFlag flagSusp)
    | .resume          => busSignal (·.raiseFlag flagWkup)
    | .sof frame       => busSignal (·.busSof frame)
    | .frameMissed     => busSignal (·.raiseFlag flagEsof)

end Sys2Proof.Machine
end

