-- ==== Sys2Proof/Machine/Access.lean ====
section
/-! DEFINITION. The accesses of the engine to the peripheral registers and to packet memory. A BUS step may
fall just before each of them (20_memory.md rule R117 b, R121): `busWindow`. -/

namespace Sys2Proof.Machine

/-- The BUS steps that fall just before an access: the next entry of the tape, none once it is empty. -/
def busWindow : Op Unit := fun s =>
  match s.busTape with
  | []        => .ok () s
  | w :: rest => forEach w busStep { s with busTape := rest }

/-- A read of a peripheral register (rule R110). -/
def readReg {α : Type} (f : State → α) : Op α := do busWindow; peek f

/-- A write of a peripheral register (rule R110). -/
def writeReg (f : State → State) : Op Unit := do busWindow; change f

/-- An endpoint register index: `ILLEGAL_CMD` at or above `N_EP` (30_encoding.md rule R141). -/
def checkIdx (i : Nat) : Op Unit := do
  let s ← peek id
  if i < s.cfg.nEp then pure () else raise (.illegalCmd s.cmd)

/-- The read access `r <- EPR[i]`. -/
def readEpr (i : Nat) : Op Half := do checkIdx i; readReg (·.eprAt i)

/-- The write access `EPR[i] <- w` (41_epreg_engine.md rule R203). -/
def writeEpr (i : Nat) (w : Half) : Op Unit := do checkIdx i; writeReg (·.hwWriteEpr i w)

/-- The read-modify-write primitive `P(i, c)`: two accesses (rule R202). -/
def rmwEpr (i : Nat) (c : MuxSel) : Op Unit := do
  let r ← readEpr i
  writeEpr i (mux r c)

/-- A read of `ISTR`. -/
def readIstr : Op Half := readReg (·.istr)

/-- `ISTR <- ~F`: clears the flag `F` only (46_isr.md). -/
def clearFlag (flag : Half) : Op Unit := writeReg (·.writeIstr (~~~flag))

/-- A read of `CNTR`. -/
def readCntr : Op Half := readReg (·.cntr)

/-- `CNTR` bits in `mask` set to those of `v`: a read and a write access. -/
def updateCntr (mask v : Half) : Op Unit := do
  let c ← readCntr
  writeReg (·.writeCntr (putBits mask c v))

/-- The PMA word width `W` in bytes (rule R110). -/
def Config.pmaWidth (c : Config) : Nat := if c.bus32 then 4 else 2

/-- One PMA word read of `n` bytes. -/
def pmaReadWord (a n : Nat) : Op (List Byte) := do busWindow; pmaReadBytes a n

/-- One PMA word write. -/
def pmaWriteWord (a : Nat) (bs : List Byte) : Op Unit := do busWindow; pmaWriteBytes a bs

/-- One PMA access that reads a 16-bit field. A 32-bit access reads the same bytes (rule R102). -/
def readHalf (a : Nat) : Op Half := do busWindow; pmaHalf a

/-- A BTABLE field write: 16-bit bus, one 16-bit write of the field; 32-bit bus, a read and a write of the
descriptor word that keeps the other half (rules R102, R108; 42_pma_btable.md rule R244). -/
def btWrite (i : Nat) (b count : Bool) (v : Half) : Op Unit := do
  let c ← peek (·.cfg)
  let e := btAddr c i b
  if c.bus32 then do
    let w ← pmaReadWord e 4
    pmaWriteWord e (if count then w.take 2 ++ leBytes16 v else leBytes16 v ++ w.drop 2)
  else pmaWriteWord (if count then e + 2 else e) (leBytes16 v)

end Sys2Proof.Machine
end

