-- ==== Sys2Proof/Machine/Operands.lean ====
section
/-! DEFINITION. Operand forms as the meanings read them: the checks of 30_encoding.md rule R141, the `EPR_MUX`
control word (rule R145), and the maps from a direction, a type or a toggle to what an access names. -/

namespace Sys2Proof.Machine

/-- `ILLEGAL_CMD` unless `ok` (rules R141, R143): the info is the command word. -/
def checkOperand (ok : Bool) : Op Unit := do
  let s ← peek id
  if ok then pure () else raise (.illegalCmd s.cmd)

/-- An ep_addr operand: bits 6:4 must be 0 (rule R141). -/
def checkEp (ep : Byte) : Op Unit := checkOperand (epOk ep)

/-- The select inputs of `EPR_MUX` decoded from `IMM` (rule R145). -/
def MuxSel.ofCtl (ctl : Half) : MuxSel where
  statTx   := if ctl.getLsbD 2 then some (ctl.extractLsb' 0 2) else none
  dtogTx   := if ctl.getLsbD 4 then some (ctl.getLsbD 3) else none
  statRx   := if ctl.getLsbD 10 then some (ctl.extractLsb' 8 2) else none
  dtogRx   := if ctl.getLsbD 12 then some (ctl.getLsbD 11) else none
  clrCtrTx := ctl.getLsbD 13
  clrCtrRx := ctl.getLsbD 14

/-- The buffer descriptor of a non-ISO direction: 0 for IN, 1 for OUT (20_memory.md rule R101). -/
def bufOf : Dir → Bool
  | .inn => false
  | .out => true

/-- `iso_sw_buf(d)`: the buffer the engine uses for an ISO transaction (44_dcd_ops.md rule R307). -/
def isoSwBuf (dtog : Bool) : Bool := !dtog

/-- `TYPE_MAP` (44_dcd_ops.md rule R305): control and bulk carry the CONTROL register type. -/
def typeMap (ty : BitVec 2) : BitVec 2 :=
  if ty == xferIso then typeIso else if ty == xferInterrupt then typeInterrupt else typeControl

/-- `slot.allocated[dir]` (10_state.md rule R54). -/
def Slot.alloc (v : Slot) : Dir → Bool
  | .out => v.allocOut
  | .inn => v.allocIn

/-- The slot with `allocated[dir]` set. -/
def Slot.take (v : Slot) (n : BitVec 4) (d : Dir) (ty : BitVec 2) : Slot where
  epNum    := n.setWidth 8
  epType   := ty.setWidth 8
  allocOut := v.allocOut || d == .out
  allocIn  := v.allocIn || d == .inn

/-- The direction is already open in this slot (42_pma_btable.md rule R251). -/
def Slot.isOpen (n : BitVec 4) (d : Dir) (ty : BitVec 2) (v : Slot) : Bool :=
  v.alloc d && v.epNum == n.setWidth 8 && v.epType == ty.setWidth 8

/-- The direction fits into this slot (rules R250, R251). -/
def Slot.fits (n : BitVec 4) (d : Dir) (ty : BitVec 2) (v : Slot) : Bool :=
  !v.alloc d && (ty != xferIso || !v.alloc d.opp)
    && (v.epNum == 0xFF#8 || v.epNum == n.setWidth 8)
    && (v.epType == 0xFF#8 || v.epType == ty.setWidth 8)

/-- `opened(epnum, dir)` (44_dcd_ops.md rule R306). -/
def State.opened (s : State) (n : BitVec 4) (d : Dir) : Bool :=
  let i := (s.ctx n d).epIdx.toNat
  decide (i < s.cfg.nEp) && (s.slotAt i).alloc d && (s.slotAt i).epNum == n.setWidth 8

/-- The open check: `EP_NOT_OPEN` before any access (rule R306). -/
def checkOpen (ep : Byte) : Op Unit := do
  let s ← peek id
  if s.opened (epNum ep) (epDir ep) then pure () else raise (.epNotOpen ep)

end Sys2Proof.Machine
end

