-- ==== Sys2Proof/Machine/Pma.lean ====
section
/-! DEFINITION. The PMA allocator, the BTABLE accessors and the slot allocator (42_pma_btable.md). -/

namespace Sys2Proof.Machine

/-! ### Allocator -/

/-- `PMA_RESET`'s cursor (rule R241). -/
def pmaFirst (c : Config) : Nat := c.btableBase + 8 * c.nEp

/-- `check_align(x)` (rule R243). -/
def checkAlign (x : Nat) : Op Unit := do
  let c ← peek (·.cfg)
  if c.bus32 && x % 4 != 0 then raise (.pmaAlign x) else pure ()

/-- `PMA_ALLOC` (rule R242): the packed offset or offsets. -/
def pmaAllocOp (len : Nat) (dbuf : Bool) : Op Word := do
  let s ← peek id
  let a := aligned len
  if 1024 < len then raise (.pmaLen len)
  else if s.cfg.pmaSize < s.pmaCursor + (if dbuf then 2 * a else a) then raise (.pmaExhausted len)
  else do
    change fun s => { s with pmaCursor := s.pmaCursor + (if dbuf then 2 * a else a) }
    checkAlign s.pmaCursor
    if dbuf then do
      checkAlign (s.pmaCursor + a)
      pure (BitVec.ofNat 16 (s.pmaCursor + a) ++ BitVec.ofNat 16 s.pmaCursor)
    else pure (BitVec.ofNat 32 s.pmaCursor)

/-- `PMA_ALLOC len, dbuf` (rule R242). -/
def execPmaAlloc (dbuf : Bool) (len : Half) (s : State) : Host.Outcome State Fault Refusal :=
  perform (do let v ← pmaAllocOp len.toNat dbuf; setRes v) s

/-- `PMA_RESET` (rule R241). -/
def execPmaReset (s : State) : Host.Outcome State Fault Refusal :=
  perform (change fun s => { s with pmaCursor := pmaFirst s.cfg }) s

/-! ### BTABLE accessors -/

/-- `BT_SET_ADDR` (rule R244). -/
def btSetAddrOp (i : Nat) (b : Bool) (a : Half) : Op Unit := do checkIdx i; btWrite i b false a

/-- `BT_GET_ADDR` (rule R245). -/
def btGetAddrOp (i : Nat) (b : Bool) : Op Half := do
  checkIdx i
  let c ← peek (·.cfg)
  readHalf (btAddr c i b)

/-- `BT_SET_COUNT` (rule R247): bits 15:10 of the count word are kept. -/
def btSetCountOp (i : Nat) (b : Bool) (n : Nat) : Op Unit := do
  checkIdx i
  let c ← peek (·.cfg)
  let e := btAddr c i b
  if c.bus32 then do
    let w ← pmaReadWord e 4
    pmaWriteWord e (w.take 2 ++ leBytes16 (withCount (le16 (w.getD 2 0) (w.getD 3 0)) n))
  else do
    let v ← readHalf (e + 2)
    pmaWriteWord (e + 2) (leBytes16 (withCount v n))

/-- `BT_GET_COUNT` (rule R248). -/
def btGetCountOp (i : Nat) (b : Bool) : Op Nat := do
  checkIdx i
  let c ← peek (·.cfg)
  let v ← readHalf (btAddr c i b + 2)
  pure (countField v)

/-- `BT_SET_RX_BUFSIZE` (rule R249). -/
def btSetRxBufsizeOp (i : Nat) (b : Bool) (size : Nat) : Op Unit := do
  checkIdx i
  if 1024 < size then raise (.pmaLen size) else btWrite i b true (rxSizeCode size)

/-- `BT_SET_ADDR #i, b, a` (rule R244). -/
def execBtSetAddr (i : BitVec 4) (b : Bool) (a : Half) (s : State) : Host.Outcome State Fault Refusal :=
  perform (btSetAddrOp i.toNat b a) s

/-- `BT_GET_ADDR #i, b` (rule R245). -/
def execBtGetAddr (i : BitVec 4) (b : Bool) (s : State) : Host.Outcome State Fault Refusal :=
  perform (do let a ← btGetAddrOp i.toNat b; setRes (a.setWidth 32)) s

/-- `BT_SET_COUNT #i, b, n` (rule R247). -/
def execBtSetCount (i : BitVec 4) (b : Bool) (n : BitVec 10) (s : State) : Host.Outcome State Fault Refusal :=
  perform (btSetCountOp i.toNat b n.toNat) s

/-- `BT_GET_COUNT #i, b` (rule R248). -/
def execBtGetCount (i : BitVec 4) (b : Bool) (s : State) : Host.Outcome State Fault Refusal :=
  perform (do let n ← btGetCountOp i.toNat b; setRes (BitVec.ofNat 32 n)) s

/-- `BT_SET_RX_BUFSIZE #i, b, size` (rule R249). -/
def execBtSetRxBufsize (i : BitVec 4) (b : Bool) (size : Half) (s : State) :
    Host.Outcome State Fault Refusal :=
  perform (btSetRxBufsizeOp i.toNat b size.toNat) s

/-! ### Slot allocator -/

/-- The slot of first fit, in ascending index: the one where the direction is already open, or that fits it
(rule R251). -/
def State.firstSlot (s : State) (n : BitVec 4) (d : Dir) (ty : BitVec 2) : Option Nat :=
  (s.slots.toList.take s.cfg.nEp).findIdx? fun v => v.isOpen n d ty || v.fits n d ty

/-- `EP_ALLOC` (rule R251). -/
def epAllocOp (ep : Byte) (ty : BitVec 2) : Op Nat := do
  let s ← peek id
  match s.firstSlot (epNum ep) (epDir ep) ty with
  | none   => raise (.slotExhausted ep)
  | some i => do
    if (s.slotAt i).isOpen (epNum ep) (epDir ep) ty then pure i
    else do
      change fun s => s.putSlot i ((s.slotAt i).take (epNum ep) (epDir ep) ty)
      pure i

/-- `EP_ALLOC ep_addr, type` (rule R251). -/
def execEpAlloc (ep : Byte) (ty : BitVec 2) (s : State) : Host.Outcome State Fault Refusal :=
  perform (do checkEp ep; let i ← epAllocOp ep ty; setRes (BitVec.ofNat 32 i)) s

end Sys2Proof.Machine
end

