-- ==== Sys2Proof/Machine/Copy.lean ====
section
/-! DEFINITION. The packet memory copies (43_pma_copy.md), word by word. -/

namespace Sys2Proof.Machine

/-- The alignment and range checks made before the first access (rules R281, R283). -/
def checkSpan (off len : Nat) : Op Unit := do
  let c ← peek (·.cfg)
  if off % Config.pmaWidth c != 0 then raise (.pmaAlign off)
  else if c.pmaSize < off + roundUp len (Config.pmaWidth c) then
    raise (.pmaRange (off + roundUp len (Config.pmaWidth c) - 1))
  else pure ()

/-- `PMA_WRITE` (rule R281): the unused bytes of the tail word are written 0. -/
def pmaWriteOp (off ram len : Nat) : Op Unit := do
  checkSpan off len
  let w ← peek fun s => Config.pmaWidth s.cfg
  forEach (wordSpans w len) fun p => do
    let bs ← memRead (ram + p.1) p.2
    pmaWriteWord (off + p.1) (takeBytes w bs)

/-- `PMA_READ` (rule R283): whole-word reads, of which exactly `len` bytes are stored. -/
def pmaReadOp (off ram len : Nat) : Op Unit := do
  checkSpan off len
  let w ← peek fun s => Config.pmaWidth s.cfg
  forEach (wordSpans w len) fun p => do
    let bs ← pmaReadWord (off + p.1) w
    memWrite (ram + p.1) (bs.take p.2)

/-- The bytes of a list of word reads, in PMA order. -/
def readSpans (off w : Nat) : List (Nat × Nat) → Op (List Byte)
  | [] => pure []
  | p :: ps => do
    let bs ← pmaReadWord (off + p.1) w
    let rest ← readSpans off w ps
    pure (bs.take p.2 ++ rest)

/-- `PMA_WRITE_FIFO` (rule R285). -/
def pmaWriteFifoOp (off : Nat) (h : Word) (len : Nat) : Op Unit := do
  checkSpan off len
  let bytes ← fifoPop h len
  let w ← peek fun s => Config.pmaWidth s.cfg
  forEach (wordSpans w len) fun p => pmaWriteWord (off + p.1) (takeBytes w ((bytes.drop p.1).take p.2))

/-- `PMA_READ_FIFO` (rule R286): the room in the FIFO is checked before the first access. -/
def pmaReadFifoOp (off : Nat) (h : Word) (len : Nat) : Op Unit := do
  checkSpan off len
  let s ← peek id
  if (s.fifo h).cap < (s.fifo h).q.length + len then raise (.fifoOverrun h)
  else do
    let bytes ← readSpans off (Config.pmaWidth s.cfg) (wordSpans (Config.pmaWidth s.cfg) len)
    fifoPush h bytes

/-- The packet read of `setup_path` (46_isr.md rule R398): the 8 bytes at `off`, by the word reads of `PMA_READ`. On a
32-bit bus the buffer must be aligned, and nothing else faults for its alignment (20_memory.md rules R103, R109); a byte
that does not exist faults as it is read (rule R100). Log entry 35. -/
def pmaPacketOp (off len : Nat) : Op (List Byte) := do
  checkAlign off
  let w ← peek fun s => Config.pmaWidth s.cfg
  readSpans off w (wordSpans w len)

/-- `PMA_WRITE off, ram, len` (rule R281). -/
def execPmaWrite (off : Half) (ram : Word) (len : Half) (s : State) : Host.Outcome State Fault Refusal :=
  perform (pmaWriteOp off.toNat ram.toNat len.toNat) s

/-- `PMA_READ off, ram, len` (rule R283). -/
def execPmaRead (off : Half) (ram : Word) (len : Half) (s : State) : Host.Outcome State Fault Refusal :=
  perform (pmaReadOp off.toNat ram.toNat len.toNat) s

/-- `PMA_WRITE_FIFO off, h, len` (rule R285). -/
def execPmaWriteFifo (off : Half) (h : Word) (len : Half) (s : State) : Host.Outcome State Fault Refusal :=
  perform (pmaWriteFifoOp off.toNat h len.toNat) s

/-- `PMA_READ_FIFO off, h, len` (rule R286). -/
def execPmaReadFifo (off : Half) (h : Word) (len : Half) (s : State) : Host.Outcome State Fault Refusal :=
  perform (pmaReadFifoOp off.toNat h len.toNat) s

end Sys2Proof.Machine
end

