-- ==== Sys2Proof/Machine/Dcd.lean ====
section
/-! DEFINITION. The DCD operations: the endpoint pair controller (44_dcd_ops.md). -/

namespace Sys2Proof.Machine

/-! ### Bus-reset handler (rules R302, R303) -/

/-- `ep0_open(d)` (rule R303). -/
def ep0Open (d : Dir) : Op Unit := do
  let c ← peek (·.cfg)
  let i ← epAllocOp (match d with | .out => 0x00 | .inn => 0x80) xferControl
  change (·.updCtx 0 d fun x => { x with mps := BitVec.ofNat 16 c.ep0Size, epIdx := BitVec.ofNat 8 i })
  let a ← pmaAllocOp c.ep0Size false
  btSetAddrOp i (bufOf d) (a.setWidth 16)
  onlyIf (d == .out) (btSetRxBufsizeOp i true c.ep0Size)
  rmwEpr i (selStat d statNak (selDtog d false { type := some typeControl, kind := some false, ea := some 0 }))

/-- Every slot FREE and the cursor behind the BTABLE (rule R302). -/
@[simps]
def State.slotsFreed (s : State) : State :=
  { s with slots := Vector.replicate 8 Slot.free, pmaCursor := pmaFirst s.cfg }

/-- `bus_reset_handler()` (rule R302). -/
def busResetHandler : Op Unit := do
  writeReg (·.writeDaddr 0x0000)
  change (·.slotsFreed)
  ep0Open .out
  ep0Open .inn
  writeReg (·.writeDaddr 0x0080)

/-! ### Initialisation and configuration -/

/-- `DCD_INIT` (rule R300). -/
def dcdInitOp : Op Unit := do
  writeReg (·.writeCntr 0x0003)
  writeReg (·.writeCntr 0x0001)
  writeReg (·.writeCntr 0x0000)
  writeReg (·.writeIstr 0x0000)
  let c ← peek (·.cfg)
  forEach (List.range c.nEp) fun i => writeEpr i 0x0000
  writeReg (·.writeBtable (BitVec.ofNat 16 c.btableBase))
  writeReg (·.writeCntr 0x9D00)
  busResetHandler
  change fun s => { s with pullup := true, irqEn := true }

/-- `EP_OPEN` (rule R304). -/
def epOpenOp (ep : Byte) (ty : BitVec 2) (mps : BitVec 11) : Op Unit := do
  let d := epDir ep
  let i ← epAllocOp ep ty
  let a ← pmaAllocOp mps.toNat false
  btSetAddrOp i (bufOf d) (a.setWidth 16)
  change (·.updCtx (epNum ep) d fun x => { x with mps := mps.setWidth 16, epIdx := BitVec.ofNat 8 i })
  rmwEpr i (selStat d statNak (selDtog d false
    { type := some (typeMap ty), kind := some false, ea := some (epNum ep) }))

/-- `ISO_ALLOC` (rule R310). -/
def isoAllocOp (ep : Byte) (size : BitVec 11) : Op Unit := do
  let i ← epAllocOp ep xferIso
  let v ← pmaAllocOp size.toNat true
  btSetAddrOp i false (v.extractLsb' 0 16)
  btSetCountOp i false 0
  btSetAddrOp i true (v.extractLsb' 16 16)
  btSetCountOp i true 0
  change (·.updCtx (epNum ep) (epDir ep) fun x => { x with epIdx := BitVec.ofNat 8 i })

/-- `ISO_ACTIVATE` (rule R311). -/
def isoActivateOp (ep : Byte) (mps : BitVec 11) : Op Unit := do
  checkOpen ep
  let n := epNum ep
  let d := epDir ep
  change (·.updCtx n d fun x => { x with mps := mps.setWidth 16 })
  let x ← peek (·.ctx n d)
  rmwEpr x.epIdx.toNat (selStat d statDis (selDtog d false (selStat d.opp statDis (selDtog d.opp true
    { type := some typeIso, kind := some false, ea := some n }))))

/-- The select of `EP_CLOSE_ALL`: everything of the endpoint to its reset value (rule R309). -/
def selClose : MuxSel where
  statTx   := some statDis
  dtogTx   := some false
  statRx   := some statDis
  dtogRx   := some false
  clrCtrTx := true
  clrCtrRx := true
  type     := some 0
  kind     := some false
  ea       := some 0

/-- `EP_CLOSE_ALL` (rule R309). -/
def epCloseAllOp : Op Unit := do
  let c ← peek (·.cfg)
  forEach ((List.range c.nEp).drop 1) fun i => do
    rmwEpr i selClose
    change (·.putSlot i Slot.free)
  change fun s => { s with pmaCursor := pmaFirst s.cfg + 2 * aligned s.cfg.ep0Size }

/-! ### Transfers -/

/-- The bytes of the next packet go to the PMA at `a` (rule R315). -/
def txStore (x : XferCtx) (a len : Nat) : Op Unit :=
  match x.ff with
  | none   => pmaWriteOp a (x.buf.toNat + x.queuedLen.toNat) len
  | some h => pmaWriteFifoOp a h len

/-- `transmit_packet(epnum)` (rule R315): the primitive's read and write enclose the copy. `iso_in_sending` is
set, for an ISO endpoint, before the write that sets VALID. -/
def transmitPacket (n : BitVec 4) : Op Unit := do
  let x ← peek (·.ctx n .inn)
  let i := x.epIdx.toNat
  let len := min (x.totalLen.toNat - x.queuedLen.toNat) x.mps.toNat
  let r ← readEpr i
  let b := isIso r && isoSwBuf (dtogTx r)
  let a ← btGetAddrOp i b
  txStore x a.toNat len
  change (·.updCtx n .inn fun x => { x with queuedLen := x.queuedLen + BitVec.ofNat 16 len })
  btSetCountOp i b len
  change (·.updCtx n .inn fun x => { x with isoInSending := isIso r || x.isoInSending })
  writeEpr i (mux r { statTx := some statValid })

/-- The OUT branch of `XFER` (rule R313): the receive size of the buffer or, for ISO, of both, then VALID. -/
def armReceive (n : BitVec 4) : Op Unit := do
  let x ← peek (·.ctx n .out)
  let i := x.epIdx.toNat
  let cnt := min x.totalLen.toNat x.mps.toNat
  let r ← readEpr i
  onlyIf (isIso r) (btSetRxBufsizeOp i false cnt)
  btSetRxBufsizeOp i true cnt
  rmwEpr i { statRx := some statValid }

/-- `XFER` with a RAM buffer (`ff = none`) or `XFER_FIFO` (`ff = some h`) (rules R313, R314). -/
def xferOp (ep : Byte) (buf : Word) (ff : Option Word) (total : Half) : Op Unit := do
  checkOpen ep
  let n := epNum ep
  let d := epDir ep
  change (·.updCtx n d fun x => { x with buf := buf, ff := ff, totalLen := total, queuedLen := 0 })
  match d with
  | .inn => transmitPacket n
  | .out => armReceive n

/-- `EP_STALL` (rule R318). -/
def epStallOp (ep : Byte) : Op Unit := do
  checkOpen ep
  let x ← peek (·.ctx (epNum ep) (epDir ep))
  rmwEpr x.epIdx.toNat (selStat (epDir ep) statStall)

/-- `EP_CLEAR_STALL` (rule R319). -/
def epClearStallOp (ep : Byte) : Op Unit := do
  checkOpen ep
  let x ← peek (·.ctx (epNum ep) (epDir ep))
  rmwEpr x.epIdx.toNat (selStat (epDir ep) statNak (selDtog (epDir ep) false))

/-! ### Meanings -/

/-- `DCD_INIT` (rule R300). -/
def execDcdInit (s : State) : Host.Outcome State Fault Refusal := perform dcdInitOp s

/-- `EP_OPEN ep_addr, type, mps` (rule R304). -/
def execEpOpen (ep : Byte) (ty : BitVec 2) (mps : BitVec 11) (s : State) :
    Host.Outcome State Fault Refusal :=
  perform (do checkEp ep; epOpenOp ep ty mps; setRes 1) s

/-- `ISO_ALLOC ep_addr, size` (rule R310). -/
def execIsoAlloc (ep : Byte) (size : BitVec 11) (s : State) : Host.Outcome State Fault Refusal :=
  perform (do checkEp ep; isoAllocOp ep size; setRes 1) s

/-- `ISO_ACTIVATE ep_addr, mps` (rule R311). -/
def execIsoActivate (ep : Byte) (mps : BitVec 11) (s : State) : Host.Outcome State Fault Refusal :=
  perform (do checkEp ep; isoActivateOp ep mps; setRes 1) s

/-- `EP_CLOSE_ALL` (rule R309). -/
def execEpCloseAll (s : State) : Host.Outcome State Fault Refusal := perform epCloseAllOp s

/-- `XFER ep_addr, buf, total` (rule R313). -/
def execXfer (ep : Byte) (buf : Word) (total : Half) (s : State) : Host.Outcome State Fault Refusal :=
  perform (do checkEp ep; xferOp ep buf none total; setRes 1) s

/-- `XFER_FIFO ep_addr, h, total` (rule R314). -/
def execXferFifo (ep : Byte) (h : Word) (total : Half) (s : State) : Host.Outcome State Fault Refusal :=
  perform (do checkEp ep; xferOp ep 0 (some h) total; setRes 1) s

/-- `EP_STALL ep_addr` (rule R318). -/
def execEpStall (ep : Byte) (s : State) : Host.Outcome State Fault Refusal :=
  perform (do checkEp ep; epStallOp ep) s

/-- `EP_CLEAR_STALL ep_addr` (rule R319). -/
def execEpClearStall (ep : Byte) (s : State) : Host.Outcome State Fault Refusal :=
  perform (do checkEp ep; epClearStallOp ep) s

/-- `SET_ADDRESS a` (rule R320). -/
def execSetAddress (a : BitVec 7) (s : State) : Host.Outcome State Fault Refusal :=
  perform (writeReg (·.writeDaddr (0x0080#16 ||| a.setWidth 16))) s

/-- `REMOTE_WAKEUP` (rule R321). -/
def execRemoteWakeup (s : State) : Host.Outcome State Fault Refusal :=
  perform (do
    updateCntr cntrResume cntrResume
    change fun s => { s with remoteWakeCd := BitVec.ofNat 8 s.cfg.remoteWakeEsof }) s

/-- `SOF_ENABLE en` (rule R322). -/
def execSofEnable (en : Bool) (s : State) : Host.Outcome State Fault Refusal :=
  perform (updateCntr flagSof (if en then flagSof else 0)) s

/-- `CONNECT en` (rule R323). -/
def execConnect (en : Bool) (s : State) : Host.Outcome State Fault Refusal :=
  perform (change fun s => { s with pullup := en }) s

/-- `IRQ_ENABLE en` (rule R324). -/
def execIrqEnable (en : Bool) (s : State) : Host.Outcome State Fault Refusal :=
  perform (change fun s => { s with irqEn := en }) s

end Sys2Proof.Machine
end

