-- ==== Sys2Proof/Machine/Isr.lean ====
section
/-! DEFINITION. Interrupt service: the sequencer and the CTR paths (46_isr.md). -/

namespace Sys2Proof.Machine

/-! ### Transmit and receive completion -/

/-- The end of `tx_path`: the next packet, or the transfer is complete (rule R395). -/
def txNext (n : BitVec 4) (x : XferCtx) : Op Unit :=
  if x.queuedLen.toNat < x.totalLen.toNat then transmitPacket n
  else post (.xferComplete (n.setWidth 8 ||| 0x80#8) (x.queuedLen.setWidth 32))

/-- `tx_path(i)` (rule R395). `epnum` is the EA field of the one register read `r` (log entry 31). -/
def txPath (i : Nat) : Op Unit := do
  rmwEpr i { clrCtrTx := true }
  let r ← readEpr i
  let n := eaField r
  let x ← peek (·.ctx n .inn)
  if isIso r then
    if x.isoInSending then do
      change (·.updCtx n .inn fun x => { x with isoInSending := false })
      btSetCountOp i (isoSwBuf (dtogTx r)) 0
      txNext n x
    else pure ()
  else txNext n x

/-- `setup_path(i)` (rule R398). -/
def setupPath (i : Nat) : Op Unit := do
  let n ← btGetCountOp i true
  if n = 8 then do
    let a ← btGetAddrOp i true
    let bs ← pmaPacketOp a.toNat 8
    let b := fun k => bs.getD k 0
    rmwEpr i { statTx := some statNak, statRx := some statNak, dtogTx := some true, dtogRx := some true,
               clrCtrRx := true }
    post (.setupReceived #v[b 0, b 1, b 2, b 3, b 4, b 5, b 6, b 7])
  else rmwEpr i { clrCtrRx := true }

/-- The received packet goes to the buffer or the FIFO of the transfer (rules R397, R400). -/
def rxStore (x : XferCtx) (a len : Nat) : Op Unit :=
  match x.ff with
  | none   => pmaReadOp a (x.buf.toNat + x.queuedLen.toNat) len
  | some h => pmaReadFifoOp a h len

/-- After the packet is stored, with `q` bytes of the transfer received: complete, or re-armed (rule R397). -/
def rxNext (i : Nat) (b : Bool) (n : BitVec 4) (x : XferCtx) (len : Nat) (q : Half) : Op Unit :=
  if len < x.mps.toNat ∨ x.totalLen.toNat ≤ q.toNat then post (.xferComplete (n.setWidth 8) (q.setWidth 32))
  else do
    btSetRxBufsizeOp i b (min (x.totalLen.toNat - q.toNat) x.mps.toNat)
    rmwEpr i { statRx := some statValid }

/-- For endpoint 0 the receive size is reset and CTR_RX cleared last (rule R397). -/
def rxEnd (i : Nat) : Op Unit := do
  let c ← peek (·.cfg)
  if i = 0 then do
    btSetRxBufsizeOp 0 true c.ep0Size
    rmwEpr 0 { clrCtrRx := true }
  else pure ()

/-- The data branch of `rx_path(i)`, with the register read `r` (rule R397). `epnum` is the EA field of that read
(log entry 31), and `queued_len + n` is a u16 sum, which a packet longer than the space left carries past
`total_len` and possibly past 2^16 (log entry 28). -/
def rxData (i : Nat) (r : Half) : Op Unit := do
  onlyIf (i != 0) (rmwEpr i { clrCtrRx := true })
  let n := eaField r
  let x ← peek (·.ctx n .out)
  let b := if isIso r then isoSwBuf (dtogRx r) else true
  let len ← btGetCountOp i b
  let a ← btGetAddrOp i b
  rxStore x a.toNat len
  let q := x.queuedLen + BitVec.ofNat 16 len
  change (·.updCtx n .out fun x => { x with queuedLen := q })
  rxNext i b n x len q
  rxEnd i

/-- `rx_path(i)` (rules R397, R400). `errata_wait()` is a point at which BUS steps may fall (rule R399). -/
def rxPath (i : Nat) : Op Unit := do
  let c ← peek (·.cfg)
  onlyIf c.errataRxDelay busWindow
  let r ← readEpr i
  if setupBit r then setupPath i else rxData i r

/-- One iteration of the CTR loop, once `DIR` and `EP_ID` are read (rule R384). -/
def ctrPath (dir : Bool) (i : Nat) : Op Unit := if dir then rxPath i else txPath i

/-- `ctr_loop()` (rule R384), at most `fuel` iterations. Each test, `EP_ID` and `DIR` is a read of `ISTR`. -/
def ctrLoop : Nat → Op Unit
  | 0 => pure ()
  | fuel + 1 => do
    let v ← readIstr
    if istrCtr v then do
      let i ← readIstr
      let d ← readIstr
      ctrPath (istrDir d) (istrEpId i)
      ctrLoop fuel
    else pure ()

/-- A number of iterations that the loop cannot reach: every iteration clears a CTR bit, of which there are at
most 16 and one more per BUS step of the tape, or meets a register that such a step changed between its reads
(log entry 14). -/
def ctrFuel (s : State) : Nat := 24 + 3 * (s.busTape.map List.length).sum

/-! ### The sequencer (rule R380) -/

/-- The flag is set in the snapshot `v` and its `CNTR` mask bit is set. -/
def unmasked (v flag : Half) : Op Bool := do
  if hasBit v flag then do
    let c ← readCntr
    pure (hasBit c flag)
  else pure false

/-- `sof_branch()` (rule R381). -/
def sofBranch : Op Unit := do
  clearFlag flagSof
  let f ← readReg (·.fnr)
  post (.sof (f.setWidth 11))

/-- `reset_branch()` (rule R383). -/
def resetBranch : Op Unit := do
  clearFlag flagReset
  busResetHandler
  post .busReset

/-- `wkup_branch()` (rule R386). -/
def wkupBranch : Op Unit := do
  updateCntr cntrLpMode 0
  updateCntr cntrFsusp 0
  clearFlag flagWkup
  post .resume

/-- `susp_branch()` (rule R387). -/
def suspBranch : Op Unit := do
  updateCntr cntrFsusp cntrFsusp
  updateCntr cntrLpMode cntrLpMode
  clearFlag flagSusp
  post .suspend

/-- `esof_branch()` (rule R390). -/
def esofBranch : Op Unit := do
  let n ← peek (·.remoteWakeCd)
  onlyIf (n == 1#8) (updateCntr cntrResume 0)
  onlyIf (n != 0#8) (change fun s => { s with remoteWakeCd := s.remoteWakeCd - 1 })
  clearFlag flagEsof

/-- A branch taken when its flag is pending and unmasked. -/
def serviceFlag (v flag : Half) (branch : Op Unit) : Op Unit := do
  let b ← unmasked v flag
  onlyIf b branch

/-- The CTR part of the sequence. -/
def serviceCtr : Op Unit := do
  let c ← readCntr
  let fuel ← peek ctrFuel
  onlyIf (hasBit c flagCtr) (ctrLoop fuel)

/-- `ISR_SERVICE` (rule R380): one snapshot of `ISTR` for the flags other than CTR. -/
def isrOp : Op Unit := do
  let v ← readIstr
  serviceFlag v flagSof sofBranch
  let reset ← unmasked v flagReset
  if reset then resetBranch
  else do
    serviceCtr
    serviceFlag v flagWkup wkupBranch
    serviceFlag v flagSusp suspBranch
    serviceFlag v flagEsof esofBranch

/-- `ISR_SERVICE` as a command (rule R380): it runs once, whatever is pending. -/
def execIsrService (s : State) : Host.Outcome State Fault Refusal := perform isrOp s

end Sys2Proof.Machine
end

