-- ==== Sys2Proof/Machine/Edpt.lean ====
section
/-! DEFINITION. The core endpoint operations (47_bot_fsm.md section 2), and the boundaries at which an ISR step
may fall inside a TASK operation (20_memory.md rule R117 a). -/

namespace Sys2Proof.Machine

/-- `n` offers of an ISR step: each is taken if the agent is enabled then (60_exceptions.md rule R550), BUS steps
coming first. -/
def isrSteps : Nat → Op Unit
  | 0 => pure ()
  | n + 1 => do
    busWindow
    let s ← peek id
    onlyIf s.isrEnabled isrOp
    isrSteps n

/-- A boundary between two operations: the ISR steps of the next entry of the tape, none once it is empty. -/
def boundary : Op Unit := fun s =>
  match s.isrTape with
  | []        => .ok () s
  | n :: rest => isrSteps n { s with isrTape := rest }

/-- A DCD operation called by an operation of files 47 and 48, ISR masked inside it and free around it
(rules R117 a, R121). -/
def callDcd (op : Op Unit) : Op Unit := do boundary; op; boundary

/-- `xfer(ep, buf, len)` (rule R426): false is the refusal. -/
def edptXferOp (ep : Byte) (buf : Word) (len : Half) : Op Bool := do
  let s ← peek id
  if s.busyAt ep then pure false
  else do
    change (·.putBusy ep true)
    callDcd (xferOp ep buf none len)
    pure true

/-- `stall(ep)` (rule R427). -/
def edptStallOp (ep : Byte) : Op Unit := do
  let s ← peek id
  if s.stalledAt ep then pure ()
  else do
    callDcd (epStallOp ep)
    change fun s => (s.putStalled ep true).putBusy ep true

/-- `clear_stall(ep)` (rule R428). -/
def edptClearStallOp (ep : Byte) : Op Unit := do
  let s ← peek id
  if s.stalledAt ep then do
    callDcd (epClearStallOp ep)
    change fun s => (s.putStalled ep false).putBusy ep false
  else pure ()

/-- `ready(ep)` (rule R429). -/
def State.ready (s : State) (ep : Byte) : Bool := !s.busyAt ep && !s.stalledAt ep

/-- The result word of a test. -/
def boolRes (b : Bool) : Word := if b then 1 else 0

/-- `EDPT_XFER ep, buf, len` (rule R426). -/
def execEdptXfer (ep : Byte) (buf : Word) (len : Half) (s : State) : Host.Outcome State Fault Refusal :=
  perform (do checkEp ep; let b ← edptXferOp ep buf len; setRes (boolRes b)) s

/-- `EDPT_STALL ep` (rule R427). -/
def execEdptStall (ep : Byte) (s : State) : Host.Outcome State Fault Refusal :=
  perform (do checkEp ep; edptStallOp ep) s

/-- `EDPT_CLEAR_STALL ep` (rule R428). -/
def execEdptClearStall (ep : Byte) (s : State) : Host.Outcome State Fault Refusal :=
  perform (do checkEp ep; edptClearStallOp ep) s

/-- `EDPT_STALLED ep` (rule R429). -/
def execEdptStalled (ep : Byte) (s : State) : Host.Outcome State Fault Refusal :=
  perform (do checkEp ep; let b ← peek (·.stalledAt ep); setRes (boolRes b)) s

/-- `EDPT_READY ep` (rule R429). -/
def execEdptReady (ep : Byte) (s : State) : Host.Outcome State Fault Refusal :=
  perform (do checkEp ep; let b ← peek (·.ready ep); setRes (boolRes b)) s

end Sys2Proof.Machine
end

