-- ==== Sys2Proof/Machine/BotBase.lean ====
section
/-! DEFINITION. The shared procedures of the Bulk-Only-Transport machine (47_bot_fsm.md rules R432 to R434,
R439). -/

namespace Sys2Proof.Machine

/-- Changes `msc`. -/
def changeMsc (f : Msc → Msc) : Op Unit := change (·.updMsc f)

/-- `msc.stage <- STATUS`. -/
def toStatus : Op Unit := changeMsc fun m => { m with stage := .status }

/-- The residue `cbw.total_bytes - xferred_len` (u32). -/
def Msc.residue (m : Msc) : Word := m.cbw.totalBytes - m.xferredLen

/-- `xfer(ep, MSCBUF_ADDR, n)`, its refusal ignored (rule R426) and `RES` left alone (log entry 33). -/
def xferStaging (ep : Byte) (n : Nat) : Op Unit := do
  let c ← peek (·.cfg)
  let _ ← edptXferOp ep (BitVec.ofNat 32 c.mscBufAddr) (BitVec.ofNat 16 n)
  pure ()

/-- `prepare_cbw()` (rule R432). -/
def prepareCbw : Op Unit := do
  changeMsc fun m => { m with stage := .cmd }
  let m ← peek (·.msc)
  xferStaging m.epOut 31

/-- `send_csw()` (rule R433). -/
def sendCsw : Op Unit := do
  changeMsc fun m => { m with csw := { m.csw with dataResidue := m.residue }, stage := .statusSent }
  let m ← peek (·.msc)
  stagingWrite 0 (cswBytes m.csw)
  xferStaging m.epIn 13

/-- `set_sense` where no sense is set: the key is 0 (48_scsi.md rules R481, R490). -/
def defaultSense (v : Sense) : Op Unit := do
  let m ← peek (·.msc)
  onlyIf (m.sense.key == 0) (setSenseTo v)

/-- `fail_scsi_op(status)` (rule R434). -/
def failScsiOp (status : Byte) : Op Unit := do
  changeMsc fun m => { m with csw := { m.csw with status := status, dataResidue := m.residue }, stage := .status }
  defaultSense senseIllegalRequest
  let m ← peek (·.msc)
  onlyIf (m.cbw.totalBytes != 0 && m.csw.dataResidue != 0)
    (edptStallOp (if m.cbw.isIn then m.epIn else m.epOut))

/-- `status_step()` (rule R439). -/
def statusStep : Op Unit := do
  let s ← peek id
  onlyIf (s.msc.stage == .status && !s.stalledAt s.msc.epIn)
    (if s.msc.cbw.isIn ∧ s.msc.xferredLen.toNat < s.msc.cbw.totalBytes.toNat then edptStallOp s.msc.epIn
     else sendCsw)

end Sys2Proof.Machine
end

