-- ==== Sys2Proof/Machine/Scsi.lean ====
section
/-! DEFINITION. The SCSI command processor (48_scsi.md). Results `r: i32` are integers. -/

namespace Sys2Proof.Machine

/-! ### Callbacks and the bounds on their answers (rules R485, R486) -/

/-- The i32 answer of a callback. -/
def answerInt (a : Answer) : Int := a.ret.toInt

/-- `APP_CONTRACT` unless `ok` (rule R486). -/
def contract (cb : Callback) (ok : Bool) : Op Unit := if ok then pure () else raise (.appContract cb)

/-- The `r` bytes an answer writes to `MSCBUF[0..r-1]`, none when `r <= 0`. -/
def answerBytes (r : Int) (data : List Byte) : Op Unit := stagingWrite 0 (takeBytes r.toNat data)

/-- The answer of a `read10` or `write10` callback: `none` is ASYNC (rules R486, R505, R511). An answer out of
bounds faults before any byte of it is written (log entry 32). -/
def ioAnswer (cb : Callback) (bound : Nat) (v : Word) : Op (Option Int) := do
  let c ← peek (·.cfg)
  if v = c.asyncRet then pure none
  else do
    contract cb (decide (v.toInt ≤ bound))
    pure (some v.toInt)

/-- `app_scsi(lun, cdb, MSCBUF, bufsize)` (rule R498). On the OUT path the buffer holds the host's data; on the
other path the answer's bytes go to it, also before a phase with no data (log entry 36), and none of an answer out of
bounds (log entry 32). -/
def appScsi (outPath : Bool) (bufsize : Nat) : Op Int := do
  let s ← peek id
  let cbw := s.msc.cbw
  let buf ← stagingRead 0 (min bufsize s.cfg.mscBufSize)
  let a ← ask (.scsi cbw.lunNum cbw.command buf bufsize)
  contract .scsi (decide (answerInt a ≤ s.cfg.mscBufSize))
  onlyIf (!outPath) (answerBytes (answerInt a) a.data)
  pure (answerInt a)

/-! ### Built-in commands (rules R488 to R497) -/

/-- The end of a command answered by a bool: 0, or -1 with the default sense (rules R490 to R492). -/
def boolAnswer (ok : Bool) : Op Int := do
  if ok then pure 0
  else do
    defaultSense senseMnp
    pure (-1)

/-- TEST_UNIT_READY (rule R490). -/
def testUnitReady (lun : Byte) : Op Int := do
  let a ← ask (.testUnitReady lun)
  boolAnswer a.flag

/-- START_STOP_UNIT (rule R491). -/
def startStopUnit (lun : Byte) (cdb : Vector Byte 16) : Op Int := do
  let a ← ask (.startStop lun (cdb[4].extractLsb' 4 4) (cdb[4].getLsbD 0) (cdb[4].getLsbD 1))
  boolAnswer a.flag

/-- PREVENT_ALLOW_MEDIUM_REMOVAL (rule R492). -/
def preventAllow (lun : Byte) (cdb : Vector Byte 16) : Op Int := do
  let a ← ask (.preventAllow lun (cdb[4].extractLsb' 0 2) cdb[5])
  boolAnswer a.flag

/-- A capacity response, or the NOT_READY failure (rules R493, R494). -/
def capacityResponse (lun : Byte) (bytes : Word → Half → List Byte) : Op Int := do
  let a ← ask (.capacity lun)
  if a.ret = 0 ∨ a.size = 0 then do
    defaultSense senseMnp
    pure (-1)
  else do
    stagingWrite 0 (bytes a.ret a.size)
    pure ((bytes a.ret a.size).length : Int)

/-- The 8 bytes of READ_CAPACITY_10 (rule R493). -/
def readCapacityBytes (c : Word) (b : Half) : List Byte :=
  beBytes32 (c - 1) ++ beBytes32 (b.setWidth 32)

/-- The 12 bytes of READ_FORMAT_CAPACITY (rule R494). -/
def readFormatCapacityBytes (c : Word) (b : Half) : List Byte :=
  [0x00, 0x00, 0x00, 0x08] ++ beBytes32 c ++ [0x02, 0x00] ++ beBytes16 b

/-- The INQUIRY template (rule R495). -/
def inquiryTemplate : List Byte :=
  [0x00, 0x80, 0x02, 0x02, 0x1F, 0x00, 0x00, 0x00] ++ List.replicate 28 0x20

/-- INQUIRY (rule R495). No byte of an `inquiry2` answer out of bounds is written (log entry 32). -/
def inquiry (lun : Byte) : Op Int := do
  stagingWrite 0 inquiryTemplate
  let c ← peek (·.cfg)
  let a ← ask (.inquiry2 lun c.mscBufSize)
  contract .inquiry2 (decide (a.ret.toNat ≤ c.mscBufSize))
  if a.ret ≠ 0 then do
    stagingWrite 0 (takeBytes a.ret.toNat a.data)
    pure (a.ret.toNat : Int)
  else do
    let v ← ask (.inquiry lun)
    stagingWrite 8 (takeBytes 28 v.data)
    pure 36

/-- MODE_SENSE_6 (rule R496). -/
def modeSense6 (lun : Byte) : Op Int := do
  let a ← ask (.isWritable lun)
  stagingWrite 0 [0x03, 0x00, if a.flag then 0x00 else 0x80, 0x00]
  pure 4

/-- The 18 bytes of REQUEST_SENSE (rule R497). -/
def requestSenseBytes (v : Sense) : List Byte :=
  [0xF0, 0x00, v.key.setWidth 8, 0x00, 0x00, 0x00, 0x00, 0x0A, 0x00, 0x00, 0x00, 0x00, v.asc, v.ascq,
   0x00, 0x00, 0x00, 0x00]

/-- REQUEST_SENSE (rule R497). The callback sees the staged response; no byte of an answer out of bounds is
written (log entry 32). -/
def requestSense (lun : Byte) : Op Int := do
  let s ← peek id
  stagingWrite 0 (requestSenseBytes s.msc.sense)
  let buf ← stagingRead 0 s.cfg.mscBufSize
  let a ← ask (.requestSense lun buf s.cfg.mscBufSize)
  if a.keep then do
    setSenseTo ⟨0, 0, 0⟩
    pure 18
  else do
    contract .requestSense (decide (answerInt a ≤ s.cfg.mscBufSize))
    answerBytes (answerInt a) a.data
    setSenseTo ⟨0, 0, 0⟩
    pure (answerInt a)

/-- `proc_builtin_scsi` (rule R488), for an opcode of `BUILTIN`. -/
def procBuiltin : Op Int := do
  let m ← peek (·.msc)
  let lun := m.cbw.lunNum
  let cdb := m.cbw.command
  if m.cbw.op = opTestUnitReady then testUnitReady lun
  else if m.cbw.op = opRequestSense then requestSense lun
  else if m.cbw.op = opInquiry then inquiry lun
  else if m.cbw.op = opModeSense6 then modeSense6 lun
  else if m.cbw.op = opStartStopUnit then startStopUnit lun cdb
  else if m.cbw.op = opPreventAllow then preventAllow lun cdb
  else if m.cbw.op = opReadFormatCapacity then capacityResponse lun readFormatCapacityBytes
  else capacityResponse lun readCapacityBytes

/-! ### READ_10 and WRITE_10 (rules R502 to R513) -/

/-- `lba0 = be32(cdb[2..5])` (rule R502). -/
def Cbw.lba0 (c : Cbw) : Word := be32 c.command[2] c.command[3] c.command[4] c.command[5]

/-- `count = be16(cdb[7..8])` (rule R502). -/
def Cbw.count (c : Cbw) : Half := be16 c.command[7] c.command[8]

/-- Unsigned division; by 0 a free value (log entry 6): the spec divides by a non-zero divisor only. -/
def udivide (a b : Word) : Word := if b = 0 then Config.freeQuotient a else a / b

/-- Unsigned remainder; by 0 a free value (log entry 6). -/
def uremainder (a b : Word) : Word := if b = 0 then Config.freeRemainder a else a % b

/-- `bs = T / count` (rule R502). -/
def Cbw.blockSize (c : Cbw) : Word := udivide c.totalBytes (c.count.setWidth 32)

/-- `lba` of a chunk (rule R504). -/
def Msc.chunkLba (m : Msc) : Word := m.cbw.lba0 + udivide m.xferredLen m.cbw.blockSize

/-- `offset` of a chunk (rule R504). -/
def Msc.chunkOffset (m : Msc) : Word := uremainder m.xferredLen m.cbw.blockSize

/-- `min(MSC_BUFSIZE, T - xferred_len)` (rules R504, R513). -/
def Msc.chunkSize (m : Msc) (c : Config) : Nat := min c.mscBufSize m.residue.toNat

/-- `rdwr10_validate()` (rule R503). -/
def rdwr10Validate (c : Cbw) : Byte :=
  if c.totalBytes = 0 then (if c.count ≠ 0 then statusPhaseError else statusPassed)
  else if c.op = opRead10 ∧ c.isIn = false then statusPhaseError
  else if c.op = opWrite10 ∧ c.isIn = true then statusPhaseError
  else if c.count = 0 then statusFailed
  else if c.blockSize = 0 then statusPhaseError
  else statusPassed

/-- `read_io_data(r)` (rule R506). -/
def readIoData (r : Int) : Op Unit := do
  let m ← peek (·.msc)
  if r < 0 then do
    setSenseTo senseMnp
    failScsiOp statusFailed
  else if r = 0 then post (.xferComplete m.epIn 0)
  else xferStaging m.epIn r.toNat

/-- `proc_read10()` (rule R505). -/
def procRead10 : Op Unit := do
  let s ← peek id
  let n := s.msc.chunkSize s.cfg
  let a ← ask (.read10 s.msc.cbw.lunNum s.msc.chunkLba s.msc.chunkOffset n)
  let r ← ioAnswer .read10 n a.ret
  match r with
  | none   => changeMsc fun m => { m with pendingIo := true }
  | some r => do
    answerBytes r a.data
    readIoData r

/-- `proc_write10_cmd()` (rule R513). -/
def procWrite10Cmd : Op Unit := do
  let s ← peek id
  xferStaging s.msc.epOut (s.msc.chunkSize s.cfg)

/-- `proc_write10_dispatch()` (rule R510): the write-protect check, once per command. -/
def procWrite10Dispatch : Op Unit := do
  let m ← peek (·.msc)
  let a ← ask (.isWritable m.cbw.lunNum)
  if a.flag then procWrite10Cmd
  else do
    setSenseTo senseDataProtect
    failScsiOp statusFailed

/-- `xferred_len <- xferred_len + x`. -/
def addXferred (x : Word) : Op Unit := changeMsc fun m => { m with xferredLen := m.xferredLen + x }

/-- `r` bytes of the chunk are consumed, and the `left` others move to the front (rule R512). -/
def keepRest (r : Int) (left : Nat) : Op Unit := do
  addXferred (BitVec.ofInt 32 r)
  let bs ← stagingRead r.toNat left
  stagingWrite 0 bs

/-- `write_io_data(x, r)` (rule R512). -/
def writeIoData (x : Word) (r : Int) : Op Unit := do
  let m ← peek (·.msc)
  if r < 0 then do
    addXferred x
    setSenseTo senseMnp
    failScsiOp statusFailed
  else if r < x.toNat then do
    let left := x.toNat - r.toNat
    onlyIf (decide (0 < r)) (keepRest r left)
    post (.xferComplete m.epOut (BitVec.ofNat 32 left))
  else do
    addXferred x
    let m ← peek (·.msc)
    if m.totalLen.toNat ≤ m.xferredLen.toNat then toStatus else procWrite10Cmd

/-- `write10_new_data(x)` (rule R511). -/
def write10NewData (x : Word) : Op Unit := do
  let m ← peek (·.msc)
  let data ← stagingRead 0 x.toNat
  let a ← ask (.write10 m.cbw.lunNum m.chunkLba m.chunkOffset data)
  let r ← ioAnswer .write10 x.toNat a.ret
  match r with
  | none   => changeMsc fun m => { m with pendingIo := true, ioLen := x }
  | some r => writeIoData x r

/-! ### Asynchronous completion (rules R514, R515) -/

/-- The answer a `DEFERRED` carries, held against the bounds; ASYNC is outside them (rule R515). -/
def deferredAnswer (cb : Callback) (bound : Nat) (v : Word) : Op Int := do
  let c ← peek (·.cfg)
  contract cb (v != c.asyncRet && decide (v.toInt ≤ bound))
  pure v.toInt

/-- The command's own part of the replay, by the state `s` it starts from (rule R515). -/
def replayIo (s : State) (v : Word) : Op Unit :=
  if s.msc.cbw.op = opRead10 then do
    let r ← deferredAnswer .read10 (s.msc.chunkSize s.cfg) v
    readIoData r
  else if s.msc.cbw.op = opWrite10 then do
    let r ← deferredAnswer .write10 s.msc.ioLen.toNat v
    writeIoData s.msc.ioLen r
  else pure ()

/-- The replay of `DEFERRED(ASYNC_DONE, v)` (rule R515). -/
def replayDeferred (v : Word) : Op Unit := do
  let s ← peek id
  if s.msc.pendingIo then do
    changeMsc fun m => { m with pendingIo := false }
    replayIo s v
    statusStep
  else pure ()

/-- `ASYNC_IO_DONE v, in_isr` (rule R514): `in_isr` changes no effect. -/
def execAsyncIoDone (_inIsr : Bool) (v : Word) (s : State) : Host.Outcome State Fault Refusal :=
  perform (do
    let m ← peek (·.msc)
    if m.pendingIo then do
      post (.deferred v)
      setRes 1
    else setRes 0) s

/-- `SET_SENSE key, asc, ascq` (rule R481). -/
def execSetSense (key : BitVec 4) (asc ascq : Byte) (s : State) : Host.Outcome State Fault Refusal :=
  perform (setSenseTo ⟨key, asc, ascq⟩) s

end Sys2Proof.Machine
end

