-- ==== Sys2Proof/Machine/Bot.lean ====
section
/-! DEFINITION. The Bulk-Only-Transport state machine (47_bot_fsm.md): life cycle, transfer callback, control
requests, task step. -/

namespace Sys2Proof.Machine

/-! ### Stages (rules R430 to R438) -/

/-- The SCSI processor's answer to a command without OUT data (rule R436): a built-in command or the
application's fallback. -/
def scsiAnswer (s : State) : Op Int :=
  if builtinOps.contains s.msc.cbw.op then procBuiltin
  else appScsi false (min s.msc.cbw.totalBytes.toNat s.cfg.mscBufSize)

/-- What `dispatch_other` does with the answer `r`, for `t` bytes expected by the host (rule R436). -/
def answerOther (t : Word) (r : Int) : Op Unit :=
  if r < 0 then failScsiOp statusFailed
  else if r = 0 then (if t ≠ 0 then failScsiOp statusFailed else toStatus)
  else if t = 0 then failScsiOp statusFailed
  else do
    changeMsc fun m => { m with totalLen := BitVec.ofNat 32 (min r.toNat t.toNat) }
    let m ← peek (·.msc)
    xferStaging m.epIn (min r.toNat t.toNat)

/-- `dispatch_other()` (rule R436). -/
def dispatchOther : Op Unit := do
  let s ← peek id
  let t := s.msc.cbw.totalBytes
  if t ≠ 0 ∧ s.msc.cbw.isIn = false then
    if s.cfg.mscBufSize < t.toNat then failScsiOp statusFailed else xferStaging s.msc.epOut t.toNat
  else do
    let r ← scsiAnswer s
    answerOther t r

/-- The data phase of READ_10 and WRITE_10 is prepared (rule R435). -/
def dispatchRw (cbw : Cbw) : Op Unit :=
  if rdwr10Validate cbw ≠ statusPassed then failScsiOp (rdwr10Validate cbw)
  else if cbw.totalBytes = 0 then toStatus
  else if cbw.op = opRead10 then procRead10
  else procWrite10Dispatch

/-- The command of a valid CBW is dispatched (rule R435). -/
def dispatchCbw (cbw : Cbw) : Op Unit := do
  changeMsc fun m => { m with
    csw := ⟨cswSignature, cbw.tag, 0, statusPassed⟩, stage := .data
    totalLen := cbw.totalBytes, xferredLen := 0 }
  if cbw.op = opRead10 ∨ cbw.op = opWrite10 then dispatchRw cbw else dispatchOther

/-- An invalid CBW: both endpoints are stalled (rule R435). -/
def rejectCbw : Op Unit := do
  let m ← peek (·.msc)
  changeMsc fun m => { m with stage := .needReset }
  edptStallOp m.epIn
  edptStallOp m.epOut

/-- `cmd_stage(ep, len)` (rule R435): false is `STOP`. -/
def cmdStage (ep : Byte) (len : Word) : Op Bool := do
  let m ← peek (·.msc)
  if ep ≠ m.epOut then pure false
  else do
    let bs ← stagingRead 0 31
    changeMsc fun m => { m with cbw := decodeCbw bs }
    if len = 31 ∧ (decodeCbw bs).signature = cbwSignature then do
      dispatchCbw (decodeCbw bs)
      pure true
    else do
      rejectCbw
      pure false

/-- The end of the data stage of a command other than READ_10 and WRITE_10 (rule R437). -/
def endOther : Op Unit := do
  let m ← peek (·.msc)
  if m.totalLen.toNat ≤ m.xferredLen.toNat then toStatus else raise (.undefinedMultiXfer m.xferredLen)

/-- OUT data has arrived: it is handed to the application (rule R437). -/
def outArrived (total : Word) : Op Unit := do
  let r ← appScsi true total.toNat
  onlyIf (decide (r < 0)) (failScsiOp statusFailed)

/-- `data_stage(ep, len)` (rule R437): the handler does not look at `ep`. -/
def dataStage (len : Word) : Op Unit := do
  let m ← peek (·.msc)
  if m.cbw.op = opRead10 then do
    addXferred len
    let m ← peek (·.msc)
    if m.totalLen.toNat ≤ m.xferredLen.toNat then toStatus else procRead10
  else if m.cbw.op = opWrite10 then write10NewData len
  else do
    addXferred len
    onlyIf (!m.cbw.isIn) (outArrived m.totalLen)
    endOther

/-- `status_sent_stage(ep, len)` (rule R438). -/
def statusSentStage (ep : Byte) (len : Word) : Op Unit := do
  let m ← peek (·.msc)
  if ep = m.epIn ∧ len = 13 then do
    emit (.app (.complete m.cbw.lunNum m.cbw.op))
    prepareCbw
  else pure ()

/-- `ignored(ep)` (rule R431). -/
def Msc.ignored (m : Msc) (ep : Byte) : Bool :=
  m.epOut == 0x00#8 || (ep != m.epIn && ep != m.epOut) || m.pendingIo

/-- The handler of the stage (rule R430): false where no status step follows. -/
def stageHandler (stage : Stage) (ep : Byte) (len : Word) : Op Bool :=
  match stage with
  | .cmd        => cmdStage ep len
  | .data       => do dataStage len; pure true
  | .statusSent => do statusSentStage ep len; pure true
  | .status     => pure true
  | .needReset  => pure true

/-- The handler of the stage and the status step, unless the event is ignored (rules R430, R431). -/
def mscEvent (ep : Byte) (len : Word) : Op Unit := do
  let m ← peek (·.msc)
  if m.ignored ep then pure ()
  else do
    let go ← stageHandler m.stage ep len
    onlyIf go statusStep

/-- `MSC_XFER_CB ep, len` once its operands are read (rule R430), also as TASK performs it (rule R451; `RES`: log
entry 33). -/
def mscXferCbOp (ep : Byte) (len : Word) : Op Unit := do
  setRes 1
  mscEvent ep len

/-- `MSC_XFER_CB ep, len` (rule R430): the result code is not read. -/
def execMscXferCb (ep : Byte) (_result : BitVec 2) (len : Word) (s : State) :
    Host.Outcome State Fault Refusal :=
  perform (do checkEp ep; mscXferCbOp ep len) s

/-! ### Life cycle (rules R420 to R423) -/

/-- `msc <- cleared` (rules R420, R422). -/
def mscClear : Op Unit := changeMsc fun _ => Msc.cleared

/-- `MSC_INIT` (rule R420). -/
def execMscInit (s : State) : Host.Outcome State Fault Refusal := perform mscClear s

/-- `MSC_DEINIT` (rule R421). -/
def execMscDeinit (s : State) : Host.Outcome State Fault Refusal := perform (setRes 1) s

/-- `MSC_RESET` (rule R422). -/
def execMscReset (s : State) : Host.Outcome State Fault Refusal := perform mscClear s

/-- The endpoint descriptors of `MSC_OPEN`, `n` of them from `p` up: false where one is not a bulk endpoint.
Bits 6:4 of an address are not checked and take no part in which endpoint it names (log entry 34). -/
def openPair : Nat → Nat → Op Bool
  | 0, _ => pure true
  | n + 1, p => do
    let e ← memRead p 7
    let b := fun k => e.getD k 0
    if b 1 ≠ 0x05 ∨ (b 3).extractLsb' 0 2 ≠ xferBulk then pure false
    else do
      let ea := b 2
      change fun s => (s.putBusy ea false).putStalled ea false
      callDcd (epOpenOp ea xferBulk ((le16 (b 4) (b 5)).setWidth 11))
      changeMsc fun m => if ea.getLsbD 7 then { m with epIn := ea } else { m with epOut := ea }
      openPair n (p + (b 0).toNat)

/-- `MSC_OPEN` (rule R423): the number of bytes consumed, 0 where the interface is not claimed. -/
def mscOpenOp (desc : Nat) (maxLen : Nat) : Op Word := do
  let d ← memRead desc 9
  let b := fun k => d.getD k 0
  if b 5 ≠ 0x08 ∨ b 6 ≠ 0x06 ∨ b 7 ≠ 0x50 then pure 0
  else if maxLen < 23 then pure 0
  else do
    changeMsc fun m => { m with itfNum := b 2 }
    let ok ← openPair 2 (desc + (b 0).toNat)
    if ok then do
      prepareCbw
      pure 23
    else pure 0

/-- `MSC_OPEN desc, max_len` (rule R423). -/
def execMscOpen (desc : Word) (maxLen : Half) (s : State) : Host.Outcome State Fault Refusal :=
  perform (do let r ← mscOpenOp desc.toNat maxLen.toNat; setRes r) s

/-! ### Control requests (rules R440 to R442) -/

/-- `clear_feature_halt(ea)` (rule R441). Bits 6:4 of the host's address are not checked and take no part in which
endpoint it names (log entry 34). -/
def clearFeatureHalt (ea : Byte) : Op Unit := do
  edptClearStallOp ea
  let s ← peek id
  if s.msc.stage = .needReset then edptStallOp ea
  else if ea = s.msc.epIn then
    if s.msc.stage = .status then sendCsw else pure ()
  else if ea = s.msc.epOut then
    if s.msc.stage = .cmd ∧ s.ready s.msc.epOut then prepareCbw else pure ()
  else pure ()

/-- `bot_reset()` (rule R442). -/
def botReset : Op Unit :=
  changeMsc fun m =>
    { m with stage := .cmd, totalLen := 0, xferredLen := 0, sense := ⟨0, 0, 0⟩, pendingIo := false }

/-- `MSC_CONTROL` in stage SETUP (rule R440): the result word. -/
def mscControlOp (a0 a1 : Word) : Op Word := do
  let bm : Byte := a0.extractLsb' 0 8
  let req : Byte := a0.extractLsb' 8 8
  let wValue : Half := a0.extractLsb' 16 16
  let wIndex : Half := a1.extractLsb' 0 16
  let wLength : Half := a1.extractLsb' 16 16
  if bm.extractLsb' 5 2 = 0 ∧ bm.extractLsb' 0 5 = 2 ∧ req = 0x01 ∧ wValue = 0 then do
    clearFeatureHalt (wIndex.setWidth 8)
    pure 1
  else if bm.extractLsb' 5 2 ≠ 1 then pure 0
  else if req = 0xFF then
    if wValue ≠ 0 ∨ wLength ≠ 0 then pure 0
    else do
      botReset
      pure 1
  else if req = 0xFE then
    if wValue ≠ 0 ∨ wLength ≠ 1 then pure 0
    else do
      let c ← peek (·.cfg)
      emit (.ctrlReply [BitVec.ofNat 8 (c.lunCount - 1)])
      pure 1
  else pure 0

/-- `MSC_CONTROL stage, setup` (rule R440): stage 0 is SETUP, 1 DATA, 2 ACK, and 3 is illegal. -/
def execMscControl (stage : BitVec 2) (a0 a1 : Word) (s : State) : Host.Outcome State Fault Refusal :=
  perform (do
    checkOperand (stageOk stage)
    setRes 1
    onlyIf (stage == 0) (do let r ← mscControlOp a0 a1; setRes r)) s

/-! ### Task step (rules R450, R451) -/

/-- An event of TASK (rule R451). -/
def handleEvent : Event → Op Unit
  | .busReset => do
    change fun s => { s with epBusy := Vector.replicate 32 false, epStalled := Vector.replicate 32 false }
    mscClear
    emit (.core .busReset)
  | .setupReceived b => do
    change fun s => ((((s.putBusy 0x00 false).putBusy 0x80 false).putStalled 0x00 false).putStalled 0x80 false)
    emit (.core (.setupReceived b))
  | .xferComplete ep len => do
    change (·.putBusy ep false)
    let m ← peek (·.msc)
    if m.epOut ≠ 0 ∧ (ep = m.epIn ∨ ep = m.epOut) then mscXferCbOp ep len
    else emit (.core (.xferComplete ep len))
  | .deferred v => replayDeferred v
  | .sof f => emit (.core (.sof f))
  | .suspend => emit (.core .suspend)
  | .resume => emit (.core .resume)

/-- `TASK_STEP` (rule R450), the step of the TASK agent. -/
def taskOp : Op Unit := do
  let q ← peek (·.evq)
  match q with
  | []        => setRes 0
  | ev :: rest => do
    change fun s => { s with evq := rest }
    handleEvent ev
    setRes 1

/-- `TASK_STEP` (rule R450). -/
def execTaskStep (s : State) : Host.Outcome State Fault Refusal := perform taskOp s

end Sys2Proof.Machine
end

