-- ==== Sys2Proof/Machine/EpReg.lean ====
section
/-! DEFINITION. The endpoint register engine (41_epreg_engine.md): one meaning per primitive. -/

namespace Sys2Proof.Machine

/-- `EPR_READ` (rule R205). -/
def execEprRead (i : BitVec 4) (s : State) : Host.Outcome State Fault Refusal :=
  perform (do let r ← readEpr i.toNat; setRes (r.setWidth 32)) s

/-- `EPR_WRITE` (rule R206): a raw write, no multiplexer. -/
def execEprWrite (i : BitVec 4) (w : Half) (s : State) : Host.Outcome State Fault Refusal :=
  perform (writeEpr i.toNat w) s

/-- `EPR_SET_TX_STAT` (rule R207). -/
def execEprSetTxStat (i : BitVec 4) (st : BitVec 2) (s : State) : Host.Outcome State Fault Refusal :=
  perform (rmwEpr i.toNat { statTx := some st }) s

/-- `EPR_SET_RX_STAT` (rule R208). -/
def execEprSetRxStat (i : BitVec 4) (st : BitVec 2) (s : State) : Host.Outcome State Fault Refusal :=
  perform (rmwEpr i.toNat { statRx := some st }) s

/-- `EPR_SET_TX_DTOG` (rule R209). -/
def execEprSetTxDtog (i : BitVec 4) (d : Bool) (s : State) : Host.Outcome State Fault Refusal :=
  perform (rmwEpr i.toNat { dtogTx := some d }) s

/-- `EPR_SET_RX_DTOG` (rule R210). -/
def execEprSetRxDtog (i : BitVec 4) (d : Bool) (s : State) : Host.Outcome State Fault Refusal :=
  perform (rmwEpr i.toNat { dtogRx := some d }) s

/-- `EPR_CLR_TX_CTR` (rule R211). -/
def execEprClrTxCtr (i : BitVec 4) (s : State) : Host.Outcome State Fault Refusal :=
  perform (rmwEpr i.toNat { clrCtrTx := true }) s

/-- `EPR_CLR_RX_CTR` (rule R212). -/
def execEprClrRxCtr (i : BitVec 4) (s : State) : Host.Outcome State Fault Refusal :=
  perform (rmwEpr i.toNat { clrCtrRx := true }) s

/-- `EPR_SET_TYPE` (rule R213): `EP_KIND` is forced to 0. -/
def execEprSetType (i : BitVec 4) (ty : BitVec 2) (s : State) : Host.Outcome State Fault Refusal :=
  perform (rmwEpr i.toNat { type := some ty, kind := some false }) s

/-- `EPR_SET_EA` (rule R215). -/
def execEprSetEa (i ea : BitVec 4) (s : State) : Host.Outcome State Fault Refusal :=
  perform (rmwEpr i.toNat { ea := some ea }) s

/-- `EPR_MUX` (rule R216): `ILLEGAL_CMD` if `IMM` bits 7:5 or 15 are set. -/
def execEprMux (i : BitVec 4) (ctl : Half) (s : State) : Host.Outcome State Fault Refusal :=
  perform (do checkOperand (ctlOk ctl); rmwEpr i.toNat (MuxSel.ofCtl ctl)) s

end Sys2Proof.Machine
end

