-- ==== Sys2Proof/Machine/Dispatch.lean ====
section
/-! DEFINITION. The dispatch of a decoded command to its meaning, one arm per constructor of `Instr`
(30_encoding.md rule R142). -/

namespace Sys2Proof.Machine

/-- The meaning of a command. -/
def exec (i : Instr) (s : State) : Host.Outcome State Fault Refusal :=
  match i with
  | .eprRead idx => Sys2Proof.Machine.execEprRead idx s
  | .eprWrite idx w => Sys2Proof.Machine.execEprWrite idx w s
  | .eprSetTxStat idx st => Sys2Proof.Machine.execEprSetTxStat idx st s
  | .eprSetRxStat idx st => Sys2Proof.Machine.execEprSetRxStat idx st s
  | .eprSetTxDtog idx d => Sys2Proof.Machine.execEprSetTxDtog idx d s
  | .eprSetRxDtog idx d => Sys2Proof.Machine.execEprSetRxDtog idx d s
  | .eprClrTxCtr idx => Sys2Proof.Machine.execEprClrTxCtr idx s
  | .eprClrRxCtr idx => Sys2Proof.Machine.execEprClrRxCtr idx s
  | .eprSetType idx ty => Sys2Proof.Machine.execEprSetType idx ty s
  | .eprSetEa idx ea => Sys2Proof.Machine.execEprSetEa idx ea s
  | .eprMux idx ctl => Sys2Proof.Machine.execEprMux idx ctl s
  | .pmaAlloc dbuf len => Sys2Proof.Machine.execPmaAlloc dbuf len s
  | .pmaReset => Sys2Proof.Machine.execPmaReset s
  | .btSetAddr idx b a => Sys2Proof.Machine.execBtSetAddr idx b a s
  | .btGetAddr idx b => Sys2Proof.Machine.execBtGetAddr idx b s
  | .btSetCount idx b n => Sys2Proof.Machine.execBtSetCount idx b n s
  | .btGetCount idx b => Sys2Proof.Machine.execBtGetCount idx b s
  | .btSetRxBufsize idx b size => Sys2Proof.Machine.execBtSetRxBufsize idx b size s
  | .epAlloc ep ty => Sys2Proof.Machine.execEpAlloc ep ty s
  | .pmaWrite off ram len => Sys2Proof.Machine.execPmaWrite off ram len s
  | .pmaRead off ram len => Sys2Proof.Machine.execPmaRead off ram len s
  | .pmaWriteFifo off h len => Sys2Proof.Machine.execPmaWriteFifo off h len s
  | .pmaReadFifo off h len => Sys2Proof.Machine.execPmaReadFifo off h len s
  | .dcdInit => Sys2Proof.Machine.execDcdInit s
  | .epOpen ep ty mps => Sys2Proof.Machine.execEpOpen ep ty mps s
  | .isoAlloc ep size => Sys2Proof.Machine.execIsoAlloc ep size s
  | .isoActivate ep mps => Sys2Proof.Machine.execIsoActivate ep mps s
  | .epCloseAll => Sys2Proof.Machine.execEpCloseAll s
  | .xfer ep buf total => Sys2Proof.Machine.execXfer ep buf total s
  | .xferFifo ep h total => Sys2Proof.Machine.execXferFifo ep h total s
  | .epStall ep => Sys2Proof.Machine.execEpStall ep s
  | .epClearStall ep => Sys2Proof.Machine.execEpClearStall ep s
  | .setAddress a => Sys2Proof.Machine.execSetAddress a s
  | .remoteWakeup => Sys2Proof.Machine.execRemoteWakeup s
  | .sofEnable en => Sys2Proof.Machine.execSofEnable en s
  | .connect en => Sys2Proof.Machine.execConnect en s
  | .irqEnable en => Sys2Proof.Machine.execIrqEnable en s
  | .isrService => Sys2Proof.Machine.execIsrService s
  | .mscInit => Sys2Proof.Machine.execMscInit s
  | .mscDeinit => Sys2Proof.Machine.execMscDeinit s
  | .mscReset => Sys2Proof.Machine.execMscReset s
  | .mscOpen desc maxLen => Sys2Proof.Machine.execMscOpen desc maxLen s
  | .mscControl stage a0 a1 => Sys2Proof.Machine.execMscControl stage a0 a1 s
  | .mscXferCb ep result len => Sys2Proof.Machine.execMscXferCb ep result len s
  | .asyncIoDone inIsr v => Sys2Proof.Machine.execAsyncIoDone inIsr v s
  | .taskStep => Sys2Proof.Machine.execTaskStep s
  | .setSense key asc ascq => Sys2Proof.Machine.execSetSense key asc ascq s
  | .edptXfer ep buf len => Sys2Proof.Machine.execEdptXfer ep buf len s
  | .edptStall ep => Sys2Proof.Machine.execEdptStall ep s
  | .edptClearStall ep => Sys2Proof.Machine.execEdptClearStall ep s
  | .edptStalled ep => Sys2Proof.Machine.execEdptStalled ep s
  | .edptReady ep => Sys2Proof.Machine.execEdptReady ep s

end Sys2Proof.Machine
end

