-- ==== Sys2Proof/Machine/Sched.lean ====
section
/-! DEFINITION. Whose step comes next (00_scope.md rules R13, R14): the turns of the schedule, and the turns of
the internal agents when it is empty. -/

namespace Sys2Proof.Machine

/-- The command registers hold an issued command (10_state.md rule R90). -/
@[simps]
def State.withCommand (s : State) (cmd arg0 arg1 : Word) : State :=
  { s with cmd := cmd, arg0 := arg0, arg1 := arg1 }

/-- Issuing a command (rule R90): `CMD`, `ARG0`, `ARG1` are written and the engine performs the operation. A
word the decoder refuses raises `ILLEGAL_CMD` with no other effect (30_encoding.md rule R143). -/
def issue (cmd arg0 arg1 : Word) (s : State) : Host.Outcome State Fault Refusal :=
  match decode s.cfg.nEp cmd arg0 arg1 with
  | .ok i    => exec i (s.withCommand cmd arg0 arg1)
  | .error _ => perform (raise (.illegalCmd cmd)) (s.withCommand cmd arg0 arg1)

/-- The step of the ISR agent, if it is enabled (60_exceptions.md rules R550, R553). -/
def isrTurn : Op Unit := do
  let s ← peek id
  onlyIf s.isrEnabled isrOp

/-- The step of the TASK agent, if it is enabled: `EVQ` is not empty (10_state.md rule R66). -/
def taskTurn : Op Unit := do
  let s ← peek id
  if s.evq.isEmpty then pure () else taskOp

/-- Bytes stored by the application's own software, by `MemWrite` (20_memory.md rule R104). -/
def ramStoreTurn (addr : Word) (bytes : List Byte) : Op Unit := memWrite addr.toNat bytes

/-- A FIFO object set up by its owner; it holds at most `cap` bytes (20_memory.md rule R106). -/
def setFifoTurn (h : Word) (f : Fifo) : Op Unit :=
  if f.q.length ≤ f.cap then change fun s => { s with fifos := fifoPut s.fifos h.toNat f } else pure ()

/-- The turn at the head of the schedule. -/
def runTurn (t : Turn) (s : State) : Host.Outcome State Fault Refusal :=
  match t with
  | .command cmd arg0 arg1 => issue cmd arg0 arg1 s
  | .bus r                 => perform (busStep r) s
  | .isr                   => perform isrTurn s
  | .task                  => perform taskTurn s
  | .ramStore addr bytes   => perform (ramStoreTurn addr bytes) s
  | .setFifo h f           => perform (setFifoTurn h f) s

/-- The internal agents, when the schedule is empty: ISR if it is enabled, else TASK if it is, else no step is
taken (log entry 1). -/
def idleTurn (s : State) : Host.Outcome State Fault Refusal :=
  perform (if s.isrEnabled then isrTurn else taskTurn) s

/-- One turn: the head of the schedule leaves it and is run. -/
def nextTurn (s : State) : Host.Outcome State Fault Refusal :=
  match s.schedule with
  | []        => idleTurn s
  | t :: rest => runTurn t { s with schedule := rest }

/-- The command a table word stands for, put first in the schedule. -/
def State.scheduleWord (s : State) (nbits w : Nat) : State :=
  let v := w % 2 ^ nbits
  { s with schedule :=
      .command (BitVec.ofNat 32 v) (BitVec.ofNat 32 (v / 2 ^ 32)) (BitVec.ofNat 32 (v / 2 ^ 64))
        :: s.schedule }

end Sys2Proof.Machine
end

