-- ==== Sys2Proof/Machine/Step.lean ====
section
/-! DEFINITION. One step of the machine: one step of one agent (00_scope.md rule R12). -/

namespace Sys2Proof.Machine

/-- One step. A faulted machine takes none (10_state.md rule R74): it answers the fault. -/
def step (s : State) : Host.Outcome State Fault Refusal :=
  match s.fault with
  | some f => .fault f
  | none   => nextTurn s

/-- `s` with a command issued by the next step: the command port takes its words from the schedule, so the words
go to its head (20_memory.md rule R119: command words are never fetched from memory). -/
def State.withFetchWord (s : State) (nbits w : Nat) : State := s.scheduleWord nbits w

end Sys2Proof.Machine
end

