-- ==== Sys2Proof/Safety.lean ====
section
/-! DEFINITION. The terms claims are stated in: which states can take a step, in which no step of another agent
falls inside an operation, and the invariant of the machine. -/

namespace Sys2Proof.Machine

/-- The machine can take a step: no fault is recorded (10_state.md rule R74) and the parameters are legal
(00_scope.md rule R9). -/
structure State.Ready (s : State) : Prop where
  noFault : s.fault = none
  legal   : s.cfg.legal = true

/-- No BUS step falls between the accesses of the next operation and no ISR step between its parts (20_memory.md
rule R117): the tapes are empty. -/
structure State.Quiet (s : State) : Prop where
  bus : s.busTape = []
  isr : s.isrTape = []

/-- The peripheral is out of reset (44_dcd_ops.md rule R301). -/
def State.Running (s : State) : Prop := s.fres = false

/-- A range of `n` bytes of RAM from `a` up is mapped (20_memory.md rule R104). -/
def Config.MappedRange (c : Config) (a n : Nat) : Prop := ∀ k < n, Config.mapped c (a + k) = true

/-- `n` bytes of memory from `a` up. -/
def Memory.readBytes (m : List Host.Cell) (a n : Nat) : List Byte :=
  (List.range n).map fun k => Memory.read m (a + k)

/-- Memory with the bytes `bs` stored from `a` up, the first first. -/
def Memory.writeBytes : List Host.Cell → Nat → List Byte → List Host.Cell
  | m, _, [] => m
  | m, a, b :: bs => Memory.writeBytes (Memory.write m a b) (a + 1) bs

/-- The state with the bytes `bs` stored in packet memory from `a` up. -/
@[simps]
def State.pmaStored (s : State) (a : Nat) (bs : List Byte) : State :=
  { s with pma := Memory.writeBytes s.pma a bs }

/-- The state with the bytes `bs` stored in RAM from `a` up. -/
@[simps]
def State.ramStored (s : State) (a : Nat) (bs : List Byte) : State :=
  { s with ram := Memory.writeBytes s.ram a bs }

/-- The 16-bit word at PMA offset `a` (rule R107). -/
def State.pmaHalfAt (s : State) (a : Nat) : Half := le16 (Memory.read s.pma a) (Memory.read s.pma (a + 1))

/-- `ADDR(b)` of BTABLE entry `i` (rule R101). -/
def State.btAddrOf (s : State) (i : Nat) (b : Bool) : Half := s.pmaHalfAt (btAddr s.cfg i b)

/-- `COUNTW(b)` of BTABLE entry `i` (rule R101). -/
def State.countwOf (s : State) (i : Nat) (b : Bool) : Half := s.pmaHalfAt (btAddr s.cfg i b + 2)

/-- Every byte outside the `n` bytes from `a` up reads as before. -/
def Memory.SameOutside (m m' : List Host.Cell) (a n : Nat) : Prop :=
  ∀ j, (j < a ∨ a + n ≤ j) → Memory.read m' j = Memory.read m j

/-! ### The invariant -/

/-- Both memories are in the canonical form and list only bytes that exist (rules R100, R104). -/
structure State.MemoryOk (s : State) : Prop where
  pmaWf    : Memory.wf s.pma
  ramWf    : Memory.wf s.ram
  pmaInside : ∀ c ∈ s.pma, c.1 < s.cfg.pmaSize
  ramInside : ∀ c ∈ s.ram, Config.mapped s.cfg c.1 = true

/-- Registers that do not exist hold 0 and reserved bits read 0 (10_state.md rules R43, R46, R47, R49, R50). -/
structure State.RegistersOk (s : State) : Prop where
  absent : ∀ i, s.cfg.nEp ≤ i → s.eprAt i = 0#16
  cntr   : s.cntr &&& 0x00E0#16 = 0#16
  istr   : s.istr &&& 0x00E0#16 = 0#16
  daddr  : s.daddr &&& 0xFF00#16 = 0#16
  btable : s.btable &&& 0x0007#16 = 0#16

/-- `ISTR.CTR`, `DIR` and `EP_ID` are those of the endpoint registers (rule R48). -/
def State.IstrOk (s : State) : Prop :=
  match firstCtr s.cfg.nEp s.epr with
  | none   => istrCtr s.istr = false
  | some i => istrCtr s.istr = true ∧ istrEpId s.istr = i ∧ istrDir s.istr = ctrRx (s.eprAt i)

/-- While held in reset the endpoint registers, `ISTR` and `DADDR` are 0 (44_dcd_ops.md rule R301). -/
def State.HeldOk (s : State) : Prop :=
  s.fres = true → (∀ i, s.eprAt i = 0#16) ∧ s.istr = 0#16 ∧ s.daddr = 0#16

/-- The cursor stays in the PMA (10_state.md rule R53) and even (20_memory.md rule R109). -/
def State.CursorOk (s : State) : Prop := s.pmaCursor ≤ s.cfg.pmaSize ∧ s.pmaCursor % 2 = 0

/-- 42_pma_btable.md rule R252 for one slot. -/
def Slot.ok (v : Slot) : Prop :=
  ((v.allocOut = true ∨ v.allocIn = true) → v.epNum ≠ 0xFF#8 ∧ v.epType.toNat < 4)
    ∧ (v.epType = 1#8 → ¬ (v.allocOut = true ∧ v.allocIn = true))

/-- Rule R252 for every slot. -/
def State.SlotsOk (s : State) : Prop := ∀ i, (s.slotAt i).ok

/-- The event queue holds at most `EVQ_DEPTH` events (10_state.md rule R61). -/
def State.QueueOk (s : State) : Prop := s.evq.length ≤ s.cfg.evqDepth

/-- Every FIFO holds at most its capacity (20_memory.md rule R106). -/
def State.FifosOk (s : State) : Prop := ∀ p ∈ s.fifos, p.2.q.length ≤ p.2.cap

/-- The invariant of the machine. -/
structure State.Inv (s : State) : Prop where
  legal     : s.cfg.legal = true
  memory    : s.MemoryOk
  registers : s.RegistersOk
  istr      : s.IstrOk
  held      : s.HeldOk
  cursor    : s.CursorOk
  slots     : s.SlotsOk
  queue     : s.QueueOk
  fifos     : s.FifosOk

/-! ### What an operation may change -/

/-- Of the registers only `EPR[i]` changed, with `ISTR.CTR`, `DIR` and `EP_ID` recomputed (rule R48); nothing else
of the state changed. -/
structure State.OnlyEpr (s t : State) (i : Nat) : Prop where
  rest   : t = { s with epr := t.epr, istr := t.istr }
  others : ∀ j, j ≠ i → t.eprAt j = s.eprAt j
  flags  : t.istr &&& 0x7F00#16 = s.istr &&& 0x7F00#16
  report : t.IstrOk
  kept   : istrCtr t.istr = false → t.istr &&& 0x001F#16 = s.istr &&& 0x001F#16

/-! ### What the operations leave, as functions of the state before them -/

/-- `ADDR(b)` of BTABLE entry `i` is `a` (42_pma_btable.md rule R244). -/
@[simps]
def State.addrStored (s : State) (i : Nat) (b : Bool) (a : Half) : State :=
  { s with pma := Memory.writeBytes s.pma (btAddr s.cfg i b) (leBytes16 a) }

/-- `COUNTW(b)` of BTABLE entry `i` is `v` (rule R249). -/
@[simps]
def State.countwStored (s : State) (i : Nat) (b : Bool) (v : Half) : State :=
  { s with pma := Memory.writeBytes s.pma (btAddr s.cfg i b + 2) (leBytes16 v) }

/-- `COUNTW(b).COUNT` of BTABLE entry `i` is `n`, its bits 15:10 as before (rule R247). -/
@[simps]
def State.countStored (s : State) (i : Nat) (b : Bool) (n : Nat) : State :=
  { s with pma :=
      Memory.writeBytes s.pma (btAddr s.cfg i b + 2) (leBytes16 (withCount (s.countwOf i b) n)) }

/-- `ev` is appended to `EVQ` (10_state.md rule R62). -/
@[simps]
def State.posted (s : State) (ev : Event) : State := { s with evq := s.evq ++ [ev] }

/-- `RES` is `r` (00_scope.md rule R12). -/
@[simps]
def State.withRes (s : State) (r : Word) : State := { s with res := r }

/-- `pma_cursor` is `n` (42_pma_btable.md rule R242). -/
@[simps]
def State.withCursor (s : State) (n : Nat) : State := { s with pmaCursor := n }

/-- The run observes `o` (00_scope.md rule R17). -/
@[simps]
def State.observed (s : State) (o : Output) : State := { s with outputs := s.outputs ++ [o] }

/-- The record `msc` is `m`. -/
@[simps]
def State.withMsc (s : State) (m : Msc) : State := { s with msc := m }

/-- `EVQ` has room for one event (rule R62). -/
def State.Room (s : State) : Prop := s.evq.length < s.cfg.evqDepth

/-- Slot `i` is the first fit of `ep` and `ty` (42_pma_btable.md rule R251). -/
structure State.FirstSlot (s : State) (ep : Byte) (ty : BitVec 2) (i : Nat) : Prop where
  inside : i < s.cfg.nEp
  here   : (s.slotAt i).isOpen (epNum ep) (epDir ep) ty = true ∨ (s.slotAt i).fits (epNum ep) (epDir ep) ty = true
  first  : ∀ j, j < i → (s.slotAt j).isOpen (epNum ep) (epDir ep) ty = false
             ∧ (s.slotAt j).fits (epNum ep) (epDir ep) ty = false

/-- Slot `i` holds the direction (rule R251). -/
@[simps]
def State.slotTaken (s : State) (ep : Byte) (ty : BitVec 2) (i : Nat) : State :=
  { s with slots := s.slots.setIfInBounds i ((s.slotAt i).take (epNum ep) (epDir ep) ty) }

/-! #### Opening, stalling (44_dcd_ops.md) -/

/-- `EP_OPEN` completes, on slot `i` (rule R304). -/
structure State.CanOpen (s : State) (ep : Byte) (ty : BitVec 2) (mps : BitVec 11) (i : Nat) : Prop where
  slot  : s.FirstSlot ep ty i
  size  : mps.toNat ≤ 1024
  room  : s.pmaCursor + aligned mps.toNat ≤ s.cfg.pmaSize
  align : s.cfg.bus32 = true → s.pmaCursor % 4 = 0

/-- An endpoint register `r` after `EP_OPEN`: type, kind and EA set, the direction at NAK and DATA0 (rule R304). -/
def openedReg (n : BitVec 4) (d : Dir) (ty : BitVec 2) (r : Half) : Half :=
  match d with
  | .inn => putBits 0x077F r (placed 9 (typeMap ty) ||| placed 0 n ||| 0x0020)
  | .out => putBits 0x770F r (placed 9 (typeMap ty) ||| placed 0 n ||| 0x2000)

/-- The state after `EP_OPEN` on slot `i`, before its `RES` (rule R304). -/
def State.epOpened (s : State) (ep : Byte) (ty : BitVec 2) (mps : BitVec 11) (i : Nat) : State :=
  State.putEpr
    (State.updCtx
      (((s.slotTaken ep ty i).withCursor (s.pmaCursor + aligned mps.toNat)).addrStored
        i (bufOf (epDir ep)) (BitVec.ofNat 16 s.pmaCursor))
      (epNum ep) (epDir ep) fun x => { x with mps := mps.setWidth 16, epIdx := BitVec.ofNat 8 i })
    true i (openedReg (epNum ep) (epDir ep) ty (s.eprAt i))

/-- An endpoint register with the direction's STAT at STALL (rule R318). -/
def stalledReg (d : Dir) (r : Half) : Half :=
  match d with
  | .inn => putBits 0x0030 r 0x0010
  | .out => putBits 0x3000 r 0x1000

/-- An endpoint register with the direction's STAT at NAK and its DTOG at 0 (rule R319). -/
def unstalledReg (d : Dir) (r : Half) : Half :=
  match d with
  | .inn => putBits 0x0070 r 0x0020
  | .out => putBits 0x7000 r 0x2000

/-- The endpoint register that serves a direction: `x.ep_idx`. -/
def State.epIdxOf (s : State) (ep : Byte) : Nat := (s.ctx (epNum ep) (epDir ep)).epIdx.toNat

/-- The endpoint is open (rule R306). -/
def State.isOpened (s : State) (ep : Byte) : Prop := s.opened (epNum ep) (epDir ep) = true

/-- `EP_STALL` (rule R318). -/
def State.epStalledBy (s : State) (ep : Byte) : State :=
  s.putEpr true (s.epIdxOf ep) (stalledReg (epDir ep) (s.eprAt (s.epIdxOf ep)))

/-- `EP_CLEAR_STALL` (rule R319). -/
def State.epUnstalledBy (s : State) (ep : Byte) : State :=
  s.putEpr true (s.epIdxOf ep) (unstalledReg (epDir ep) (s.eprAt (s.epIdxOf ep)))

/-- The state after the bus-reset handler (rules R302, R303). -/
def State.ep0Reopened (s : State) : State :=
  let first := pmaFirst s.cfg
  let x0 := fun x : XferCtx => { x with mps := BitVec.ofNat 16 s.cfg.ep0Size, epIdx := 0 }
  let t : State := { s with
    slots := (Vector.replicate 8 Slot.free).setIfInBounds 0 ⟨0, 0, true, true⟩
    pmaCursor := first + 2 * s.cfg.ep0Size
    daddr := 0x0080 }
  State.putEpr
    (((((t.addrStored 0 true (BitVec.ofNat 16 first)).countwStored 0 true
      (rxSizeCode s.cfg.ep0Size)).addrStored 0 false (BitVec.ofNat 16 (first + s.cfg.ep0Size))).updCtx
      0 .out x0).updCtx 0 .inn x0)
    true 0 (putBits 0x777F (s.eprAt 0) 0x2220)

/-! #### Transfers (44_dcd_ops.md rules R313 to R315) -/

/-- The length of the next packet of an IN transfer (rule R315). -/
def XferCtx.packetLen (x : XferCtx) : Nat := min (x.totalLen.toNat - x.queuedLen.toNat) x.mps.toNat

/-- The buffer software uses to transmit: 0, or the ISO one (rules R307, R315). -/
def txBuf (r : Half) : Bool := isIso r && !dtogTx r

/-- The buffer software reads a received packet from: 1, or the ISO one (46_isr.md rule R397). -/
def rxBuf (r : Half) : Bool := !isIso r || !dtogRx r

/-- The bytes of the next packet (rule R315). -/
def State.packet (s : State) (x : XferCtx) : List Byte :=
  match x.ff with
  | none   => Memory.readBytes s.ram (x.buf.toNat + x.queuedLen.toNat) x.packetLen
  | some h => (s.fifo h).q.take x.packetLen

/-- The state once the packet is taken from its source: a FIFO transfer pops it (rule R314). -/
def State.packetTaken (s : State) (x : XferCtx) : State :=
  match x.ff with
  | none   => s
  | some h => { s with fifos := fifoPut s.fifos h.toNat { s.fifo h with q := (s.fifo h).q.drop x.packetLen } }

/-- `transmit_packet` completes (rule R315; 43_pma_copy.md rules R281, R285): the buffer is aligned and inside the
PMA, the source is mapped or holds the bytes. -/
structure State.CanSend (s : State) (n : BitVec 4) : Prop where
  inside : (s.ctx n .inn).epIdx.toNat < s.cfg.nEp
  align  : (s.btAddrOf (s.ctx n .inn).epIdx.toNat (txBuf (s.eprAt (s.ctx n .inn).epIdx.toNat))).toNat
             % Config.pmaWidth s.cfg = 0
  room   : (s.btAddrOf (s.ctx n .inn).epIdx.toNat (txBuf (s.eprAt (s.ctx n .inn).epIdx.toNat))).toNat
             + roundUp (s.ctx n .inn).packetLen (Config.pmaWidth s.cfg) ≤ s.cfg.pmaSize
  ram    : (s.ctx n .inn).ff = none → Config.MappedRange s.cfg
             ((s.ctx n .inn).buf.toNat + (s.ctx n .inn).queuedLen.toNat) (s.ctx n .inn).packetLen
  fifo   : ∀ h, (s.ctx n .inn).ff = some h → (s.ctx n .inn).packetLen ≤ (s.fifo h).q.length

/-- The state after `transmit_packet(n)` (rule R315). -/
def State.sent (s : State) (n : BitVec 4) : State :=
  let x := s.ctx n .inn
  let i := x.epIdx.toNat
  let r := s.eprAt i
  let b := txBuf r
  let stored := (s.packetTaken x).pmaStored (s.btAddrOf i b).toNat
    (takeBytes (roundUp x.packetLen (Config.pmaWidth s.cfg)) (s.packet x))
  State.putEpr
    (State.countStored
      (stored.updCtx n .inn fun x => { x with
        queuedLen := x.queuedLen + BitVec.ofNat 16 x.packetLen, isoInSending := isIso r || x.isoInSending })
      i b x.packetLen)
    true i (putBits 0x0030 r 0x0030)

/-- The size an OUT transfer is armed for (rule R313). -/
def XferCtx.armLen (x : XferCtx) : Nat := min x.totalLen.toNat x.mps.toNat

/-- Arming a receive completes (rule R313). -/
structure State.CanArm (s : State) (n : BitVec 4) : Prop where
  inside : (s.ctx n .out).epIdx.toNat < s.cfg.nEp
  size   : (s.ctx n .out).armLen ≤ 1024

/-- The state after the OUT branch of `XFER` (rule R313). -/
def State.armed (s : State) (n : BitVec 4) : State :=
  let x := s.ctx n .out
  let i := x.epIdx.toNat
  let r := s.eprAt i
  let code := rxSizeCode x.armLen
  let t := if isIso r then s.countwStored i false code else s
  State.putEpr (t.countwStored i true code) true i (putBits 0x3000 r 0x3000)

/-- The transfer context set up by `XFER` (rules R313, R314). -/
def State.started (s : State) (ep : Byte) (buf : Word) (ff : Option Word) (total : Half) : State :=
  s.updCtx (epNum ep) (epDir ep) fun x => { x with buf := buf, ff := ff, totalLen := total, queuedLen := 0 }

/-- `XFER` or `XFER_FIFO` completes (rules R313, R314). -/
structure State.CanXfer (s : State) (ep : Byte) (buf : Word) (ff : Option Word) (total : Half) : Prop where
  isOpen : s.isOpened ep
  send   : epDir ep = .inn → (s.started ep buf ff total).CanSend (epNum ep)
  arm    : epDir ep = .out → (s.started ep buf ff total).CanArm (epNum ep)

/-- The state after `XFER` or `XFER_FIFO`, before its `RES` (rules R313, R314). -/
def State.xferred (s : State) (ep : Byte) (buf : Word) (ff : Option Word) (total : Half) : State :=
  match epDir ep with
  | .inn => (s.started ep buf ff total).sent (epNum ep)
  | .out => (s.started ep buf ff total).armed (epNum ep)

/-! #### The core endpoint operations (47_bot_fsm.md rules R426 to R428) -/

/-- `xfer(ep, MSCBUF_ADDR, n)`: refused on a busy endpoint (rule R426). -/
def State.coreXferred (s : State) (ep : Byte) (n : Nat) : State :=
  if s.busyAt ep then s
  else (s.putBusy ep true).xferred ep (BitVec.ofNat 32 s.cfg.mscBufAddr) none (BitVec.ofNat 16 n)

/-- `xfer(ep, MSCBUF_ADDR, n)` completes or is refused. -/
def State.CanCoreXfer (s : State) (ep : Byte) (n : Nat) : Prop :=
  s.busyAt ep = false →
    (s.putBusy ep true).CanXfer ep (BitVec.ofNat 32 s.cfg.mscBufAddr) none (BitVec.ofNat 16 n)

/-- `stall(ep)` (rule R427). -/
def State.coreStalled (s : State) (ep : Byte) : State :=
  if s.stalledAt ep then s else ((s.epStalledBy ep).putStalled ep true).putBusy ep true

/-- `clear_stall(ep)` (rule R428). -/
def State.coreUnstalled (s : State) (ep : Byte) : State :=
  if s.stalledAt ep then ((s.epUnstalledBy ep).putStalled ep false).putBusy ep false else s

/-! #### The class machine (47_bot_fsm.md) -/

/-- `prepare_cbw()` (rule R432). -/
def State.cbwPrepared (s : State) : State :=
  State.coreXferred (s.updMsc fun m => { m with stage := .cmd }) s.msc.epOut 31

/-- The state in which `send_csw()` starts its transfer: residue, stage and the CSW's bytes in `MSCBUF` (rule
R433). -/
def State.cswStored (s : State) : State :=
  let m : Msc := { s.msc with csw := { s.msc.csw with dataResidue := s.msc.residue }, stage := .statusSent }
  (s.withMsc m).ramStored s.cfg.mscBufAddr (cswBytes m.csw)

/-- `send_csw()` (rule R433). -/
def State.cswSent (s : State) : State := s.cswStored.coreXferred s.msc.epIn 13

/-- The CBW that `MSCBUF` holds (rule R435). -/
def State.stagedCbw (s : State) : Cbw := decodeCbw (Memory.readBytes s.ram s.cfg.mscBufAddr 31)

/-- The state in which the answer `a` is used: the callback `c` observed, the answer consumed, a sense triple set
during the callback applied (48_scsi.md rule R485). -/
def State.asked (s : State) (c : AppCall) (a : Answer) (rest : List Answer) : State :=
  { s with
    outputs := s.outputs ++ [.app c]
    answers := rest
    msc := match a.sense with
      | some v => { s.msc with sense := v }
      | none   => s.msc }

/-- The default sense, written where the key is 0 (47_bot_fsm.md rule R434; 48_scsi.md rule R490). -/
def State.senseDefaulted (s : State) (v : Sense) : State :=
  if s.msc.sense.key = 0 then s.updMsc fun m => { m with sense := v } else s

/-- `fail_scsi_op(status)` up to its stall (rule R434). -/
def State.scsiFailed (s : State) (status : Byte) : State :=
  State.senseDefaulted
    (s.updMsc fun m => { m with
      csw := { m.csw with status := status, dataResidue := m.residue }, stage := .status })
    senseIllegalRequest

/-- The bulk endpoint of the data phase (rule R434). -/
def Msc.dataEp (m : Msc) : Byte := if m.cbw.isIn then m.epIn else m.epOut

/-- `fail_scsi_op(status)` (rule R434). -/
def State.opFailed (s : State) (status : Byte) : State :=
  if s.msc.cbw.totalBytes ≠ 0 ∧ s.msc.residue ≠ 0 then (s.scsiFailed status).coreStalled s.msc.dataEp
  else s.scsiFailed status

/-- IN data is still expected by the host (rule R439). -/
abbrev Msc.expectsIn (m : Msc) : Prop := m.cbw.isIn = true ∧ m.xferredLen.toNat < m.cbw.totalBytes.toNat

/-- Nothing falls inside the next operation, and its accesses are those of a running machine. -/
structure State.Calm (s : State) : Prop where
  quiet   : s.Quiet
  running : s.Running
  legal   : s.cfg.legal = true
  pmaWf   : Memory.wf s.pma

/-- The status step completes: where it acts, IN is open to be stalled, or the CSW's transfer completes (rule
R439). -/
structure State.CanStatus (s : State) : Prop where
  calm  : s.Calm
  stall : s.msc.stage = .status → s.stalledAt s.msc.epIn = false → s.msc.expectsIn → s.isOpened s.msc.epIn
  send  : s.msc.stage = .status → s.stalledAt s.msc.epIn = false → ¬ s.msc.expectsIn →
            s.cswStored.CanCoreXfer s.msc.epIn 13

/-- `status_step()` (rule R439). -/
def State.statusStepped (s : State) : State :=
  if s.msc.stage = .status ∧ s.stalledAt s.msc.epIn = false then
    if s.msc.expectsIn then s.coreStalled s.msc.epIn else s.cswSent
  else s

/-- The endpoint of the data phase can be stalled by `fail_scsi_op`, where that has to (rule R434). -/
def State.CanFail (s : State) : Prop :=
  s.msc.cbw.totalBytes ≠ 0 → s.msc.residue ≠ 0 → s.stalledAt s.msc.dataEp = false → s.isOpened s.msc.dataEp

/-- `k` more bytes of the data phase are moved. -/
@[simps!]
def State.moved (s : State) (k : Word) : State := s.updMsc fun m => { m with xferredLen := m.xferredLen + k }

/-- The stage is STATUS. -/
@[simps!]
def State.toStatusStage (s : State) : State := s.updMsc fun m => { m with stage := .status }

/-- The state in which a valid CBW is dispatched (rule R435). -/
@[simps!]
def State.cbwAccepted (s : State) : State :=
  s.withMsc { s.msc with
    cbw := s.stagedCbw, csw := ⟨cswSignature, s.stagedCbw.tag, 0, statusPassed⟩, stage := .data
    totalLen := s.stagedCbw.totalBytes, xferredLen := 0 }

/-! ### The invariant of the status wrapper (47_bot_fsm.md rule R454) -/

/-- While a command is in progress, or an asynchronous answer is awaited, the CSW carries the signature and the tag
of the CBW (rule R454 (c), (d)). -/
def State.CswOk (s : State) : Prop :=
  (s.msc.pendingIo = true ∨ s.msc.stage = .data ∨ s.msc.stage = .status ∨ s.msc.stage = .statusSent) →
    s.msc.csw.signature = cswSignature ∧ s.msc.csw.tag = s.msc.cbw.tag

/-! ### Command words (30_encoding.md rules R141 to R143) -/

/-- An operation code outside the opcode map, as rule R143 lists them. -/
def Unassigned (opc : Nat) : Prop :=
  opc ∈ [0x00, 0x0C, 0x0D, 0x0E, 0x0F, 0x59] ∨ (0x18 ≤ opc ∧ opc ≤ 0x1F) ∨ (0x24 ≤ opc ∧ opc ≤ 0x2F)
    ∨ (0x3E ≤ opc ∧ opc ≤ 0x3F) ∨ (0x41 ≤ opc ∧ opc ≤ 0x4F) ∨ 0x5F ≤ opc

/-- `EPA` breaks the form its row of rule R142 gives it (rule R141): an ep_idx, an ep_addr, a flag, unused. -/
def BadEpa (nEp opc : Nat) (epa : Byte) : Prop :=
  (((0x01 ≤ opc ∧ opc ≤ 0x0B) ∨ (0x12 ≤ opc ∧ opc ≤ 0x16)) ∧ (epa &&& 0xF0#8 ≠ 0#8 ∨ nEp ≤ epa.toNat))
    ∨ (opc ∈ [0x17, 0x31, 0x32, 0x33, 0x35, 0x36, 0x37, 0x38, 0x55, 0x5A, 0x5B, 0x5C, 0x5D, 0x5E]
        ∧ epa &&& 0x70#8 ≠ 0#8)
    ∨ (opc ∈ [0x10, 0x3B, 0x3C, 0x3D, 0x56] ∧ epa &&& 0xFE#8 ≠ 0#8)
    ∨ (opc ∈ [0x11, 0x20, 0x21, 0x22, 0x23, 0x30, 0x34, 0x39, 0x3A, 0x40, 0x50, 0x51, 0x52, 0x53, 0x54, 0x57, 0x58]
        ∧ epa ≠ 0#8)

/-- The bits of `IMM` that the row of rule R142 does not name. -/
def immUnnamed (opc : Nat) : Half :=
  if opc ∈ [0x10, 0x20, 0x21, 0x22, 0x23] then 0x0000
  else if opc ∈ [0x03, 0x04, 0x09, 0x17, 0x31, 0x54, 0x55] then 0xFFFC
  else if opc ∈ [0x05, 0x06, 0x12, 0x13, 0x14, 0x15, 0x16] then 0xFFFE
  else if opc = 0x0A then 0xFFF0
  else if opc = 0x0B then 0x80E0
  else if opc = 0x39 then 0xFF80
  else 0xFFFF

/-- A bit of an argument word is set that the command's rule says must be 0 (42_pma_btable.md rules R244, R247;
43_pma_copy.md rules R281, R283; 44_dcd_ops.md rule R304). -/
def BadArg (opc : Nat) (arg0 arg1 : Word) : Prop :=
  (opc = 0x12 ∧ arg0 &&& 0xFFFF0000#32 ≠ 0#32) ∨ (opc = 0x14 ∧ arg0 &&& 0xFFFFFC00#32 ≠ 0#32)
    ∨ (opc = 0x31 ∧ arg0 &&& 0xFFFFF800#32 ≠ 0#32) ∨ (opc ∈ [0x20, 0x21] ∧ arg1 &&& 0xFFFF0000#32 ≠ 0#32)

/-- A command word that breaks rule R141 or R440 (control stage 3), or whose operation code no row has. -/
def Malformed (nEp : Nat) (cmd arg0 arg1 : Word) : Prop :=
  Unassigned (cmdOpc cmd).toNat ∨ BadEpa nEp (cmdOpc cmd).toNat (cmdEpa cmd)
    ∨ cmdImm cmd &&& immUnnamed (cmdOpc cmd).toNat ≠ 0#16 ∨ BadArg (cmdOpc cmd).toNat arg0 arg1
    ∨ ((cmdOpc cmd).toNat = 0x54 ∧ cmdImm cmd = 3#16)

/-! ### Tokens and completions -/

/-- The token is for this device and selects the register `i` (45_bus_side.md rules R350, R351). -/
structure State.Selects (s : State) (addr : BitVec 7) (ep : BitVec 4) (d : Dir) (i : Nat) : Prop where
  attached : s.pullup = true
  running  : s.fres = false
  enabled  : s.daddr.getLsbD 7 = true
  address  : s.daddr.setWidth 7 = addr
  inside   : i < s.cfg.nEp
  number   : eaField (s.eprAt i) = ep
  live     : statOf d (s.eprAt i) ≠ statDis
  first    : ∀ j, j < i → eaField (s.eprAt j) = ep → statOf d (s.eprAt j) = statDis

/-- The one pending unmasked interrupt is the completion of one transaction, on register `i`: a reception if `rx`
(10_state.md rule R48; 60_exceptions.md rule R550). -/
structure State.OnlyCtr (s : State) (i : Nat) (rx : Bool) : Prop where
  pending : s.istr &&& s.cntr &&& 0xFF00#16 = 0x8000#16
  inside  : i < s.cfg.nEp
  id      : istrEpId s.istr = i
  dir     : istrDir s.istr = rx
  here    : ctrRx (s.eprAt i) = rx ∧ ctrTx (s.eprAt i) = !rx
  others  : ∀ j, j < s.cfg.nEp → j ≠ i → ctrRx (s.eprAt j) = false ∧ ctrTx (s.eprAt j) = false

/-- Where a received packet of `len` bytes at PMA offset `a` goes: RAM or a FIFO (46_isr.md rules R397, R400). -/
def State.received (s : State) (x : XferCtx) (a len : Nat) : State :=
  match x.ff with
  | none   => s.ramStored (x.buf.toNat + x.queuedLen.toNat) (Memory.readBytes s.pma a len)
  | some h =>
    { s with
      fifos := fifoPut s.fifos h.toNat { s.fifo h with q := (s.fifo h).q ++ Memory.readBytes s.pma a len } }

/-- The copy of a received packet completes (43_pma_copy.md rules R283, R286). -/
structure State.CanReceive (s : State) (x : XferCtx) (a len : Nat) : Prop where
  align : a % Config.pmaWidth s.cfg = 0
  room  : a + roundUp len (Config.pmaWidth s.cfg) ≤ s.cfg.pmaSize
  ram   : x.ff = none → Config.MappedRange s.cfg (x.buf.toNat + x.queuedLen.toNat) len
  fifo  : ∀ h, x.ff = some h → (s.fifo h).q.length + len ≤ (s.fifo h).cap

/-- For endpoint 0 the receive size is reset and CTR_RX cleared last (46_isr.md rule R397). -/
def State.rxEnded (s : State) (i : Nat) : State :=
  if i = 0 then
    (s.countwStored 0 true (rxSizeCode s.cfg.ep0Size)).putEpr true 0 (s.eprAt 0 &&& 0x7FFF#16)
  else s

end Sys2Proof.Machine
end

