-- ==== Sys2Proof/Certificates/Slice0/Obligations.lean ====
section
/-! DEFINITION. The statements for the provers. `Ready` is the condition under which any operation runs; with
`busTape = []` no BUS step falls between its accesses and with `isrTape = []` no ISR step between its parts (the
races are statements of their own). -/

open Sys2Proof Sys2Proof.Machine

/-! ### The command word (30_encoding.md) -/

/-- Decoding the encoding of a well-formed command gives it back, every operand at every value its field admits
(rules R140 to R142). -/
def Obligations.DecodeEncodeRoundTrip : Prop :=
  ∀ (nEp : Nat) (i : Instr), wellFormed nEp i = true →
    decode nEp (encode i).cmd (encode i).arg0 (encode i).arg1 = .ok i

/-- A word that decodes names a well-formed command, and its `CMD` is exactly that command's encoding: no bit of
`CMD` is ignored (rules R141, R142). -/
def Obligations.DecodeDeterminesCommand : Prop :=
  ∀ (nEp : Nat) (cmd arg0 arg1 : Word) (i : Instr), decode nEp cmd arg0 arg1 = .ok i →
    wellFormed nEp i = true ∧ (encode i).cmd = cmd

/-- Words written out from the rows of rule R142, one or more per family. -/
def Obligations.DecodeTableWords : Prop :=
  decode 8 0x03010003 0 0 = .ok (.eprSetTxStat 1 3)
    ∧ decode 8 0x0B001E1E 0 0 = .ok (.eprMux 0 0x1E1E)
    ∧ decode 8 0x100100C8 0 0 = .ok (.pmaAlloc true 200)
    ∧ decode 8 0x16000001 64 0 = .ok (.btSetRxBufsize 0 true 64)
    ∧ decode 8 0x20000080 0x2000 3 = .ok (.pmaWrite 0x80 0x2000 3)
    ∧ decode 8 0x31810002 64 0 = .ok (.epOpen 0x81 2 64)
    ∧ decode 8 0x39000005 0 0 = .ok (.setAddress 5)
    ∧ decode 8 0x40000000 0 0 = .ok .isrService
    ∧ decode 8 0x54000000 0x0000FEA1 0x00010000 = .ok (.mscControl 0 0x0000FEA1 0x00010000)
    ∧ decode 8 0x58000000 0x00002707 0 = .ok (.setSense 7 0x27 0)
    ∧ decode 8 0x5A810000 0x20000000 13 = .ok (.edptXfer 0x81 0x20000000 13)

/-- A word that no row of rule R142 admits raises `ILLEGAL_CMD` with the command word as its info and no other effect
than the issue itself: an `OPC` outside the map (rule R143), an `EPA` that breaks its form, a bit of `IMM` the row does
not name, an argument bit its rule says must be 0, control stage 3 (rules R141, R440). Every other word decodes. A row
ignores the words its `ARG` columns mark `-`. The fault is a next state in which it is recorded (log entry 11), and an
argument bit of which no rule speaks is ignored (log entry 10). -/
def Obligations.IllegalOpcodeFaults : Prop :=
  (∀ (s : State) (cmd arg0 arg1 : Word) (rest : List Turn), s.Ready →
    s.schedule = .command cmd arg0 arg1 :: rest → Malformed s.cfg.nEp cmd arg0 arg1 →
    step s = .next { s with schedule := rest, cmd := cmd, arg0 := arg0, arg1 := arg1,
                            fault := some (.illegalCmd cmd) })
  ∧ (∀ (nEp : Nat) (cmd arg0 arg1 : Word), ¬ Malformed nEp cmd arg0 arg1 →
    ∃ i, decode nEp cmd arg0 arg1 = .ok i)
  ∧ (∀ (nEp : Nat) (cmd arg0 arg1 arg1' : Word),
    (cmdOpc cmd).toNat ∉ [0x20, 0x21, 0x22, 0x23, 0x35, 0x36, 0x53, 0x54, 0x55, 0x5A] →
    decode nEp cmd arg0 arg1 = decode nEp cmd arg0 arg1')
  ∧ (∀ (nEp : Nat) (cmd arg0 arg0' arg1 : Word),
    (cmdOpc cmd).toNat ∉ [0x02, 0x12, 0x14, 0x16, 0x20, 0x21, 0x22, 0x23, 0x31, 0x32, 0x33, 0x35, 0x36, 0x53,
      0x54, 0x56, 0x58, 0x5A] →
    decode nEp cmd arg0 arg1 = decode nEp cmd arg0' arg1)

/-- A command whose operands break rule R141 or R440 (an index at or above `N_EP`, a must-be-zero operand bit,
control stage 3) raises `ILLEGAL_CMD` and has no other effect. -/
def Obligations.IllFormedOperandFaults : Prop :=
  ∀ (s : State) (i : Instr), s.Ready → wellFormed s.cfg.nEp i = false →
    exec i s = .next { s with fault := some (.illegalCmd s.cmd) }

/-! ### The endpoint register engine (41_epreg_engine.md) -/

/-- The hardware write class by class (rule R203) as `EPR_WRITE` performs it (rule R206): CTR write-0-to-clear, DTOG
and STAT toggle, SETUP read-only, the rest writable. Only that register and the report fields of `ISTR` change. -/
def Obligations.EprWriteByClass : Prop :=
  ∀ (s : State) (i : BitVec 4) (w : Half), s.Ready → s.busTape = [] → s.Running → i.toNat < s.cfg.nEp →
    ∃ t, exec (.eprWrite i w) s = .next t ∧ s.OnlyEpr t i.toNat
      ∧ ctrRx (t.eprAt i.toNat) = (ctrRx (s.eprAt i.toNat) && ctrRx w)
      ∧ dtogRx (t.eprAt i.toNat) = (dtogRx (s.eprAt i.toNat) ^^ dtogRx w)
      ∧ statRx (t.eprAt i.toNat) = statRx (s.eprAt i.toNat) ^^^ statRx w
      ∧ setupBit (t.eprAt i.toNat) = setupBit (s.eprAt i.toNat)
      ∧ epType (t.eprAt i.toNat) = epType w
      ∧ epKind (t.eprAt i.toNat) = epKind w
      ∧ ctrTx (t.eprAt i.toNat) = (ctrTx (s.eprAt i.toNat) && ctrTx w)
      ∧ dtogTx (t.eprAt i.toNat) = (dtogTx (s.eprAt i.toNat) ^^ dtogTx w)
      ∧ statTx (t.eprAt i.toNat) = statTx (s.eprAt i.toNat) ^^^ statTx w
      ∧ eaField (t.eprAt i.toNat) = eaField w

/-- The law of the multiplexer (rule R204): with no BUS step between the read and the write of `P(i, c)`, every
selected field equals its target and every other field is unchanged. -/
def Obligations.MultiplexerLaw : Prop :=
  ∀ (s : State) (i : Nat) (c : MuxSel), s.busTape = [] → s.Running → s.cfg.nEp ≤ 8 → i < s.cfg.nEp →
    ∃ t, rmwEpr i c s = .ok () t ∧ s.OnlyEpr t i
      ∧ statTx (t.eprAt i) = c.statTx.getD (statTx (s.eprAt i))
      ∧ dtogTx (t.eprAt i) = c.dtogTx.getD (dtogTx (s.eprAt i))
      ∧ statRx (t.eprAt i) = c.statRx.getD (statRx (s.eprAt i))
      ∧ dtogRx (t.eprAt i) = c.dtogRx.getD (dtogRx (s.eprAt i))
      ∧ ctrTx (t.eprAt i) = (ctrTx (s.eprAt i) && !c.clrCtrTx)
      ∧ ctrRx (t.eprAt i) = (ctrRx (s.eprAt i) && !c.clrCtrRx)
      ∧ epType (t.eprAt i) = c.type.getD (epType (s.eprAt i))
      ∧ epKind (t.eprAt i) = c.kind.getD (epKind (s.eprAt i))
      ∧ eaField (t.eprAt i) = c.ea.getD (eaField (s.eprAt i))
      ∧ setupBit (t.eprAt i) = setupBit (s.eprAt i)

/-- The eight primitives that name their field (rules R207 to R213, R215): the register afterwards is the one before with the named bits
replaced, and nothing else changes but the report fields of `ISTR`. -/
def Obligations.EprPrimitives : Prop :=
  ∀ (s : State) (i : BitVec 4), s.Ready → s.busTape = [] → s.Running → i.toNat < s.cfg.nEp →
    (∀ st, ∃ t, exec (.eprSetTxStat i st) s = .next t ∧ s.OnlyEpr t i.toNat
      ∧ t.eprAt i.toNat = putBits 0x0030 (s.eprAt i.toNat) (placed 4 st))
    ∧ (∀ st, ∃ t, exec (.eprSetRxStat i st) s = .next t ∧ s.OnlyEpr t i.toNat
      ∧ t.eprAt i.toNat = putBits 0x3000 (s.eprAt i.toNat) (placed 12 st))
    ∧ (∀ d, ∃ t, exec (.eprSetTxDtog i d) s = .next t ∧ s.OnlyEpr t i.toNat
      ∧ t.eprAt i.toNat = putBits 0x0040 (s.eprAt i.toNat) (if d then 0x0040 else 0))
    ∧ (∀ d, ∃ t, exec (.eprSetRxDtog i d) s = .next t ∧ s.OnlyEpr t i.toNat
      ∧ t.eprAt i.toNat = putBits 0x4000 (s.eprAt i.toNat) (if d then 0x4000 else 0))
    ∧ (∃ t, exec (.eprClrTxCtr i) s = .next t ∧ s.OnlyEpr t i.toNat
      ∧ t.eprAt i.toNat = s.eprAt i.toNat &&& 0xFF7F)
    ∧ (∃ t, exec (.eprClrRxCtr i) s = .next t ∧ s.OnlyEpr t i.toNat
      ∧ t.eprAt i.toNat = s.eprAt i.toNat &&& 0x7FFF)
    ∧ (∀ ty, ∃ t, exec (.eprSetType i ty) s = .next t ∧ s.OnlyEpr t i.toNat
      ∧ t.eprAt i.toNat = putBits 0x0700 (s.eprAt i.toNat) (placed 9 ty))
    ∧ (∀ ea : BitVec 4, ∃ t, exec (.eprSetEa i ea) s = .next t ∧ s.OnlyEpr t i.toNat
      ∧ t.eprAt i.toNat = putBits 0x000F (s.eprAt i.toNat) (placed 0 ea))

/-- `EPR_MUX` (rule R216) with the select inputs at the bits rule R145 gives them: a field whose change bit is set
takes its target, a CTR bit whose clear bit is set is cleared, every other field is unchanged. -/
def Obligations.EprMuxControlWord : Prop :=
  ∀ (s : State) (i : BitVec 4) (ctl : Half), s.Ready → s.busTape = [] → s.Running → i.toNat < s.cfg.nEp →
    ctl &&& 0x80E0#16 = 0#16 →
    ∃ t, exec (.eprMux i ctl) s = .next t ∧ s.OnlyEpr t i.toNat
      ∧ statTx (t.eprAt i.toNat)
          = (if ctl.getLsbD 2 then ctl.extractLsb' 0 2 else statTx (s.eprAt i.toNat))
      ∧ dtogTx (t.eprAt i.toNat) = (if ctl.getLsbD 4 then ctl.getLsbD 3 else dtogTx (s.eprAt i.toNat))
      ∧ statRx (t.eprAt i.toNat)
          = (if ctl.getLsbD 10 then ctl.extractLsb' 8 2 else statRx (s.eprAt i.toNat))
      ∧ dtogRx (t.eprAt i.toNat) = (if ctl.getLsbD 12 then ctl.getLsbD 11 else dtogRx (s.eprAt i.toNat))
      ∧ ctrTx (t.eprAt i.toNat) = (ctrTx (s.eprAt i.toNat) && !ctl.getLsbD 13)
      ∧ ctrRx (t.eprAt i.toNat) = (ctrRx (s.eprAt i.toNat) && !ctl.getLsbD 14)
      ∧ t.eprAt i.toNat &&& 0x0F0F#16 = s.eprAt i.toNat &&& 0x0F0F#16

/-- While `CNTR.FRES = 1` the peripheral is held in reset (44_dcd_ops.md rule R301): the commands that write an
endpoint register complete and change nothing, which is the model's reading of R301 (log entry 7). -/
def Obligations.EprWritesHeldInReset : Prop :=
  ∀ (s : State) (i : BitVec 4), s.Ready → s.busTape = [] → s.fres = true → i.toNat < s.cfg.nEp →
    (∀ w, exec (.eprWrite i w) s = .next s) ∧ (∀ st, exec (.eprSetTxStat i st) s = .next s)
    ∧ (∀ st, exec (.eprSetRxStat i st) s = .next s) ∧ (∀ d, exec (.eprSetTxDtog i d) s = .next s)
    ∧ (∀ d, exec (.eprSetRxDtog i d) s = .next s) ∧ exec (.eprClrTxCtr i) s = .next s
    ∧ exec (.eprClrRxCtr i) s = .next s ∧ (∀ ty, exec (.eprSetType i ty) s = .next s)
    ∧ (∀ ea, exec (.eprSetEa i ea) s = .next s)
    ∧ (∀ ctl, ctl &&& 0x80E0#16 = 0#16 → exec (.eprMux i ctl) s = .next s)

/-- The race of a split primitive (rule R214): BUS steps `w` between the read and the write of `P(i, c)` leave the
state `u`; a CTR bit they set is kept unless `c` clears it, a toggle field not selected keeps their value, a selected
one becomes `o ^ r ^ target`; EP_TYPE, EP_KIND and EA take the target or, not selected, the value that was read (rules
R201, R203); SETUP is theirs. -/
def Obligations.EprSplitRace : Prop :=
  ∀ (s u : State) (i : Nat) (c : MuxSel) (w : List BusRec) (rest : List (List BusRec)),
    s.busTape = [] :: w :: rest → i < s.cfg.nEp → s.cfg.nEp ≤ 8 →
    forEach w busStep { s with busTape := rest } = .ok () u → u.cfg = s.cfg → u.Running →
    ∃ t, rmwEpr i c s = .ok () t ∧ u.OnlyEpr t i
      ∧ ctrTx (t.eprAt i) = (ctrTx (u.eprAt i) && !c.clrCtrTx)
      ∧ ctrRx (t.eprAt i) = (ctrRx (u.eprAt i) && !c.clrCtrRx)
      ∧ statTx (t.eprAt i) = (match c.statTx with
          | none => statTx (u.eprAt i) | some v => statTx (u.eprAt i) ^^^ statTx (s.eprAt i) ^^^ v)
      ∧ dtogTx (t.eprAt i) = (match c.dtogTx with
          | none => dtogTx (u.eprAt i) | some v => dtogTx (u.eprAt i) ^^ dtogTx (s.eprAt i) ^^ v)
      ∧ statRx (t.eprAt i) = (match c.statRx with
          | none => statRx (u.eprAt i) | some v => statRx (u.eprAt i) ^^^ statRx (s.eprAt i) ^^^ v)
      ∧ dtogRx (t.eprAt i) = (match c.dtogRx with
          | none => dtogRx (u.eprAt i) | some v => dtogRx (u.eprAt i) ^^ dtogRx (s.eprAt i) ^^ v)
      ∧ epType (t.eprAt i) = c.type.getD (epType (s.eprAt i))
      ∧ epKind (t.eprAt i) = c.kind.getD (epKind (s.eprAt i))
      ∧ eaField (t.eprAt i) = c.ea.getD (eaField (s.eprAt i))
      ∧ setupBit (t.eprAt i) = setupBit (u.eprAt i)

/-- The commands that only read return what they read in `RES`, zero-extended, and change nothing else
(rules R205, R245, R248; 47_bot_fsm.md rule R429). -/
def Obligations.ReadingCommands : Prop :=
  ∀ (s : State), s.Ready → s.busTape = [] →
    (∀ i : BitVec 4, i.toNat < s.cfg.nEp →
      exec (.eprRead i) s = .next { s with res := (s.eprAt i.toNat).setWidth 32 })
    ∧ (∀ (i : BitVec 4) (b : Bool), i.toNat < s.cfg.nEp →
      exec (.btGetAddr i b) s = .next { s with res := (s.btAddrOf i.toNat b).setWidth 32 })
    ∧ (∀ (i : BitVec 4) (b : Bool), i.toNat < s.cfg.nEp →
      exec (.btGetCount i b) s
        = .next { s with res := ((s.countwOf i.toNat b).extractLsb' 0 10).setWidth 32 })
    ∧ (∀ ep : Byte, epOk ep = true →
      exec (.edptStalled ep) s = .next { s with res := if s.stalledAt ep then 1 else 0 })
    ∧ (∀ ep : Byte, epOk ep = true →
      exec (.edptReady ep) s
        = .next { s with res := if s.busyAt ep = false ∧ s.stalledAt ep = false then 1 else 0 })

/-! ### Allocator, BTABLE and slots (42_pma_btable.md) -/

/-- `PMA_ALLOC` (rules R242, R243) and `PMA_RESET` (rule R241): the length check, the room check before the cursor
moves, the packed offsets, and the alignment check of a 32-bit bus after it moved. -/
def Obligations.PmaAllocator : Prop :=
  ∀ (s : State) (len : Half) (dbuf : Bool), s.Ready →
    exec .pmaReset s = .next { s with pmaCursor := s.cfg.btableBase + 8 * s.cfg.nEp }
    ∧ (1024 < len.toNat → exec (.pmaAlloc dbuf len) s = .next { s with fault := some (.pmaLen len.toNat) })
    ∧ (len.toNat ≤ 1024 →
        s.cfg.pmaSize < s.pmaCursor + (if dbuf then 2 * aligned len.toNat else aligned len.toNat) →
        exec (.pmaAlloc dbuf len) s = .next { s with fault := some (.pmaExhausted len.toNat) })
    ∧ (len.toNat ≤ 1024 →
        s.pmaCursor + (if dbuf then 2 * aligned len.toNat else aligned len.toNat) ≤ s.cfg.pmaSize →
        (s.cfg.bus32 = false ∨ (s.pmaCursor % 4 = 0 ∧ (dbuf = true → (s.pmaCursor + aligned len.toNat) % 4 = 0))) →
        exec (.pmaAlloc dbuf len) s = .next { s with
          pmaCursor := s.pmaCursor + (if dbuf then 2 * aligned len.toNat else aligned len.toNat)
          res := if dbuf then BitVec.ofNat 16 (s.pmaCursor + aligned len.toNat) ++ BitVec.ofNat 16 s.pmaCursor
                 else BitVec.ofNat 32 s.pmaCursor })
    ∧ (len.toNat ≤ 1024 →
        s.pmaCursor + (if dbuf then 2 * aligned len.toNat else aligned len.toNat) ≤ s.cfg.pmaSize →
        s.cfg.bus32 = true → s.pmaCursor % 4 ≠ 0 →
        exec (.pmaAlloc dbuf len) s = .next { s with
          pmaCursor := s.pmaCursor + (if dbuf then 2 * aligned len.toNat else aligned len.toNat)
          fault := some (.pmaAlign s.pmaCursor) })
    ∧ (len.toNat ≤ 1024 → dbuf = true → s.pmaCursor + 2 * aligned len.toNat ≤ s.cfg.pmaSize →
        s.cfg.bus32 = true → s.pmaCursor % 4 = 0 → (s.pmaCursor + aligned len.toNat) % 4 ≠ 0 →
        exec (.pmaAlloc dbuf len) s = .next { s with
          pmaCursor := s.pmaCursor + 2 * aligned len.toNat
          fault := some (.pmaAlign (s.pmaCursor + aligned len.toNat)) })

/-- The capacity the receive-size code grants is the allocator's rounding of the size, for every size up to 1024
(rule R246). -/
def Obligations.RxSizeCodeCapacity : Prop :=
  ∀ size : Nat, size ≤ 1024 → rxCap (rxSizeCode size) = aligned size

/-- `BT_SET_ADDR`, `BT_SET_COUNT` and `BT_SET_RX_BUFSIZE` (rules R244, R247, R249) store their field at the place
rule R101 gives it, on either bus; every other byte of the PMA reads as before, and nothing else changes. -/
def Obligations.BtableWrites : Prop :=
  ∀ (s : State) (i : BitVec 4) (b : Bool), s.Ready → s.busTape = [] → Memory.wf s.pma → i.toNat < s.cfg.nEp →
    (∀ a : Half, ∃ t, exec (.btSetAddr i b a) s = .next t ∧ t = { s with pma := t.pma }
      ∧ t.btAddrOf i.toNat b = a
      ∧ Memory.SameOutside s.pma t.pma (s.cfg.btableBase + 8 * i.toNat + (if b then 4 else 0)) 2)
    ∧ (∀ n : BitVec 10, ∃ t, exec (.btSetCount i b n) s = .next t ∧ t = { s with pma := t.pma }
      ∧ t.countwOf i.toNat b = putBits 0x03FF (s.countwOf i.toNat b) (n.setWidth 16)
      ∧ Memory.SameOutside s.pma t.pma (s.cfg.btableBase + 8 * i.toNat + (if b then 4 else 0) + 2) 2)
    ∧ (∀ size : Half, size.toNat ≤ 1024 →
      ∃ t, exec (.btSetRxBufsize i b size) s = .next t ∧ t = { s with pma := t.pma }
        ∧ t.countwOf i.toNat b
            = (if size.toNat ≤ 62 then placed 10 (BitVec.ofNat 5 (ceilDiv size.toNat 2))
               else 0x8000#16 ||| placed 10 (BitVec.ofNat 5 (ceilDiv size.toNat 32 - 1)))
        ∧ Memory.SameOutside s.pma t.pma (s.cfg.btableBase + 8 * i.toNat + (if b then 4 else 0) + 2) 2)
    ∧ (∀ size : Half, 1024 < size.toNat →
      exec (.btSetRxBufsize i b size) s = .next { s with fault := some (.pmaLen size.toNat) })

/-- `EP_ALLOC` (rules R250, R251): the first slot, in ascending index, in which the direction is already open or
fits; an open direction keeps its slot unchanged; with none the fault `SLOT_EXHAUSTED`. -/
def Obligations.EpAllocFirstFit : Prop :=
  ∀ (s : State) (ep : Byte) (ty : BitVec 2), s.Ready → epOk ep = true →
    (∀ i, i < s.cfg.nEp →
      (∀ j, j < i → (s.slotAt j).isOpen (epNum ep) (epDir ep) ty = false
        ∧ (s.slotAt j).fits (epNum ep) (epDir ep) ty = false) →
      ((s.slotAt i).isOpen (epNum ep) (epDir ep) ty = true →
        exec (.epAlloc ep ty) s = .next { s with res := BitVec.ofNat 32 i })
      ∧ ((s.slotAt i).fits (epNum ep) (epDir ep) ty = true →
        ∃ t, exec (.epAlloc ep ty) s = .next t ∧ t = { s with slots := t.slots, res := BitVec.ofNat 32 i }
          ∧ (∀ j, j ≠ i → t.slotAt j = s.slotAt j)
          ∧ (t.slotAt i).epNum = (epNum ep).setWidth 8 ∧ (t.slotAt i).epType = ty.setWidth 8
          ∧ (t.slotAt i).alloc (epDir ep) = true
          ∧ (t.slotAt i).alloc (epDir ep).opp = (s.slotAt i).alloc (epDir ep).opp))
    ∧ ((∀ j, j < s.cfg.nEp → (s.slotAt j).isOpen (epNum ep) (epDir ep) ty = false
        ∧ (s.slotAt j).fits (epNum ep) (epDir ep) ty = false) →
      exec (.epAlloc ep ty) s = .next { s with fault := some (.slotExhausted ep) })

/-! ### Packet copies (43_pma_copy.md) -/

/-- `PMA_WRITE` (rules R281, R282): afterwards the PMA holds the `len` RAM bytes at `off`, then zeros up to the end
of the last word; no other PMA byte changes. `PMA_READ` (rule R283): exactly `len` RAM bytes are written, with the PMA
bytes at `off`; no other RAM byte changes. Neither changes anything else. -/
def Obligations.PmaCopies : Prop :=
  ∀ (s : State) (off : Half) (ram : Word) (len : Half), s.Ready → s.busTape = [] → s.MemoryOk →
    off.toNat % Config.pmaWidth s.cfg = 0 →
    off.toNat + roundUp len.toNat (Config.pmaWidth s.cfg) ≤ s.cfg.pmaSize →
    Config.MappedRange s.cfg ram.toNat len.toNat →
    (∃ t, exec (.pmaWrite off ram len) s = .next t ∧ t = { s with pma := t.pma }
      ∧ (∀ j, j < len.toNat → Memory.read t.pma (off.toNat + j) = Memory.read s.ram (ram.toNat + j))
      ∧ (∀ j, len.toNat ≤ j → j < roundUp len.toNat (Config.pmaWidth s.cfg) →
          Memory.read t.pma (off.toNat + j) = 0)
      ∧ Memory.SameOutside s.pma t.pma off.toNat (roundUp len.toNat (Config.pmaWidth s.cfg)))
    ∧ (∃ t, exec (.pmaRead off ram len) s = .next t ∧ t = { s with ram := t.ram }
      ∧ (∀ j, j < len.toNat → Memory.read t.ram (ram.toNat + j) = Memory.read s.pma (off.toNat + j))
      ∧ Memory.SameOutside s.ram t.ram ram.toNat len.toNat)

/-- The round trip (rule R284): `PMA_WRITE off, a, n` and then `PMA_READ off, b, n` leave the bytes of `[a, a+n)` in
`[b, b+n)`, for every `n` and both bus widths. -/
def Obligations.CopyRoundTrip : Prop :=
  ∀ (s : State) (off : Half) (a b : Word) (n : Half), s.Ready → s.busTape = [] → s.MemoryOk →
    off.toNat % Config.pmaWidth s.cfg = 0 →
    off.toNat + roundUp n.toNat (Config.pmaWidth s.cfg) ≤ s.cfg.pmaSize →
    Config.MappedRange s.cfg a.toNat n.toNat → Config.MappedRange s.cfg b.toNat n.toNat →
    ∃ t u, exec (.pmaWrite off a n) s = .next t ∧ exec (.pmaRead off b n) t = .next u
      ∧ ∀ j, j < n.toNat → Memory.read u.ram (b.toNat + j) = Memory.read s.ram (a.toNat + j)

/-- `PMA_WRITE_FIFO` and `PMA_READ_FIFO` (rules R285, R286): the popped bytes leave the FIFO and stand in the PMA as
those of `PMA_WRITE` do; the pushed bytes are the PMA's, in PMA order, behind what the FIFO held. A handle that names
no FIFO is the model's empty FIFO of capacity 0 (log entry 13), and that no RAM byte changes with a FIFO is the model's
choice of where its bytes lie (log entry 29). -/
def Obligations.FifoCopies : Prop :=
  ∀ (s : State) (off : Half) (h : Word) (len : Half), s.Ready → s.busTape = [] → Memory.wf s.pma →
    off.toNat % Config.pmaWidth s.cfg = 0 →
    off.toNat + roundUp len.toNat (Config.pmaWidth s.cfg) ≤ s.cfg.pmaSize →
    (len.toNat ≤ (s.fifo h).q.length →
      ∃ t, exec (.pmaWriteFifo off h len) s = .next t ∧ t = { s with pma := t.pma, fifos := t.fifos }
        ∧ t.fifo h = { s.fifo h with q := (s.fifo h).q.drop len.toNat }
        ∧ (∀ k : Word, k ≠ h → t.fifo k = s.fifo k)
        ∧ (∀ j, j < len.toNat → Memory.read t.pma (off.toNat + j) = (s.fifo h).q.getD j 0)
        ∧ (∀ j, len.toNat ≤ j → j < roundUp len.toNat (Config.pmaWidth s.cfg) →
            Memory.read t.pma (off.toNat + j) = 0)
        ∧ Memory.SameOutside s.pma t.pma off.toNat (roundUp len.toNat (Config.pmaWidth s.cfg)))
    ∧ ((s.fifo h).q.length + len.toNat ≤ (s.fifo h).cap →
      ∃ t, exec (.pmaReadFifo off h len) s = .next t ∧ t = { s with fifos := t.fifos }
        ∧ t.fifo h = { s.fifo h with q := (s.fifo h).q ++ Memory.readBytes s.pma off.toNat len.toNat }
        ∧ ∀ k : Word, k ≠ h → t.fifo k = s.fifo k)

/-- The checks of the four copies before their first access (rules R281, R283, R285, R286): alignment, range, and the
FIFO's contents or room; each raises its fault and changes nothing else. That a handle which names no FIFO holds nothing
and has room for nothing is the model's choice (log entry 13). -/
def Obligations.CopyChecksComeFirst : Prop :=
  ∀ (s : State) (off : Half) (ram : Word) (len : Half), s.Ready →
    (off.toNat % Config.pmaWidth s.cfg ≠ 0 →
      exec (.pmaWrite off ram len) s = .next { s with fault := some (.pmaAlign off.toNat) }
      ∧ exec (.pmaRead off ram len) s = .next { s with fault := some (.pmaAlign off.toNat) }
      ∧ exec (.pmaWriteFifo off ram len) s = .next { s with fault := some (.pmaAlign off.toNat) }
      ∧ exec (.pmaReadFifo off ram len) s = .next { s with fault := some (.pmaAlign off.toNat) })
    ∧ (off.toNat % Config.pmaWidth s.cfg = 0 →
      s.cfg.pmaSize < off.toNat + roundUp len.toNat (Config.pmaWidth s.cfg) →
      let last := off.toNat + roundUp len.toNat (Config.pmaWidth s.cfg) - 1
      exec (.pmaWrite off ram len) s = .next { s with fault := some (.pmaRange last) }
      ∧ exec (.pmaRead off ram len) s = .next { s with fault := some (.pmaRange last) }
      ∧ exec (.pmaWriteFifo off ram len) s = .next { s with fault := some (.pmaRange last) }
      ∧ exec (.pmaReadFifo off ram len) s = .next { s with fault := some (.pmaRange last) })
    ∧ (off.toNat % Config.pmaWidth s.cfg = 0 →
      off.toNat + roundUp len.toNat (Config.pmaWidth s.cfg) ≤ s.cfg.pmaSize →
      ((s.fifo ram).q.length < len.toNat →
        exec (.pmaWriteFifo off ram len) s = .next { s with fault := some (.fifoUnderrun ram) })
      ∧ ((s.fifo ram).cap < (s.fifo ram).q.length + len.toNat →
        exec (.pmaReadFifo off ram len) s = .next { s with fault := some (.fifoOverrun ram) }))

/-! ### Device controller (44_dcd_ops.md) -/

/-- `DCD_INIT` ends in the same device state from every state (rules R300 to R303; 70_reset_and_hazards.md rule
R583): registers, allocator, slots, endpoint 0 and its BTABLE entry; nothing else changes. -/
def Obligations.DcdInitEndState : Prop :=
  ∀ s : State, s.Ready → s.busTape = [] → Memory.wf s.pma →
    ∃ t, exec .dcdInit s = .next t
      ∧ t = { s with
          cntr := 0x9D00, istr := 0, daddr := 0x0080, btable := BitVec.ofNat 16 s.cfg.btableBase
          epr := (Vector.replicate 8 0).setIfInBounds 0 0x2220
          slots := (Vector.replicate 8 Slot.free).setIfInBounds 0 ⟨0, 0, true, true⟩
          pmaCursor := s.cfg.btableBase + 8 * s.cfg.nEp + 2 * s.cfg.ep0Size
          pullup := true, irqEn := true, xc := t.xc, pma := t.pma }
      ∧ (∀ d, t.ctx 0 d = { s.ctx 0 d with mps := BitVec.ofNat 16 s.cfg.ep0Size, epIdx := 0 })
      ∧ (∀ n d, n ≠ 0 → t.ctx n d = s.ctx n d)
      ∧ t.btAddrOf 0 true = BitVec.ofNat 16 (s.cfg.btableBase + 8 * s.cfg.nEp)
      ∧ t.countwOf 0 true = rxSizeCode s.cfg.ep0Size
      ∧ t.btAddrOf 0 false = BitVec.ofNat 16 (s.cfg.btableBase + 8 * s.cfg.nEp + s.cfg.ep0Size)
      ∧ t.countwOf 0 false = s.countwOf 0 false
      ∧ Memory.SameOutside s.pma t.pma s.cfg.btableBase 8

/-- `EP_OPEN` (rules R304, R305): the slot is taken, a buffer allocated and its offset stored, the context and the
register set, `RES` 1; the other direction, the CTR bits and SETUP stay. A full PMA faults with the slot taken. -/
def Obligations.EpOpenResult : Prop :=
  ∀ (s : State) (ep : Byte) (ty : BitVec 2) (mps : BitVec 11) (i : Nat), s.Ready → s.busTape = [] →
    Memory.wf s.pma → s.Running → epOk ep = true →
    (s.CanOpen ep ty mps i →
      ∃ t, exec (.epOpen ep ty mps) s = .next t ∧ t = (s.epOpened ep ty mps i).withRes 1
        ∧ t.btAddrOf i (bufOf (epDir ep)) = BitVec.ofNat 16 s.pmaCursor
        ∧ Memory.SameOutside s.pma t.pma (btAddr s.cfg i (bufOf (epDir ep))) 2
        ∧ t.pmaCursor = s.pmaCursor + aligned mps.toNat
        ∧ t.slotAt i = (s.slotAt i).take (epNum ep) (epDir ep) ty ∧ (∀ j, j ≠ i → t.slotAt j = s.slotAt j)
        ∧ t.eprAt i = openedReg (epNum ep) (epDir ep) ty (s.eprAt i) ∧ (∀ j, j ≠ i → t.eprAt j = s.eprAt j)
        ∧ t.opened (epNum ep) (epDir ep) = true)
    ∧ (s.FirstSlot ep ty i → mps.toNat ≤ 1024 → s.cfg.pmaSize < s.pmaCursor + aligned mps.toNat →
      exec (.epOpen ep ty mps) s
        = .next (takeFault (.pmaExhausted mps.toNat) (s.slotTaken ep ty i)))

/-- `ISO_ALLOC` (rule R310) gives one slot two buffers and fills both descriptors with count 0; `ISO_ACTIVATE`
(rule R311) sets the ISO type, both STATs DIS, the own DTOG 0 and the opposite DTOG 1. -/
def Obligations.IsoEndpoints : Prop :=
  ∀ (s : State) (ep : Byte), s.Ready → s.busTape = [] → Memory.wf s.pma → s.Running → epOk ep = true →
    (∀ (size : BitVec 11) (i : Nat), s.FirstSlot ep xferIso i → size.toNat ≤ 1024 →
      s.pmaCursor + 2 * aligned size.toNat ≤ s.cfg.pmaSize →
      (s.cfg.bus32 = true → s.pmaCursor % 4 = 0 ∧ (s.pmaCursor + aligned size.toNat) % 4 = 0) →
      ∃ t, exec (.isoAlloc ep size) s = .next t
        ∧ t = { s with
            slots := (s.slotTaken ep xferIso i).slots
            pmaCursor := s.pmaCursor + 2 * aligned size.toNat, pma := t.pma, res := 1
            xc := (s.updCtx (epNum ep) (epDir ep) fun x => { x with epIdx := BitVec.ofNat 8 i }).xc }
        ∧ t.btAddrOf i false = BitVec.ofNat 16 s.pmaCursor
        ∧ t.btAddrOf i true = BitVec.ofNat 16 (s.pmaCursor + aligned size.toNat)
        ∧ (∀ b, t.countwOf i b = s.countwOf i b &&& 0xFC00#16)
        ∧ Memory.SameOutside s.pma t.pma (btAddr s.cfg i false) 8)
    ∧ (∀ mps : BitVec 11, s.isOpened ep →
      ∃ t, exec (.isoActivate ep mps) s = .next t
        ∧ t = State.withRes (State.putEpr (s.updCtx (epNum ep) (epDir ep) fun x => { x with mps := mps.setWidth 16 })
              true (s.epIdxOf ep) (t.eprAt (s.epIdxOf ep))) 1
        ∧ epType (t.eprAt (s.epIdxOf ep)) = typeIso ∧ epKind (t.eprAt (s.epIdxOf ep)) = false
        ∧ eaField (t.eprAt (s.epIdxOf ep)) = epNum ep
        ∧ statTx (t.eprAt (s.epIdxOf ep)) = statDis ∧ statRx (t.eprAt (s.epIdxOf ep)) = statDis
        ∧ dtogTx (t.eprAt (s.epIdxOf ep)) = (epDir ep == .out)
        ∧ dtogRx (t.eprAt (s.epIdxOf ep)) = (epDir ep == .inn)
        ∧ ctrTx (t.eprAt (s.epIdxOf ep)) = ctrTx (s.eprAt (s.epIdxOf ep))
        ∧ ctrRx (t.eprAt (s.epIdxOf ep)) = ctrRx (s.eprAt (s.epIdxOf ep))
        ∧ setupBit (t.eprAt (s.epIdxOf ep)) = setupBit (s.eprAt (s.epIdxOf ep)))

/-- `EP_CLOSE_ALL` (rule R309): every register from 1 up is cleared but for SETUP, its slot is free, the cursor stands
behind endpoint 0's buffers; endpoint 0 and everything else is unchanged, `ISTR` reports what is left. That SETUP stays
is deduced from the write classes of rules R203 and R204 (log entry 19). -/
def Obligations.EpCloseAll : Prop :=
  ∀ s : State, s.Ready → s.busTape = [] → s.Running → s.IstrOk →
    ∃ t, exec .epCloseAll s = .next t
      ∧ t = { s with
          epr := t.epr, istr := t.istr, slots := t.slots
          pmaCursor := s.cfg.btableBase + 8 * s.cfg.nEp + 2 * s.cfg.ep0Size }
      ∧ (∀ i, 1 ≤ i → i < s.cfg.nEp → t.eprAt i = s.eprAt i &&& 0x0800#16 ∧ t.slotAt i = Slot.free)
      ∧ (∀ i, i = 0 ∨ s.cfg.nEp ≤ i → t.eprAt i = s.eprAt i ∧ t.slotAt i = s.slotAt i)
      ∧ t.istr &&& 0x7F00#16 = s.istr &&& 0x7F00#16 ∧ t.IstrOk

/-- `XFER` and `XFER_FIFO` on an IN endpoint (rules R313 to R315): the first packet is copied, its buffer padded with
zeros to a word, the count stored, then STAT_TX VALID; every other byte and register reads as before. The RAM address
does not wrap at 2^32 (log entry 9), the count of a 1024-byte packet is its low 10 bits (log entry 12), and a FIFO's
bytes lie in no RAM byte (log entry 29). -/
def Obligations.XferIn : Prop :=
  ∀ (s : State) (ep : Byte) (buf : Word) (ff : Option Word) (total : Half), s.Ready → s.busTape = [] →
    Memory.wf s.pma → s.Running → epOk ep = true → epDir ep = .inn → s.CanXfer ep buf ff total →
    (ff.isSome → buf = 0) →
    let i := s.epIdxOf ep
    let r := s.eprAt i
    let len := min total.toNat (s.ctx (epNum ep) .inn).mps.toNat
    let a := (s.btAddrOf i (txBuf r)).toNat
    let e := btAddr s.cfg i (txBuf r) + 2
    let wide := roundUp len (Config.pmaWidth s.cfg)
    ∃ t, exec (match ff with | none => .xfer ep buf total | some h => .xferFifo ep h total) s = .next t
      ∧ t = (s.xferred ep buf ff total).withRes 1
      ∧ t.eprAt i = putBits 0x0030 r 0x0030 ∧ (∀ j, j ≠ i → t.eprAt j = s.eprAt j)
      ∧ (t.ctx (epNum ep) .inn).queuedLen.toNat = len
      ∧ (isIso r = true → (t.ctx (epNum ep) .inn).isoInSending = true)
      ∧ (∀ j, (j < a ∨ a + wide ≤ j) → (j < e ∨ e + 2 ≤ j) → Memory.read t.pma j = Memory.read s.pma j)
      ∧ (∀ k < len, (a + k < e ∨ e + 2 ≤ a + k) → Memory.read t.pma (a + k)
          = match ff with
            | none   => Memory.read s.ram (buf.toNat + k)
            | some h => (s.fifo h).q.getD k 0)
      ∧ (∀ k, len ≤ k → k < wide → (a + k < e ∨ e + 2 ≤ a + k) → Memory.read t.pma (a + k) = 0)
      ∧ (e + 2 ≤ a ∨ a + wide ≤ e →
          t.countwOf i (txBuf r) = putBits 0x03FF (s.countwOf i (txBuf r)) (BitVec.ofNat 16 len))
      ∧ (∀ h, ff = some h → t.fifo h = { s.fifo h with q := (s.fifo h).q.drop len }
          ∧ ∀ k : Word, k ≠ h → t.fifo k = s.fifo k)

/-- `XFER` and `XFER_FIFO` on an OUT endpoint (rules R313, R314): the receive size of the buffer, for ISO of both, then
STAT_RX VALID; no byte but those count words and nothing else changes. -/
def Obligations.XferOut : Prop :=
  ∀ (s : State) (ep : Byte) (buf : Word) (ff : Option Word) (total : Half), s.Ready → s.busTape = [] →
    Memory.wf s.pma → s.Running → epOk ep = true → epDir ep = .out → s.CanXfer ep buf ff total →
    (ff.isSome → buf = 0) →
    let i := s.epIdxOf ep
    let r := s.eprAt i
    let code := rxSizeCode (min total.toNat (s.ctx (epNum ep) .out).mps.toNat)
    ∃ t, exec (match ff with | none => .xfer ep buf total | some h => .xferFifo ep h total) s = .next t
      ∧ t = (s.xferred ep buf ff total).withRes 1
      ∧ t.eprAt i = putBits 0x3000 r 0x3000 ∧ (∀ j, j ≠ i → t.eprAt j = s.eprAt j)
      ∧ t.countwOf i true = code ∧ t.countwOf i false = (if isIso r then code else s.countwOf i false)
      ∧ t.ctx (epNum ep) .out
          = { s.ctx (epNum ep) .out with buf := buf, ff := ff, totalLen := total, queuedLen := 0 }
      ∧ (∀ j, (j < btAddr s.cfg i true + 2 ∨ btAddr s.cfg i true + 4 ≤ j) →
          (isIso r = false ∨ j < btAddr s.cfg i false + 2 ∨ btAddr s.cfg i false + 4 ≤ j) →
          Memory.read t.pma j = Memory.read s.pma j)

/-- `EP_STALL` (rule R318) and `EP_CLEAR_STALL` (rule R319), of an endpoint stalled or not, change only the named
direction of the endpoint's register: STALL; or NAK with DTOG 0. One that is not open raises `EP_NOT_OPEN`. -/
def Obligations.EpStallAndClear : Prop :=
  (∀ (s : State) (ep : Byte), s.Ready → epOk ep = true → ¬ s.isOpened ep →
    exec (.epStall ep) s = .next { s with fault := some (.epNotOpen ep) }
    ∧ exec (.epClearStall ep) s = .next { s with fault := some (.epNotOpen ep) })
  ∧ ∀ (s : State) (ep : Byte), s.Ready → s.busTape = [] → s.Running → epOk ep = true → s.isOpened ep →
    let i := s.epIdxOf ep
    (∃ t, exec (.epStall ep) s = .next t ∧ t = s.epStalledBy ep ∧ s.OnlyEpr t i
      ∧ statOf (epDir ep) (t.eprAt i) = statStall
      ∧ t.eprAt i &&& (if epDir ep = .inn then 0xFFCF#16 else 0xCFFF#16)
          = s.eprAt i &&& (if epDir ep = .inn then 0xFFCF#16 else 0xCFFF#16))
    ∧ (∃ t, exec (.epClearStall ep) s = .next t ∧ t = s.epUnstalledBy ep ∧ s.OnlyEpr t i
      ∧ statOf (epDir ep) (t.eprAt i) = statNak
      ∧ (if epDir ep = .inn then dtogTx (t.eprAt i) else dtogRx (t.eprAt i)) = false
      ∧ t.eprAt i &&& (if epDir ep = .inn then 0xFF8F#16 else 0x8FFF#16)
          = s.eprAt i &&& (if epDir ep = .inn then 0xFF8F#16 else 0x8FFF#16))

/-- An operation that names an endpoint that is not open raises `EP_NOT_OPEN` before any access (rule R306); the core
operations reach it the same way (47_bot_fsm.md rules R426 to R428), a transfer with its busy flag set. -/
def Obligations.EpNotOpen : Prop :=
  ∀ (s : State) (ep : Byte), s.Ready → epOk ep = true → ¬ s.isOpened ep →
    (∀ mps, exec (.isoActivate ep mps) s = .next { s with fault := some (.epNotOpen ep) })
    ∧ (∀ buf n, exec (.xfer ep buf n) s = .next { s with fault := some (.epNotOpen ep) })
    ∧ (∀ h n, exec (.xferFifo ep h n) s = .next { s with fault := some (.epNotOpen ep) })
    ∧ exec (.epStall ep) s = .next { s with fault := some (.epNotOpen ep) }
    ∧ exec (.epClearStall ep) s = .next { s with fault := some (.epNotOpen ep) }
    ∧ (s.isrTape = [] →
      (∀ buf n, s.busyAt ep = false →
        exec (.edptXfer ep buf n) s = .next (takeFault (.epNotOpen ep) (s.putBusy ep true)))
      ∧ (s.stalledAt ep = false → exec (.edptStall ep) s = .next { s with fault := some (.epNotOpen ep) })
      ∧ (s.stalledAt ep = true → exec (.edptClearStall ep) s = .next { s with fault := some (.epNotOpen ep) }))

/-- The device controls (rules R320 to R324): `DADDR`, the start of a resume pulse, the SOF mask, the pull-up, the
interrupt gate; each changes that and nothing else. -/
def Obligations.DeviceControls : Prop :=
  ∀ s : State, s.Ready → s.busTape = [] → s.Running → s.RegistersOk →
    (∀ a : BitVec 7, exec (.setAddress a) s = .next { s with daddr := 0x0080#16 ||| a.setWidth 16 })
    ∧ exec .remoteWakeup s
        = .next { s with cntr := s.cntr ||| 0x0010#16, remoteWakeCd := BitVec.ofNat 8 s.cfg.remoteWakeEsof }
    ∧ exec (.sofEnable true) s = .next { s with cntr := s.cntr ||| 0x0200#16 }
    ∧ exec (.sofEnable false) s = .next { s with cntr := s.cntr &&& 0xFDFF#16 }
    ∧ (∀ en, exec (.connect en) s = .next { s with pullup := en })
    ∧ (∀ en, exec (.irqEnable en) s = .next { s with irqEn := en })

/-! ### Interrupt service (46_isr.md) -/

/-- `ISR_SERVICE` with no unmasked flag pending changes nothing; with one of SOF, WKUP, SUSP, ESOF it does that
branch's work and nothing else (rules R380, R381, R386, R387, R390): a masked flag is neither serviced nor cleared. A
full queue is `EVQ_OVERFLOW` once the branch has done the rest (rule R62). -/
def Obligations.IsrOneFlag : Prop :=
  ∀ s : State, s.Ready → s.busTape = [] → s.Running → s.RegistersOk →
    let pending := s.istr &&& s.cntr &&& 0xFF00#16
    (pending = 0 → exec .isrService s = .next s)
    ∧ (pending = flagSof → s.Room → exec .isrService s
        = .next { s with istr := s.istr &&& 0xFDFF#16, evq := s.evq ++ [.sof (s.fnr.setWidth 11)] })
    ∧ (pending = flagSof → ¬ s.Room → exec .isrService s
        = .next { s with istr := s.istr &&& 0xFDFF#16, fault := some (.evqOverflow .sof) })
    ∧ (pending = flagWkup → s.Room → exec .isrService s
        = .next { s with cntr := s.cntr &&& 0xFFF3#16, istr := s.istr &&& 0xEFFF#16, evq := s.evq ++ [.resume] })
    ∧ (pending = flagWkup → ¬ s.Room → exec .isrService s
        = .next { s with
            cntr := s.cntr &&& 0xFFF3#16, istr := s.istr &&& 0xEFFF#16, fault := some (.evqOverflow .resume) })
    ∧ (pending = flagSusp → ¬ s.Room → exec .isrService s
        = .next { s with
            cntr := s.cntr ||| 0x000C#16, istr := s.istr &&& 0xF7FF#16, fault := some (.evqOverflow .suspend) })
    ∧ (pending = flagSusp → s.Room → exec .isrService s
        = .next { s with cntr := s.cntr ||| 0x000C#16, istr := s.istr &&& 0xF7FF#16, evq := s.evq ++ [.suspend] })
    ∧ (pending = flagEsof → exec .isrService s
        = .next { s with
            cntr := if s.remoteWakeCd = 1 then s.cntr &&& 0xFFEF#16 else s.cntr
            remoteWakeCd := if s.remoteWakeCd = 0 then 0 else s.remoteWakeCd - 1
            istr := s.istr &&& 0xFEFF#16 })

/-- The RESET branch (rule R383) runs the bus-reset handler (44_dcd_ops.md rule R302), posts `BUS_RESET` and returns:
every other pending flag waits. -/
def Obligations.IsrResetBranch : Prop :=
  ∀ s : State, s.Ready → s.busTape = [] → s.Running → Memory.wf s.pma → s.Room →
    s.istr &&& s.cntr &&& 0x0600#16 = flagReset →
    ∃ t, exec .isrService s = .next t
      ∧ t = (State.ep0Reopened { s with istr := s.istr &&& 0xFBFF#16 }).posted .busReset
      ∧ t.daddr = 0x0080 ∧ t.slotAt 0 = ⟨0, 0, true, true⟩ ∧ (∀ i, i ≠ 0 → t.slotAt i = Slot.free)
      ∧ t.pmaCursor = s.cfg.btableBase + 8 * s.cfg.nEp + 2 * s.cfg.ep0Size
      ∧ t.eprAt 0 &&& 0x7F7F#16 = (s.eprAt 0 &&& 0x0800#16) ||| 0x2220#16 ∧ (∀ i, i ≠ 0 → t.eprAt i = s.eprAt i)
      ∧ Memory.SameOutside s.pma t.pma s.cfg.btableBase 8

/-- The transmit completion of one endpoint (rule R395): CTR_TX is cleared; then the next packet is sent, or the
completion posted; an ISO endpoint that was not sending is ignored, else its buffer's count becomes 0 first. The count
of a 1024-byte packet and where a FIFO's bytes lie are the model's (log entries 12 and 29). -/
def Obligations.IsrTxCompletion : Prop :=
  ∀ (s : State) (i : Nat), s.Ready → s.busTape = [] → s.Running → Memory.wf s.pma → s.OnlyCtr i false →
    let r := s.eprAt i
    let n := eaField r
    let x := s.ctx n .inn
    let s1 := s.putEpr true i (r &&& 0xFF7F#16)
    let s2 := if isIso r then
        (s1.updCtx n .inn fun x => { x with isoInSending := false }).countStored i (!dtogTx r) 0
      else s1
    (isIso r = true → x.isoInSending = false → exec .isrService s = .next s1)
    ∧ (isIso r = false ∨ x.isoInSending = true → x.queuedLen.toNat < x.totalLen.toNat → s2.CanSend n →
      exec .isrService s = .next (s2.sent n))
    ∧ (isIso r = false ∨ x.isoInSending = true → x.totalLen.toNat ≤ x.queuedLen.toNat → s.Room →
      exec .isrService s
        = .next (s2.posted (.xferComplete (n.setWidth 8 ||| 0x80#8) (x.queuedLen.setWidth 32))))

/-- The receive completion of one endpoint (rules R397, R400): CTR_RX is cleared (for endpoint 0 last), the packet
copied to the buffer or the FIFO, the length advanced; then the completion is posted or the endpoint re-armed. The
length is a u16 sum also for a packet longer than the space left, and a FIFO's bytes lie in no RAM byte: the model's
choices (log entries 28 and 29). -/
def Obligations.IsrRxCompletion : Prop :=
  ∀ (s : State) (i : Nat), s.Ready → s.busTape = [] → s.Running → Memory.wf s.pma → s.OnlyCtr i true →
    setupBit (s.eprAt i) = false →
    let r := s.eprAt i
    let n := eaField r
    let x := s.ctx n .out
    let a := (s.btAddrOf i (rxBuf r)).toNat
    let len := countField (s.countwOf i (rxBuf r))
    let q := x.queuedLen + BitVec.ofNat 16 len
    let s1 := if i = 0 then s else s.putEpr true i (r &&& 0x7FFF#16)
    let s2 := State.updCtx (s1.received x a len) n .out fun x => { x with queuedLen := q }
    let cnt := min (x.totalLen.toNat - q.toNat) x.mps.toNat
    s.CanReceive x a len →
    (len < x.mps.toNat ∨ x.totalLen.toNat ≤ q.toNat → s.Room → exec .isrService s
        = .next ((s2.posted (.xferComplete (n.setWidth 8) (q.setWidth 32))).rxEnded i))
    ∧ (x.mps.toNat ≤ len → q.toNat < x.totalLen.toNat → cnt ≤ 1024 → exec .isrService s
        = .next (((s2.countwStored i (rxBuf r) (rxSizeCode cnt)).putEpr true i
            (putBits 0x3000 (s2.eprAt i) 0x3000)).rxEnded i))

/-- The setup completion of one endpoint (rule R398): with 8 bytes, both directions go to NAK and DATA1, CTR_RX is
cleared and the packet reported, unless the queue is full (rule R62); with any other count CTR_RX is cleared and nothing
is reported. The buffer may lie at any offset, except that a 32-bit bus faults a misaligned one (20_memory.md rules R103,
R109) and a byte past the end faults as it is read (rule R100), which is the model's reading (log entry 35). -/
def Obligations.IsrSetupCompletion : Prop :=
  ∀ (s : State) (i : Nat), s.Ready → s.busTape = [] → s.Running → s.OnlyCtr i true →
    setupBit (s.eprAt i) = true →
    let a := (s.btAddrOf i true).toNat
    let startsWord : Prop := s.cfg.bus32 = true → a % 4 = 0
    let u := s.putEpr true i (putBits 0xF070 (s.eprAt i) 0x6060)
    (countField (s.countwOf i true) = 8 → startsWord → a + 8 ≤ s.cfg.pmaSize → s.Room →
      ∃ bytes : Vector Byte 8, (∀ k < 8, bytes[k]?.getD 0 = Memory.read s.pma (a + k))
        ∧ exec .isrService s = .next (u.posted (.setupReceived bytes)))
    ∧ (countField (s.countwOf i true) = 8 → startsWord → a + 8 ≤ s.cfg.pmaSize → ¬ s.Room →
      exec .isrService s = .next (takeFault (.evqOverflow .setupReceived) u))
    ∧ (countField (s.countwOf i true) = 8 → startsWord → s.cfg.pmaSize < a + 8 →
      exec .isrService s = .next (takeFault (.pmaRange (max a s.cfg.pmaSize)) s))
    ∧ (countField (s.countwOf i true) = 8 → ¬ startsWord → exec .isrService s = .next (takeFault (.pmaAlign a) s))
    ∧ (countField (s.countwOf i true) ≠ 8 →
      exec .isrService s = .next (s.putEpr true i (s.eprAt i &&& 0x7FFF#16)))

/-- The CTR loop drains every completion (rule R384): with CTR unmasked and no unmasked RESET, and no BUS step inside,
`ISR_SERVICE` leaves no CTR bit in any endpoint register, unless it raised a fault. -/
def Obligations.IsrDrainsCtr : Prop :=
  ∀ s t : State, s.Inv → s.busTape = [] → hasBit s.cntr flagCtr = true →
    s.istr &&& s.cntr &&& flagReset = 0#16 → exec .isrService s = .next t → t.fault = none →
    istrCtr t.istr = false
      ∧ ∀ i, i < s.cfg.nEp → ctrRx (t.eprAt i) = false ∧ ctrTx (t.eprAt i) = false

/-- A step of the ISR or BUS agent, with any BUS steps inside it, leaves what only TASK and the issuer change: the
class machine, the core shadow, the application's answers, the command registers, the gates (rules R117, R401). The
tapes that say which steps fall inside are the model's (log entry 15). -/
def Obligations.DeviceStepsLeaveClassState : Prop :=
  ∀ s t : State, (exec .isrService s = .next t ∨ runTurn .isr s = .next t ∨ (∃ r, runTurn (.bus r) s = .next t)) →
    t = { s with
        epr := t.epr, cntr := t.cntr, istr := t.istr, daddr := t.daddr, fnr := t.fnr, pma := t.pma
        pmaCursor := t.pmaCursor, slots := t.slots, xc := t.xc, remoteWakeCd := t.remoteWakeCd, evq := t.evq
        ram := t.ram, fifos := t.fifos, fault := t.fault, busTape := t.busTape, outputs := t.outputs }
      ∧ s.evq <+: t.evq ∧ s.outputs <+: t.outputs

/-! ### Bus side (45_bus_side.md) -/

/-- A detached device takes no BUS step; a token while the peripheral is held in reset, for another address, or for an
endpoint no register serves is answered `NONE` and changes nothing; a signal during reset has no effect (rules R350,
R351). That a record for a detached device is no step, and leaves no output, is the model's choice (log entry 16). -/
def Obligations.BusTokenNotForUs : Prop :=
  ∀ (s : State) (addr : BitVec 7) (ep : BitVec 4), s.Ready →
    (s.pullup = false → ∀ r, runTurn (.bus r) s = .next s)
    ∧ (s.pullup = true →
      ∀ (d : Dir) (r : BusRec) (pid : Pid) (bytes : List Byte), bytes.length ≤ 1023 →
        (d = .inn ∧ (r = .inTok addr ep ∨ r = .inNoAck addr ep) ∨
          d = .out ∧ (r = .out addr ep pid bytes ∨ r = .setup addr ep bytes)) →
        (s.fres = true ∨ s.daddr.getLsbD 7 = false ∨ s.daddr.setWidth 7 ≠ addr ∨
          (∀ i, i < s.cfg.nEp → eaField (s.eprAt i) = ep → statOf d (s.eprAt i) = statDis)) →
        runTurn (.bus r) s = .next (s.observed (.bus .none)))
    ∧ (s.fres = true → ∀ r, r = .reset ∨ r = .suspend ∨ r = .resume ∨ (∃ f, r = .sof f) ∨ r = .frameMissed →
        runTurn (.bus r) s = .next s)

/-- `IN` and `IN_NOACK` on the register they select (rules R354, R357, R359): STALL and NAK are answered and change
nothing; VALID sends the buffer's bytes and, unless the acknowledge of a non-ISO packet is lost, flips DTOG_TX, sets
NAK on a non-ISO endpoint and raises CTR_TX. -/
def Obligations.BusIn : Prop :=
  ∀ (s : State) (addr : BitVec 7) (ep : BitVec 4) (i : Nat) (lost : Bool), s.Ready →
    s.Selects addr ep .inn i →
    let tok : BusRec := if lost then .inNoAck addr ep else .inTok addr ep
    let r := s.eprAt i
    let b := isIso r && hwBuf s.cfg (dtogTx r)
    let a := (s.btAddrOf i b).toNat
    let n := countField (s.countwOf i b)
    let sent := s.observed (.bus (.data (if isIso r = false ∧ dtogTx r = true then .data1 else .data0)
      (Memory.readBytes s.pma a n)))
    (statTx r = statStall → runTurn (.bus tok) s = .next (s.observed (.bus .stall)))
    ∧ (statTx r = statNak → runTurn (.bus tok) s = .next (s.observed (.bus .nak)))
    ∧ (statTx r = statValid → a + n ≤ s.cfg.pmaSize →
      ((lost = true ∧ isIso r = false → runTurn (.bus tok) s = .next sent)
      ∧ (lost = false ∨ isIso r = true →
        ∃ t, runTurn (.bus tok) s = .next t ∧ t = sent.putEpr true i (t.eprAt i)
          ∧ dtogTx (t.eprAt i) = !dtogTx r ∧ ctrTx (t.eprAt i) = true
          ∧ statTx (t.eprAt i) = (if isIso r then statValid else statNak)
          ∧ t.eprAt i &&& 0xFF0F#16 = r &&& 0xFF0F#16)))
    ∧ (statTx r = statValid → s.cfg.pmaSize < a + n →
      runTurn (.bus tok) s = .next { s with fault := some (.pmaRange (a + n - 1)) })

/-- `OUT` on the register it selects (rules R355, R357, R358, R359): STALL and NAK change nothing; a packet beyond the
buffer's capacity is `RX_OVERRUN`; the wrong toggle is acknowledged and dropped; else the bytes and the count are
stored, DTOG_RX flips, a non-ISO endpoint goes to NAK, SETUP is cleared and CTR_RX raised. Of a buffer that lies over
the BTABLE this is the model's choice (log entry 30). -/
def Obligations.BusOut : Prop :=
  ∀ (s : State) (addr : BitVec 7) (ep : BitVec 4) (i : Nat) (pid : Pid) (bytes : List Byte), s.Ready →
    s.Selects addr ep .out i → bytes.length ≤ 1023 →
    let tok : BusRec := .out addr ep pid bytes
    let r := s.eprAt i
    let b := !isIso r || hwBuf s.cfg (dtogRx r)
    let a := (s.btAddrOf i b).toNat
    let stored := (s.pmaStored a bytes).countStored i b bytes.length
    (statRx r = statStall → runTurn (.bus tok) s = .next (s.observed (.bus .stall)))
    ∧ (statRx r = statNak → runTurn (.bus tok) s = .next (s.observed (.bus .nak)))
    ∧ (statRx r = statValid → rxCap (s.countwOf i b) < bytes.length →
      runTurn (.bus tok) s = .next { s with fault := some (.rxOverrun i) })
    ∧ (statRx r = statValid → bytes.length ≤ rxCap (s.countwOf i b) →
      ((isIso r = false → pid ≠ (if dtogRx r then .data1 else .data0) →
        runTurn (.bus tok) s = .next (s.observed (.bus .ack)))
      ∧ (isIso r = true ∨ pid = (if dtogRx r then .data1 else .data0) → a + bytes.length ≤ s.cfg.pmaSize →
        ∃ t, runTurn (.bus tok) s = .next t
          ∧ t = (stored.putEpr true i (t.eprAt i)).observed (.bus (if isIso r then .none else .ack))
          ∧ dtogRx (t.eprAt i) = !dtogRx r ∧ ctrRx (t.eprAt i) = true ∧ setupBit (t.eprAt i) = false
          ∧ statRx (t.eprAt i) = (if isIso r then statValid else statNak)
          ∧ t.eprAt i &&& 0x07FF#16 = r &&& 0x07FF#16)))

/-- `SETUP` on the register it selects (rule R356): not accepted by a type other than CONTROL; accepted whatever
STAT_RX and DTOG_RX are: the bytes and the count are stored, SETUP, DTOG_RX and CTR_RX become 1 and STAT_RX NAK. Of a
buffer that lies over the BTABLE this is the model's choice (log entry 30). -/
def Obligations.BusSetup : Prop :=
  ∀ (s : State) (addr : BitVec 7) (ep : BitVec 4) (i : Nat) (bytes : List Byte), s.Ready →
    s.Selects addr ep .out i → bytes.length ≤ 1023 →
    let r := s.eprAt i
    let a := (s.btAddrOf i true).toNat
    (epType r ≠ typeControl →
      runTurn (.bus (.setup addr ep bytes)) s = .next (s.observed (.bus .none)))
    ∧ (epType r = typeControl → rxCap (s.countwOf i true) < bytes.length →
      runTurn (.bus (.setup addr ep bytes)) s = .next { s with fault := some (.rxOverrun i) })
    ∧ (epType r = typeControl → bytes.length ≤ rxCap (s.countwOf i true) → a + bytes.length ≤ s.cfg.pmaSize →
      runTurn (.bus (.setup addr ep bytes)) s
        = .next ((((s.pmaStored a bytes).countStored i true bytes.length).putEpr true i
              (putBits 0xF800 r 0xE800)).observed (.bus .ack)))

/-- The bus signals (rules R361, R362): `SOF` latches the frame number, `SOF`, `FRAME_MISSED`, `SUSPEND` and `RESUME`
raise their flag, `RESET` clears the endpoint registers and the address and raises its flag. That `SOF` leaves the
other bits of `FNR`, which rule R51 leaves open, is the model's choice (log entry 4). -/
def Obligations.BusSignals : Prop :=
  ∀ s : State, s.Ready → s.pullup = true → s.Running →
    (∀ f, ∃ t, runTurn (.bus (.sof f)) s = .next t ∧ t = { s with fnr := t.fnr, istr := s.istr ||| 0x0200#16 }
      ∧ t.fnr.setWidth 11 = f ∧ t.fnr &&& 0xF800#16 = s.fnr &&& 0xF800#16)
    ∧ runTurn (.bus .frameMissed) s = .next { s with istr := s.istr ||| 0x0100#16 }
    ∧ runTurn (.bus .suspend) s = .next { s with istr := s.istr ||| 0x0800#16 }
    ∧ runTurn (.bus .resume) s = .next { s with istr := s.istr ||| 0x1000#16 }
    ∧ (∃ t, runTurn (.bus .reset) s = .next t
      ∧ t = { s with epr := Vector.replicate 8 0, daddr := 0, istr := t.istr }
      ∧ t.istr = (s.istr ||| 0x0400#16) &&& 0x7FFF#16)

/-! ### Core endpoint operations (47_bot_fsm.md) -/

/-- `EDPT_XFER`, `EDPT_STALL` and `EDPT_CLEAR_STALL` (rules R426 to R428): a busy endpoint refuses a transfer with
`RES` 0 and nothing changes; else busy is set, the transfer started and `RES` is 1. A stall and its clearing act once,
by the shadow, which they keep in step. -/
def Obligations.CoreEndpointOperations : Prop :=
  ∀ (s : State) (ep : Byte), s.Ready → s.Quiet → Memory.wf s.pma → s.Running → epOk ep = true →
    (∀ buf n, s.busyAt ep = true → exec (.edptXfer ep buf n) s = .next { s with res := 0 })
    ∧ (∀ buf n, s.busyAt ep = false → (s.putBusy ep true).CanXfer ep buf none n →
      exec (.edptXfer ep buf n) s = .next (((s.putBusy ep true).xferred ep buf none n).withRes 1))
    ∧ (s.stalledAt ep = true → exec (.edptStall ep) s = .next s)
    ∧ (s.stalledAt ep = false → s.isOpened ep →
      ∃ t, exec (.edptStall ep) s = .next t ∧ t = s.coreStalled ep
        ∧ t.stalledAt ep = true ∧ t.busyAt ep = true
        ∧ (∀ q, epIx q ≠ epIx ep → t.stalledAt q = s.stalledAt q ∧ t.busyAt q = s.busyAt q)
        ∧ statOf (epDir ep) (t.eprAt (s.epIdxOf ep)) = statStall)
    ∧ (s.stalledAt ep = false → exec (.edptClearStall ep) s = .next s)
    ∧ (s.stalledAt ep = true → s.isOpened ep →
      ∃ t, exec (.edptClearStall ep) s = .next t ∧ t = s.coreUnstalled ep
        ∧ t.stalledAt ep = false ∧ t.busyAt ep = false
        ∧ (∀ q, epIx q ≠ epIx ep → t.stalledAt q = s.stalledAt q ∧ t.busyAt q = s.busyAt q)
        ∧ statOf (epDir ep) (t.eprAt (s.epIdxOf ep)) = statNak)

/-! ### Bulk-Only Transport (47_bot_fsm.md) -/

/-- `MSC_INIT` and `MSC_RESET` clear the record, `MSC_DEINIT` only reports success, `SET_SENSE` writes the triple
(rules R420 to R422; 48_scsi.md rule R481); `ASYNC_IO_DONE` posts its answer while one is awaited and has no effect
otherwise (rule R514). -/
def Obligations.ClassCommands : Prop :=
  ∀ s : State, s.Ready →
    exec .mscInit s = .next { s with msc := Msc.cleared }
    ∧ exec .mscReset s = .next { s with msc := Msc.cleared }
    ∧ exec .mscDeinit s = .next { s with res := 1 }
    ∧ (∀ (k : BitVec 4) (a q : Byte), exec (.setSense k a q) s
        = .next { s with msc := { s.msc with sense := ⟨k, a, q⟩ } })
    ∧ (∀ (f : Bool) (v : Word),
      (s.msc.pendingIo = false → exec (.asyncIoDone f v) s = .next { s with res := 0 })
      ∧ (s.msc.pendingIo = true → s.Room →
          exec (.asyncIoDone f v) s = .next { s with evq := s.evq ++ [.deferred v], res := 1 })
      ∧ (s.msc.pendingIo = true → ¬ s.Room →
          exec (.asyncIoDone f v) s = .next { s with fault := some (.evqOverflow .deferred) }))

/-- `MSC_OPEN` (rule R423) on an interface it claims, with one IN and one OUT bulk endpoint in either order: both are
opened with their shadows cleared, their addresses and the interface number kept, the CBW read armed, `RES` 23. An
interface that is not MSC/SCSI/BOT, or a short buffer, gives `RES` 0 and no other effect. That bits 6:4 of an address
do not choose the endpoint is the model's choice (log entry 34). -/
def Obligations.MscOpen : Prop :=
  ∀ (s : State) (desc : Word) (maxLen : Half), s.Ready → s.Quiet → Memory.wf s.pma → s.Running →
    Config.MappedRange s.cfg desc.toNat 9 →
    let d := fun k => Memory.read s.ram (desc.toNat + k)
    (d 5 ≠ 0x08 ∨ d 6 ≠ 0x06 ∨ d 7 ≠ 0x50 ∨ maxLen.toNat < 23 →
      exec (.mscOpen desc maxLen) s = .next { s with res := 0 })
    ∧ (d 5 = 0x08 → d 6 = 0x06 → d 7 = 0x50 → 23 ≤ maxLen.toNat →
      let p := desc.toNat + (d 0).toNat
      let e := fun k => Memory.read s.ram (p + k)
      let p' := p + (e 0).toNat
      let e' := fun k => Memory.read s.ram (p' + k)
      let opens := fun (u : State) (ea : Byte) (mps : Half) (i : Nat) =>
        State.updMsc ((((u.putBusy ea false).putStalled ea false).epOpened ea xferBulk (mps.setWidth 11) i))
          fun m => if ea.getLsbD 7 then { m with epIn := ea } else { m with epOut := ea }
      let s0 := s.updMsc fun m => { m with itfNum := d 2 }
      Config.MappedRange s.cfg p 7 → Config.MappedRange s.cfg p' 7 →
      e 1 = 0x05 → (e 3).extractLsb' 0 2 = xferBulk → e' 1 = 0x05 → (e' 3).extractLsb' 0 2 = xferBulk →
      (e 2).getLsbD 7 = !(e' 2).getLsbD 7 →
      ∀ i i' : Nat,
        ((s0.putBusy (e 2) false).putStalled (e 2) false).CanOpen (e 2) xferBulk
          ((le16 (e 4) (e 5)).setWidth 11) i →
        (((opens s0 (e 2) (le16 (e 4) (e 5)) i).putBusy (e' 2) false).putStalled (e' 2) false).CanOpen (e' 2)
          xferBulk ((le16 (e' 4) (e' 5)).setWidth 11) i' →
        let s2 := opens (opens s0 (e 2) (le16 (e 4) (e 5)) i) (e' 2) (le16 (e' 4) (e' 5)) i'
        ∃ t, exec (.mscOpen desc maxLen) s = .next t ∧ t = { s2.cbwPrepared with res := 23 }
          ∧ t.msc.stage = .cmd ∧ t.msc.itfNum = d 2
          ∧ t.msc.epIn = (if (e 2).getLsbD 7 then e 2 else e' 2)
          ∧ t.msc.epOut = (if (e 2).getLsbD 7 then e' 2 else e 2)
          ∧ t.busyAt t.msc.epOut = true)

/-- `MSC_CONTROL` (rules R440, R442): nothing in the DATA and ACK stages; GET_MAX_LUN answers `LUN_COUNT - 1`; the
class reset returns to CMD and clears lengths, sense and `pending_io`, in every stage; any other request is refused
with `RES` 0. -/
def Obligations.MscControlRequests : Prop :=
  ∀ (s : State) (a0 a1 : Word), s.Ready →
    let bm : Byte := a0.extractLsb' 0 8
    let req : Byte := a0.extractLsb' 8 8
    let wValue : Half := a0.extractLsb' 16 16
    let wLength : Half := a1.extractLsb' 16 16
    let halt : Prop := bm.extractLsb' 5 2 = 0 ∧ bm.extractLsb' 0 5 = 2 ∧ req = 0x01 ∧ wValue = 0
    exec (.mscControl 1 a0 a1) s = .next { s with res := 1 }
    ∧ exec (.mscControl 2 a0 a1) s = .next { s with res := 1 }
    ∧ (bm.extractLsb' 5 2 = 1 → req = 0xFE → wValue = 0 → wLength = 1 →
      exec (.mscControl 0 a0 a1) s
        = .next { s with res := 1, outputs := s.outputs ++ [.ctrlReply [BitVec.ofNat 8 (s.cfg.lunCount - 1)]] })
    ∧ (bm.extractLsb' 5 2 = 1 → req = 0xFF → wValue = 0 → wLength = 0 →
      exec (.mscControl 0 a0 a1) s = .next { s with
        res := 1
        msc := { s.msc with
          stage := .cmd, totalLen := 0, xferredLen := 0, sense := ⟨0, 0, 0⟩, pendingIo := false } })
    ∧ (¬ halt →
      ¬ (bm.extractLsb' 5 2 = 1 ∧ wValue = 0 ∧ (req = 0xFE ∧ wLength = 1 ∨ req = 0xFF ∧ wLength = 0)) →
      exec (.mscControl 0 a0 a1) s = .next { s with res := 0 })

/-- Clear-Feature(ENDPOINT_HALT) through `MSC_CONTROL` (rule R441): the stall is cleared first; in NEED_RESET it is set
again; on IN in STATUS the deferred CSW is sent; on OUT in CMD the CBW read is armed if the endpoint is ready; in any
other stage or on any other endpoint nothing more happens. That bits 6:4 of `wIndex` do not choose the endpoint is the
model's choice (log entry 34). -/
def Obligations.ClearFeatureHalt : Prop :=
  ∀ (s : State) (a0 a1 : Word), s.Ready → s.Quiet → Memory.wf s.pma → s.Running →
    (a0.extractLsb' 5 2 = 0#2 ∧ a0.extractLsb' 0 5 = 2#5 ∧ a0.extractLsb' 8 8 = 0x01#8
      ∧ a0.extractLsb' 16 16 = 0#16) →
    let ea : Byte := a1.extractLsb' 0 8
    let u := (s.coreUnstalled ea).withRes 1
    (s.stalledAt ea = true → s.isOpened ea) →
    (s.msc.stage = .needReset → s.isOpened ea → exec (.mscControl 0 a0 a1) s = .next (u.coreStalled ea))
    ∧ (s.msc.stage = .status → ea = s.msc.epIn → u.cswStored.CanCoreXfer ea 13 →
      exec (.mscControl 0 a0 a1) s = .next u.cswSent)
    ∧ (s.msc.stage = .cmd → ea = s.msc.epOut → ea ≠ s.msc.epIn → u.ready ea = true →
      (u.updMsc fun m => { m with stage := .cmd }).CanCoreXfer ea 31 →
      exec (.mscControl 0 a0 a1) s = .next u.cbwPrepared)
    ∧ (s.msc.stage ≠ .needReset → ¬ (s.msc.stage = .status ∧ ea = s.msc.epIn) →
      ¬ (s.msc.stage = .cmd ∧ ea = s.msc.epOut ∧ ea ≠ s.msc.epIn ∧ u.ready ea = true) →
      exec (.mscControl 0 a0 a1) s = .next u)

/-- `MSC_XFER_CB` (rules R430, R431, R435, R438): an ignored event, an IN completion in CMD, any completion in
NEED_RESET and one that is not the CSW's in STATUS_SENT change nothing but `RES`; the CSW's completion notifies the
application and arms the next CBW read. The result code is not read. The application is given the low nibble of the LUN
byte (log entry 17). -/
def Obligations.MscXferCbIdleStages : Prop :=
  ∀ (s : State) (ep : Byte) (result : BitVec 2) (len : Word), s.Ready → s.Quiet → Memory.wf s.pma → s.Running →
    epOk ep = true →
    let u := s.withRes 1
    let member : Prop := s.msc.epOut ≠ 0 ∧ (ep = s.msc.epIn ∨ ep = s.msc.epOut) ∧ s.msc.pendingIo = false
    (¬ member → exec (.mscXferCb ep result len) s = .next u)
    ∧ (s.msc.stage = .needReset → exec (.mscXferCb ep result len) s = .next u)
    ∧ (s.msc.stage = .cmd → ep ≠ s.msc.epOut → exec (.mscXferCb ep result len) s = .next u)
    ∧ (s.msc.stage = .statusSent → ¬ (ep = s.msc.epIn ∧ len = 13) →
      exec (.mscXferCb ep result len) s = .next u)
    ∧ (member → s.msc.stage = .statusSent → ep = s.msc.epIn → len = 13 →
      let v := u.observed (.app (.complete s.msc.cbw.lunNum s.msc.cbw.op))
      (v.updMsc fun m => { m with stage := .cmd }).CanCoreXfer s.msc.epOut 31 →
      exec (.mscXferCb ep result len) s = .next v.cbwPrepared)

/-- `MSC_XFER_CB` in STATUS and in DATA. The status step (rules R433, R439): with IN stalled nothing happens; with IN data
still expected IN is stalled and the stage stays STATUS; else the CSW is sent, with the residue recomputed. The data stage
(rule R437) counts `len` bytes: READ_10 ends at the total or goes on with the next chunk; WRITE_10 hands its data over;
any other command ends at the total, OUT data being handed to the application first, and short of the total it is
`UNDEFINED_MULTI_XFER`; the status step follows. The LUN given is the low nibble of its byte (log entry 17). -/
def Obligations.StatusStep : Prop :=
  ∀ (s : State) (ep : Byte) (result : BitVec 2) (len : Word), s.Ready → s.Calm →
    epOk ep = true → s.msc.ignored ep = false →
    let u := s.withRes 1
    let d := u.moved len
    let ended : Prop := s.msc.totalLen.toNat ≤ (s.msc.xferredLen + len).toNat
    let goes : State → Prop := fun v =>
      v.CanStatus → exec (.mscXferCb ep result len) s = .next v.statusStepped
    let faults : Fault → State → Prop := fun f v => exec (.mscXferCb ep result len) s = .next (takeFault f v)
    (s.msc.stage = .status →
      (s.stalledAt s.msc.epIn = true → exec (.mscXferCb ep result len) s = .next u)
      ∧ (s.stalledAt s.msc.epIn = false → s.msc.expectsIn → s.isOpened s.msc.epIn →
        ∃ t, exec (.mscXferCb ep result len) s = .next t ∧ t = u.coreStalled s.msc.epIn
          ∧ t.msc.stage = .status ∧ t.stalledAt s.msc.epIn = true)
      ∧ (s.stalledAt s.msc.epIn = false → ¬ s.msc.expectsIn → u.cswStored.CanCoreXfer s.msc.epIn 13 →
        ∃ t, exec (.mscXferCb ep result len) s = .next t ∧ t = u.cswSent
          ∧ t.msc.stage = .statusSent ∧ t.msc.csw.dataResidue = s.msc.cbw.totalBytes - s.msc.xferredLen
          ∧ (∀ k < 13, s.MemoryOk → Memory.read t.ram (s.cfg.mscBufAddr + k) = (cswBytes t.msc.csw).getD k 0)
          ∧ (s.MemoryOk → Memory.SameOutside s.ram t.ram s.cfg.mscBufAddr 13)))
    ∧ (s.msc.stage = .data → s.msc.cbw.op = opRead10 →
      (ended → goes d.toStatusStage)
      ∧ (¬ ended → (∀ v, procRead10 d = .ok () v → goes v) ∧ ∀ f v, procRead10 d = .error f v → faults f v))
    ∧ (s.msc.stage = .data → s.msc.cbw.op = opWrite10 →
      (∀ v, write10NewData len u = .ok () v → goes v) ∧ ∀ f v, write10NewData len u = .error f v → faults f v)
    ∧ (s.msc.stage = .data → s.msc.cbw.op ≠ opRead10 → s.msc.cbw.op ≠ opWrite10 → s.msc.cbw.isIn = true →
      (ended → goes d.toStatusStage) ∧ (¬ ended → faults (.undefinedMultiXfer (s.msc.xferredLen + len)) d))
    ∧ (s.msc.stage = .data → s.msc.cbw.op ≠ opRead10 → s.msc.cbw.op ≠ opWrite10 → s.msc.cbw.isIn = false →
      ∀ (a : Answer) (rest : List Answer), s.answers = a :: rest →
        let n := s.msc.totalLen.toNat
        let v := d.asked (.scsi s.msc.cbw.lunNum s.msc.cbw.command
          (Memory.readBytes s.ram s.cfg.mscBufAddr (min n s.cfg.mscBufSize)) n) a rest
        (s.cfg.mscBufSize < a.ret.toInt → faults (.appContract .scsi) v)
        ∧ (0 ≤ a.ret.toInt → a.ret.toInt ≤ s.cfg.mscBufSize →
          (ended → goes v.toStatusStage) ∧ (¬ ended → faults (.undefinedMultiXfer (s.msc.xferredLen + len)) v))
        ∧ (a.ret.toInt < 0 → v.CanFail →
          (ended → goes (v.opFailed statusFailed))
          ∧ (¬ ended → faults (.undefinedMultiXfer (s.msc.xferredLen + len)) (v.opFailed statusFailed))))

/-- The command stage (rule R435). An invalid CBW, by length or signature: the CBW is replaced, the stage is NEED_RESET
and both bulk endpoints are stalled; the CSW and the sense stay. A valid one: the CSW takes its tag and PASSED, then
READ_10 and WRITE_10 are validated (48_scsi.md rule R503) and fail, end (Hn = Dn), read the first chunk, or, write
protection asked (rule R510), arm the first OUT transfer (rule R513). Another command (rule R436) takes OUT data that
fits the staging buffer, and else is answered by the built-in dispatcher or the application: a response is sent clipped
to what the host expects (rule R499), nothing for nothing expected passes, every other answer fails. The status step
follows. The LUN given is the low nibble of its byte (log entry 17), and an answer of the application writes its bytes also
where nothing is expected, none beyond its bound (log entries 36 and 32). -/
def Obligations.CommandStage : Prop :=
  ∀ (s : State) (result : BitVec 2) (len : Word), s.Ready → s.Calm →
    epOk s.msc.epOut = true → s.msc.ignored s.msc.epOut = false → s.msc.stage = .cmd →
    let c := s.stagedCbw
    let u := (s.withRes 1).cbwAccepted
    let size := s.cfg.mscBufSize
    let runs : State → Prop := fun v => exec (.mscXferCb s.msc.epOut result len) s = .next v
    let goes : State → Prop := fun v => v.CanStatus → runs v.statusStepped
    let rw : Prop := c.op = opRead10 ∨ c.op = opWrite10
    (¬ (len = 31 ∧ c.signature = cbwSignature) →
      (s.stalledAt s.msc.epIn = false → s.isOpened s.msc.epIn) →
      (s.stalledAt s.msc.epOut = false → s.isOpened s.msc.epOut) →
      let u := (s.withRes 1).withMsc { s.msc with cbw := c, stage := .needReset }
      ∃ t, runs t
        ∧ t = (u.coreStalled s.msc.epIn).coreStalled s.msc.epOut
        ∧ t.msc = { s.msc with cbw := c, stage := .needReset }
        ∧ t.stalledAt s.msc.epIn = true ∧ t.stalledAt s.msc.epOut = true)
    ∧ (len = 31 → c.signature = cbwSignature → rw →
      c.totalBytes = 0 → c.count = 0 → s.stalledAt s.msc.epIn = false →
      u.toStatusStage.cswStored.CanCoreXfer s.msc.epIn 13 →
      ∃ t, runs t ∧ t = u.toStatusStage.cswSent
        ∧ t.msc.stage = .statusSent ∧ t.msc.csw = ⟨cswSignature, c.tag, 0, statusPassed⟩)
    ∧ (len = 31 → c.signature = cbwSignature → rw → rdwr10Validate c ≠ statusPassed → u.CanFail →
      goes (u.opFailed (rdwr10Validate c)))
    ∧ (len = 31 → c.signature = cbwSignature → rdwr10Validate c = statusPassed → c.totalBytes ≠ 0 →
      (c.op = opRead10 → (∀ v, procRead10 u = .ok () v → goes v)
        ∧ ∀ f v, procRead10 u = .error f v → runs (takeFault f v))
      ∧ (c.op = opWrite10 → ∀ (a : Answer) (rest : List Answer), s.answers = a :: rest →
        let w := u.asked (.isWritable c.lunNum) a rest
        let n := min size c.totalBytes.toNat
        (a.flag = true → w.CanCoreXfer s.msc.epOut n → runs (w.coreXferred s.msc.epOut n))
        ∧ (a.flag = false → (w.updMsc fun m => { m with sense := ⟨0x07, 0x27, 0x00⟩ }).CanFail →
          goes ((w.updMsc fun m => { m with sense := ⟨0x07, 0x27, 0x00⟩ }).opFailed statusFailed))))
    ∧ (len = 31 → c.signature = cbwSignature → ¬ rw → c.totalBytes ≠ 0 → c.isIn = false →
      (size < c.totalBytes.toNat → u.CanFail → goes (u.opFailed statusFailed))
      ∧ (c.totalBytes.toNat ≤ size → u.CanCoreXfer s.msc.epOut c.totalBytes.toNat →
        runs (u.coreXferred s.msc.epOut c.totalBytes.toNat)))
    ∧ (len = 31 → c.signature = cbwSignature → ¬ rw → c.totalBytes = 0 ∨ c.isIn = true →
      let answer := if c.op ∈ [0x00#8, 0x03#8, 0x12#8, 0x1A#8, 0x1B#8, 0x1E#8, 0x23#8, 0x25#8] then procBuiltin
        else appScsi false (min c.totalBytes.toNat size)
      (∀ f v, answer u = .error f v → runs (takeFault f v))
      ∧ ∀ r v, answer u = .ok r v →
        let n := min r.toNat c.totalBytes.toNat
        let w := v.updMsc fun m => { m with totalLen := BitVec.ofNat 32 n }
        (0 < r → c.totalBytes ≠ 0 → w.CanCoreXfer s.msc.epIn n → runs (w.coreXferred s.msc.epIn n))
        ∧ (r = 0 → c.totalBytes = 0 → goes v.toStatusStage)
        ∧ (r < 0 ∨ (r = 0 ∧ c.totalBytes ≠ 0) ∨ (0 < r ∧ c.totalBytes = 0) → v.CanFail →
          goes (v.opFailed statusFailed)))

/-- `fail_scsi_op` (rule R434): status and residue set, the stage STATUS, a default sense only where the key is 0, and
the endpoint of an incomplete data phase stalled. -/
def Obligations.FailScsiOp : Prop :=
  ∀ (s : State) (status : Byte), s.Quiet → s.Running → s.cfg.legal = true →
    (s.msc.cbw.totalBytes ≠ 0 → s.msc.residue ≠ 0 → s.stalledAt s.msc.dataEp = false →
      s.isOpened s.msc.dataEp) →
    ∃ t, failScsiOp status s = .ok () t ∧ t = s.opFailed status
      ∧ t.msc = { s.msc with
          csw := { s.msc.csw with status := status, dataResidue := s.msc.cbw.totalBytes - s.msc.xferredLen }
          stage := .status
          sense := if s.msc.sense.key = 0 then ⟨0x05, 0x20, 0x00⟩ else s.msc.sense }
      ∧ (s.msc.cbw.totalBytes ≠ 0 → s.msc.residue ≠ 0 → t.stalledAt s.msc.dataEp = true)

/-- `rdwr10_validate` passes exactly the commands that move no data and ask for none, or that move data in their own
direction with a non-zero count no larger than the byte count; a zero count in the right direction is FAILED, and
every other mismatch PHASE_ERROR (48_scsi.md rule R503; the 13 cases of 47_bot_fsm.md rule R453). -/
def Obligations.RdwrValidate : Prop :=
  ∀ c : Cbw, (c.op = opRead10 ∨ c.op = opWrite10) →
    let sameDir : Prop := c.isIn = (c.op == opRead10)
    (rdwr10Validate c = statusPassed ↔
      (c.totalBytes = 0 ∧ c.count = 0)
        ∨ (c.totalBytes ≠ 0 ∧ sameDir ∧ c.count ≠ 0 ∧ c.count.toNat ≤ c.totalBytes.toNat))
    ∧ (rdwr10Validate c = statusFailed ↔ c.totalBytes ≠ 0 ∧ sameDir ∧ c.count = 0)
    ∧ (rdwr10Validate c = statusPassed ∨ rdwr10Validate c = statusFailed ∨ rdwr10Validate c = statusPhaseError)

/-! ### SCSI (48_scsi.md) -/

/-- One chunk of READ_10 (rules R485, R486, R504 to R506): the application is asked for at most a staging buffer at the
block and offset of what was moved; an asynchronous answer waits, one beyond the chunk is `APP_CONTRACT`, a negative
one fails the command, 0 asks again, and `r` bytes are staged and sent. The model's choices: the LUN is the low nibble
of its byte, data shorter than `r` is continued with zeros, an answer beyond the chunk has written nothing (log entries
17, 8 and 32). -/
def Obligations.Read10Chunk : Prop :=
  ∀ (s : State) (a : Answer) (rest : List Answer), s.Quiet → s.cfg.legal = true → Memory.wf s.pma → s.Running →
    s.answers = a :: rest → s.msc.cbw.count ≠ 0 → s.msc.cbw.count.toNat ≤ s.msc.cbw.totalBytes.toNat →
    let bs := s.msc.cbw.totalBytes / s.msc.cbw.count.setWidth 32
    let n := min s.cfg.mscBufSize (s.msc.cbw.totalBytes - s.msc.xferredLen).toNat
    let u := s.asked (.read10 s.msc.cbw.lunNum (s.msc.cbw.lba0 + s.msc.xferredLen / bs) (s.msc.xferredLen % bs) n)
      a rest
    (a.ret = s.cfg.asyncRet → procRead10 s = .ok () (u.updMsc fun m => { m with pendingIo := true }))
    ∧ (a.ret ≠ s.cfg.asyncRet → (n : Int) < a.ret.toInt → procRead10 s = .error (.appContract .read10) u)
    ∧ (a.ret ≠ s.cfg.asyncRet → a.ret.toInt < 0 →
      (let v := u.updMsc fun m => { m with sense := senseMnp }
       (s.msc.residue ≠ 0 → s.stalledAt s.msc.dataEp = false → s.isOpened s.msc.dataEp) →
       procRead10 s = .ok () (v.opFailed statusFailed)))
    ∧ (a.ret = 0 → s.Room → procRead10 s = .ok () (u.posted (.xferComplete s.msc.epIn 0)))
    ∧ (0 < a.ret.toInt → a.ret.toInt ≤ n →
      (let v := u.ramStored s.cfg.mscBufAddr (takeBytes a.ret.toNat a.data)
       v.CanCoreXfer s.msc.epIn a.ret.toNat → procRead10 s = .ok () (v.coreXferred s.msc.epIn a.ret.toNat)))

/-- The data of one WRITE_10 completion of `x` bytes (rules R511 to R513): it is handed to the application at the block
and offset of what was moved; what is not consumed moves to the front and is offered again; an error counts the whole
chunk as moved; all consumed, the last byte ends the data phase, and short of it the next OUT transfer is armed. The LUN
is the low nibble of its byte, and of a completion longer than `MSCBUF` nothing is said (log entries 17 and 18). -/
def Obligations.Write10Data : Prop :=
  ∀ (s : State) (x : Word) (a : Answer) (rest : List Answer), s.Quiet → s.cfg.legal = true → Memory.wf s.ram →
    s.Running → s.answers = a :: rest → s.msc.cbw.count ≠ 0 →
    s.msc.cbw.count.toNat ≤ s.msc.cbw.totalBytes.toNat → x.toNat ≤ s.cfg.mscBufSize →
    let bs := s.msc.cbw.totalBytes / s.msc.cbw.count.setWidth 32
    let data := Memory.readBytes s.ram s.cfg.mscBufAddr x.toNat
    let u := s.asked (.write10 s.msc.cbw.lunNum (s.msc.cbw.lba0 + s.msc.xferredLen / bs)
      (s.msc.xferredLen % bs) data) a rest
    let moved := fun (v : State) (k : Word) => v.updMsc fun m => { m with xferredLen := m.xferredLen + k }
    (a.ret = s.cfg.asyncRet →
      write10NewData x s = .ok () (u.updMsc fun m => { m with pendingIo := true, ioLen := x }))
    ∧ (a.ret ≠ s.cfg.asyncRet → (x.toNat : Int) < a.ret.toInt →
      write10NewData x s = .error (.appContract .write10) u)
    ∧ (a.ret ≠ s.cfg.asyncRet → a.ret.toInt < 0 →
      (let v := (moved u x).updMsc fun m => { m with sense := senseMnp }
       (v.msc.residue ≠ 0 → s.stalledAt s.msc.dataEp = false → s.isOpened s.msc.dataEp) →
       write10NewData x s = .ok () (v.opFailed statusFailed)))
    ∧ (a.ret = 0 → 0 < x.toNat → s.Room →
      write10NewData x s = .ok () (u.posted (.xferComplete s.msc.epOut x)))
    ∧ (0 < a.ret.toInt → a.ret.toNat < x.toNat → s.Room →
      ∃ t, write10NewData x s = .ok () t
        ∧ t = State.posted (moved { s with ram := t.ram, outputs := u.outputs, answers := rest, msc := u.msc } a.ret)
            (.xferComplete s.msc.epOut (x - a.ret))
        ∧ (∀ k, k < x.toNat - a.ret.toNat →
            Memory.read t.ram (s.cfg.mscBufAddr + k) = Memory.read s.ram (s.cfg.mscBufAddr + a.ret.toNat + k))
        ∧ Memory.SameOutside s.ram t.ram s.cfg.mscBufAddr (x.toNat - a.ret.toNat))
    ∧ (a.ret = x → a.ret.toInt ≥ 0 →
      s.msc.totalLen.toNat ≤ (s.msc.xferredLen + x).toNat →
      write10NewData x s = .ok () ((moved u x).updMsc fun m => { m with stage := .status }))
    ∧ (a.ret = x → a.ret.toInt ≥ 0 → (s.msc.xferredLen + x).toNat < s.msc.totalLen.toNat → Memory.wf s.pma →
      (let n := min s.cfg.mscBufSize (s.msc.cbw.totalBytes - (s.msc.xferredLen + x)).toNat
       (moved u x).CanCoreXfer s.msc.epOut n →
       write10NewData x s = .ok () ((moved u x).coreXferred s.msc.epOut n)))

/-- The built-in commands (rules R490 to R497) and the application's fallback (rule R498). Those answered by a bool give
0, or -1 with the default sense NOT_READY/MEDIUM_NOT_PRESENT unless the callback set one; those that answer with data
stage their bytes and give their number; a zero capacity fails as NOT_READY; INQUIRY asks `inquiry2` first; REQUEST_SENSE
stages the sense, lets the application override it and clears it; `app_scsi` is given `MSCBUF` and, before an IN phase,
writes it; an answer beyond the buffer is `APP_CONTRACT` (rule R486). The LUN is the low nibble of its byte, short answer
data is continued with zeros, an answer out of bounds has written nothing, and one of `app_scsi` before a phase with no
data writes its bytes (log entries 17, 8, 32 and 36). -/
def Obligations.BuiltinCommands : Prop :=
  ∀ (s : State) (a b : Answer) (rest : List Answer), s.cfg.legal = true → s.answers = a :: b :: rest →
    let lun := s.msc.cbw.lunNum
    let cdb := s.msc.cbw.command
    let buf := s.cfg.mscBufAddr
    let size := s.cfg.mscBufSize
    let cap := s.asked (.capacity lun) a (b :: rest)
    let sensed := s.ramStored buf [0xF0, 0x00, s.msc.sense.key.setWidth 8, 0x00, 0x00, 0x00, 0x00, 0x0A, 0x00, 0x00,
      0x00, 0x00, s.msc.sense.asc, s.msc.sense.ascq, 0x00, 0x00, 0x00, 0x00]
    let asked := sensed.asked (.requestSense lun (Memory.readBytes sensed.ram buf size) size) a (b :: rest)
    let unsensed := fun (v : State) => v.updMsc fun m => { m with sense := ⟨0, 0, 0⟩ }
    let full := (s.ramStored buf ([0x00, 0x80, 0x02, 0x02, 0x1F, 0x00, 0x00, 0x00] ++ List.replicate 28 0x20)).asked
      (.inquiry2 lun size) a (b :: rest)
    (∀ call : AppCall,
      (s.msc.cbw.op = opTestUnitReady ∧ call = .testUnitReady lun
        ∨ s.msc.cbw.op = opStartStopUnit ∧ call = .startStop lun (cdb[4].extractLsb' 4 4) (cdb[4].getLsbD 0)
            (cdb[4].getLsbD 1)
        ∨ s.msc.cbw.op = opPreventAllow ∧ call = .preventAllow lun (cdb[4].extractLsb' 0 2) cdb[5]) →
      procBuiltin s = if a.flag then .ok 0 (s.asked call a (b :: rest))
        else .ok (-1) ((s.asked call a (b :: rest)).senseDefaulted ⟨0x02, 0x3A, 0x00⟩))
    ∧ (s.msc.cbw.op = opReadCapacity10 ∨ s.msc.cbw.op = opReadFormatCapacity → a.ret = 0 ∨ a.size = 0 →
      procBuiltin s = .ok (-1) (cap.senseDefaulted ⟨0x02, 0x3A, 0x00⟩))
    ∧ (s.msc.cbw.op = opReadCapacity10 → a.ret ≠ 0 → a.size ≠ 0 →
      procBuiltin s = .ok 8 (cap.ramStored buf (beBytes32 (a.ret - 1) ++ beBytes32 (a.size.setWidth 32))))
    ∧ (s.msc.cbw.op = opReadFormatCapacity → a.ret ≠ 0 → a.size ≠ 0 →
      procBuiltin s = .ok 12 (cap.ramStored buf
        ([0x00, 0x00, 0x00, 0x08] ++ beBytes32 a.ret ++ [0x02, 0x00] ++ beBytes16 a.size)))
    ∧ (s.msc.cbw.op = opModeSense6 →
      procBuiltin s = .ok 4 ((s.asked (.isWritable lun) a (b :: rest)).ramStored buf
        [0x03, 0x00, if a.flag then 0x00 else 0x80, 0x00]))
    ∧ (s.msc.cbw.op = opRequestSense →
      (a.keep = true → procBuiltin s = .ok 18 (unsensed asked))
      ∧ (a.keep = false → a.ret.toInt ≤ size →
        procBuiltin s = .ok a.ret.toInt (unsensed (asked.ramStored buf (takeBytes a.ret.toInt.toNat a.data))))
      ∧ (a.keep = false → size < a.ret.toInt → procBuiltin s = .error (.appContract .requestSense) asked))
    ∧ (s.msc.cbw.op = opInquiry →
      (a.ret = 0 → procBuiltin s = .ok 36 ((full.asked (.inquiry lun) b rest).ramStored (buf + 8)
        (takeBytes 28 b.data)))
      ∧ (a.ret ≠ 0 → a.ret.toNat ≤ size →
        procBuiltin s = .ok a.ret.toNat (full.ramStored buf (takeBytes a.ret.toNat a.data)))
      ∧ (size < a.ret.toNat → procBuiltin s = .error (.appContract .inquiry2) full))
    ∧ (∀ (outPath : Bool) (n : Nat),
      let v := s.asked (.scsi lun cdb (Memory.readBytes s.ram buf (min n size)) n) a (b :: rest)
      (a.ret.toInt ≤ size → appScsi outPath n s = .ok a.ret.toInt
        (if outPath then v else v.ramStored buf (takeBytes a.ret.toInt.toNat a.data)))
      ∧ (size < a.ret.toInt → appScsi outPath n s = .error (.appContract .scsi) v))

/-! ### The TASK agent (47_bot_fsm.md rules R450, R451) -/

/-- `TASK_STEP` (rules R450, R451): an empty queue gives `RES` 0; else the head is removed and handled, `RES` 1: a bus
reset clears the core shadow and the class record, a setup packet the shadow of endpoint 0, a transfer completion its
busy flag; one of the class machine is then `MSC_XFER_CB`, and each that is not goes to CORE. A deferred answer that is no
longer awaited is dropped; else (48_scsi.md rule R515) the wait ends, and the answer is held against the bounds of its
command (`APP_CONTRACT`) and continues READ_10 or WRITE_10 as the same answer of the callback does (rules R506, R512); the
status step follows. -/
def Obligations.TaskStep : Prop :=
  ∀ (s : State) (rest : List Event), s.Ready →
    let out := fun (u : State) (e : Event) => (u.observed (.core e)).withRes 1
    let u : State := { s with evq := rest }
    (s.evq = [] → exec .taskStep s = .next { s with res := 0 })
    ∧ (∀ e, (e = .suspend ∨ e = .resume ∨ ∃ f, e = .sof f) → s.evq = e :: rest →
      exec .taskStep s = .next (out u e))
    ∧ (s.evq = .busReset :: rest → exec .taskStep s
        = .next (out { s with
            evq := rest, epBusy := Vector.replicate 32 false, epStalled := Vector.replicate 32 false
            msc := Msc.cleared } .busReset))
    ∧ (∀ b, s.evq = .setupReceived b :: rest → exec .taskStep s
        = .next (out ((((u.putBusy 0x00 false).putBusy 0x80 false).putStalled 0x00 false).putStalled 0x80 false)
            (.setupReceived b)))
    ∧ (∀ ep len, s.evq = .xferComplete ep len :: rest →
      (s.msc.epOut = 0 ∨ (ep ≠ s.msc.epIn ∧ ep ≠ s.msc.epOut)) →
      exec .taskStep s = .next (out (u.putBusy ep false) (.xferComplete ep len)))
    ∧ (∀ ep len (result : BitVec 2), s.evq = .xferComplete ep len :: rest →
      s.msc.epOut ≠ 0 → (ep = s.msc.epIn ∨ ep = s.msc.epOut) → epOk ep = true →
      exec .taskStep s = exec (.mscXferCb ep result len) (u.putBusy ep false))
    ∧ (∀ v, s.evq = .deferred v :: rest → s.msc.pendingIo = false →
      exec .taskStep s = .next (u.withRes 1))
    ∧ (∀ v, s.evq = .deferred v :: rest → s.msc.pendingIo = true → s.Calm →
      let w := u.updMsc fun m => { m with pendingIo := false }
      let n := min s.cfg.mscBufSize (s.msc.cbw.totalBytes - s.msc.xferredLen).toNat
      let x := s.msc.ioLen
      let buf := s.cfg.mscBufAddr
      let failed := fun (z : State) => z.updMsc fun m => { m with sense := ⟨0x02, 0x3A, 0x00⟩ }
      let goes : State → Prop := fun z => z.CanStatus → exec .taskStep s = .next (z.statusStepped.withRes 1)
      (s.msc.cbw.op = opRead10 →
        (v = s.cfg.asyncRet ∨ (n : Int) < v.toInt → exec .taskStep s = .next (takeFault (.appContract .read10) w))
        ∧ (v ≠ s.cfg.asyncRet → v.toInt < 0 → (failed w).CanFail → goes ((failed w).opFailed statusFailed))
        ∧ (v = 0 → s.msc.stage = .data → u.Room →
          exec .taskStep s = .next ((w.posted (.xferComplete s.msc.epIn 0)).withRes 1))
        ∧ (0 < v.toInt → v.toInt ≤ n → s.msc.stage = .data → w.CanCoreXfer s.msc.epIn v.toNat →
          exec .taskStep s = .next ((w.coreXferred s.msc.epIn v.toNat).withRes 1)))
      ∧ (s.msc.cbw.op = opWrite10 →
        (v = s.cfg.asyncRet ∨ (x.toNat : Int) < v.toInt →
          exec .taskStep s = .next (takeFault (.appContract .write10) w))
        ∧ (v ≠ s.cfg.asyncRet → v.toInt < 0 → (failed (w.moved x)).CanFail →
          goes ((failed (w.moved x)).opFailed statusFailed))
        ∧ (v = 0 → 0 < x.toNat → s.msc.stage = .data → u.Room →
          exec .taskStep s = .next ((w.posted (.xferComplete s.msc.epOut x)).withRes 1))
        ∧ (0 < v.toInt → v.toNat < x.toNat → x.toNat ≤ s.cfg.mscBufSize → s.msc.stage = .data → u.Room →
          exec .taskStep s = .next (State.withRes (((w.moved v).ramStored buf
            (Memory.readBytes s.ram (buf + v.toNat) (x.toNat - v.toNat))).posted (.xferComplete s.msc.epOut (x - v))) 1))
        ∧ (v = x → 0 ≤ v.toInt → s.msc.totalLen.toNat ≤ (s.msc.xferredLen + x).toNat →
          goes (w.moved x).toStatusStage)
        ∧ (v = x → 0 ≤ v.toInt → (s.msc.xferredLen + x).toNat < s.msc.totalLen.toNat → s.msc.stage = .data →
          (w.moved x).CanCoreXfer s.msc.epOut (min s.cfg.mscBufSize (w.moved x).msc.residue.toNat) →
          exec .taskStep s = .next (State.withRes ((w.moved x).coreXferred s.msc.epOut
            (min s.cfg.mscBufSize (w.moved x).msc.residue.toNat)) 1)))
      ∧ (s.msc.cbw.op ≠ opRead10 → s.msc.cbw.op ≠ opWrite10 → goes w))

/-! ### Steps and runs -/

/-- A recorded fault is final: no command and no step has an effect after it (10_state.md rule R74); a step then
answers that fault, the model's form of "no further step" (log entry 11). -/
def Obligations.FaultTerminal : Prop :=
  ∀ (s : State) (f : Fault), s.fault = some f →
    step s = .fault f ∧ (∀ t : Turn, runTurn t s = .fault f) ∧ ∀ i : Instr, exec i s = .fault f

/-- A step runs the decoded command: with a command at the head of the schedule, it leaves the schedule, the command
registers take its words (10_state.md rule R90), and the step is `exec` of what they decode to. With an empty schedule
the ISR steps if it is enabled (60_exceptions.md rule R550), else TASK if an event waits (rule R66), else nothing: that
order of the idle agents is the model's choice (log entry 1). `withFetchWord` puts the command a table word stands for at
the head of the schedule: that commands come from there is how the model takes a program (log entry 20). -/
def Obligations.StepRunsDecoded : Prop :=
  ∀ s : State, s.Ready →
    (∀ (cmd arg0 arg1 : Word) (rest : List Turn) (i : Instr), s.schedule = .command cmd arg0 arg1 :: rest →
      decode s.cfg.nEp cmd arg0 arg1 = .ok i →
      step s = exec i { s with schedule := rest, cmd := cmd, arg0 := arg0, arg1 := arg1 })
    ∧ (s.schedule = [] → s.isrEnabled = true → step s = exec .isrService s)
    ∧ (s.schedule = [] → s.isrEnabled = false → s.evq ≠ [] → step s = exec .taskStep s)
    ∧ (s.schedule = [] → s.isrEnabled = false → s.evq = [] → step s = .next s)
    ∧ (∀ nbits w, (s.withFetchWord nbits w).schedule
        = .command (BitVec.ofNat 32 (w % 2 ^ nbits)) (BitVec.ofNat 32 (w % 2 ^ nbits / 2 ^ 32))
            (BitVec.ofNat 32 (w % 2 ^ nbits / 2 ^ 64)) :: s.schedule)

/-- The power-on state (70_reset_and_hazards.md rule R581) and the invariant in it. The values rule R581 leaves a draw
(the cursor, the slots, `FNR`, memory) are not stated: they are the model's (log entries 3 and 4). -/
def Obligations.ResetState : Prop :=
  State.reset.Inv ∧ State.reset.CswOk
    ∧ (∀ i, State.reset.eprAt i = 0) ∧ State.reset.cntr = 0x0003 ∧ State.reset.istr = 0 ∧ State.reset.daddr = 0
    ∧ State.reset.btable = 0 ∧ (∀ n d, State.reset.ctx n d = ⟨0, none, 0, 0, 0, 0, false⟩)
    ∧ (∀ ep, State.reset.busyAt ep = false ∧ State.reset.stalledAt ep = false)
    ∧ State.reset.remoteWakeCd = 0 ∧ State.reset.pullup = false ∧ State.reset.irqEn = false
    ∧ State.reset.evq = [] ∧ State.reset.msc = Msc.cleared ∧ State.reset.fault = none
    ∧ State.reset.cmd = 0 ∧ State.reset.arg0 = 0 ∧ State.reset.arg1 = 0 ∧ State.reset.res = 0

/-- Every step keeps the invariant of the machine: canonical memories inside their spaces, registers that do not exist
and reserved bits at 0, `ISTR` reporting the CTR bits (rule R48), the device held in reset at 0 (rule R301), the cursor
in range and even (rule R109), the slots' law (rule R252), the queue and the FIFOs within their bounds. -/
def Obligations.StepInv : Prop :=
  ∀ s t : State, s.Inv → step s = .next t → t.Inv ∧ t.cfg = s.cfg

/-- Every step keeps the status wrapper's law: while a command is in progress the CSW carries the signature and the tag
of its CBW (47_bot_fsm.md rule R454 (c), (d)). -/
def Obligations.StepCswOk : Prop :=
  ∀ s t : State, s.CswOk → step s = .next t → t.CswOk
end

