-- ==== Sys2Proof/Laws/Memory.lean ====
section
/-! SUPPORT. Memory: a read after a write, and the canonical form (20_memory.md rules R100, R104). -/

namespace Sys2Proof.Machine

/-- A cell list whose addresses all lie above `k` says nothing at `k`. -/
theorem Memory.read_of_lt {m : List Host.Cell} {k : Nat} (h : ∀ c ∈ m, k < c.1) :
    Memory.read m k = unlistedByte := by
  induction m with
  | nil => rfl
  | cons c m ih =>
    have := h c (by simp)
    simp only [Memory.read]
    rw [if_neg (by omega), ih fun d hd => h d (by simp [hd])]

/-- The cells of a write are the written one and old ones. -/
theorem Memory.mem_write {m : List Host.Cell} {k : Nat} {v : Byte} {c : Host.Cell}
    (h : c ∈ Memory.write m k v) : (c = (k, v) ∧ v ≠ unlistedByte) ∨ c ∈ m := by
  induction m with
  | nil => unfold Memory.write at h; split at h <;> simp_all
  | cons d m ih =>
    unfold Memory.write at h
    split at h
    · rcases List.mem_cons.1 h with h | h
      · simp [h]
      · rcases ih h with h | h <;> simp [h]
    · split at h <;> split at h <;> (simp_all; try tauto)

/-- A write keeps the canonical form. -/
theorem Memory.wf_write {m : List Host.Cell} {k : Nat} {v : Byte} (h : Memory.wf m) :
    Memory.wf (Memory.write m k v) := by
  refine ⟨?_, fun c hc => ?_⟩
  · obtain ⟨h, -⟩ := h
    induction m with
    | nil => unfold Memory.write; split <;> simp
    | cons d m ih =>
      rw [List.pairwise_cons] at h
      unfold Memory.write
      split
      · next hd =>
        refine List.pairwise_cons.2 ⟨fun c hc => ?_, ih h.2⟩
        rcases Memory.mem_write hc with ⟨rfl, -⟩ | hc
        · exact hd
        · exact h.1 c hc
      · split
        · next hd =>
          split
          · exact h.2
          · exact List.pairwise_cons.2 ⟨fun c hc => hd ▸ h.1 c hc, h.2⟩
        · next h1 h2 =>
          split
          · exact List.pairwise_cons.2 h
          · refine List.pairwise_cons.2 ⟨fun c hc => ?_, List.pairwise_cons.2 h⟩
            rcases List.mem_cons.1 hc with rfl | hc
            · simp only; omega
            · have := h.1 c hc; simp only; omega
  · rcases Memory.mem_write hc with ⟨rfl, hv⟩ | hc
    · exact hv
    · exact h.2 c hc

/-- A read after a write. -/
theorem Memory.read_write {m : List Host.Cell} (h : Memory.wf m) (k : Nat) (v : Byte) (j : Nat) :
    Memory.read (Memory.write m k v) j = if j = k then v else Memory.read m j := by
  obtain ⟨h, -⟩ := h
  induction m with
  | nil => unfold Memory.write; split <;> simp_all [Memory.read, eq_comm]
  | cons d m ih =>
    rw [List.pairwise_cons] at h
    unfold Memory.write
    have hlow : ∀ k, k ≤ d.1 → k < d.1 ∨ k = d.1 := by omega
    split
    · simp only [Memory.read, ih h.2]
      split <;> split <;> first | rfl | omega
    · split
      · next hd =>
        split
        · next hv =>
          by_cases hj : j = k
          · subst hj
            rw [if_pos rfl, hv]
            exact Memory.read_of_lt fun c hc => hd ▸ h.1 c hc
          · rw [if_neg hj, Memory.read, if_neg (by omega)]
        · simp only [Memory.read]
          split <;> split <;> first | rfl | omega | (split <;> first | rfl | omega)
      · next h1 h2 =>
        split
        · next hv =>
          by_cases hj : j = k
          · subst hj
            rw [if_pos rfl, hv]
            refine Memory.read_of_lt fun c hc => ?_
            rcases List.mem_cons.1 hc with rfl | hc
            · simp only; omega
            · have := h.1 c hc; simp only at *; omega
          · rw [if_neg hj]
        · simp only [Memory.read]
          split <;> split <;> first | rfl | omega | (split <;> first | rfl | omega)

/-- A store of several bytes keeps the canonical form. -/
theorem Memory.wf_writeBytes {m : List Host.Cell} (h : Memory.wf m) (a : Nat) (bs : List Byte) :
    Memory.wf (Memory.writeBytes m a bs) := by
  induction bs generalizing m a with
  | nil => exact h
  | cons b bs ih => exact ih (Memory.wf_write h) _

/-- A read after a store of several bytes. -/
theorem Memory.read_writeBytes {m : List Host.Cell} (h : Memory.wf m) (a : Nat) (bs : List Byte) (j : Nat) :
    Memory.read (Memory.writeBytes m a bs) j
      = if a ≤ j ∧ j < a + bs.length then bs.getD (j - a) 0 else Memory.read m j := by
  induction bs generalizing m a with
  | nil => simp [Memory.writeBytes]
  | cons b bs ih =>
    rw [Memory.writeBytes, ih (Memory.wf_write h), Memory.read_write h]
    by_cases hj : j = a
    · subst hj
      simp
    · simp only [List.length_cons, if_neg hj]
      by_cases h2 : a + 1 ≤ j ∧ j < a + 1 + bs.length
      · rw [if_pos h2, if_pos (by omega), show j - a = (j - (a + 1)) + 1 by omega]
        simp
      · rw [if_neg h2, if_neg (by omega)]

/-- A store of several bytes one after another. -/
theorem Memory.writeBytes_append (m : List Host.Cell) (a : Nat) (bs cs : List Byte) :
    Memory.writeBytes m a (bs ++ cs) = Memory.writeBytes (Memory.writeBytes m a bs) (a + bs.length) cs := by
  induction bs generalizing m a with
  | nil => rfl
  | cons b bs ih => simp [Memory.writeBytes, ih, Nat.add_assoc, Nat.add_comm 1]

/-- The cells of a store of several bytes are stored ones or old ones. -/
theorem Memory.mem_writeBytes {m : List Host.Cell} {a : Nat} {bs : List Byte} {c : Host.Cell}
    (h : c ∈ Memory.writeBytes m a bs) : (a ≤ c.1 ∧ c.1 < a + bs.length) ∨ c ∈ m := by
  induction bs generalizing m a with
  | nil => exact .inr h
  | cons b bs ih =>
    rcases ih h with h | h
    · simp only [List.length_cons]; omega
    · rcases Memory.mem_write h with ⟨rfl, -⟩ | h
      · simp only [List.length_cons]; omega
      · exact .inr h

@[simp] theorem Memory.readBytes_length (m : List Host.Cell) (a n : Nat) :
    (Memory.readBytes m a n).length = n := by simp [Memory.readBytes]

theorem Memory.readBytes_succ (m : List Host.Cell) (a n : Nat) :
    Memory.readBytes m a (n + 1) = Memory.read m a :: Memory.readBytes m (a + 1) n := by
  simp only [Memory.readBytes, List.range_succ_eq_map, List.map_cons, List.map_map, Nat.add_zero]
  congr 1
  refine List.map_congr_left fun k _ => ?_
  simp only [Function.comp, Nat.add_assoc, Nat.add_comm 1]

theorem Memory.getD_readBytes (m : List Host.Cell) (a n k : Nat) :
    (Memory.readBytes m a n).getD k 0 = if k < n then Memory.read m (a + k) else 0 := by
  simp only [Memory.readBytes, List.getD_eq_getElem?_getD, List.getElem?_map]
  split <;> simp_all

/-- Equal memories are equal data: two memories in the canonical form that read alike are the same list. -/
theorem Memory.ext {m m' : List Host.Cell} (h : Memory.wf m) (h' : Memory.wf m')
    (hr : ∀ j, Memory.read m j = Memory.read m' j) : m = m' := by
  induction m generalizing m' with
  | nil =>
    cases m' with
    | nil => rfl
    | cons c m' =>
      have := hr c.1
      simp only [Memory.read, if_true] at this
      exact absurd this.symm (h'.2 c (by simp))
  | cons c m ih =>
    cases m' with
    | nil =>
      have := hr c.1
      simp only [Memory.read, if_true] at this
      exact absurd this (h.2 c (by simp))
    | cons d m' =>
      obtain ⟨hp, hv⟩ := h
      obtain ⟨hp', hv'⟩ := h'
      rw [List.pairwise_cons] at hp hp'
      have hc : c.1 = d.1 := by
        rcases Nat.lt_trichotomy c.1 d.1 with hlt | he | hlt
        · have h1 := hr c.1
          simp only [Memory.read, if_true] at h1
          rw [if_neg (by omega), Memory.read_of_lt fun e he => Nat.lt_trans hlt (hp'.1 e he)] at h1
          exact absurd h1 (hv c (by simp))
        · exact he
        · have h1 := hr d.1
          simp only [Memory.read, if_true] at h1
          rw [if_neg (by omega), Memory.read_of_lt fun e he => Nat.lt_trans hlt (hp.1 e he)] at h1
          exact absurd h1.symm (hv' d (by simp))
      have hcd : c = d := by
        have h1 := hr c.1
        simp only [Memory.read, if_true, hc] at h1
        exact Prod.ext hc h1
      subst hcd
      congr 1
      refine ih ⟨hp.2, fun e he => hv e (by simp [he])⟩ ⟨hp'.2, fun e he => hv' e (by simp [he])⟩ fun j => ?_
      by_cases hj : c.1 = j
      · subst hj
        rw [Memory.read_of_lt hp.1, Memory.read_of_lt hp'.1]
      · simpa only [Memory.read, if_neg hj] using hr j

/-- Storing what a range already holds changes nothing, so a store whose first bytes are the old ones is the
store of its last bytes. -/
theorem Memory.writeBytes_skip {m : List Host.Cell} (h : Memory.wf m) (a n : Nat) (bs : List Byte) :
    Memory.writeBytes m a (Memory.readBytes m a n ++ bs) = Memory.writeBytes m (a + n) bs := by
  refine Memory.ext (Memory.wf_writeBytes h _ _) (Memory.wf_writeBytes h _ _) fun j => ?_
  rw [Memory.read_writeBytes h, Memory.read_writeBytes h]
  simp only [List.length_append, Memory.readBytes_length]
  by_cases h1 : a + n ≤ j ∧ j < a + n + bs.length
  · rw [if_pos h1, if_pos (by omega), List.getD_append_right _ _ _ _ (by simp; omega)]
    simp only [Memory.readBytes_length]
    congr 1
    omega
  · rw [if_neg h1]
    by_cases h2 : a ≤ j ∧ j < a + (n + bs.length)
    · rw [if_pos h2, List.getD_append _ _ _ _ (by simp; omega), Memory.getD_readBytes, if_pos (by omega)]
      congr 1
      omega
    · rw [if_neg h2]

/-- A store whose last bytes are the old ones is the store of its first bytes. -/
theorem Memory.writeBytes_keep {m : List Host.Cell} (h : Memory.wf m) (a n : Nat) (bs : List Byte) :
    Memory.writeBytes m a (bs ++ Memory.readBytes m (a + bs.length) n) = Memory.writeBytes m a bs := by
  refine Memory.ext (Memory.wf_writeBytes h _ _) (Memory.wf_writeBytes h _ _) fun j => ?_
  rw [Memory.read_writeBytes h, Memory.read_writeBytes h]
  simp only [List.length_append, Memory.readBytes_length]
  by_cases h1 : a ≤ j ∧ j < a + bs.length
  · rw [if_pos h1, if_pos (by omega), List.getD_append _ _ _ _ (by omega)]
  · rw [if_neg h1]
    by_cases h2 : a ≤ j ∧ j < a + (bs.length + n)
    · rw [if_pos h2, List.getD_append_right _ _ _ _ (by omega), Memory.getD_readBytes, if_pos (by omega)]
      congr 1
      omega
    · rw [if_neg h2]

/-- Reading several bytes one range after another. -/
theorem Memory.readBytes_add (m : List Host.Cell) (a n k : Nat) :
    Memory.readBytes m a (n + k) = Memory.readBytes m a n ++ Memory.readBytes m (a + n) k := by
  induction n generalizing a with
  | zero => simp [Memory.readBytes]
  | succ n ih =>
    rw [show n + 1 + k = n + k + 1 by omega, Memory.readBytes_succ, Memory.readBytes_succ, ih,
      show a + 1 + n = a + (n + 1) by omega]
    rfl

/-- Bytes outside a store read as before. -/
theorem Memory.readBytes_writeBytes_disjoint {m : List Host.Cell} (h : Memory.wf m) {a b n : Nat}
    {bs : List Byte} (hd : b + n ≤ a ∨ a + bs.length ≤ b) :
    Memory.readBytes (Memory.writeBytes m a bs) b n = Memory.readBytes m b n := by
  refine List.map_congr_left fun k hk => ?_
  have := List.mem_range.1 hk
  rw [Memory.read_writeBytes h, if_neg (by omega)]

/-- A store reads back as stored. -/
theorem Memory.readBytes_writeBytes_same {m : List Host.Cell} (h : Memory.wf m) (a : Nat) (bs : List Byte) :
    Memory.readBytes (Memory.writeBytes m a bs) a bs.length = bs := by
  refine List.ext_getElem (by simp) fun k h1 h2 => ?_
  simp only [Memory.readBytes, List.getElem_map, List.getElem_range]
  rw [Memory.read_writeBytes h, if_pos (by omega), Nat.add_sub_cancel_left, List.getD_eq_getElem _ _ h2]

/-- The empty memory is in the canonical form. -/
theorem Memory.wf_nil : Memory.wf [] := ⟨List.Pairwise.nil, by simp⟩

end Sys2Proof.Machine
end

