-- ==== Sys2Proof/Laws/Op.lean ====
section
/-! SUPPORT. What an engine operation does when it is run: the building blocks, and the accesses when no BUS step
falls before them. -/

namespace Sys2Proof.Machine

/-! ### Building blocks -/

@[simp] theorem pure_run {α : Type} (a : α) (s : State) : (pure a : Op α) s = .ok a s := rfl

@[simp] theorem bind_run {α β : Type} (x : Op α) (f : α → Op β) (s : State) :
    (x >>= f) s = match x s with | .ok a t => f a t | .error e t => .error e t := by
  change EStateM.bind x f s = _
  unfold EStateM.bind
  cases x s <;> rfl

@[simp] theorem map_run {α β : Type} (f : α → β) (x : Op α) (s : State) :
    (f <$> x) s = match x s with | .ok a t => .ok (f a) t | .error e t => .error e t := by
  change EStateM.map f x s = _
  unfold EStateM.map
  cases x s <;> rfl

@[simp] theorem peek_run {α : Type} (f : State → α) (s : State) : peek f s = .ok (f s) s := rfl

@[simp] theorem change_run (f : State → State) (s : State) : change f s = .ok () (f s) := rfl

@[simp] theorem raise_run {α : Type} (f : Fault) (s : State) : (raise f : Op α) s = .error f s := rfl

@[simp] theorem setRes_run (r : Word) (s : State) : setRes r s = .ok () { s with res := r } := rfl

@[simp] theorem emit_run (o : Output) (s : State) :
    emit o s = .ok () { s with outputs := s.outputs ++ [o] } := rfl

@[simp] theorem forEach_nil {α : Type} (f : α → Op Unit) (s : State) : forEach [] f s = .ok () s := rfl

@[simp] theorem forEach_cons {α : Type} (a : α) (as : List α) (f : α → Op Unit) (s : State) :
    forEach (a :: as) f s = match f a s with
      | .ok _ t => forEach as f t
      | .error e t => .error e t := by
  rw [forEach, bind_run]
  cases f a s <;> rfl

theorem ite_run {α : Type} (c : Prop) [Decidable c] (x y : Op α) (s : State) :
    (if c then x else y) s = if c then x s else y s := by split <;> rfl

/-- What `perform` answers on a ready machine. -/
theorem perform_ready {s : State} (h : s.Ready) (op : Op Unit) :
    perform op s = match op s with
      | .ok _ t => .next t
      | .error f t => .next (takeFault f t) := by
  cases e : op s <;> simp only [perform, h.noFault, h.legal, if_true, e]

/-- A faulted machine takes no step (10_state.md rule R74). -/
theorem perform_faulted {s : State} {f : Fault} (h : s.fault = some f) (op : Op Unit) :
    perform op s = .fault f := by
  simp only [perform, h]

/-! ### Accesses when no BUS step falls before them -/

@[simp] theorem busWindow_quiet {s : State} (h : s.busTape = []) : busWindow s = .ok () s := by
  simp [busWindow, h]

@[simp] theorem boundary_quiet {s : State} (h : s.isrTape = []) : boundary s = .ok () s := by
  simp [boundary, h]

@[simp] theorem readReg_quiet {α : Type} {s : State} (h : s.busTape = []) (f : State → α) :
    readReg f s = .ok (f s) s := by simp [readReg, h]

@[simp] theorem writeReg_quiet {s : State} (h : s.busTape = []) (f : State → State) :
    writeReg f s = .ok () (f s) := by simp [writeReg, h]

theorem checkIdx_run (i : Nat) (s : State) :
    checkIdx i s = if i < s.cfg.nEp then .ok () s else .error (.illegalCmd s.cmd) s := by
  simp only [checkIdx, bind_run, peek_run, id]
  split <;> rfl

@[simp] theorem checkIdx_ok {s : State} {i : Nat} (h : i < s.cfg.nEp) : checkIdx i s = .ok () s := by
  simp [checkIdx_run, h]

theorem checkOperand_run (ok : Bool) (s : State) :
    checkOperand ok s = if ok then .ok () s else .error (.illegalCmd s.cmd) s := by
  simp only [checkOperand, bind_run, peek_run, id]
  split <;> rfl

@[simp] theorem checkEp_ok {s : State} {ep : Byte} (h : epOk ep = true) : checkEp ep s = .ok () s := by
  simp [checkEp, checkOperand_run, h]

@[simp] theorem readEpr_quiet {s : State} {i : Nat} (h : s.busTape = []) (hi : i < s.cfg.nEp) :
    readEpr i s = .ok (s.eprAt i) s := by simp [readEpr, h, hi]

@[simp] theorem writeEpr_quiet {s : State} {i : Nat} (h : s.busTape = []) (hi : i < s.cfg.nEp) (w : Half) :
    writeEpr i w s = .ok () (s.hwWriteEpr i w) := by simp [writeEpr, h, hi]

/-- The read-modify-write primitive with nothing between its two accesses (41_epreg_engine.md rule R202). -/
@[simp] theorem rmwEpr_quiet {s : State} {i : Nat} (h : s.busTape = []) (hi : i < s.cfg.nEp) (c : MuxSel) :
    rmwEpr i c s = .ok () (s.hwWriteEpr i (mux (s.eprAt i) c)) := by simp [rmwEpr, h, hi]

/-- The primitive when the BUS steps `w` fall between its read and its write (rule R214). -/
theorem rmwEpr_split {s u : State} {i : Nat} {w : List BusRec} {rest : List (List BusRec)}
    (h : s.busTape = [] :: w :: rest) (hi : i < s.cfg.nEp)
    (hu : forEach w busStep { s with busTape := rest } = .ok () u) (c : MuxSel) :
    rmwEpr i c s = .ok () (u.hwWriteEpr i (mux (s.eprAt i) c)) := by
  simp only [rmwEpr, readEpr, writeEpr, readReg, writeReg, bind_run, checkIdx_ok hi]
  simp only [busWindow, h, forEach_nil, peek_run, State.eprAt, checkIdx_run, hi, if_true]
  simp only [hu, change_run]

@[simp] theorem readIstr_quiet {s : State} (h : s.busTape = []) : readIstr s = .ok s.istr s := by
  simp [readIstr, h]

@[simp] theorem readCntr_quiet {s : State} (h : s.busTape = []) : readCntr s = .ok s.cntr s := by
  simp [readCntr, h]

@[simp] theorem clearFlag_quiet {s : State} (h : s.busTape = []) (f : Half) :
    clearFlag f s = .ok () (s.writeIstr (~~~f)) := by simp [clearFlag, h]

@[simp] theorem updateCntr_quiet {s : State} (h : s.busTape = []) (mask v : Half) :
    updateCntr mask v s = .ok () (s.writeCntr (putBits mask s.cntr v)) := by simp [updateCntr, h]

@[simp] theorem callDcd_quiet {s t : State} {op : Op Unit} (h : s.isrTape = []) (ho : op s = .ok () t)
    (ht : t.isrTape = []) : callDcd op s = .ok () t := by simp [callDcd, h, ho, ht]

/-- A post to a queue with room (10_state.md rule R62). -/
@[simp] theorem post_ok {s : State} {ev : Event} (h : s.evq.length < s.cfg.evqDepth) :
    post ev s = .ok () { s with evq := s.evq ++ [ev] } := by simp [post, h]

/-- A post to a full queue (rule R62). -/
theorem post_full {s : State} {ev : Event} (h : ¬ s.evq.length < s.cfg.evqDepth) :
    post ev s = .error (.evqOverflow ev.kind) s := by simp [post, h]

/-! ### Ranges of memory -/

theorem pmaRead8_ok {s : State} {a : Nat} (h : a < s.cfg.pmaSize) :
    pmaRead8 a s = .ok (Memory.read s.pma a) s := by simp [pmaRead8, h]

theorem pmaWrite8_ok {s : State} {a : Nat} (h : a < s.cfg.pmaSize) (b : Byte) :
    pmaWrite8 a b s = .ok () { s with pma := Memory.write s.pma a b } := by simp [pmaWrite8, h]

theorem pmaReadBytes_ok {s : State} {a n : Nat} (h : a + n ≤ s.cfg.pmaSize) :
    pmaReadBytes a n s = .ok (Memory.readBytes s.pma a n) s := by
  induction n generalizing a with
  | zero => rfl
  | succ n ih =>
    simp only [pmaReadBytes, bind_run, pmaRead8_ok (show a < s.cfg.pmaSize by omega),
      ih (show a + 1 + n ≤ s.cfg.pmaSize by omega), pure_run, Memory.readBytes_succ]

theorem pmaWriteBytes_ok {s : State} {a : Nat} {bs : List Byte} (h : a + bs.length ≤ s.cfg.pmaSize) :
    pmaWriteBytes a bs s = .ok () { s with pma := Memory.writeBytes s.pma a bs } := by
  induction bs generalizing a s with
  | nil => rfl
  | cons b bs ih =>
    simp only [List.length_cons] at h
    simp only [pmaWriteBytes, bind_run, pmaWrite8_ok (show a < s.cfg.pmaSize by omega)]
    rw [ih (by simp only; omega)]
    rfl

theorem pmaHalf_ok {s : State} {a : Nat} (h : a + 2 ≤ s.cfg.pmaSize) :
    pmaHalf a s = .ok (s.pmaHalfAt a) s := by
  simp only [pmaHalf, bind_run, pmaRead8_ok (show a < s.cfg.pmaSize by omega),
    pmaRead8_ok (show a + 1 < s.cfg.pmaSize by omega), pure_run, State.pmaHalfAt]

@[simp] theorem readHalf_quiet {s : State} {a : Nat} (hb : s.busTape = []) (h : a + 2 ≤ s.cfg.pmaSize) :
    readHalf a s = .ok (s.pmaHalfAt a) s := by simp [readHalf, hb, pmaHalf_ok h]

@[simp] theorem pmaReadWord_quiet {s : State} {a n : Nat} (hb : s.busTape = [])
    (h : a + n ≤ s.cfg.pmaSize) : pmaReadWord a n s = .ok (Memory.readBytes s.pma a n) s := by
  simp [pmaReadWord, hb, pmaReadBytes_ok h]

@[simp] theorem pmaWriteWord_quiet {s : State} {a : Nat} {bs : List Byte} (hb : s.busTape = [])
    (h : a + bs.length ≤ s.cfg.pmaSize) :
    pmaWriteWord a bs s = .ok () { s with pma := Memory.writeBytes s.pma a bs } := by
  simp [pmaWriteWord, hb, pmaWriteBytes_ok h]

theorem Config.mappedRange_succ {c : Config} {a n : Nat} (h : Config.MappedRange c a (n + 1)) :
    Config.mapped c a = true ∧ Config.MappedRange c (a + 1) n := by
  refine ⟨by simpa using h 0 (by omega), fun k hk => ?_⟩
  have := h (k + 1) (by omega)
  rwa [show a + (k + 1) = a + 1 + k by omega] at this

theorem memRead_ok {s : State} {a n : Nat} (h : Config.MappedRange s.cfg a n) :
    memRead a n s = .ok (Memory.readBytes s.ram a n) s := by
  induction n generalizing a with
  | zero => rfl
  | succ n ih =>
    obtain ⟨h0, h1⟩ := Config.mappedRange_succ h
    simp only [memRead, bind_run, ramRead8, peek_run, id, h0, if_true, ih h1, pure_run,
      Memory.readBytes_succ]

theorem memWrite_ok {s : State} {a : Nat} {bs : List Byte} (h : Config.MappedRange s.cfg a bs.length) :
    memWrite a bs s = .ok () { s with ram := Memory.writeBytes s.ram a bs } := by
  induction bs generalizing a s with
  | nil => rfl
  | cons b bs ih =>
    obtain ⟨h0, h1⟩ := Config.mappedRange_succ h
    simp only [memWrite, bind_run, ramWrite8, peek_run, id, h0, if_true, change_run]
    rw [ih (by simpa using h1)]
    rfl

end Sys2Proof.Machine
end

