-- ==== Sys2Proof/Laws/Flags.lean ====
section
/-! SUPPORT. The multiplexer and the hardware write together (41_epreg_engine.md rule R204). -/

namespace Sys2Proof.Machine

/-- The bits a select replaces. -/
def MuxSel.mask (c : MuxSel) : Half :=
  (if c.statTx.isSome then 0x0030 else 0) ||| (if c.dtogTx.isSome then 0x0040 else 0)
    ||| (if c.statRx.isSome then 0x3000 else 0) ||| (if c.dtogRx.isSome then 0x4000 else 0)
    ||| (if c.clrCtrTx then 0x0080 else 0) ||| (if c.clrCtrRx then 0x8000 else 0)
    ||| (if c.type.isSome then 0x0600 else 0) ||| (if c.kind.isSome then 0x0100 else 0)
    ||| (if c.ea.isSome then 0x000F else 0)

/-- The bits it puts there. -/
def MuxSel.value (c : MuxSel) : Half :=
  placed 4 (c.statTx.getD 0) ||| (if c.dtogTx.getD false then 0x0040 else 0)
    ||| placed 12 (c.statRx.getD 0) ||| (if c.dtogRx.getD false then 0x4000 else 0)
    ||| placed 9 (c.type.getD 0) ||| (if c.kind.getD false then 0x0100 else 0) ||| placed 0 (c.ea.getD 0)

theorem ite_bit (b : Bool) (x : Half) (k : Nat) :
    BitVec.getLsbD (if b = true then x else 0#16) k = (b && x.getLsbD k) := by
  cases b <;> simp

theorem nite_bit (b : Bool) (x : Half) (k : Nat) :
    BitVec.getLsbD (if b = true then 0#16 else x) k = (!b && x.getLsbD k) := by
  cases b <;> simp

/-- The law of the multiplexer (rule R204) as one masked replacement. -/
theorem hwWrite_mux (r : Half) (c : MuxSel) : hwWrite r (mux r c) = putBits c.mask r c.value := by
  obtain ⟨st, dt, sr, dr, ct, cr, ty, kd, ea⟩ := c
  ext k hk
  simp only [← BitVec.getLsbD_eq_getElem]
  simp only [hwWrite, mux, putBits, keepOr, toggleTo, MuxSel.mask, MuxSel.value, BitVec.getLsbD_or,
    BitVec.getLsbD_and, BitVec.getLsbD_xor, BitVec.getLsbD_not, hk, decide_true, Bool.true_and]
  interval_cases k
  all_goals simp only [ite_bit, nite_bit, BitVec.reduceGetLsb, BitVec.ofNat_eq_ofNat, Bool.and_true, Bool.and_false,
    Bool.or_false, Bool.false_or, Bool.not_false]
  · cases ea <;> simp [placed]
  · cases ea <;> simp [placed]
  · cases ea <;> simp [placed]
  · cases ea <;> simp [placed]
  · cases st <;> simp [placed]
  · cases st <;> simp [placed]
  · rcases dt with _ | _ | _ <;> simp [placed]
  · simp [placed]
  · rcases kd with _ | _ | _ <;> simp [placed]
  · cases ty <;> simp [placed]
  · cases ty <;> simp [placed]
  · cases sr <;> simp [placed]
  · cases sr <;> simp [placed]
  · rcases dr with _ | _ | _ <;> simp [placed]
  · simp [placed]

end Sys2Proof.Machine
end

