-- ==== Sys2Proof/Laws/State.lean ====
section
/-! SUPPORT. What each update of the state does to each field: one lemma per field per update. -/

namespace Sys2Proof.Machine

/-! ### The configuration and the endpoint registers -/

/-- The bounds a legal parameter set gives (00_scope.md rule R9). -/
theorem Config.legal_bounds {c : Config} (h : c.legal = true) :
    1 ≤ c.nEp ∧ c.nEp ≤ 8 ∧ c.btableBase % 8 = 0 ∧ c.btableBase + 8 * c.nEp + 2 * c.ep0Size ≤ c.pmaSize
      ∧ (c.ep0Size = 8 ∨ c.ep0Size = 16 ∨ c.ep0Size = 32 ∨ c.ep0Size = 64) ∧ c.pmaSize ≤ 2048
      ∧ 36 ≤ c.mscBufSize ∧ c.mscBufSize ≤ 65535 ∧ 4 ≤ c.evqDepth := by
  simp only [Config.legal, Bool.and_eq_true, Bool.or_eq_true, decide_eq_true_eq, beq_iff_eq] at h
  omega

/-- A BTABLE descriptor lies in the PMA (20_memory.md rule R101). -/
theorem btAddr_inside {c : Config} (h : c.legal = true) {i : Nat} (hi : i < c.nEp) (b : Bool) :
    btAddr c i b + 4 ≤ c.pmaSize := by
  have := Config.legal_bounds h
  unfold btAddr
  split <;> omega

@[simp] theorem putEpr_eprAt {s : State} {i : Nat} (hi : i < s.cfg.nEp) (hn : s.cfg.nEp ≤ 8) (v : Half) (j : Nat) :
    (s.putEpr true i v).eprAt j = if j = i then v else s.eprAt j := by
  simp only [State.eprAt, State.putEpr, hi, decide_true, Bool.and_self, if_true]
  rw [Vector.getElem?_setIfInBounds]
  by_cases h : i = j
  · subst h
    rw [if_pos rfl, if_pos (by omega), if_pos rfl, Option.getD_some]
  · rw [if_neg h, if_neg (by omega)]

@[simp] theorem putEpr_false (s : State) (i : Nat) (v : Half) : s.putEpr false i v = s := by
  simp [State.putEpr]

/-- The hardware write while the peripheral runs (41_epreg_engine.md rule R203). -/
theorem hwWriteEpr_running {s : State} (h : s.fres = false) (i : Nat) (w : Half) :
    s.hwWriteEpr i w = s.putEpr true i (hwWrite (s.eprAt i) w) := by
  simp [State.hwWriteEpr, h]

/-- The hardware write while the peripheral is held in reset (44_dcd_ops.md rule R301). -/
theorem hwWriteEpr_held {s : State} (h : s.fres = true) (i : Nat) (w : Half) : s.hwWriteEpr i w = s := by
  simp [State.hwWriteEpr, h]

@[simp] theorem putEpr_fres (s : State) (on : Bool) (i : Nat) (v : Half) : (s.putEpr on i v).fres = s.fres := rfl

/-! ### The tables -/

@[simp] theorem putSlot_slotAt (s : State) (i j : Nat) (v : Slot) :
    (s.putSlot i v).slotAt j = if j = i ∧ i < 8 then v else s.slotAt j := by
  simp only [State.slotAt, State.putSlot, Vector.getElem?_setIfInBounds]
  by_cases h : i = j
  · subst h
    by_cases h8 : i < 8
    · simp [h8]
    · simp [h8]
  · rw [if_neg h, if_neg (by omega)]

theorem ctxIx_lt (n : BitVec 4) (d : Dir) : ctxIx n d < 32 := by
  have := n.isLt
  unfold ctxIx
  cases d <;> simp only <;> omega

theorem ctxIx_inj {n m : BitVec 4} {d e : Dir} : ctxIx n d = ctxIx m e ↔ n = m ∧ d = e := by
  constructor
  · intro h
    unfold ctxIx at h
    refine ⟨BitVec.eq_of_toNat_eq ?_, ?_⟩
    · cases d <;> cases e <;> simp only at h <;> omega
    · cases d <;> cases e <;> first | rfl | (simp only at h; omega)
  · rintro ⟨rfl, rfl⟩; rfl

@[simp] theorem updCtx_ctx (s : State) (n m : BitVec 4) (d e : Dir) (f : XferCtx → XferCtx) :
    (s.updCtx n d f).ctx m e = if m = n ∧ e = d then f (s.ctx n d) else s.ctx m e := by
  simp only [State.ctx, State.updCtx, Vector.getElem?_setIfInBounds]
  by_cases h : m = n ∧ e = d
  · obtain ⟨rfl, rfl⟩ := h
    simp [ctxIx_lt]
  · rw [if_neg fun h' => h (by simpa using (ctxIx_inj.1 h').imp Eq.symm Eq.symm), if_neg h]

theorem epIx_lt (ep : Byte) : epIx ep < 32 := ctxIx_lt _ _

@[simp] theorem putBusy_busyAt (s : State) (ep q : Byte) (b : Bool) :
    (s.putBusy ep b).busyAt q = if epIx q = epIx ep then b else s.busyAt q := by
  simp only [State.busyAt, State.putBusy, Vector.getElem?_setIfInBounds]
  by_cases h : epIx ep = epIx q
  · rw [if_pos h, if_pos (h ▸ epIx_lt ep), if_pos h.symm, Option.getD_some]
  · rw [if_neg h, if_neg (Ne.symm h)]

@[simp] theorem putStalled_stalledAt (s : State) (ep q : Byte) (b : Bool) :
    (s.putStalled ep b).stalledAt q = if epIx q = epIx ep then b else s.stalledAt q := by
  simp only [State.stalledAt, State.putStalled, Vector.getElem?_setIfInBounds]
  by_cases h : epIx ep = epIx q
  · rw [if_pos h, if_pos (h ▸ epIx_lt ep), if_pos h.symm, Option.getD_some]
  · rw [if_neg h, if_neg (Ne.symm h)]

@[simp] theorem putBusy_stalledAt (s : State) (ep q : Byte) (b : Bool) :
    (s.putBusy ep b).stalledAt q = s.stalledAt q := rfl

@[simp] theorem putStalled_busyAt (s : State) (ep q : Byte) (b : Bool) :
    (s.putStalled ep b).busyAt q = s.busyAt q := rfl

@[simp] theorem updCtx_eprAt (s : State) (n : BitVec 4) (d : Dir) (f : XferCtx → XferCtx) (i : Nat) :
    (s.updCtx n d f).eprAt i = s.eprAt i := rfl

@[simp] theorem putSlot_eprAt (s : State) (i j : Nat) (v : Slot) : (s.putSlot i v).eprAt j = s.eprAt j := rfl

@[simp] theorem putBusy_eprAt (s : State) (ep : Byte) (b : Bool) (i : Nat) :
    (s.putBusy ep b).eprAt i = s.eprAt i := rfl

@[simp] theorem putStalled_eprAt (s : State) (ep : Byte) (b : Bool) (i : Nat) :
    (s.putStalled ep b).eprAt i = s.eprAt i := rfl

@[simp] theorem updMsc_eprAt (s : State) (f : Msc → Msc) (i : Nat) : (s.updMsc f).eprAt i = s.eprAt i := rfl

@[simp] theorem putEpr_ctx (s : State) (on : Bool) (i : Nat) (v : Half) (n : BitVec 4) (d : Dir) :
    (s.putEpr on i v).ctx n d = s.ctx n d := rfl

@[simp] theorem putEpr_slotAt (s : State) (on : Bool) (i : Nat) (v : Half) (j : Nat) :
    (s.putEpr on i v).slotAt j = s.slotAt j := rfl

/-! ### The derived reads of each update -/

@[simp] theorem pmaStored_eprAt (s : State) (a : Nat) (bs : List Byte) (i : Nat) :
    (s.pmaStored a bs).eprAt i = s.eprAt i := rfl

@[simp] theorem ramStored_eprAt (s : State) (a : Nat) (bs : List Byte) (i : Nat) :
    (s.ramStored a bs).eprAt i = s.eprAt i := rfl

@[simp] theorem addrStored_eprAt (s : State) (i : Nat) (b : Bool) (a : Half) (j : Nat) :
    (s.addrStored i b a).eprAt j = s.eprAt j := rfl

@[simp] theorem countwStored_eprAt (s : State) (i : Nat) (b : Bool) (v : Half) (j : Nat) :
    (s.countwStored i b v).eprAt j = s.eprAt j := rfl

@[simp] theorem countStored_eprAt (s : State) (i : Nat) (b : Bool) (n j : Nat) :
    (s.countStored i b n).eprAt j = s.eprAt j := rfl

@[simp] theorem slotTaken_eprAt (s : State) (ep : Byte) (ty : BitVec 2) (i j : Nat) :
    (s.slotTaken ep ty i).eprAt j = s.eprAt j := rfl

@[simp] theorem withCursor_eprAt (s : State) (n i : Nat) : (s.withCursor n).eprAt i = s.eprAt i := rfl

@[simp] theorem slotsFreed_eprAt (s : State) (i : Nat) : s.slotsFreed.eprAt i = s.eprAt i := rfl

@[simp] theorem writeDaddr_eprAt (s : State) (w : Half) (i : Nat) : (s.writeDaddr w).eprAt i = s.eprAt i := rfl

@[simp] theorem pmaStored_fres (s : State) (a : Nat) (bs : List Byte) : (s.pmaStored a bs).fres = s.fres := rfl

@[simp] theorem ramStored_fres (s : State) (a : Nat) (bs : List Byte) : (s.ramStored a bs).fres = s.fres := rfl

@[simp] theorem addrStored_fres (s : State) (i : Nat) (b : Bool) (a : Half) : (s.addrStored i b a).fres = s.fres := rfl

@[simp] theorem countwStored_fres (s : State) (i : Nat) (b : Bool) (v : Half) :
    (s.countwStored i b v).fres = s.fres := rfl

@[simp] theorem countStored_fres (s : State) (i : Nat) (b : Bool) (n : Nat) :
    (s.countStored i b n).fres = s.fres := rfl

@[simp] theorem slotTaken_fres (s : State) (ep : Byte) (ty : BitVec 2) (i : Nat) :
    (s.slotTaken ep ty i).fres = s.fres := rfl

@[simp] theorem withCursor_fres (s : State) (n : Nat) : (s.withCursor n).fres = s.fres := rfl

@[simp] theorem updCtx_fres (s : State) (n : BitVec 4) (d : Dir) (f : XferCtx → XferCtx) :
    (s.updCtx n d f).fres = s.fres := rfl

@[simp] theorem slotsFreed_fres (s : State) : s.slotsFreed.fres = s.fres := rfl

@[simp] theorem writeDaddr_fres (s : State) (w : Half) : (s.writeDaddr w).fres = s.fres := rfl

@[simp] theorem putBusy_fres (s : State) (ep : Byte) (b : Bool) : (s.putBusy ep b).fres = s.fres := rfl

@[simp] theorem putStalled_fres (s : State) (ep : Byte) (b : Bool) : (s.putStalled ep b).fres = s.fres := rfl

@[simp] theorem updMsc_fres (s : State) (f : Msc → Msc) : (s.updMsc f).fres = s.fres := rfl

@[simp] theorem pmaStored_ctx (s : State) (a : Nat) (bs : List Byte) (n : BitVec 4) (d : Dir) :
    (s.pmaStored a bs).ctx n d = s.ctx n d := rfl

@[simp] theorem countwStored_ctx (s : State) (i : Nat) (b : Bool) (v : Half) (n : BitVec 4) (d : Dir) :
    (s.countwStored i b v).ctx n d = s.ctx n d := rfl

@[simp] theorem countStored_ctx (s : State) (i : Nat) (b : Bool) (k : Nat) (n : BitVec 4) (d : Dir) :
    (s.countStored i b k).ctx n d = s.ctx n d := rfl

@[simp] theorem addrStored_ctx (s : State) (i : Nat) (b : Bool) (a : Half) (n : BitVec 4) (d : Dir) :
    (s.addrStored i b a).ctx n d = s.ctx n d := rfl

@[simp] theorem withCursor_ctx (s : State) (k : Nat) (n : BitVec 4) (d : Dir) :
    (s.withCursor k).ctx n d = s.ctx n d := rfl

@[simp] theorem slotTaken_ctx (s : State) (ep : Byte) (ty : BitVec 2) (i : Nat) (n : BitVec 4) (d : Dir) :
    (s.slotTaken ep ty i).ctx n d = s.ctx n d := rfl

@[simp] theorem putBusy_ctx (s : State) (ep : Byte) (b : Bool) (n : BitVec 4) (d : Dir) :
    (s.putBusy ep b).ctx n d = s.ctx n d := rfl

@[simp] theorem slotsFreed_slotAt (s : State) (i : Nat) : s.slotsFreed.slotAt i = Slot.free := by
  simp only [State.slotAt, State.slotsFreed_slots, Vector.getElem?_replicate]
  split <;> rfl

@[simp] theorem slotTaken_slotAt (s : State) (ep : Byte) (ty : BitVec 2) (i j : Nat) (hi : i < 8) :
    (s.slotTaken ep ty i).slotAt j = if j = i then (s.slotAt i).take (epNum ep) (epDir ep) ty else s.slotAt j := by
  have h := putSlot_slotAt s i j ((s.slotAt i).take (epNum ep) (epDir ep) ty)
  simp only [hi, and_true] at h
  exact h

@[simp] theorem updCtx_slotAt (s : State) (n : BitVec 4) (d : Dir) (f : XferCtx → XferCtx) (i : Nat) :
    (s.updCtx n d f).slotAt i = s.slotAt i := rfl

@[simp] theorem withCursor_slotAt (s : State) (n i : Nat) : (s.withCursor n).slotAt i = s.slotAt i := rfl

@[simp] theorem addrStored_slotAt (s : State) (i : Nat) (b : Bool) (a : Half) (j : Nat) :
    (s.addrStored i b a).slotAt j = s.slotAt j := rfl

@[simp] theorem countwStored_slotAt (s : State) (i : Nat) (b : Bool) (v : Half) (j : Nat) :
    (s.countwStored i b v).slotAt j = s.slotAt j := rfl

@[simp] theorem pmaStored_slotAt (s : State) (a : Nat) (bs : List Byte) (j : Nat) :
    (s.pmaStored a bs).slotAt j = s.slotAt j := rfl

@[simp] theorem putBusy_slotAt (s : State) (ep : Byte) (b : Bool) (j : Nat) :
    (s.putBusy ep b).slotAt j = s.slotAt j := rfl

/-- Two changes of one transfer context are one. -/
theorem updCtx_updCtx (s : State) (n : BitVec 4) (d : Dir) (f g : XferCtx → XferCtx) :
    (s.updCtx n d f).updCtx n d g = s.updCtx n d fun x => g (f x) := by
  have h := updCtx_ctx s n n d d f
  simp only [and_self, if_true] at h
  conv_lhs => rw [State.updCtx, h]
  simp only [State.updCtx, Vector.setIfInBounds_setIfInBounds]

end Sys2Proof.Machine
end

