-- ==== Sys2Proof/Laws/Quiet.lean ====
section
/-! SUPPORT. What the allocator, the BTABLE accessors and the packet copies do when no BUS step falls between their
accesses: one equation per operation. -/

namespace Sys2Proof.Machine

theorem forEach_append {α : Type} (l m : List α) (f : α → Op Unit) (s : State) :
    forEach (l ++ m) f s = match forEach l f s with
      | .ok _ t => forEach m f t
      | .error e t => .error e t := by
  induction l generalizing s with
  | nil => rfl
  | cons a l ih =>
    rw [List.cons_append, forEach_cons, forEach_cons]
    cases f a s with
    | ok _ t => exact ih t
    | error e t => rfl

@[simp] theorem onlyIf_run (b : Bool) (op : Op Unit) (s : State) :
    onlyIf b op s = if b then op s else .ok () s := by
  unfold onlyIf
  split <;> rfl

/-! ### The BTABLE (42_pma_btable.md) -/

theorem countField_le (v : Half) : countField v < 1024 := (v.extractLsb' 0 10).isLt

@[simp] theorem leBytes16_length (v : Half) : (leBytes16 v).length = 2 := rfl

@[simp] theorem leBytes16_le16 (b0 b1 : Byte) : leBytes16 (le16 b0 b1) = [b0, b1] := by
  simp only [leBytes16, le16, List.cons.injEq, and_true]
  constructor
  · ext k hk
    rw [BitVec.getElem_extractLsb' hk, BitVec.getLsbD_append, if_pos (by omega)]
    simp [BitVec.getLsbD_eq_getElem hk]
  · ext k hk
    rw [BitVec.getElem_extractLsb' hk, BitVec.getLsbD_append, if_neg (by omega)]
    simp [BitVec.getLsbD_eq_getElem hk]

@[simp] theorem le16_leBytes16 (v : Half) : le16 (v.extractLsb' 0 8) (v.extractLsb' 8 8) = v := by
  ext k hk
  rw [le16, BitVec.getElem_append hk]
  split
  · simp [BitVec.getLsbD_eq_getElem hk]
  · simp only [BitVec.getElem_extractLsb', show 8 + (k - 8) = k by omega, BitVec.getLsbD_eq_getElem hk]

/-- A field write of the BTABLE stores that field and keeps the other half of the descriptor (20_memory.md rule
R108), on either bus. -/
theorem btWrite_quiet {s : State} (hl : s.cfg.legal = true) (hb : s.busTape = []) (hw : Memory.wf s.pma) {i : Nat}
    (hi : i < s.cfg.nEp) (b count : Bool) (v : Half) :
    btWrite i b count v s
      = .ok () (s.pmaStored (btAddr s.cfg i b + if count then 2 else 0) (leBytes16 v)) := by
  have he := btAddr_inside hl hi b
  simp only [btWrite, bind_run, peek_run, State.pmaStored]
  by_cases h32 : s.cfg.bus32 = true
  · rw [if_pos h32, bind_run, pmaReadWord_quiet hb he]
    simp only
    have hsplit : Memory.readBytes s.pma (btAddr s.cfg i b) 4
        = Memory.readBytes s.pma (btAddr s.cfg i b) 2 ++ Memory.readBytes s.pma (btAddr s.cfg i b + 2) 2 :=
      Memory.readBytes_add _ _ 2 2
    cases count
    · rw [if_neg (by simp), if_neg (by simp), hsplit, List.drop_left' (by simp),
        pmaWriteWord_quiet hb (by simp; omega)]
      have := Memory.writeBytes_keep hw (btAddr s.cfg i b) 2 (leBytes16 v)
      rw [leBytes16_length] at this
      rw [this, Nat.add_zero]
    · rw [if_pos rfl, if_pos rfl, hsplit, List.take_left' (by simp), pmaWriteWord_quiet hb (by simp; omega),
        Memory.writeBytes_skip hw]
  · rw [if_neg h32]
    cases count
    · exact pmaWriteWord_quiet hb (by simp; omega)
    · exact pmaWriteWord_quiet hb (by simp; omega)

@[simp] theorem btSetAddrOp_quiet {s : State} (hl : s.cfg.legal = true) (hb : s.busTape = [])
    (hw : Memory.wf s.pma) {i : Nat} (hi : i < s.cfg.nEp) (b : Bool) (a : Half) :
    btSetAddrOp i b a s = .ok () (s.addrStored i b a) := by
  simp only [btSetAddrOp, bind_run, checkIdx_ok hi, btWrite_quiet hl hb hw hi]
  rfl

@[simp] theorem btGetAddrOp_quiet {s : State} (hl : s.cfg.legal = true) (hb : s.busTape = []) {i : Nat}
    (hi : i < s.cfg.nEp) (b : Bool) : btGetAddrOp i b s = .ok (s.btAddrOf i b) s := by
  have := btAddr_inside hl hi b
  simp only [btGetAddrOp, bind_run, checkIdx_ok hi, peek_run, readHalf_quiet hb (show btAddr s.cfg i b + 2 ≤ _ by omega)]
  rfl

@[simp] theorem btGetCountOp_quiet {s : State} (hl : s.cfg.legal = true) (hb : s.busTape = []) {i : Nat}
    (hi : i < s.cfg.nEp) (b : Bool) : btGetCountOp i b s = .ok (countField (s.countwOf i b)) s := by
  have := btAddr_inside hl hi b
  simp only [btGetCountOp, bind_run, checkIdx_ok hi, peek_run,
    readHalf_quiet hb (show btAddr s.cfg i b + 2 + 2 ≤ _ by omega), pure_run]
  rfl

@[simp] theorem btSetCountOp_quiet {s : State} (hl : s.cfg.legal = true) (hb : s.busTape = [])
    (hw : Memory.wf s.pma) {i : Nat} (hi : i < s.cfg.nEp) (b : Bool) (n : Nat) :
    btSetCountOp i b n s = .ok () (s.countStored i b n) := by
  have he := btAddr_inside hl hi b
  simp only [btSetCountOp, bind_run, checkIdx_ok hi, peek_run]
  by_cases h32 : s.cfg.bus32 = true
  · rw [if_pos h32, bind_run, pmaReadWord_quiet hb he]
    simp only
    have hsplit : Memory.readBytes s.pma (btAddr s.cfg i b) 4
        = Memory.readBytes s.pma (btAddr s.cfg i b) 2 ++ Memory.readBytes s.pma (btAddr s.cfg i b + 2) 2 :=
      Memory.readBytes_add _ _ 2 2
    have h2 : (Memory.readBytes s.pma (btAddr s.cfg i b) 4).getD 2 0 = Memory.read s.pma (btAddr s.cfg i b + 2) := by
      rw [Memory.getD_readBytes]; rfl
    have h3 : (Memory.readBytes s.pma (btAddr s.cfg i b) 4).getD 3 0
        = Memory.read s.pma (btAddr s.cfg i b + 2 + 1) := by
      rw [Memory.getD_readBytes]; rfl
    rw [h2, h3, hsplit, List.take_left' (by simp), pmaWriteWord_quiet hb (by simp; omega), Memory.writeBytes_skip hw]
    rfl
  · rw [if_neg h32, bind_run, readHalf_quiet hb (by omega)]
    exact pmaWriteWord_quiet hb (by simp; omega)

@[simp] theorem btSetRxBufsizeOp_quiet {s : State} (hl : s.cfg.legal = true) (hb : s.busTape = [])
    (hw : Memory.wf s.pma) {i : Nat} (hi : i < s.cfg.nEp) (b : Bool) {n : Nat} (hn : n ≤ 1024) :
    btSetRxBufsizeOp i b n s = .ok () (s.countwStored i b (rxSizeCode n)) := by
  simp only [btSetRxBufsizeOp, bind_run, checkIdx_ok hi]
  rw [if_neg (by omega), btWrite_quiet hl hb hw hi]
  rfl

/-! ### The allocators -/

@[simp] theorem checkAlign_ok {s : State} {x : Nat} (h : s.cfg.bus32 = true → x % 4 = 0) :
    checkAlign x s = .ok () s := by
  simp only [checkAlign, bind_run, peek_run]
  rw [if_neg]
  · rfl
  · intro h'
    simp only [Bool.and_eq_true, bne_iff_ne] at h'
    exact h'.2 (h h'.1)

/-- How far an allocation moves the cursor, and the offsets it gives (rule R242). -/
theorem pmaAllocOp_ok {s : State} {len : Nat} {d : Bool} (hlen : len ≤ 1024)
    (hroom : s.pmaCursor + (if d then 2 * aligned len else aligned len) ≤ s.cfg.pmaSize)
    (hal : s.cfg.bus32 = true → s.pmaCursor % 4 = 0 ∧ (d = true → (s.pmaCursor + aligned len) % 4 = 0)) :
    pmaAllocOp len d s = .ok
      (if d then BitVec.ofNat 16 (s.pmaCursor + aligned len) ++ BitVec.ofNat 16 s.pmaCursor
       else BitVec.ofNat 32 s.pmaCursor)
      (s.withCursor (s.pmaCursor + if d then 2 * aligned len else aligned len)) := by
  simp only [pmaAllocOp, bind_run, peek_run, id, State.withCursor]
  rw [if_neg (by omega), if_neg (by omega), bind_run, change_run]
  simp only
  generalize ht : ({ s with pmaCursor := _ } : State) = t
  have hc : t.cfg = s.cfg := by rw [← ht]
  rw [bind_run, checkAlign_ok (by rw [hc]; exact fun h => (hal h).1)]
  simp only
  cases d
  · rfl
  · rw [if_pos rfl, bind_run, checkAlign_ok (by rw [hc]; exact fun h => (hal h).2 rfl)]
    rfl

/-- The slot allocator's outcome (rule R251). -/
theorem epAllocOp_run (ep : Byte) (ty : BitVec 2) (s : State) :
    epAllocOp ep ty s = match s.firstSlot (epNum ep) (epDir ep) ty with
      | none => .error (.slotExhausted ep) s
      | some i =>
        if (s.slotAt i).isOpen (epNum ep) (epDir ep) ty then .ok i s
        else .ok i (s.putSlot i ((s.slotAt i).take (epNum ep) (epDir ep) ty)) := by
  simp only [epAllocOp, bind_run, peek_run, id]
  cases s.firstSlot (epNum ep) (epDir ep) ty with
  | none => rfl
  | some i => simp only; split <;> rfl

/-! ### Packet copies (43_pma_copy.md) -/

theorem takeBytes_length (n : Nat) (bs : List Byte) : (takeBytes n bs).length = n := by
  simp [takeBytes]

theorem takeBytes_getD (n : Nat) (bs : List Byte) (k : Nat) :
    (takeBytes n bs).getD k 0 = if k < n then bs.getD k 0 else 0 := by
  unfold takeBytes
  by_cases hk : k < n
  · rw [if_pos hk, List.getD_eq_getElem _ _ (by simp; omega), List.getElem_take]
    by_cases hb : k < bs.length
    · rw [List.getElem_append_left hb, List.getD_eq_getElem _ _ hb]
    · rw [List.getElem_append_right (by omega), List.getD_eq_default _ _ (by omega)]
      simp
  · rw [if_neg hk, List.getD_eq_default _ _ (by simp; omega)]

theorem ext_of_getD {l m : List Byte} (hl : l.length = m.length) (h : ∀ k < l.length, l.getD k 0 = m.getD k 0) :
    l = m := by
  refine List.ext_getElem hl fun k h1 h2 => ?_
  have := h k h1
  rwa [List.getD_eq_getElem _ _ h1, List.getD_eq_getElem _ _ h2] at this

theorem takeBytes_exact {n : Nat} {bs : List Byte} (h : bs.length = n) : takeBytes n bs = bs := by
  refine ext_of_getD (by rw [takeBytes_length, h]) fun k hk => ?_
  rw [takeBytes_length] at hk
  rw [takeBytes_getD, if_pos hk]

theorem takeBytes_append {n k : Nat} {bs cs : List Byte} (h : bs.length = n) :
    takeBytes (n + k) (bs ++ cs) = bs ++ takeBytes k cs := by
  refine ext_of_getD (by simp [takeBytes_length, h]) fun j hj => ?_
  rw [takeBytes_length] at hj
  rw [takeBytes_getD, if_pos hj]
  by_cases hb : j < bs.length
  · rw [List.getD_append _ _ _ _ hb, List.getD_append _ _ _ _ hb]
  · rw [List.getD_append_right _ _ _ _ (by omega), List.getD_append_right _ _ _ _ (by omega), takeBytes_getD,
      if_pos (by omega)]

/-- The full words and the tail of a length. -/
theorem roundUp_eq {w : Nat} (hw : 0 < w) (n : Nat) : roundUp n w = w * (n / w) + if n % w = 0 then 0 else w := by
  have hd := Nat.div_add_mod n w
  have hlt := Nat.mod_lt n hw
  unfold roundUp ceilDiv
  generalize n / w = q at hd ⊢
  generalize n % w = r at hd hlt ⊢
  subst hd
  by_cases h : r = 0
  · rw [if_pos h, h, Nat.add_zero, Nat.add_sub_assoc (by omega), Nat.mul_add_div hw,
      Nat.div_eq_of_lt (by omega), Nat.add_zero]
  · rw [if_neg h, show w * q + r + w - 1 = w * (q + 1) + (r - 1) by rw [Nat.mul_succ]; omega, Nat.mul_add_div hw,
      Nat.div_eq_of_lt (by omega), Nat.add_zero, Nat.mul_succ]

theorem le_roundUp {w : Nat} (hw : 0 < w) (n : Nat) : n ≤ roundUp n w := by
  rw [roundUp_eq hw]
  have hd := Nat.div_add_mod n w
  have hlt := Nat.mod_lt n hw
  split <;> omega

/-- The word writes of a copy store the source, the unused bytes of the tail word 0 (rule R281). -/
theorem forEach_wordSpans_write {s : State} (hb : s.busTape = []) {w off : Nat} (hw : 0 < w) {src : List Byte}
    (hr : off + roundUp src.length w ≤ s.cfg.pmaSize) :
    forEach (wordSpans w src.length)
        (fun p => pmaWriteWord (off + p.1) (takeBytes w ((src.drop p.1).take p.2))) s
      = .ok () (s.pmaStored off (takeBytes (roundUp src.length w) src)) := by
  have hd := Nat.div_add_mod src.length w
  have hlt := Nat.mod_lt src.length hw
  rw [roundUp_eq hw] at hr
  have full : ∀ q, q ≤ src.length / w →
      forEach ((List.range q).map fun k => (w * k, w))
          (fun p => pmaWriteWord (off + p.1) (takeBytes w ((src.drop p.1).take p.2))) s
        = .ok () (s.pmaStored off (src.take (w * q))) := by
    intro q hq
    induction q with
    | zero => simp [State.pmaStored, Memory.writeBytes]
    | succ q ih =>
      have hqw : w * q + w ≤ w * (src.length / w) := by rw [← Nat.mul_succ]; exact Nat.mul_le_mul_left _ hq
      rw [List.range_succ, List.map_append, forEach_append, ih (by omega)]
      simp only [List.map_cons, List.map_nil, forEach_cons, forEach_nil]
      have hlen : ((src.drop (w * q)).take w).length = w := by
        rw [List.length_take, List.length_drop]; omega
      rw [pmaWriteWord_quiet (s := s.pmaStored off _) hb
        (by rw [takeBytes_length]; simp only [State.pmaStored_cfg]; split at hr <;> omega), takeBytes_exact hlen]
      simp only [State.pmaStored, EStateM.Result.ok.injEq, true_and]
      rw [Nat.mul_succ, List.take_add, Memory.writeBytes_append, List.length_take,
        Nat.min_eq_left (by omega)]
  rw [wordSpans, forEach_append, full _ (Nat.le_refl _), roundUp_eq hw]
  simp only
  by_cases h0 : src.length % w = 0
  · rw [if_pos h0, if_pos h0, forEach_nil, Nat.add_zero]
    have : w * (src.length / w) = src.length := by omega
    rw [this, List.take_length, takeBytes_exact rfl]
  · rw [if_neg h0, if_neg h0] at *
    have htl : src.length - src.length % w = w * (src.length / w) := by omega
    simp only [forEach_cons, forEach_nil, htl]
    rw [pmaWriteWord_quiet (s := s.pmaStored off _) hb
      (by rw [takeBytes_length]; simp only [State.pmaStored_cfg]; omega)]
    generalize w * (src.length / w) = m at *
    have hl : (src.take m).length = m := by rw [List.length_take]; omega
    have hdrop : (src.drop m).take (src.length % w) = src.drop m :=
      List.take_of_length_le (by rw [List.length_drop]; omega)
    have hsplit : takeBytes (m + w) src = src.take m ++ takeBytes w (src.drop m) := by
      conv_lhs => rw [← List.take_append_drop m src]
      exact takeBytes_append hl
    rw [hdrop, hsplit]
    simp only [State.pmaStored, EStateM.Result.ok.injEq, true_and]
    rw [Memory.writeBytes_append, hl]

@[simp] theorem checkSpan_ok {s : State} {off len : Nat} (ha : off % Config.pmaWidth s.cfg = 0)
    (hr : off + roundUp len (Config.pmaWidth s.cfg) ≤ s.cfg.pmaSize) : checkSpan off len s = .ok () s := by
  simp only [checkSpan, bind_run, peek_run]
  rw [if_neg (by simpa using ha), if_neg (by omega)]
  rfl

theorem pmaWidth_pos (c : Config) : 0 < Config.pmaWidth c := by
  unfold Config.pmaWidth
  split <;> omega

theorem Memory.readBytes_slice (m : List Host.Cell) (a n k l : Nat) (h : k + l ≤ n) :
    ((Memory.readBytes m a n).drop k).take l = Memory.readBytes m (a + k) l := by
  rw [show n = k + (l + (n - k - l)) by omega, Memory.readBytes_add, List.drop_left' (by simp), Memory.readBytes_add,
    List.take_left' (by simp)]

theorem wordSpans_inside {w n : Nat} (hw : 0 < w) {p : Nat × Nat} (hp : p ∈ wordSpans w n) :
    p.1 + p.2 ≤ n ∧ p.2 ≤ w ∧ p.1 + w ≤ roundUp n w := by
  have hd := Nat.div_add_mod n w
  have hlt := Nat.mod_lt n hw
  rw [roundUp_eq hw]
  simp only [wordSpans, List.mem_append, List.mem_map, List.mem_range] at hp
  rcases hp with ⟨k, hk, rfl⟩ | hp
  · have : w * k + w ≤ w * (n / w) := by rw [← Nat.mul_succ]; exact Nat.mul_le_mul_left _ hk
    simp only
    omega
  · by_cases h0 : n % w = 0
    · simp [h0] at hp
    · rw [if_neg h0, List.mem_singleton] at hp
      subst hp
      rw [if_neg h0]
      simp only
      omega

theorem forEach_congr {α : Type} {l : List α} {f g : α → Op Unit} {s : State} (Q : State → Prop) (hs : Q s)
    (hfg : ∀ a ∈ l, ∀ t, Q t → f a t = g a t) (hg : ∀ a ∈ l, ∀ t u, Q t → g a t = .ok () u → Q u) :
    forEach l f s = forEach l g s := by
  induction l generalizing s with
  | nil => rfl
  | cons a l ih =>
    rw [forEach_cons, forEach_cons, hfg a (by simp) s hs]
    cases hga : g a s with
    | ok _ t =>
      exact ih (hg a (by simp) s t hs hga) (fun b hb => hfg b (by simp [hb])) fun b hb => hg b (by simp [hb])
    | error e t => rfl

theorem Config.mappedRange_slice {c : Config} {a n k l : Nat} (h : Config.MappedRange c a n) (hk : k + l ≤ n) :
    Config.MappedRange c (a + k) l := by
  intro j hj
  rw [Nat.add_assoc]
  exact h (k + j) (by omega)

/-- The transmit copy (43_pma_copy.md rule R281). -/
theorem pmaWriteOp_quiet {s : State} (hb : s.busTape = []) {off ram len : Nat}
    (ha : off % Config.pmaWidth s.cfg = 0) (hr : off + roundUp len (Config.pmaWidth s.cfg) ≤ s.cfg.pmaSize)
    (hm : Config.MappedRange s.cfg ram len) :
    pmaWriteOp off ram len s
      = .ok () (s.pmaStored off
          (takeBytes (roundUp len (Config.pmaWidth s.cfg)) (Memory.readBytes s.ram ram len))) := by
  have hw := pmaWidth_pos s.cfg
  have hlen := Memory.readBytes_length s.ram ram len
  simp only [pmaWriteOp, bind_run, checkSpan_ok ha hr, peek_run]
  have key := forEach_wordSpans_write (s := s) hb hw (src := Memory.readBytes s.ram ram len) (off := off)
    (by rwa [hlen])
  rw [hlen] at key
  rw [← key]
  refine forEach_congr (fun t => t.ram = s.ram ∧ t.cfg = s.cfg ∧ t.busTape = []) ⟨rfl, rfl, hb⟩ ?_ ?_
  · intro p hp t ht
    have hin := wordSpans_inside hw hp
    rw [bind_run, memRead_ok (by rw [ht.2.1]; exact Config.mappedRange_slice hm hin.1), ht.1]
    simp only
    rw [Memory.readBytes_slice _ _ _ _ _ hin.1]
  · intro p hp t u ht hu
    have hin := wordSpans_inside hw hp
    rw [pmaWriteWord_quiet ht.2.2 (by rw [takeBytes_length, ht.2.1]; omega)] at hu
    cases hu
    exact ht

/-- The receive copy (rule R283). -/
theorem pmaReadOp_quiet {s : State} (hb : s.busTape = []) {off ram len : Nat}
    (ha : off % Config.pmaWidth s.cfg = 0) (hr : off + roundUp len (Config.pmaWidth s.cfg) ≤ s.cfg.pmaSize)
    (hm : Config.MappedRange s.cfg ram len) :
    pmaReadOp off ram len s = .ok () (s.ramStored ram (Memory.readBytes s.pma off len)) := by
  have hw := pmaWidth_pos s.cfg
  simp only [pmaReadOp, bind_run, checkSpan_ok ha hr, peek_run]
  generalize Config.pmaWidth s.cfg = w at *
  have step : ∀ (p : Nat × Nat) (t : State), p ∈ wordSpans w len → t.cfg = s.cfg → t.pma = s.pma → t.busTape = [] →
      (pmaReadWord (off + p.1) w >>= fun bs => memWrite (ram + p.1) (bs.take p.2)) t
        = .ok () (t.ramStored (ram + p.1) (Memory.readBytes s.pma (off + p.1) p.2)) := by
    intro p t hp hc hpma hbt
    have hin := wordSpans_inside hw hp
    have hlen : ((Memory.readBytes s.pma (off + p.1) w).take p.2) = Memory.readBytes s.pma (off + p.1) p.2 := by
      have := Memory.readBytes_slice s.pma (off + p.1) w 0 p.2 (by omega)
      simpa using this
    rw [bind_run, pmaReadWord_quiet hbt (by rw [hc]; omega), hpma]
    simp only
    rw [hlen, memWrite_ok (by rw [hc, Memory.readBytes_length]; exact Config.mappedRange_slice hm hin.1)]
    rfl
  have hd := Nat.div_add_mod len w
  have hlt := Nat.mod_lt len hw
  have full : ∀ q, q ≤ len / w →
      forEach ((List.range q).map fun k => (w * k, w))
          (fun p => pmaReadWord (off + p.1) w >>= fun bs => memWrite (ram + p.1) (bs.take p.2)) s
        = .ok () (s.ramStored ram (Memory.readBytes s.pma off (w * q))) := by
    intro q hq
    induction q with
    | zero => rfl
    | succ q ih =>
      rw [List.range_succ, List.map_append, forEach_append, ih (by omega)]
      have hmem : (w * q, w) ∈ wordSpans w len := by
        simp only [wordSpans, List.mem_append, List.mem_map, List.mem_range]
        exact .inl ⟨q, by omega, rfl⟩
      simp only [List.map_cons, List.map_nil, forEach_cons, forEach_nil]
      rw [step (w * q, w) (s.ramStored _ _) hmem rfl rfl hb]
      simp only [State.ramStored, EStateM.Result.ok.injEq, true_and]
      rw [Nat.mul_succ, Memory.readBytes_add, Memory.writeBytes_append, Memory.readBytes_length]
  rw [wordSpans, forEach_append, full _ (Nat.le_refl _)]
  simp only
  by_cases h0 : len % w = 0
  · rw [if_pos h0, forEach_nil, show w * (len / w) = len by omega]
  · have hp : (len - len % w, len % w) ∈ wordSpans w len := by
      simp only [wordSpans, if_neg h0, List.mem_append, List.mem_singleton, or_true]
    rw [if_neg h0, forEach_cons, step _ (s.ramStored _ _) hp rfl rfl hb]
    simp only [forEach_nil, State.ramStored, EStateM.Result.ok.injEq, true_and]
    rw [show len - len % w = w * (len / w) by omega]
    conv_rhs => rw [← hd, Memory.readBytes_add, Memory.writeBytes_append, Memory.readBytes_length]

/-- The word reads of a copy (rules R283, R286). -/
theorem readSpans_quiet {s : State} (hb : s.busTape = []) {off len w : Nat} (hw : 0 < w)
    (hr : off + roundUp len w ≤ s.cfg.pmaSize) :
    readSpans off w (wordSpans w len) s = .ok (Memory.readBytes s.pma off len) s := by
  have one : ∀ l : List (Nat × Nat), (∀ p ∈ l, p.1 + p.2 ≤ len ∧ p.2 ≤ w ∧ p.1 + w ≤ roundUp len w) →
      readSpans off w l s = .ok (l.flatMap fun p => Memory.readBytes s.pma (off + p.1) p.2) s := by
    intro l hl
    induction l with
    | nil => rfl
    | cons p l ih =>
      have hin := hl p (by simp)
      have hlen : ((Memory.readBytes s.pma (off + p.1) w).take p.2) = Memory.readBytes s.pma (off + p.1) p.2 := by
        have := Memory.readBytes_slice s.pma (off + p.1) w 0 p.2 (by omega)
        simpa using this
      rw [readSpans, bind_run, pmaReadWord_quiet hb (by omega)]
      simp only
      rw [bind_run, ih fun q hq => hl q (by simp [hq])]
      simp only [pure_run, hlen, List.flatMap_cons]
  rw [one _ fun p hp => wordSpans_inside hw hp]
  have hd := Nat.div_add_mod len w
  have full : ∀ q, ((List.range q).map fun k => (w * k, w)).flatMap
      (fun p => Memory.readBytes s.pma (off + p.1) p.2) = Memory.readBytes s.pma off (w * q) := by
    intro q
    induction q with
    | zero => rfl
    | succ q ih =>
      rw [List.range_succ, List.map_append, List.flatMap_append, ih, Nat.mul_succ, Memory.readBytes_add]
      simp
  rw [wordSpans, List.flatMap_append, full]
  by_cases h0 : len % w = 0
  · rw [if_pos h0, show w * (len / w) = len by omega]
    simp
  · rw [if_neg h0, show len - len % w = w * (len / w) by omega]
    conv_rhs => rw [← hd, Memory.readBytes_add]
    simp

/-- A pop of bytes the FIFO holds (20_memory.md rule R106). -/
theorem fifoPop_ok {s : State} {h : Word} {n : Nat} (hn : n ≤ (s.fifo h).q.length) :
    fifoPop h n s = .ok ((s.fifo h).q.take n)
      { s with fifos := fifoPut s.fifos h.toNat { s.fifo h with q := (s.fifo h).q.drop n } } := by
  simp only [fifoPop, bind_run, peek_run]
  rw [if_neg (by omega)]
  rfl

/-- A push of bytes the FIFO has room for (rule R106). -/
theorem fifoPush_ok {s : State} {h : Word} {bs : List Byte} (hn : (s.fifo h).q.length + bs.length ≤ (s.fifo h).cap) :
    fifoPush h bs s = .ok ()
      { s with fifos := fifoPut s.fifos h.toNat { s.fifo h with q := (s.fifo h).q ++ bs } } := by
  simp only [fifoPush, bind_run, peek_run]
  rw [if_neg (by omega)]
  rfl

/-- The transmit copy from a FIFO (rule R285). -/
theorem pmaWriteFifoOp_quiet {s : State} (hb : s.busTape = []) {off len : Nat} {h : Word}
    (ha : off % Config.pmaWidth s.cfg = 0) (hr : off + roundUp len (Config.pmaWidth s.cfg) ≤ s.cfg.pmaSize)
    (hn : len ≤ (s.fifo h).q.length) :
    pmaWriteFifoOp off h len s
      = .ok () (State.pmaStored
          { s with fifos := fifoPut s.fifos h.toNat { s.fifo h with q := (s.fifo h).q.drop len } } off
          (takeBytes (roundUp len (Config.pmaWidth s.cfg)) ((s.fifo h).q.take len))) := by
  have hlen : ((s.fifo h).q.take len).length = len := by rw [List.length_take]; omega
  simp only [pmaWriteFifoOp, bind_run, checkSpan_ok ha hr, fifoPop_ok hn, peek_run]
  have key := forEach_wordSpans_write
    (s := { s with fifos := fifoPut s.fifos h.toNat { s.fifo h with q := (s.fifo h).q.drop len } }) hb
    (pmaWidth_pos s.cfg) (src := (s.fifo h).q.take len) (off := off) (by rwa [hlen])
  rw [hlen] at key
  exact key

/-- The receive copy to a FIFO (rule R286). -/
theorem pmaReadFifoOp_quiet {s : State} (hb : s.busTape = []) {off len : Nat} {h : Word}
    (ha : off % Config.pmaWidth s.cfg = 0) (hr : off + roundUp len (Config.pmaWidth s.cfg) ≤ s.cfg.pmaSize)
    (hn : (s.fifo h).q.length + len ≤ (s.fifo h).cap) :
    pmaReadFifoOp off h len s
      = .ok () { s with fifos := fifoPut s.fifos h.toNat (Fifo.mk (s.fifo h).cap
          ((s.fifo h).q ++ Memory.readBytes s.pma off len)) } := by
  simp only [pmaReadFifoOp, bind_run, checkSpan_ok ha hr, peek_run, id]
  rw [if_neg (by omega), bind_run, readSpans_quiet hb (pmaWidth_pos _) hr]
  exact fifoPush_ok (by rw [Memory.readBytes_length]; exact hn)

/-- The packet read of the setup path (46_isr.md rule R398). -/
theorem pmaPacketOp_quiet {s : State} (hb : s.busTape = []) {off len : Nat}
    (ha : s.cfg.bus32 = true → off % 4 = 0) (hr : off + roundUp len (Config.pmaWidth s.cfg) ≤ s.cfg.pmaSize) :
    pmaPacketOp off len s = .ok (Memory.readBytes s.pma off len) s := by
  simp only [pmaPacketOp, bind_run, checkAlign_ok ha, peek_run]
  exact readSpans_quiet hb (pmaWidth_pos _) hr

end Sys2Proof.Machine
end

