-- ==== Sys2Proof/Laws/Device.lean ====
section
/-! SUPPORT. What each device operation does when no BUS step falls between its accesses (44_dcd_ops.md), and
what the class machine's shared procedures then do (47_bot_fsm.md), in terms of the state functions of Safety.lean. -/

namespace Sys2Proof.Machine

/-- One operation after another. -/
theorem bind_eq {α β : Type} {x : Op α} {f : α → Op β} {s t : State} {a : α} {r : EStateM.Result Fault State β}
    (h : x s = .ok a t) (h' : f a t = r) : (x >>= f) s = r := by
  rw [bind_run, h]
  exact h'

theorem State.FirstSlot.firstSlot {s : State} {ep : Byte} {ty : BitVec 2} {i : Nat} (hn : s.cfg.nEp ≤ 8)
    (h : s.FirstSlot ep ty i) : s.firstSlot (epNum ep) (epDir ep) ty = some i := by
  have hi := h.inside
  have hget : ∀ j, j < s.cfg.nEp → ∀ hj : j < (s.slots.toList.take s.cfg.nEp).length,
      (s.slots.toList.take s.cfg.nEp)[j] = s.slotAt j := by
    intro j hj hj'
    simp [State.slotAt, Vector.getElem?_eq_getElem (show j < 8 by omega)]
  rw [State.firstSlot, List.findIdx?_eq_some_iff_getElem]
  refine ⟨by simp; omega, ?_, ?_⟩
  · rw [hget i hi]
    rcases h.here with h | h <;> simp [h]
  · intro j hj
    rw [hget j (by omega)]
    have := h.first j hj
    simp [this.1, this.2]

/-- The slot allocator on the first fit (42_pma_btable.md rule R251). -/
theorem epAllocOp_first {s : State} {ep : Byte} {ty : BitVec 2} {i : Nat} (hn : s.cfg.nEp ≤ 8)
    (h : s.FirstSlot ep ty i) : epAllocOp ep ty s = .ok i (s.slotTaken ep ty i) := by
  rw [epAllocOp_run, h.firstSlot hn]
  simp only
  split
  · rename_i ho
    congr 1
    have hv : (s.slotAt i).take (epNum ep) (epDir ep) ty = s.slotAt i := by
      simp only [Slot.isOpen, Bool.and_eq_true, beq_iff_eq] at ho
      obtain ⟨⟨ha, hb⟩, hc⟩ := ho
      generalize s.slotAt i = v at ha hb hc
      cases v
      cases hd : epDir ep <;> simp_all [Slot.take, Slot.alloc]
    have hi := h.inside
    rw [State.slotTaken, hv]
    have : s.slots.setIfInBounds i (s.slotAt i) = s.slots := by
      ext j hj
      rw [Vector.getElem_setIfInBounds]
      split
      · rename_i hij
        subst hij
        simp [State.slotAt, Vector.getElem?_eq_getElem hj]
      · rfl
    rw [this]
  · rfl

/-- The read-modify-write primitive, no BUS step inside (41_epreg_engine.md rules R202, R204). -/
theorem rmwEpr_running {s : State} (hb : s.busTape = []) (hr : s.Running) {i : Nat} (hi : i < s.cfg.nEp) (c : MuxSel) :
    rmwEpr i c s = .ok () (s.putEpr true i (putBits c.mask (s.eprAt i) c.value)) := by
  rw [rmwEpr_quiet hb hi, hwWriteEpr_running hr, hwWrite_mux]

theorem openMask (n : BitVec 4) (d : Dir) (ty : BitVec 2) (r : Half) :
    putBits (selStat d statNak (selDtog d false { type := some (typeMap ty), kind := some false, ea := some n })).mask r
      (selStat d statNak (selDtog d false { type := some (typeMap ty), kind := some false, ea := some n })).value
      = openedReg n d ty r := by
  cases d
  · simp only [selStat, selDtog, MuxSel.mask, MuxSel.value, openedReg]
    congr 1 <;> (revert n ty; decide)
  · simp only [selStat, selDtog, MuxSel.mask, MuxSel.value, openedReg]
    congr 1 <;> (revert n ty; decide)

/-- `EP_OPEN` without its result (rule R304). -/
theorem epOpenOp_quiet {s : State} (hl : s.cfg.legal = true) (hb : s.busTape = []) (hw : Memory.wf s.pma)
    (hr : s.Running) {ep : Byte} {ty : BitVec 2} {mps : BitVec 11} {i : Nat} (h : s.CanOpen ep ty mps i) :
    epOpenOp ep ty mps s = .ok () (s.epOpened ep ty mps i) := by
  have hn := (Config.legal_bounds hl).2.1
  have hi := h.slot.inside
  simp only [epOpenOp, bind_run, epAllocOp_first (by omega) h.slot]
  rw [pmaAllocOp_ok h.size (by simpa [State.slotTaken] using h.room)
    (fun hc => ⟨by simpa [State.slotTaken] using h.align hc, by simp⟩)]
  simp only
  rw [btSetAddrOp_quiet (by exact hl) (by exact hb) (by exact hw) (by exact hi)]
  simp only [change_run]
  rw [rmwEpr_running (by exact hb) (by exact hr) (by exact hi), openMask]
  simp [State.epOpened, State.addrStored, State.slotTaken, BitVec.setWidth_ofNat_of_le]
  rfl

/-! ### The report of `ISTR` (10_state.md rule R48) -/

theorem firstCtr_none {n : Nat} {e : Vector Half 8} (hn : n ≤ 8) :
    firstCtr n e = none ↔ ∀ i, i < n → ctrRx (e[i]?.getD 0) = false ∧ ctrTx (e[i]?.getD 0) = false := by
  rw [firstCtr, List.findIdx?_eq_none_iff]
  constructor
  · intro h i hi
    have hm : (e[i]?.getD 0) ∈ e.toList.take n := by
      rw [Vector.getElem?_eq_getElem (show i < 8 by omega), Option.getD_some, List.mem_take_iff_getElem]
      exact ⟨i, by simp; omega, by simp⟩
    simpa using h _ hm
  · intro h x hx
    rw [List.mem_take_iff_getElem] at hx
    obtain ⟨i, hi, rfl⟩ := hx
    simp only [Vector.length_toList] at hi
    have := h i (by omega)
    rw [Vector.getElem?_eq_getElem (by omega), Option.getD_some] at this
    simp [this.1, this.2]

theorem and_mask (x m k : Half) : (x &&& m) &&& k = x &&& (m &&& k) := BitVec.and_assoc ..

/-- Only the flags of the old value matter where a CTR bit is set; where none is, its other bits are kept. -/
theorem istrOf_istrOf {n : Nat} {e f : Vector Half 8} (o : Half) (h : firstCtr n f = none → firstCtr n e = none) :
    istrOf n f (istrOf n e o) = istrOf n f o := by
  have key : ∀ (b : Bool) (j : Nat), ((o &&& 0x7F00#16) ||| 0x8000#16 ||| (if b then 0x0010#16 else 0)
      ||| BitVec.ofNat 16 (j % 16)) &&& 0x7F00#16 = o &&& 0x7F00#16 := by
    intro b j
    have h0 : ∀ (b : Bool) (j : Fin 16), (0x8000#16 ||| (if b then 0x0010#16 else 0)
        ||| BitVec.ofNat 16 j.val) &&& 0x7F00#16 = 0#16 := by decide
    have h1 := h0 b ⟨j % 16, by omega⟩
    simp only at h1
    rw [BitVec.or_assoc, BitVec.or_assoc, ← BitVec.or_assoc 0x8000#16, BitVec.and_or_distrib_right, h1, and_mask]
    simp
  unfold istrOf
  cases hf : firstCtr n f with
  | none => rw [h hf]; simp only [and_mask]; rfl
  | some i =>
    cases he : firstCtr n e with
    | none => simp only [and_mask]; rfl
    | some j => simp only [key]

/-- The value of `ISTR` after two changes of one register that keep its CTR bits is that after the second. -/
theorem istrOf_set_set {n i : Nat} {e : Vector Half 8} {v w : Half} (o : Half) (hn : n ≤ 8)
    (hr : ctrRx w = ctrRx v) (ht : ctrTx w = ctrTx v) :
    istrOf n ((e.setIfInBounds i v).setIfInBounds i w) (istrOf n (e.setIfInBounds i v) o)
      = istrOf n (e.setIfInBounds i w) o := by
  rw [istrOf_istrOf, Vector.setIfInBounds_setIfInBounds]
  rw [firstCtr_none hn, firstCtr_none hn]
  intro h j hj
  have := h j hj
  simp only [Vector.setIfInBounds_setIfInBounds, Vector.getElem?_setIfInBounds] at this ⊢
  split at this
  · rename_i hij
    subst hij
    rw [if_pos rfl]
    rw [if_pos (show i < 8 by omega)] at this ⊢
    simpa [hr, ht] using this
  · rw [if_neg (by assumption)]
    exact this

/-! ### The bus-reset handler (rules R302, R303) -/

theorem putBits_putBits (m k r v w : Half) : putBits k (putBits m r v) w = putBits (m ||| k) r (putBits k v w) := by
  ext j hj
  simp only [putBits, BitVec.getElem_or, BitVec.getElem_and, BitVec.getElem_not]
  cases r[j] <;> cases m[j] <;> cases k[j] <;> cases v[j] <;> cases w[j] <;> rfl

theorem aligned_ep0 {c : Config} (h : c.legal = true) : aligned c.ep0Size = c.ep0Size := by
  rcases (Config.legal_bounds h).2.2.2.2.1 with h | h | h | h <;> rw [h] <;> decide

theorem ep0Mask (d : Dir) (r : Half) :
    putBits (selStat d statNak (selDtog d false { type := some typeControl, kind := some false, ea := some 0 })).mask r
      (selStat d statNak (selDtog d false { type := some typeControl, kind := some false, ea := some 0 })).value
      = match d with | .inn => putBits 0x077F r 0x0220 | .out => putBits 0x770F r 0x2200 := by
  cases d <;> (simp only [selStat, selDtog, MuxSel.mask, MuxSel.value]; congr 1)

/-- `ep0_open(OUT)` (rule R303). -/
theorem ep0Open_out_quiet {s : State} (hl : s.cfg.legal = true) (hb : s.busTape = []) (hw : Memory.wf s.pma)
    (hr : s.Running) (hf : s.FirstSlot 0x00 xferControl 0)
    (hroom : s.pmaCursor + s.cfg.ep0Size ≤ s.cfg.pmaSize) (hal : s.pmaCursor % 4 = 0) :
    ep0Open .out s = .ok () (((((((s.slotTaken 0x00 xferControl 0).updCtx 0 .out
      fun x => { x with mps := BitVec.ofNat 16 s.cfg.ep0Size, epIdx := 0 }).withCursor
        (s.pmaCursor + s.cfg.ep0Size)).addrStored 0 true (BitVec.ofNat 16 s.pmaCursor)).countwStored 0 true
          (rxSizeCode s.cfg.ep0Size))).putEpr true 0 (putBits 0x770F (s.eprAt 0) 0x2200)) := by
  have hn := Config.legal_bounds hl
  have ha := aligned_ep0 hl
  have hi := hf.inside
  refine bind_eq (peek_run _ _) (bind_eq (epAllocOp_first hn.2.1 hf) (bind_eq (change_run _ _) ?_))
  simp only
  refine bind_eq (pmaAllocOp_ok (by omega) (by simpa [ha] using hroom) (fun _ => ⟨by simpa using hal, by simp⟩)) ?_
  simp only [Bool.false_eq_true, if_false, ha, State.updCtx_pmaCursor, State.slotTaken_pmaCursor,
    BitVec.setWidth_ofNat_of_le (show 16 ≤ 32 by omega)]
  refine bind_eq (btSetAddrOp_quiet (by simpa using hl) (by simpa using hb) (by simpa using hw) (by simpa using hi)
    _ _) ?_
  refine bind_eq (btSetRxBufsizeOp_quiet (by simpa using hl) (by simpa using hb)
    (by simpa using Memory.wf_writeBytes hw _ _) (by simpa using hi) _ (by omega)) ?_
  rw [rmwEpr_running (by simpa using hb) (by simpa [State.Running] using hr) (by simpa using hi), ep0Mask]
  rfl

/-- `ep0_open(IN)` (rule R303). -/
theorem ep0Open_inn_quiet {s : State} (hl : s.cfg.legal = true) (hb : s.busTape = []) (hw : Memory.wf s.pma)
    (hr : s.Running) (hf : s.FirstSlot 0x80 xferControl 0)
    (hroom : s.pmaCursor + s.cfg.ep0Size ≤ s.cfg.pmaSize) (hal : s.pmaCursor % 4 = 0) :
    ep0Open .inn s = .ok () ((((((s.slotTaken 0x80 xferControl 0).updCtx 0 .inn
      fun x => { x with mps := BitVec.ofNat 16 s.cfg.ep0Size, epIdx := 0 }).withCursor
        (s.pmaCursor + s.cfg.ep0Size)).addrStored 0 false (BitVec.ofNat 16 s.pmaCursor))).putEpr true 0
          (putBits 0x077F (s.eprAt 0) 0x0220)) := by
  have hn := Config.legal_bounds hl
  have ha := aligned_ep0 hl
  have hi := hf.inside
  refine bind_eq (peek_run _ _) (bind_eq (epAllocOp_first hn.2.1 hf) (bind_eq (change_run _ _) ?_))
  simp only
  refine bind_eq (pmaAllocOp_ok (by omega) (by simpa [ha] using hroom) (fun _ => ⟨by simpa using hal, by simp⟩)) ?_
  simp only [Bool.false_eq_true, if_false, ha, State.updCtx_pmaCursor, State.slotTaken_pmaCursor,
    BitVec.setWidth_ofNat_of_le (show 16 ≤ 32 by omega)]
  refine bind_eq (btSetAddrOp_quiet (by simpa using hl) (by simpa using hb) (by simpa using hw) (by simpa using hi)
    _ _) ?_
  refine bind_eq (pure_run _ _) ?_
  rw [rmwEpr_running (by simpa using hb) (by simpa [State.Running] using hr) (by simpa using hi), ep0Mask]
  rfl

theorem free_fits (ep : Byte) (ty : BitVec 2) : Slot.free.fits (epNum ep) (epDir ep) ty = true := by
  simp [Slot.fits, Slot.alloc, Slot.free]
  cases epDir ep <;> simp [Dir.opp]

theorem ep0_fits : ((Slot.free.take (epNum 0x00) (epDir 0x00) xferControl).fits (epNum 0x80) (epDir 0x80)
    xferControl) = true := by decide

/-- Endpoint 0 opened OUT, then IN, on freed slots (rule R302). -/
theorem ep0Reopened_eq {s t : State} (hl : s.cfg.legal = true) (hr : s.Running)
    (ht : t = State.putEpr (((((((s.writeDaddr 0).slotsFreed.slotTaken 0x00 xferControl 0).updCtx 0 .out
      fun x => { x with mps := BitVec.ofNat 16 s.cfg.ep0Size, epIdx := 0 }).withCursor
        (pmaFirst s.cfg + s.cfg.ep0Size)).addrStored 0 true (BitVec.ofNat 16 (pmaFirst s.cfg))).countwStored 0 true
          (rxSizeCode s.cfg.ep0Size))) true 0 (putBits 0x770F (s.eprAt 0) 0x2200)) :
    State.writeDaddr ((((((t.slotTaken 0x80 xferControl 0).updCtx 0 .inn
      fun x => { x with mps := BitVec.ofNat 16 t.cfg.ep0Size, epIdx := 0 }).withCursor
        (t.pmaCursor + t.cfg.ep0Size)).addrStored 0 false (BitVec.ofNat 16 t.pmaCursor))).putEpr true 0
          (putBits 0x077F (t.eprAt 0) 0x0220)) 0x0080 = s.ep0Reopened := by
  have hn := Config.legal_bounds hl
  have h8 : 0 < s.cfg.nEp := hn.1
  have hfres : s.fres = false := hr
  have hx : t.eprAt 0 = putBits 0x770F (s.eprAt 0) 0x2200 := by
    rw [ht, putEpr_eprAt (by simpa using h8) (by simpa using hn.2.1), if_pos rfl]
  have hv : putBits 0x077F (t.eprAt 0) 0x0220 = putBits 0x777F (s.eprAt 0) 0x2220 := by
    rw [hx, putBits_putBits]
    congr 1
  rw [hv]
  apply State.ext
  all_goals simp only [State.writeDaddr_cfg, State.ep0Reopened]
  all_goals simp [ht]
  · rw [if_pos h8, if_pos h8, if_pos h8, Vector.setIfInBounds_setIfInBounds]
  · rw [if_pos h8, if_pos h8, if_pos h8, if_pos h8]
    exact istrOf_set_set _ hn.2.1 (by simp [ctrRx, putBits]) (by simp [ctrTx, putBits])
  · intro h
    rw [hfres] at h
    cases h
  · omega
  · rfl
  · rfl

/-- The bus-reset handler (rule R302). -/
theorem busResetHandler_quiet {s : State} (hl : s.cfg.legal = true) (hb : s.busTape = []) (hw : Memory.wf s.pma)
    (hr : s.Running) : busResetHandler s = .ok () s.ep0Reopened := by
  have hn := Config.legal_bounds hl
  have hfres : s.fres = false := hr
  have hp : pmaFirst s.cfg = s.cfg.btableBase + 8 * s.cfg.nEp := rfl
  refine bind_eq (writeReg_quiet hb _) (bind_eq (change_run _ _) ?_)
  have h1 := ep0Open_out_quiet (s := (s.writeDaddr 0).slotsFreed) hl hb hw hr
    ⟨hn.1, Or.inr (by rw [slotsFreed_slotAt]; exact free_fits _ _), by omega⟩
    (by simp only [State.slotsFreed_pmaCursor, State.slotsFreed_cfg, State.writeDaddr_cfg]; omega)
    (by simp only [State.slotsFreed_pmaCursor, State.writeDaddr_cfg]; omega)
  refine bind_eq h1 ?_
  clear h1
  generalize ht : State.putEpr _ _ _ _ = t
  have e1 : t.cfg = s.cfg := by rw [← ht]; simp
  have e2 : t.busTape = [] := by rw [← ht]; simpa using hb
  have e3 : Memory.wf t.pma := by
    rw [← ht]
    simpa using Memory.wf_writeBytes (Memory.wf_writeBytes hw _ _) _ _
  have e4 : t.fres = false := by rw [← ht]; simpa [State.Running] using hr
  have e5 : t.slotAt 0 = Slot.free.take (epNum 0x00) (epDir 0x00) xferControl := by
    rw [← ht]
    simp
  have e6 : t.pmaCursor = pmaFirst s.cfg + s.cfg.ep0Size := by rw [← ht]; simp
  have h2 := ep0Open_inn_quiet (s := t) (by rw [e1]; exact hl) e2 e3 e4
    ⟨by rw [e1]; exact hn.1, Or.inr (by rw [e5]; exact ep0_fits), by omega⟩ (by rw [e1, e6]; omega)
    (by rw [e6]; omega)
  refine bind_eq h2 ?_
  rw [writeReg_quiet (by exact e2)]
  congr 1
  exact ep0Reopened_eq hl hr (by
    rw [← ht]
    simp only [State.slotsFreed_cfg, State.writeDaddr_cfg, State.slotsFreed_pmaCursor, slotsFreed_eprAt,
      writeDaddr_eprAt])

/-! ### Transfers (rules R313 to R315) -/

@[simp] theorem packetTaken_cfg (s : State) (x : XferCtx) : (s.packetTaken x).cfg = s.cfg := by
  unfold State.packetTaken; split <;> rfl

@[simp] theorem packetTaken_busTape (s : State) (x : XferCtx) : (s.packetTaken x).busTape = s.busTape := by
  unfold State.packetTaken; split <;> rfl

@[simp] theorem packetTaken_pma (s : State) (x : XferCtx) : (s.packetTaken x).pma = s.pma := by
  unfold State.packetTaken; split <;> rfl

@[simp] theorem packetTaken_eprAt (s : State) (x : XferCtx) (i : Nat) : (s.packetTaken x).eprAt i = s.eprAt i := by
  unfold State.packetTaken; split <;> rfl

@[simp] theorem packetTaken_fres (s : State) (x : XferCtx) : (s.packetTaken x).fres = s.fres := by
  unfold State.packetTaken; split <;> rfl

@[simp] theorem packetTaken_ctx (s : State) (x : XferCtx) (n : BitVec 4) (d : Dir) :
    (s.packetTaken x).ctx n d = s.ctx n d := by
  unfold State.packetTaken; split <;> rfl

theorem updCtx_congr {s : State} {n : BitVec 4} {d : Dir} {f g : XferCtx → XferCtx}
    (h : f (s.ctx n d) = g (s.ctx n d)) : s.updCtx n d f = s.updCtx n d g := by
  simp only [State.updCtx, h]

/-- The bytes of the next packet go to the PMA (rules R281, R285). -/
theorem txStore_quiet {s : State} (hb : s.busTape = []) {x : XferCtx} {a : Nat}
    (ha : a % Config.pmaWidth s.cfg = 0) (hr : a + roundUp x.packetLen (Config.pmaWidth s.cfg) ≤ s.cfg.pmaSize)
    (hram : x.ff = none → Config.MappedRange s.cfg (x.buf.toNat + x.queuedLen.toNat) x.packetLen)
    (hff : ∀ h, x.ff = some h → x.packetLen ≤ (s.fifo h).q.length) :
    txStore x a x.packetLen s = .ok () ((s.packetTaken x).pmaStored a
      (takeBytes (roundUp x.packetLen (Config.pmaWidth s.cfg)) (s.packet x))) := by
  cases h : x.ff with
  | none =>
    simp only [txStore, h, State.packetTaken, State.packet]
    exact pmaWriteOp_quiet hb ha hr (hram h)
  | some k =>
    simp only [txStore, h, State.packetTaken, State.packet]
    exact pmaWriteFifoOp_quiet hb ha hr (hff k h)

theorem countStored_updCtx (s : State) (i : Nat) (b : Bool) (k : Nat) (n : BitVec 4) (d : Dir)
    (f : XferCtx → XferCtx) : (s.countStored i b k).updCtx n d f = (s.updCtx n d f).countStored i b k := rfl

theorem validMask (r : Half) :
    hwWrite r (mux r { statTx := some statValid }) = putBits 0x0030 r 0x0030 := by
  rw [hwWrite_mux]
  rfl

/-- `transmit_packet(n)` (rule R315). -/
theorem transmitPacket_quiet {s : State} (hl : s.cfg.legal = true) (hb : s.busTape = []) (hw : Memory.wf s.pma)
    (hr : s.Running) {n : BitVec 4} (h : s.CanSend n) : transmitPacket n s = .ok () (s.sent n) := by
  have hi := h.inside
  refine bind_eq (peek_run _ _) (bind_eq (readEpr_quiet hb hi) ?_)
  refine bind_eq (btGetAddrOp_quiet hl hb hi _) ?_
  refine bind_eq (txStore_quiet hb h.align h.room h.ram h.fifo) ?_
  refine bind_eq (change_run _ _) ?_
  refine bind_eq (btSetCountOp_quiet (by simpa using hl) (by simpa using hb)
    (by simpa using Memory.wf_writeBytes hw _ _) (by simpa using hi) _ _) ?_
  refine bind_eq (change_run _ _) ?_
  rw [writeEpr_quiet (by simpa using hb) (by simpa using hi), hwWriteEpr_running (by simpa [State.Running] using hr)]
  rw [countStored_updCtx, updCtx_updCtx]
  simp only [countStored_eprAt, updCtx_eprAt, pmaStored_eprAt, packetTaken_eprAt, validMask]
  simp only [State.sent, txBuf, isoSwBuf, XferCtx.packetLen]
  refine congrArg (fun u => EStateM.Result.ok () (State.putEpr (State.countStored u _ _ _) true _ _)) (updCtx_congr ?_)
  simp only [pmaStored_ctx, packetTaken_ctx]

/-- The OUT branch of `XFER` (rule R313). -/
theorem armReceive_quiet {s : State} (hl : s.cfg.legal = true) (hb : s.busTape = []) (hw : Memory.wf s.pma)
    (hr : s.Running) {n : BitVec 4} (h : s.CanArm n) : armReceive n s = .ok () (s.armed n) := by
  have hi := h.inside
  have hm : ∀ r, putBits (MuxSel.mask { statRx := some statValid }) r (MuxSel.value { statRx := some statValid })
      = putBits 0x3000 r 0x3000 := fun r => rfl
  refine bind_eq (peek_run _ _) (bind_eq (readEpr_quiet hb hi) ?_)
  cases hiso : isIso (s.eprAt (s.ctx n .out).epIdx.toNat)
  · refine bind_eq (a := ()) (t := s) (by simp) ?_
    refine bind_eq (btSetRxBufsizeOp_quiet hl hb hw hi true h.size) ?_
    rw [rmwEpr_running (by simpa using hb) (by simpa [State.Running] using hr) (by simpa using hi), hm]
    simp [State.armed, hiso, XferCtx.armLen]
  · refine bind_eq (a := ()) (t := s.countwStored (s.ctx n .out).epIdx.toNat false (rxSizeCode (s.ctx n .out).armLen))
      (by rw [onlyIf_run, if_pos rfl]; exact btSetRxBufsizeOp_quiet hl hb hw hi false h.size) ?_
    refine bind_eq (btSetRxBufsizeOp_quiet (by simpa using hl) (by simpa using hb)
      (by simpa using Memory.wf_writeBytes hw _ _) (by simpa using hi) true h.size) ?_
    rw [rmwEpr_running (by simpa using hb) (by simpa [State.Running] using hr) (by simpa using hi), hm]
    simp [State.armed, hiso, XferCtx.armLen]

theorem checkOpen_ok {s : State} {ep : Byte} (h : s.isOpened ep) : checkOpen ep s = .ok () s := by
  have h' : s.opened (epNum ep) (epDir ep) = true := h
  simp [checkOpen, h']

@[simp] theorem started_cfg (s : State) (ep : Byte) (buf : Word) (ff : Option Word) (n : Half) :
    (s.started ep buf ff n).cfg = s.cfg := rfl

/-- `XFER` and `XFER_FIFO` without their result (rules R313, R314). -/
theorem xferOp_quiet {s : State} (hl : s.cfg.legal = true) (hb : s.busTape = []) (hw : Memory.wf s.pma)
    (hr : s.Running) {ep : Byte} {buf : Word} {ff : Option Word} {n : Half} (h : s.CanXfer ep buf ff n) :
    xferOp ep buf ff n s = .ok () (s.xferred ep buf ff n) := by
  refine bind_eq (checkOpen_ok h.isOpen) ?_
  cases hd : epDir ep
  · refine bind_eq (change_run _ _) ?_
    have := armReceive_quiet (s := s.started ep buf ff n) hl hb hw hr (h.arm hd)
    simp only [State.started, hd] at this
    simp only [State.xferred, State.started, hd]
    exact this
  · refine bind_eq (change_run _ _) ?_
    have := transmitPacket_quiet (s := s.started ep buf ff n) hl hb hw hr (h.send hd)
    simp only [State.started, hd] at this
    simp only [State.xferred, State.started, hd]
    exact this

/-! ### Stalls (rules R318, R319) -/

theorem State.isOpened.inside {s : State} {ep : Byte} (h : s.isOpened ep) : s.epIdxOf ep < s.cfg.nEp := by
  have h' : s.opened (epNum ep) (epDir ep) = true := h
  simp only [State.opened, Bool.and_eq_true, decide_eq_true_eq] at h'
  exact h'.1.1

/-- `EP_STALL` (rule R318). -/
theorem epStallOp_quiet {s : State} (hb : s.busTape = []) (hr : s.Running) {ep : Byte} (h : s.isOpened ep) :
    epStallOp ep s = .ok () (s.epStalledBy ep) := by
  refine bind_eq (checkOpen_ok h) (bind_eq (peek_run _ _) ?_)
  refine (rmwEpr_running hb hr (i := s.epIdxOf ep) h.inside _).trans ?_
  simp only [State.epStalledBy]
  cases epDir ep <;> rfl

/-- `EP_CLEAR_STALL` (rule R319). -/
theorem epClearStallOp_quiet {s : State} (hb : s.busTape = []) (hr : s.Running) {ep : Byte} (h : s.isOpened ep) :
    epClearStallOp ep s = .ok () (s.epUnstalledBy ep) := by
  refine bind_eq (checkOpen_ok h) (bind_eq (peek_run _ _) ?_)
  refine (rmwEpr_running hb hr (i := s.epIdxOf ep) h.inside _).trans ?_
  simp only [State.epUnstalledBy]
  cases epDir ep <;> rfl

/-! ### The core endpoint operations (47_bot_fsm.md rules R426 to R428) -/

@[simp] theorem sent_isrTape (s : State) (n : BitVec 4) : (s.sent n).isrTape = s.isrTape := by
  simp only [State.sent, State.putEpr_isrTape, State.countStored_isrTape, State.updCtx_isrTape, State.pmaStored_isrTape]
  unfold State.packetTaken
  split <;> rfl

@[simp] theorem armed_isrTape (s : State) (n : BitVec 4) : (s.armed n).isrTape = s.isrTape := by
  simp only [State.armed, State.putEpr_isrTape, State.countwStored_isrTape]
  split <;> rfl

@[simp] theorem xferred_isrTape (s : State) (ep : Byte) (buf : Word) (ff : Option Word) (n : Half) :
    (s.xferred ep buf ff n).isrTape = s.isrTape := by
  unfold State.xferred
  cases epDir ep
  · exact armed_isrTape _ _
  · exact sent_isrTape _ _

/-- A DCD operation inside a class operation, no ISR step around it. -/
theorem callDcd_eq {s t : State} {op : Op Unit} (h : s.isrTape = []) (ho : op s = .ok () t) (ht : t.isrTape = []) :
    callDcd op s = .ok () t :=
  bind_eq (boundary_quiet h) (bind_eq ho (boundary_quiet ht))

/-- `xfer(ep, buf, len)` on an endpoint that is not busy (rule R426). -/
theorem edptXferOp_quiet {s : State} (hl : s.cfg.legal = true) (hq : s.Quiet) (hw : Memory.wf s.pma)
    (hr : s.Running) {ep : Byte} {buf : Word} {n : Half} (hbusy : s.busyAt ep = false)
    (h : (s.putBusy ep true).CanXfer ep buf none n) :
    edptXferOp ep buf n s = .ok true ((s.putBusy ep true).xferred ep buf none n) := by
  refine bind_eq (peek_run _ _) ?_
  simp only [id, hbusy, Bool.false_eq_true, if_false]
  refine bind_eq (change_run _ _) ?_
  refine bind_eq (callDcd_eq hq.isr (xferOp_quiet (s := s.putBusy ep true) hl hq.bus hw hr h)
    ((xferred_isrTape _ _ _ _ _).trans hq.isr)) ?_
  rfl

/-- `xfer(ep, MSCBUF_ADDR, n)`, its refusal ignored (rule R426). -/
theorem xferStaging_quiet {s : State} (hl : s.cfg.legal = true) (hq : s.Quiet) (hw : Memory.wf s.pma)
    (hr : s.Running) {ep : Byte} {n : Nat} (h : s.CanCoreXfer ep n) :
    xferStaging ep n s = .ok () (s.coreXferred ep n) := by
  refine bind_eq (peek_run _ _) ?_
  cases hbusy : s.busyAt ep
  · refine bind_eq (edptXferOp_quiet hl hq hw hr hbusy (h hbusy)) ?_
    simp [State.coreXferred, hbusy]
  · refine bind_eq (a := false) (t := s) (by simp [edptXferOp, hbusy]) ?_
    simp [State.coreXferred, hbusy]

/-- `stall(ep)` (rule R427). -/
theorem edptStallOp_quiet {s : State} (hq : s.Quiet) (hr : s.Running) {ep : Byte}
    (h : s.stalledAt ep = false → s.isOpened ep) : edptStallOp ep s = .ok () (s.coreStalled ep) := by
  refine bind_eq (peek_run _ _) ?_
  cases hs : s.stalledAt ep
  · simp only [id, hs, Bool.false_eq_true, if_false, State.coreStalled]
    exact bind_eq (callDcd_eq hq.isr (epStallOp_quiet hq.bus hr (h hs)) hq.isr) (change_run _ _)
  · simp only [id, hs, if_true, State.coreStalled]
    rfl

/-- `clear_stall(ep)` (rule R428). -/
theorem edptClearStallOp_quiet {s : State} (hq : s.Quiet) (hr : s.Running) {ep : Byte}
    (h : s.stalledAt ep = true → s.isOpened ep) : edptClearStallOp ep s = .ok () (s.coreUnstalled ep) := by
  refine bind_eq (peek_run _ _) ?_
  cases hs : s.stalledAt ep
  · simp only [id, hs, Bool.false_eq_true, if_false, State.coreUnstalled]
    rfl
  · simp only [id, hs, if_true, State.coreUnstalled]
    exact bind_eq (callDcd_eq hq.isr (epClearStallOp_quiet hq.bus hr (h hs)) hq.isr) (change_run _ _)

/-! ### The class machine (47_bot_fsm.md rules R432, R433) -/

/-- `prepare_cbw()` (rule R432). -/
theorem prepareCbw_quiet {s : State} (hl : s.cfg.legal = true) (hq : s.Quiet) (hw : Memory.wf s.pma)
    (hr : s.Running) (h : (s.updMsc fun m => { m with stage := .cmd }).CanCoreXfer s.msc.epOut 31) :
    prepareCbw s = .ok () s.cbwPrepared := by
  refine bind_eq (change_run _ _) (bind_eq (peek_run _ _) ?_)
  exact xferStaging_quiet (s := s.updMsc fun m => { m with stage := .cmd }) hl ⟨hq.bus, hq.isr⟩ hw hr h

/-- The check of rule R104 asks exactly that every byte of the staging buffer is mapped. -/
theorem Config.holdsStaging_iff {c : Config} (h : 0 < c.mscBufSize) :
    c.holdsStaging = true ↔ Config.MappedRange c c.mscBufAddr c.mscBufSize := by
  have mapped_eq : ∀ a, c.ramMap.any (·.holds a) = Config.mapped c a := fun _ => rfl
  simp only [Config.holdsStaging, mapped_eq, Bool.and_eq_true, List.all_eq_true, Bool.or_eq_true,
    Bool.not_eq_true', Bool.and_eq_false_iff, decide_eq_false_iff_not, Config.MappedRange]
  constructor
  · rintro ⟨h0, he⟩ k hk
    induction k with
    | zero => exact h0
    | succ k ih =>
      have hm := ih (by omega)
      rw [Config.mapped, List.any_eq_true] at hm
      obtain ⟨r, hr, hin⟩ := hm
      simp only [Region.holds, Bool.and_eq_true, decide_eq_true_eq] at hin
      rcases Nat.lt_or_ge (c.mscBufAddr + (k + 1)) (r.base + r.size) with hlt | hge
      · rw [Config.mapped, List.any_eq_true]
        exact ⟨r, hr, by simp only [Region.holds, Bool.and_eq_true, decide_eq_true_eq]; omega⟩
      · have hend : r.base + r.size = c.mscBufAddr + (k + 1) := by omega
        rcases he r hr with hno | hyes
        · omega
        · rwa [hend] at hyes
  · intro hall
    refine ⟨hall 0 h, fun r _ => ?_⟩
    by_cases hin : c.mscBufAddr < r.base + r.size ∧ r.base + r.size < c.mscBufAddr + c.mscBufSize
    · have := hall (r.base + r.size - c.mscBufAddr) (by omega)
      rw [show c.mscBufAddr + (r.base + r.size - c.mscBufAddr) = r.base + r.size by omega] at this
      exact .inr this
    · exact .inl (by omega)

theorem Config.staging_mapped {c : Config} (h : c.legal = true) {n : Nat} (hn : n ≤ c.mscBufSize) :
    Config.MappedRange c c.mscBufAddr n := by
  have hs : c.holdsStaging = true := by
    simp only [Config.legal, Bool.and_eq_true] at h
    exact h.2
  have hz := (Config.legal_bounds h).2.2.2.2.2.2.1
  exact fun k hk => (Config.holdsStaging_iff (by omega)).mp hs k (by omega)

/-- A store to the staging buffer (10_state.md rule R72). -/
theorem stagingWrite_ok {s : State} (hl : s.cfg.legal = true) {bs : List Byte} (h : bs.length ≤ s.cfg.mscBufSize) :
    stagingWrite 0 bs s = .ok () (s.ramStored s.cfg.mscBufAddr bs) :=
  bind_eq (peek_run _ _) (memWrite_ok (Config.staging_mapped hl h))

/-- A read of the staging buffer. -/
theorem stagingRead_ok {s : State} (hl : s.cfg.legal = true) {n : Nat} (h : n ≤ s.cfg.mscBufSize) :
    stagingRead 0 n s = .ok (Memory.readBytes s.ram s.cfg.mscBufAddr n) s :=
  bind_eq (peek_run _ _) (memRead_ok (Config.staging_mapped hl h))

/-- `send_csw()` (rule R433). -/
theorem sendCsw_quiet {s : State} (hl : s.cfg.legal = true) (hq : s.Quiet) (hw : Memory.wf s.pma)
    (hr : s.Running) (h : s.cswStored.CanCoreXfer s.msc.epIn 13) : sendCsw s = .ok () s.cswSent := by
  have hsz := (Config.legal_bounds hl).2.2.2.2.2.2.1
  refine bind_eq (change_run _ _) (bind_eq (peek_run _ _) ?_)
  refine bind_eq (stagingWrite_ok (by simpa using hl) (by simp [cswBytes, leBytes32]; omega)) ?_
  exact xferStaging_quiet (s := s.cswStored) hl ⟨hq.bus, hq.isr⟩ hw hr h

/-! ### The application (48_scsi.md rule R485) -/

/-- A callback whose answer is listed. -/
theorem ask_listed {s : State} {c : AppCall} {a : Answer} {rest : List Answer} (h : s.answers = a :: rest) :
    ask c s = .ok a (s.asked c a rest) := by
  simp only [ask, bind_run, emit_run, nextAnswer, h]
  cases ha : a.sense <;> simp [applySense, setSenseTo, State.asked, State.updMsc, ha]

/-- The default sense (47_bot_fsm.md rule R434; 48_scsi.md rule R490). -/
theorem defaultSense_run (v : Sense) (s : State) : defaultSense v s = .ok () (s.senseDefaulted v) := by
  simp only [defaultSense, bind_run, peek_run, onlyIf_run, State.senseDefaulted, beq_iff_eq, setSenseTo, change_run]
  split <;> rfl

end Sys2Proof.Machine
end

