-- ==== Sys2Proof/Laws/Keeps.lean ====
section
/-! SUPPORT. What no operation can do otherwise: a property of states that is closed under the machine's elementary
changes (`Closed`) is kept by every operation, whether it completes or raises a fault, and by every step. -/

namespace Sys2Proof.Machine

/-- The property `P` is closed under the elementary changes the device controller, its interrupt service and the
bus make. -/
structure DeviceClosed (P : State → Prop) : Prop where
  outputs  : ∀ {s} o, P s → P { s with outputs := o }
  post     : ∀ {s} ev, s.evq.length < s.cfg.evqDepth → P s → P { s with evq := s.evq ++ [ev] }
  pma      : ∀ {s a} b, a < s.cfg.pmaSize → P s → P { s with pma := Memory.write s.pma a b }
  ram      : ∀ {s a} b, Config.mapped s.cfg a = true → P s → P { s with ram := Memory.write s.ram a b }
  fifo     : ∀ {s} h f, (f.q.length ≤ f.cap ∨
               f.cap = (fifoFind s.fifos h).cap ∧ f.q.length ≤ (fifoFind s.fifos h).q.length) →
               P s → P { s with fifos := fifoPut s.fifos h f }
  ctx      : ∀ {s} n d f, P s → P (s.updCtx n d f)
  slotFree : ∀ {s} i, P s → P (s.putSlot i Slot.free)
  slotTake : ∀ {s i n d ty}, i < s.cfg.nEp → (s.slotAt i).fits n d ty = true → P s →
               P (s.putSlot i ((s.slotAt i).take n d ty))
  reopen   : ∀ {s}, P s → P { s with slots := Vector.replicate 8 Slot.free, pmaCursor := pmaFirst s.cfg }
  cursor   : ∀ {s} n, (∃ k, n = s.pmaCursor + 2 * k ∧ n ≤ s.cfg.pmaSize) ∨ n = pmaFirst s.cfg ∨
               n = pmaFirst s.cfg + 2 * aligned s.cfg.ep0Size → P s → P { s with pmaCursor := n }
  busTape  : ∀ {s} v, P s → P { s with busTape := v }
  epr      : ∀ {s} i v, P s → P (s.putEpr (!s.fres) i v)
  istr     : ∀ {s} w, P s → P (s.writeIstr w)
  cntr     : ∀ {s} w, P s → P (s.writeCntr w)
  daddr    : ∀ {s} w, P s → P (s.writeDaddr w)
  flag     : ∀ {s} w, s.fres = false → P s → P (s.raiseFlag w)
  busReset : ∀ {s}, s.fres = false → P s → P s.busReset
  sof      : ∀ {s} f, s.fres = false → P s → P (s.busSof f)
  wake     : ∀ {s} n, P s → P { s with remoteWakeCd := n }

/-- The property `P` is closed under the elementary changes of the device controller and of the class machine. -/
structure ClassClosed (P : State → Prop) : Prop extends DeviceClosed P where
  busy     : ∀ {s} v, P s → P { s with epBusy := v }
  stalled  : ∀ {s} v, P s → P { s with epStalled := v }
  msc      : ∀ {s} f, P s → P (s.updMsc f)
  answers  : ∀ {s} v n, P s → P { s with answers := v, draws := n }
  isrTape  : ∀ {s} v, P s → P { s with isrTape := v }

/-- The property `P` is closed under the elementary changes of every step: those of the device controller, and
those of the class machine, the command interface and the schedule. -/
structure Closed (P : State → Prop) : Prop extends ClassClosed P where
  btable   : ∀ {s} w, P s → P (s.writeBtable w)
  gates    : ∀ {s} a b, P s → P { s with pullup := a, irqEn := b }
  res      : ∀ {s} r, P s → P { s with res := r }
  take     : ∀ {s ev rest}, s.evq = ev :: rest → P s → P { s with evq := rest }
  schedule : ∀ {s} v, P s → P { s with schedule := v }
  command  : ∀ {s} a b c, P s → P (s.withCommand a b c)
  fault    : ∀ {s} f, P s → P (takeFault f s)

/-- The operation keeps `P`, with a value or with a fault. -/
def Keeps (P : State → Prop) {α : Type} (op : Op α) : Prop :=
  ∀ s, P s → match op s with | .ok _ t => P t | .error _ t => P t

section
variable {P : State → Prop} {α β : Type}

theorem Keeps.pure (a : α) : Keeps P (pure a : Op α) := fun _ h => h

theorem Keeps.raise (f : Fault) : Keeps P (raise f : Op α) := fun _ h => h

theorem Keeps.peek (f : State → α) : Keeps P (peek f) := fun _ h => h

theorem Keeps.change {f : State → State} (hf : ∀ s, P s → P (f s)) : Keeps P (change f) := fun s h => hf s h

theorem Keeps.bind {x : Op α} {f : α → Op β} (hx : Keeps P x) (hf : ∀ a, Keeps P (f a)) :
    Keeps P (x >>= f) := by
  intro s h
  have := hx s h
  rw [bind_run]
  cases hxs : x s with
  | ok a t => rw [hxs] at this; exact hf a t this
  | error e t => rw [hxs] at this; exact this

theorem Keeps.map {x : Op α} {f : α → β} (hx : Keeps P x) : Keeps P (f <$> x) := by
  intro s h
  have := hx s h
  rw [map_run]
  cases hxs : x s with
  | ok a t => rw [hxs] at this; exact this
  | error e t => rw [hxs] at this; exact this

theorem Keeps.ite {c : Prop} [Decidable c] {x y : Op α} (hx : Keeps P x) (hy : Keeps P y) :
    Keeps P (if c then x else y) := by split <;> assumption

theorem Keeps.onlyIf {b : Bool} {x : Op Unit} (hx : Keeps P x) : Keeps P (onlyIf b x) := .ite hx (.pure ())

theorem Keeps.forEach {as : List α} {f : α → Op Unit} (hf : ∀ a, Keeps P (f a)) : Keeps P (forEach as f) := by
  induction as with
  | nil => exact Keeps.pure ()
  | cons a as ih => exact Keeps.bind (hf a) fun _ => ih

theorem Keeps.of_run {op : Op α} (h : ∀ s, P s → ∀ t, (∃ a, op s = .ok a t) ∨ (∃ e, op s = .error e t) → P t) :
    Keeps P op := by
  intro s hs
  cases ho : op s with
  | ok a t => exact h s hs t (.inl ⟨a, ho⟩)
  | error e t => exact h s hs t (.inr ⟨e, ho⟩)

theorem keeps_pmaRead8 (a : Nat) : Keeps P (pmaRead8 a) :=
  .bind (.peek _) fun _ => .ite (.pure _) (.raise _)

theorem keeps_memRead (a n : Nat) : Keeps P (memRead a n) := by
  induction n generalizing a with
  | zero => exact .pure _
  | succ n ih =>
    exact .bind (.bind (.peek _) fun _ => .ite (.pure _) (.raise _)) fun _ => .bind (ih _) fun _ => .pure _

theorem keeps_busSignal {f : State → State} (hf : ∀ s, s.fres = false → P s → P (f s)) :
    Keeps P (busSignal f) := by
  refine .change fun s h => ?_
  split
  · exact h
  · exact hf s (by simpa using ‹¬ s.fres = true›) h

theorem keeps_checkIdx (i : Nat) : Keeps P (checkIdx i) := .bind (.peek _) fun _ => .ite (.pure _) (.raise _)

theorem keeps_checkOperand (b : Bool) : Keeps P (checkOperand b) :=
  .bind (.peek _) fun _ => .ite (.pure _) (.raise _)

theorem keeps_checkOpen (ep : Byte) : Keeps P (checkOpen ep) :=
  .bind (.peek _) fun _ => .ite (.pure _) (.raise _)

theorem keeps_checkAlign (x : Nat) : Keeps P (checkAlign x) :=
  .bind (.peek _) fun _ => .ite (.raise _) (.pure _)

theorem keeps_checkSpan (o l : Nat) : Keeps P (checkSpan o l) :=
  .bind (.peek _) fun _ => .ite (.raise _) (.ite (.raise _) (.pure _))

theorem aligned_even (n : Nat) : ∃ k, aligned n = 2 * k := by
  unfold aligned
  split
  · exact ⟨_, rfl⟩
  · exact ⟨16 * ceilDiv n 32, by omega⟩

/-- What first fit finds: a slot that exists, where the direction is open or that fits it
(42_pma_btable.md rule R251). -/
theorem firstSlot_spec {s : State} {n : BitVec 4} {d : Dir} {ty : BitVec 2} {i : Nat}
    (h : s.firstSlot n d ty = some i) :
    i < s.cfg.nEp ∧ ((s.slotAt i).isOpen n d ty || (s.slotAt i).fits n d ty) = true := by
  obtain ⟨hi, hp, -⟩ := List.findIdx?_eq_some_iff_getElem.1 h
  simp only [List.length_take, Vector.length_toList] at hi
  refine ⟨by omega, ?_⟩
  have : s.slotAt i = s.slots.toList[i]'(by simp; omega) := by
    simp [State.slotAt, show i < 8 by omega]
  rw [this]
  simpa using hp

theorem keeps_pmaReadBytes (a n : Nat) : Keeps P (pmaReadBytes a n) := by
  induction n generalizing a with
  | zero => exact .pure _
  | succ n ih => exact .bind (keeps_pmaRead8 a) fun _ => .bind (ih _) fun _ => .pure _

theorem keeps_pmaHalf (a : Nat) : Keeps P (pmaHalf a) :=
  .bind (keeps_pmaRead8 _) fun _ => .bind (keeps_pmaRead8 _) fun _ => .pure _

theorem keeps_stagingRead (off n : Nat) : Keeps P (stagingRead off n) :=
  .bind (.peek _) fun _ => keeps_memRead _ _

theorem keeps_contract (cb : Callback) (b : Bool) : Keeps P (contract cb b) := .ite (.pure _) (.raise _)

theorem keeps_ioAnswer (cb : Callback) (n : Nat) (v : Word) : Keeps P (ioAnswer cb n v) :=
  .bind (.peek _) fun _ => .ite (.pure _) (.bind (keeps_contract cb _) fun _ => .pure _)

theorem keeps_deferredAnswer (cb : Callback) (n : Nat) (v : Word) : Keeps P (deferredAnswer cb n v) :=
  .bind (.peek _) fun _ => .bind (keeps_contract _ _) fun _ => .pure _

variable (C : DeviceClosed P)
include C

/-! ### Elementary operations -/

theorem keeps_emit (o : Output) : Keeps P (emit o) := .change fun _ h => C.outputs _ h

theorem keeps_post (ev : Event) : Keeps P (post ev) := by
  intro s h
  by_cases hq : s.evq.length < s.cfg.evqDepth
  · rw [post_ok hq]; exact C.post ev hq h
  · rw [post_full hq]; exact h

theorem keeps_pmaWrite8 (a : Nat) (b : Byte) : Keeps P (pmaWrite8 a b) := by
  intro s h
  simp only [pmaWrite8, bind_run, peek_run, id]
  by_cases ha : a < s.cfg.pmaSize
  · rw [if_pos ha]; exact C.pma b ha h
  · rw [if_neg ha]; exact h

theorem keeps_pmaWriteBytes (a : Nat) (bs : List Byte) : Keeps P (pmaWriteBytes a bs) := by
  induction bs generalizing a with
  | nil => exact .pure _
  | cons b bs ih => exact .bind (keeps_pmaWrite8 C a b) fun _ => ih _

theorem keeps_ramWrite8 (a : Nat) (b : Byte) : Keeps P (ramWrite8 a b) := by
  intro s h
  simp only [ramWrite8, bind_run, peek_run, id]
  by_cases ha : Config.mapped s.cfg a = true
  · rw [if_pos ha]; exact C.ram b ha h
  · rw [if_neg ha]; exact h

theorem keeps_memWrite (a : Nat) (bs : List Byte) : Keeps P (memWrite a bs) := by
  induction bs generalizing a with
  | nil => exact .pure _
  | cons b bs ih => exact .bind (keeps_ramWrite8 C a b) fun _ => ih _

theorem keeps_stagingWrite (off : Nat) (bs : List Byte) : Keeps P (stagingWrite off bs) :=
  .bind (.peek _) fun _ => keeps_memWrite C _ _

theorem keeps_fifoPop (h : Word) (n : Nat) : Keeps P (fifoPop h n) := by
  intro s hs
  simp only [fifoPop, bind_run, peek_run]
  by_cases hc : (s.fifo h).q.length < n
  · rw [if_pos hc]; exact hs
  · rw [if_neg hc]
    exact C.fifo _ { s.fifo h with q := (s.fifo h).q.drop n } (.inr ⟨rfl, by simp [State.fifo]⟩) hs

theorem keeps_fifoPush (h : Word) (bs : List Byte) : Keeps P (fifoPush h bs) := by
  intro s hs
  simp only [fifoPush, bind_run, peek_run]
  by_cases hc : (s.fifo h).cap < (s.fifo h).q.length + bs.length
  · rw [if_pos hc]; exact hs
  · rw [if_neg hc]
    refine C.fifo _ { s.fifo h with q := (s.fifo h).q ++ bs } (.inl ?_) hs
    simp only [List.length_append]; omega

/-! ### BUS -/

theorem keeps_busSetEpr (i : Nat) (f : Half → Half) : Keeps P (busSetEpr i f) := .change fun _ h => C.epr _ _ h

theorem keeps_busIn (i : Nat) (l : Bool) : Keeps P (busIn i l) := by
  refine .bind (.peek _) fun s => ?_
  refine .ite (keeps_emit C _) (.ite (keeps_emit C _) ?_)
  refine .bind (keeps_pmaHalf _) fun _ => .bind (keeps_pmaHalf _) fun _ => .ite (.raise _) ?_
  refine .bind (keeps_pmaReadBytes _ _) fun _ => .bind (keeps_emit C _) fun _ => ?_
  exact .ite (.pure _) (keeps_busSetEpr C _ _)

theorem keeps_busOut (i : Nat) (p : Pid) (bs : List Byte) : Keeps P (busOut i p bs) := by
  refine .bind (.peek _) fun s => ?_
  refine .ite (keeps_emit C _) (.ite (keeps_emit C _) ?_)
  refine .bind (keeps_pmaHalf _) fun _ => .bind (keeps_pmaHalf _) fun _ => .ite (.raise _) ?_
  refine .ite (keeps_emit C _) (.bind (keeps_pmaWriteBytes C _ _) fun _ => ?_)
  refine .bind (keeps_pmaHalf _) fun _ => .bind (keeps_pmaWriteBytes C _ _) fun _ => ?_
  exact .bind (keeps_busSetEpr C _ _) fun _ => keeps_emit C _

theorem keeps_busSetup (i : Nat) (bs : List Byte) : Keeps P (busSetup i bs) := by
  refine .bind (.peek _) fun s => .ite (keeps_emit C _) ?_
  refine .bind (keeps_pmaHalf _) fun _ => .bind (keeps_pmaHalf _) fun _ => .ite (.raise _) ?_
  refine .bind (keeps_pmaWriteBytes C _ _) fun _ => .bind (keeps_pmaHalf _) fun _ => ?_
  refine .bind (keeps_pmaWriteBytes C _ _) fun _ => .bind (keeps_busSetEpr C _ _) fun _ => keeps_emit C _

theorem keeps_busToken (a : BitVec 7) (ep : BitVec 4) (d : Dir) {f : Nat → Op Unit} (hf : ∀ i, Keeps P (f i)) :
    Keeps P (busToken a ep d f) := by
  refine .bind (.peek _) fun s => .ite (keeps_emit C _) ?_
  cases s.selectEp ep d with
  | none => exact keeps_emit C _
  | some i => exact hf i

theorem keeps_busStep (r : BusRec) : Keeps P (busStep r) := by
  refine .bind (.peek _) fun s => .ite (.pure _) ?_
  cases r with
  | setup a ep bs => exact .ite (.pure _) (keeps_busToken C _ _ _ fun i => keeps_busSetup C i bs)
  | out a ep p bs => exact .ite (.pure _) (keeps_busToken C _ _ _ fun i => keeps_busOut C i p bs)
  | inTok a ep => exact keeps_busToken C _ _ _ fun i => keeps_busIn C i _
  | inNoAck a ep => exact keeps_busToken C _ _ _ fun i => keeps_busIn C i _
  | reset => exact keeps_busSignal fun _ hf h => C.busReset hf h
  | suspend => exact keeps_busSignal fun _ hf h => C.flag _ hf h
  | resume => exact keeps_busSignal fun _ hf h => C.flag _ hf h
  | sof f => exact keeps_busSignal fun _ hf h => C.sof f hf h
  | frameMissed => exact keeps_busSignal fun _ hf h => C.flag _ hf h

/-! ### Accesses -/

theorem keeps_busWindow : Keeps P busWindow := by
  intro s h
  unfold busWindow
  cases s.busTape with
  | nil => exact h
  | cons w rest => exact Keeps.forEach (keeps_busStep C) _ (C.busTape rest h)

theorem keeps_readReg (f : State → α) : Keeps P (readReg f) := .bind (keeps_busWindow C) fun _ => .peek _

theorem keeps_writeReg {f : State → State} (hf : ∀ s, P s → P (f s)) : Keeps P (writeReg f) :=
  .bind (keeps_busWindow C) fun _ => .change hf

theorem keeps_readEpr (i : Nat) : Keeps P (readEpr i) := .bind (keeps_checkIdx i) fun _ => keeps_readReg C _

theorem keeps_writeEpr (i : Nat) (w : Half) : Keeps P (writeEpr i w) :=
  .bind (keeps_checkIdx i) fun _ => keeps_writeReg C fun _ h => C.epr _ _ h

theorem keeps_rmwEpr (i : Nat) (c : MuxSel) : Keeps P (rmwEpr i c) :=
  .bind (keeps_readEpr C i) fun _ => keeps_writeEpr C i _

theorem keeps_clearFlag (f : Half) : Keeps P (clearFlag f) := keeps_writeReg C fun _ h => C.istr _ h

theorem keeps_updateCntr (m v : Half) : Keeps P (updateCntr m v) :=
  .bind (keeps_readReg C _) fun _ => keeps_writeReg C fun _ h => C.cntr _ h

theorem keeps_pmaReadWord (a n : Nat) : Keeps P (pmaReadWord a n) :=
  .bind (keeps_busWindow C) fun _ => keeps_pmaReadBytes a n

theorem keeps_pmaWriteWord (a : Nat) (bs : List Byte) : Keeps P (pmaWriteWord a bs) :=
  .bind (keeps_busWindow C) fun _ => keeps_pmaWriteBytes C a bs

theorem keeps_readHalf (a : Nat) : Keeps P (readHalf a) := .bind (keeps_busWindow C) fun _ => keeps_pmaHalf a

theorem keeps_btWrite (i : Nat) (b c : Bool) (v : Half) : Keeps P (btWrite i b c v) :=
  .bind (.peek _) fun _ => .ite (.bind (keeps_pmaReadWord C _ _) fun _ => keeps_pmaWriteWord C _ _)
    (keeps_pmaWriteWord C _ _)

/-! ### Allocator, BTABLE, slots (42), copies (43) -/

theorem keeps_pmaAllocOp (len : Nat) (d : Bool) : Keeps P (pmaAllocOp len d) := by
  intro s h
  obtain ⟨k, hk⟩ := aligned_even len
  simp only [pmaAllocOp, bind_run, peek_run, id]
  by_cases h1 : 1024 < len
  · rw [if_pos h1]; exact h
  rw [if_neg h1]
  by_cases h2 : s.cfg.pmaSize < s.pmaCursor + (if d then 2 * aligned len else aligned len)
  · rw [if_pos h2]; exact h
  rw [if_neg h2]
  have hP : P { s with pmaCursor := s.pmaCursor + (if d then 2 * aligned len else aligned len) } := by
    refine C.cursor _ (.inl ?_) h
    cases d
    · exact ⟨k, by simp [hk], by simpa using h2⟩
    · exact ⟨2 * k, by simp [hk], by simpa using h2⟩
  have hrest : Keeps P (do
      checkAlign s.pmaCursor
      if d then do
        checkAlign (s.pmaCursor + aligned len)
        pure (BitVec.ofNat 16 (s.pmaCursor + aligned len) ++ BitVec.ofNat 16 s.pmaCursor)
      else pure (BitVec.ofNat 32 s.pmaCursor) : Op Word) :=
    .bind (keeps_checkAlign _) fun _ => .ite (.bind (keeps_checkAlign _) fun _ => .pure _) (.pure _)
  exact hrest _ hP

theorem keeps_btSetAddrOp (i : Nat) (b : Bool) (a : Half) : Keeps P (btSetAddrOp i b a) :=
  .bind (keeps_checkIdx i) fun _ => keeps_btWrite C _ _ _ _

theorem keeps_btGetAddrOp (i : Nat) (b : Bool) : Keeps P (btGetAddrOp i b) :=
  .bind (keeps_checkIdx i) fun _ => .bind (.peek _) fun _ => keeps_readHalf C _

theorem keeps_btSetCountOp (i : Nat) (b : Bool) (n : Nat) : Keeps P (btSetCountOp i b n) :=
  .bind (keeps_checkIdx i) fun _ => .bind (.peek _) fun _ =>
    .ite (.bind (keeps_pmaReadWord C _ _) fun _ => keeps_pmaWriteWord C _ _)
      (.bind (keeps_readHalf C _) fun _ => keeps_pmaWriteWord C _ _)

theorem keeps_btGetCountOp (i : Nat) (b : Bool) : Keeps P (btGetCountOp i b) :=
  .bind (keeps_checkIdx i) fun _ => .bind (.peek _) fun _ => .bind (keeps_readHalf C _) fun _ => .pure _

theorem keeps_btSetRxBufsizeOp (i : Nat) (b : Bool) (n : Nat) : Keeps P (btSetRxBufsizeOp i b n) :=
  .bind (keeps_checkIdx i) fun _ => .ite (.raise _) (keeps_btWrite C _ _ _ _)

theorem keeps_epAllocOp (ep : Byte) (ty : BitVec 2) : Keeps P (epAllocOp ep ty) := by
  intro s h
  simp only [epAllocOp, bind_run, peek_run, id]
  cases hf : s.firstSlot (epNum ep) (epDir ep) ty with
  | none => exact h
  | some i =>
    obtain ⟨hi, ho⟩ := firstSlot_spec hf
    dsimp only
    by_cases hopen : (s.slotAt i).isOpen (epNum ep) (epDir ep) ty = true
    · rw [if_pos hopen]; exact h
    · rw [if_neg hopen]
      simp only [hopen, Bool.false_or] at ho
      exact C.slotTake hi ho h

theorem keeps_pmaWriteOp (o r l : Nat) : Keeps P (pmaWriteOp o r l) :=
  .bind (keeps_checkSpan o l) fun _ => .bind (.peek _) fun _ =>
    .forEach fun _ => .bind (keeps_memRead _ _) fun _ => keeps_pmaWriteWord C _ _

theorem keeps_pmaReadOp (o r l : Nat) : Keeps P (pmaReadOp o r l) :=
  .bind (keeps_checkSpan o l) fun _ => .bind (.peek _) fun _ =>
    .forEach fun _ => .bind (keeps_pmaReadWord C _ _) fun _ => keeps_memWrite C _ _

theorem keeps_readSpans (o w : Nat) (l : List (Nat × Nat)) : Keeps P (readSpans o w l) := by
  induction l with
  | nil => exact .pure _
  | cons p ps ih => exact .bind (keeps_pmaReadWord C _ _) fun _ => .bind ih fun _ => .pure _

theorem keeps_pmaWriteFifoOp (o : Nat) (h : Word) (l : Nat) : Keeps P (pmaWriteFifoOp o h l) :=
  .bind (keeps_checkSpan o l) fun _ => .bind (keeps_fifoPop C _ _) fun _ => .bind (.peek _) fun _ =>
    .forEach fun _ => keeps_pmaWriteWord C _ _

theorem keeps_pmaReadFifoOp (o : Nat) (h : Word) (l : Nat) : Keeps P (pmaReadFifoOp o h l) :=
  .bind (keeps_checkSpan o l) fun _ => .bind (.peek _) fun _ =>
    .ite (.raise _) (.bind (keeps_readSpans C _ _ _) fun _ => keeps_fifoPush C _ _)

theorem keeps_pmaPacketOp (o l : Nat) : Keeps P (pmaPacketOp o l) :=
  .bind (keeps_checkAlign o) fun _ => .bind (.peek _) fun _ => keeps_readSpans C _ _ _

/-! ### DCD operations (44) -/

theorem keeps_updCtx (n : BitVec 4) (d : Dir) (f : XferCtx → XferCtx) :
    Keeps P (change (·.updCtx n d f)) := .change fun _ h => C.ctx n d f h

theorem keeps_ep0Open (d : Dir) : Keeps P (ep0Open d) :=
  .bind (.peek _) fun _ => .bind (keeps_epAllocOp C _ _) fun _ => .bind (keeps_updCtx C _ _ _) fun _ =>
    .bind (keeps_pmaAllocOp C _ _) fun _ => .bind (keeps_btSetAddrOp C _ _ _) fun _ =>
      .bind (.onlyIf (keeps_btSetRxBufsizeOp C _ _ _)) fun _ => keeps_rmwEpr C _ _

theorem keeps_busResetHandler : Keeps P busResetHandler :=
  .bind (keeps_writeReg C fun _ h => C.daddr _ h) fun _ => .bind (.change fun _ h => C.reopen h) fun _ =>
    .bind (keeps_ep0Open C _) fun _ => .bind (keeps_ep0Open C _) fun _ =>
      keeps_writeReg C fun _ h => C.daddr _ h

theorem keeps_dcdInitOp (hbt : ∀ {s} w, P s → P (s.writeBtable w))
    (hg : ∀ {s} a b, P s → P { s with pullup := a, irqEn := b }) : Keeps P dcdInitOp := by
  have hc : ∀ w, Keeps P (writeReg (·.writeCntr w)) := fun w => keeps_writeReg C fun _ h => C.cntr w h
  refine .bind (hc _) fun _ => .bind (hc _) fun _ => .bind (hc _) fun _ => ?_
  refine .bind (keeps_writeReg C fun _ h => C.istr _ h) fun _ => .bind (.peek _) fun c => ?_
  refine .bind (.forEach fun i => keeps_writeEpr C i _) fun _ => ?_
  refine .bind (keeps_writeReg C fun _ h => hbt _ h) fun _ => .bind (hc _) fun _ => ?_
  exact .bind (keeps_busResetHandler C) fun _ => .change fun _ h => hg _ _ h

theorem keeps_epOpenOp (ep : Byte) (ty : BitVec 2) (m : BitVec 11) : Keeps P (epOpenOp ep ty m) :=
  .bind (keeps_epAllocOp C _ _) fun _ => .bind (keeps_pmaAllocOp C _ _) fun _ =>
    .bind (keeps_btSetAddrOp C _ _ _) fun _ => .bind (keeps_updCtx C _ _ _) fun _ => keeps_rmwEpr C _ _

theorem keeps_isoAllocOp (ep : Byte) (m : BitVec 11) : Keeps P (isoAllocOp ep m) :=
  .bind (keeps_epAllocOp C _ _) fun _ => .bind (keeps_pmaAllocOp C _ _) fun _ =>
    .bind (keeps_btSetAddrOp C _ _ _) fun _ => .bind (keeps_btSetCountOp C _ _ _) fun _ =>
      .bind (keeps_btSetAddrOp C _ _ _) fun _ => .bind (keeps_btSetCountOp C _ _ _) fun _ => keeps_updCtx C _ _ _

theorem keeps_isoActivateOp (ep : Byte) (m : BitVec 11) : Keeps P (isoActivateOp ep m) :=
  .bind (keeps_checkOpen _) fun _ => .bind (keeps_updCtx C _ _ _) fun _ => .bind (.peek _) fun _ =>
    keeps_rmwEpr C _ _

theorem keeps_epCloseAllOp : Keeps P epCloseAllOp :=
  .bind (.peek _) fun _ =>
    .bind (.forEach fun i => .bind (keeps_rmwEpr C i _) fun _ => .change fun _ h => C.slotFree i h) fun _ =>
      .change fun _ h => C.cursor _ (.inr (.inr rfl)) h

theorem keeps_txStore (x : XferCtx) (a l : Nat) : Keeps P (txStore x a l) := by
  unfold txStore
  cases x.ff with
  | none => exact keeps_pmaWriteOp C _ _ _
  | some h => exact keeps_pmaWriteFifoOp C _ _ _

theorem keeps_transmitPacket (n : BitVec 4) : Keeps P (transmitPacket n) :=
  .bind (.peek _) fun _ => .bind (keeps_readEpr C _) fun _ => .bind (keeps_btGetAddrOp C _ _) fun _ =>
    .bind (keeps_txStore C _ _ _) fun _ => .bind (keeps_updCtx C _ _ _) fun _ =>
      .bind (keeps_btSetCountOp C _ _ _) fun _ => .bind (keeps_updCtx C _ _ _) fun _ => keeps_writeEpr C _ _

theorem keeps_armReceive (n : BitVec 4) : Keeps P (armReceive n) :=
  .bind (.peek _) fun _ => .bind (keeps_readEpr C _) fun _ =>
    .bind (.onlyIf (keeps_btSetRxBufsizeOp C _ _ _)) fun _ =>
      .bind (keeps_btSetRxBufsizeOp C _ _ _) fun _ => keeps_rmwEpr C _ _

theorem keeps_xferOp (ep : Byte) (buf : Word) (ff : Option Word) (n : Half) : Keeps P (xferOp ep buf ff n) := by
  refine .bind (keeps_checkOpen _) fun _ => .bind (keeps_updCtx C _ _ _) fun _ => ?_
  cases epDir ep with
  | inn => exact keeps_transmitPacket C _
  | out => exact keeps_armReceive C _

theorem keeps_epStallOp (ep : Byte) : Keeps P (epStallOp ep) :=
  .bind (keeps_checkOpen _) fun _ => .bind (.peek _) fun _ => keeps_rmwEpr C _ _

theorem keeps_epClearStallOp (ep : Byte) : Keeps P (epClearStallOp ep) :=
  .bind (keeps_checkOpen _) fun _ => .bind (.peek _) fun _ => keeps_rmwEpr C _ _

/-! ### Interrupt service (46) -/

theorem keeps_txNext (n : BitVec 4) (x : XferCtx) : Keeps P (txNext n x) :=
  .ite (keeps_transmitPacket C _) (keeps_post C _)

theorem keeps_txPath (i : Nat) : Keeps P (txPath i) := by
  refine .bind (keeps_rmwEpr C _ _) fun _ => .bind (keeps_readEpr C _) fun r => .bind (.peek _) fun x => ?_
  refine .ite (.ite ?_ (.pure _)) (keeps_txNext C _ _)
  exact .bind (keeps_updCtx C _ _ _) fun _ => .bind (keeps_btSetCountOp C _ _ _) fun _ => keeps_txNext C _ _

theorem keeps_setupPath (i : Nat) : Keeps P (setupPath i) :=
  .bind (keeps_btGetCountOp C _ _) fun _ =>
    .ite (.bind (keeps_btGetAddrOp C _ _) fun _ => .bind (keeps_pmaPacketOp C _ _) fun _ =>
      .bind (keeps_rmwEpr C _ _) fun _ => keeps_post C _) (keeps_rmwEpr C _ _)

theorem keeps_rxStore (x : XferCtx) (a l : Nat) : Keeps P (rxStore x a l) := by
  unfold rxStore
  cases x.ff with
  | none => exact keeps_pmaReadOp C _ _ _
  | some h => exact keeps_pmaReadFifoOp C _ _ _

theorem keeps_rxNext (i : Nat) (b : Bool) (n : BitVec 4) (x : XferCtx) (l : Nat) (q : Half) :
    Keeps P (rxNext i b n x l q) :=
  .ite (keeps_post C _) (.bind (keeps_btSetRxBufsizeOp C _ _ _) fun _ => keeps_rmwEpr C _ _)

theorem keeps_rxEnd (i : Nat) : Keeps P (rxEnd i) :=
  .bind (.peek _) fun _ =>
    .ite (.bind (keeps_btSetRxBufsizeOp C _ _ _) fun _ => keeps_rmwEpr C _ _) (.pure _)

theorem keeps_rxData (i : Nat) (r : Half) : Keeps P (rxData i r) :=
  .bind (.onlyIf (keeps_rmwEpr C _ _)) fun _ => .bind (.peek _) fun _ =>
    .bind (keeps_btGetCountOp C _ _) fun _ => .bind (keeps_btGetAddrOp C _ _) fun _ =>
      .bind (keeps_rxStore C _ _ _) fun _ => .bind (keeps_updCtx C _ _ _) fun _ =>
        .bind (keeps_rxNext C _ _ _ _ _ _) fun _ => keeps_rxEnd C _

theorem keeps_rxPath (i : Nat) : Keeps P (rxPath i) :=
  .bind (.peek _) fun _ => .bind (.onlyIf (keeps_busWindow C)) fun _ => .bind (keeps_readEpr C i) fun _ =>
    .ite (keeps_setupPath C i) (keeps_rxData C i _)

theorem keeps_ctrPath (d : Bool) (i : Nat) : Keeps P (ctrPath d i) := .ite (keeps_rxPath C i) (keeps_txPath C i)

theorem keeps_ctrLoop (n : Nat) : Keeps P (ctrLoop n) := by
  induction n with
  | zero => exact .pure _
  | succ n ih =>
    exact .bind (keeps_readReg C _) fun v => .ite (.bind (keeps_readReg C _) fun i =>
      .bind (keeps_readReg C _) fun d => .bind (keeps_ctrPath C _ _) fun _ => ih) (.pure _)

theorem keeps_unmasked (v f : Half) : Keeps P (unmasked v f) :=
  .ite (.bind (keeps_readReg C _) fun _ => .pure _) (.pure _)

theorem keeps_serviceFlag (v f : Half) {b : Op Unit} (hb : Keeps P b) : Keeps P (serviceFlag v f b) :=
  .bind (keeps_unmasked C v f) fun _ => .onlyIf hb

theorem keeps_sofBranch : Keeps P sofBranch :=
  .bind (keeps_clearFlag C _) fun _ => .bind (keeps_readReg C _) fun _ => keeps_post C _

theorem keeps_resetBranch : Keeps P resetBranch :=
  .bind (keeps_clearFlag C _) fun _ => .bind (keeps_busResetHandler C) fun _ => keeps_post C _

theorem keeps_wkupBranch : Keeps P wkupBranch :=
  .bind (keeps_updateCntr C _ _) fun _ => .bind (keeps_updateCntr C _ _) fun _ =>
    .bind (keeps_clearFlag C _) fun _ => keeps_post C _

theorem keeps_suspBranch : Keeps P suspBranch :=
  .bind (keeps_updateCntr C _ _) fun _ => .bind (keeps_updateCntr C _ _) fun _ =>
    .bind (keeps_clearFlag C _) fun _ => keeps_post C _

theorem keeps_esofBranch : Keeps P esofBranch :=
  .bind (.peek _) fun _ => .bind (.onlyIf (keeps_updateCntr C _ _)) fun _ =>
    .bind (.onlyIf (.change fun s h => C.wake (s.remoteWakeCd - 1) h)) fun _ => keeps_clearFlag C _

theorem keeps_serviceCtr : Keeps P serviceCtr :=
  .bind (keeps_readReg C _) fun _ => .bind (.peek _) fun _ => .onlyIf (keeps_ctrLoop C _)

theorem keeps_isrOp : Keeps P isrOp :=
  .bind (keeps_readReg C _) fun _ => .bind (keeps_serviceFlag C _ _ (keeps_sofBranch C)) fun _ =>
    .bind (keeps_unmasked C _ _) fun _ => .ite (keeps_resetBranch C) <|
      .bind (keeps_serviceCtr C) fun _ => .bind (keeps_serviceFlag C _ _ (keeps_wkupBranch C)) fun _ =>
        .bind (keeps_serviceFlag C _ _ (keeps_suspBranch C)) fun _ =>
          keeps_serviceFlag C _ _ (keeps_esofBranch C)

end

/-! ### Core endpoint operations and the Bulk-Only-Transport machine (47, 48) -/

section
variable {P : State → Prop} {α β : Type} (C : ClassClosed P)
include C

theorem keeps_setSenseTo (v : Sense) : Keeps P (setSenseTo v) := .change fun _ h => C.msc _ h

theorem keeps_nextAnswer : Keeps P nextAnswer := by
  intro s h
  unfold nextAnswer
  cases s.answers with
  | nil => exact C.answers _ _ h
  | cons a rest => exact C.answers _ _ h

theorem keeps_applySense (v : Option Sense) : Keeps P (applySense v) := by
  cases v with
  | none => exact .pure _
  | some v => exact keeps_setSenseTo C v

theorem keeps_ask (c : AppCall) : Keeps P (ask c) :=
  .bind (keeps_emit C.toDeviceClosed _) fun _ => .bind (keeps_nextAnswer C) fun _ =>
    .bind (keeps_applySense C _) fun _ => .pure _

theorem keeps_putBusy {s : State} (ep : Byte) (b : Bool) (h : P s) : P (s.putBusy ep b) := C.busy _ h

theorem keeps_putStalled {s : State} (ep : Byte) (b : Bool) (h : P s) : P (s.putStalled ep b) := C.stalled _ h

theorem keeps_isrSteps (n : Nat) : Keeps P (isrSteps n) := by
  induction n with
  | zero => exact .pure _
  | succ n ih =>
    exact .bind (keeps_busWindow C.toDeviceClosed) fun _ => .bind (.peek _) fun _ =>
      .bind (.onlyIf (keeps_isrOp C.toDeviceClosed)) fun _ => ih

theorem keeps_boundary : Keeps P boundary := by
  intro s h
  unfold boundary
  cases s.isrTape with
  | nil => exact h
  | cons n rest => exact keeps_isrSteps C n _ (C.isrTape rest h)

theorem keeps_callDcd {op : Op Unit} (h : Keeps P op) : Keeps P (callDcd op) :=
  .bind (keeps_boundary C) fun _ => .bind h fun _ => keeps_boundary C

theorem keeps_edptXferOp (ep : Byte) (b : Word) (n : Half) : Keeps P (edptXferOp ep b n) :=
  .bind (.peek _) fun _ => .ite (.pure _) (.bind (.change fun _ h => C.busy _ h) fun _ =>
    .bind (keeps_callDcd C (keeps_xferOp C.toDeviceClosed _ _ _ _)) fun _ => .pure _)

theorem keeps_edptStallOp (ep : Byte) : Keeps P (edptStallOp ep) :=
  .bind (.peek _) fun _ => .ite (.pure _) (.bind (keeps_callDcd C (keeps_epStallOp C.toDeviceClosed _)) fun _ =>
    .change fun _ h => C.busy _ (C.stalled _ h))

theorem keeps_edptClearStallOp (ep : Byte) : Keeps P (edptClearStallOp ep) :=
  .bind (.peek _) fun _ => .ite (.bind (keeps_callDcd C (keeps_epClearStallOp C.toDeviceClosed _)) fun _ =>
    .change fun _ h => C.busy _ (C.stalled _ h)) (.pure _)

theorem keeps_changeMsc (f : Msc → Msc) : Keeps P (changeMsc f) := .change fun _ h => C.msc f h

theorem keeps_xferStaging (ep : Byte) (n : Nat) : Keeps P (xferStaging ep n) :=
  .bind (.peek _) fun _ => .bind (keeps_edptXferOp C _ _ _) fun _ => .pure _

theorem keeps_prepareCbw : Keeps P prepareCbw :=
  .bind (keeps_changeMsc C _) fun _ => .bind (.peek _) fun _ => keeps_xferStaging C _ _

theorem keeps_sendCsw : Keeps P sendCsw :=
  .bind (keeps_changeMsc C _) fun _ => .bind (.peek _) fun _ => .bind (keeps_stagingWrite C.toDeviceClosed _ _) fun _ =>
    keeps_xferStaging C _ _

theorem keeps_defaultSense (v : Sense) : Keeps P (defaultSense v) :=
  .bind (.peek _) fun _ => .onlyIf (keeps_setSenseTo C v)

theorem keeps_failScsiOp (st : Byte) : Keeps P (failScsiOp st) :=
  .bind (keeps_changeMsc C _) fun _ => .bind (keeps_defaultSense C _) fun _ => .bind (.peek _) fun _ =>
    .onlyIf (keeps_edptStallOp C _)

theorem keeps_statusStep : Keeps P statusStep :=
  .bind (.peek _) fun _ => .onlyIf (.ite (keeps_edptStallOp C _) (keeps_sendCsw C))

theorem keeps_toStatus : Keeps P toStatus := keeps_changeMsc C _

theorem keeps_answerBytes (r : Int) (d : List Byte) : Keeps P (answerBytes r d) := keeps_stagingWrite C.toDeviceClosed _ _

theorem keeps_appScsi (o : Bool) (n : Nat) : Keeps P (appScsi o n) :=
  .bind (.peek _) fun _ => .bind (keeps_stagingRead _ _) fun _ => .bind (keeps_ask C _) fun _ =>
    .bind (keeps_contract _ _) fun _ => .bind (.onlyIf (keeps_answerBytes C _ _)) fun _ => .pure _

theorem keeps_boolAnswer (b : Bool) : Keeps P (boolAnswer b) :=
  .ite (.pure _) (.bind (keeps_defaultSense C _) fun _ => .pure _)

theorem keeps_capacityResponse (l : Byte) (f : Word → Half → List Byte) : Keeps P (capacityResponse l f) :=
  .bind (keeps_ask C _) fun _ => .ite (.bind (keeps_defaultSense C _) fun _ => .pure _)
    (.bind (keeps_stagingWrite C.toDeviceClosed _ _) fun _ => .pure _)

theorem keeps_inquiry (l : Byte) : Keeps P (inquiry l) :=
  .bind (keeps_stagingWrite C.toDeviceClosed _ _) fun _ => .bind (.peek _) fun _ => .bind (keeps_ask C _) fun _ =>
    .bind (keeps_contract _ _) fun _ => .ite (.bind (keeps_stagingWrite C.toDeviceClosed _ _) fun _ => .pure _)
      (.bind (keeps_ask C _) fun _ => .bind (keeps_stagingWrite C.toDeviceClosed _ _) fun _ => .pure _)

theorem keeps_modeSense6 (l : Byte) : Keeps P (modeSense6 l) :=
  .bind (keeps_ask C _) fun _ => .bind (keeps_stagingWrite C.toDeviceClosed _ _) fun _ => .pure _

theorem keeps_requestSense (l : Byte) : Keeps P (requestSense l) :=
  .bind (.peek _) fun _ => .bind (keeps_stagingWrite C.toDeviceClosed _ _) fun _ =>
    .bind (keeps_stagingRead _ _) fun _ => .bind (keeps_ask C _) fun _ =>
      .ite (.bind (keeps_setSenseTo C _) fun _ => .pure _) (.bind (keeps_contract _ _) fun _ =>
        .bind (keeps_answerBytes C _ _) fun _ => .bind (keeps_setSenseTo C _) fun _ => .pure _)

theorem keeps_procBuiltin : Keeps P procBuiltin := by
  have hb : ∀ c, Keeps P (do let a ← ask c; boolAnswer a.flag) := fun c =>
    .bind (keeps_ask C c) fun _ => keeps_boolAnswer C _
  exact .bind (.peek _) fun _ => .ite (hb _) <| .ite (keeps_requestSense C _) <| .ite (keeps_inquiry C _) <|
    .ite (keeps_modeSense6 C _) <| .ite (hb _) <| .ite (hb _) <|
      .ite (keeps_capacityResponse C _ _) (keeps_capacityResponse C _ _)

theorem keeps_readIoData (r : Int) : Keeps P (readIoData r) :=
  .bind (.peek _) fun _ => .ite (.bind (keeps_setSenseTo C _) fun _ => keeps_failScsiOp C _)
    (.ite (keeps_post C.toDeviceClosed _) (keeps_xferStaging C _ _))

theorem keeps_procRead10 : Keeps P procRead10 := by
  refine .bind (.peek _) fun s => .bind (keeps_ask C _) fun a => .bind (keeps_ioAnswer _ _ _) fun r => ?_
  cases r with
  | none => exact keeps_changeMsc C _
  | some r => exact .bind (keeps_answerBytes C _ _) fun _ => keeps_readIoData C _

theorem keeps_procWrite10Cmd : Keeps P procWrite10Cmd := .bind (.peek _) fun _ => keeps_xferStaging C _ _

theorem keeps_procWrite10Dispatch : Keeps P procWrite10Dispatch :=
  .bind (.peek _) fun _ => .bind (keeps_ask C _) fun _ => .ite (keeps_procWrite10Cmd C)
    (.bind (keeps_setSenseTo C _) fun _ => keeps_failScsiOp C _)

theorem keeps_keepRest (r : Int) (n : Nat) : Keeps P (keepRest r n) :=
  .bind (keeps_changeMsc C _) fun _ => .bind (keeps_stagingRead _ _) fun _ => keeps_stagingWrite C.toDeviceClosed _ _

theorem keeps_writeIoData (x : Word) (r : Int) : Keeps P (writeIoData x r) :=
  .bind (.peek _) fun _ => .ite (.bind (keeps_changeMsc C _) fun _ => .bind (keeps_setSenseTo C _) fun _ =>
      keeps_failScsiOp C _) <|
    .ite (.bind (.onlyIf (keeps_keepRest C _ _)) fun _ => keeps_post C.toDeviceClosed _)
      (.bind (keeps_changeMsc C _) fun _ => .bind (.peek _) fun _ =>
        .ite (keeps_toStatus C) (keeps_procWrite10Cmd C))

theorem keeps_write10NewData (x : Word) : Keeps P (write10NewData x) := by
  refine .bind (.peek _) fun s => .bind (keeps_stagingRead _ _) fun _ => .bind (keeps_ask C _) fun a =>
    .bind (keeps_ioAnswer _ _ _) fun r => ?_
  cases r with
  | none => exact keeps_changeMsc C _
  | some r => exact keeps_writeIoData C _ _

theorem keeps_replayIo (s : State) (v : Word) : Keeps P (replayIo s v) :=
  .ite (.bind (keeps_deferredAnswer _ _ _) fun _ => keeps_readIoData C _) <|
    .ite (.bind (keeps_deferredAnswer _ _ _) fun _ => keeps_writeIoData C _ _) (.pure _)

theorem keeps_replayDeferred (v : Word) : Keeps P (replayDeferred v) :=
  .bind (.peek _) fun _ => .ite (.bind (keeps_changeMsc C _) fun _ => .bind (keeps_replayIo C _ _) fun _ =>
    keeps_statusStep C) (.pure _)

theorem keeps_scsiAnswer (s : State) : Keeps P (scsiAnswer s) := .ite (keeps_procBuiltin C) (keeps_appScsi C _ _)

theorem keeps_answerOther (t : Word) (r : Int) : Keeps P (answerOther t r) :=
  .ite (keeps_failScsiOp C _) <| .ite (.ite (keeps_failScsiOp C _) (keeps_toStatus C)) <|
    .ite (keeps_failScsiOp C _) <| .bind (keeps_changeMsc C _) fun _ => .bind (.peek _) fun _ =>
      keeps_xferStaging C _ _

theorem keeps_dispatchOther : Keeps P dispatchOther :=
  .bind (.peek _) fun _ => .ite (.ite (keeps_failScsiOp C _) (keeps_xferStaging C _ _))
    (.bind (keeps_scsiAnswer C _) fun _ => keeps_answerOther C _ _)

theorem keeps_dispatchRw (c : Cbw) : Keeps P (dispatchRw c) :=
  .ite (keeps_failScsiOp C _) <| .ite (keeps_toStatus C) <|
    .ite (keeps_procRead10 C) (keeps_procWrite10Dispatch C)

theorem keeps_dispatchCbw (c : Cbw) : Keeps P (dispatchCbw c) :=
  .bind (keeps_changeMsc C _) fun _ => .ite (keeps_dispatchRw C _) (keeps_dispatchOther C)

theorem keeps_rejectCbw : Keeps P rejectCbw :=
  .bind (.peek _) fun _ => .bind (keeps_changeMsc C _) fun _ => .bind (keeps_edptStallOp C _) fun _ =>
    keeps_edptStallOp C _

theorem keeps_cmdStage (ep : Byte) (n : Word) : Keeps P (cmdStage ep n) :=
  .bind (.peek _) fun _ => .ite (.pure _) <| .bind (keeps_stagingRead _ _) fun _ =>
    .bind (keeps_changeMsc C _) fun _ => .ite (.bind (keeps_dispatchCbw C _) fun _ => .pure _)
      (.bind (keeps_rejectCbw C) fun _ => .pure _)

theorem keeps_endOther : Keeps P endOther := .bind (.peek _) fun _ => .ite (keeps_toStatus C) (.raise _)

theorem keeps_outArrived (t : Word) : Keeps P (outArrived t) :=
  .bind (keeps_appScsi C _ _) fun _ => .onlyIf (keeps_failScsiOp C _)

theorem keeps_dataStage (n : Word) : Keeps P (dataStage n) :=
  .bind (.peek _) fun _ => .ite (.bind (keeps_changeMsc C _) fun _ => .bind (.peek _) fun _ =>
      .ite (keeps_toStatus C) (keeps_procRead10 C)) <|
    .ite (keeps_write10NewData C _) <| .bind (keeps_changeMsc C _) fun _ =>
      .bind (.onlyIf (keeps_outArrived C _)) fun _ => keeps_endOther C

theorem keeps_statusSentStage (ep : Byte) (n : Word) : Keeps P (statusSentStage ep n) :=
  .bind (.peek _) fun _ => .ite (.bind (keeps_emit C.toDeviceClosed _) fun _ => keeps_prepareCbw C) (.pure _)

theorem keeps_stageHandler (g : Stage) (ep : Byte) (n : Word) : Keeps P (stageHandler g ep n) := by
  cases g with
  | cmd => exact keeps_cmdStage C _ _
  | data => exact .bind (keeps_dataStage C _) fun _ => .pure _
  | status => exact .pure _
  | statusSent => exact .bind (keeps_statusSentStage C _ _) fun _ => .pure _
  | needReset => exact .pure _

theorem keeps_mscEvent (ep : Byte) (n : Word) : Keeps P (mscEvent ep n) :=
  .bind (.peek _) fun _ => .ite (.pure _) <| .bind (keeps_stageHandler C _ _ _) fun _ =>
    .onlyIf (keeps_statusStep C)

theorem keeps_openPair (n p : Nat) : Keeps P (openPair n p) := by
  induction n generalizing p with
  | zero => exact .pure _
  | succ n ih =>
    exact .bind (keeps_memRead _ _) fun _ => .ite (.pure _) <|
      .bind (.change fun _ h => keeps_putStalled C _ _ (keeps_putBusy C _ _ h)) fun _ =>
        .bind (keeps_callDcd C (keeps_epOpenOp C.toDeviceClosed _ _ _)) fun _ => .bind (keeps_changeMsc C _) fun _ => ih _

theorem keeps_mscOpenOp (d n : Nat) : Keeps P (mscOpenOp d n) :=
  .bind (keeps_memRead _ _) fun _ => .ite (.pure _) <| .ite (.pure _) <|
    .bind (keeps_changeMsc C _) fun _ => .bind (keeps_openPair C _ _) fun _ =>
      .ite (.bind (keeps_prepareCbw C) fun _ => .pure _) (.pure _)

theorem keeps_clearFeatureHalt (ea : Byte) : Keeps P (clearFeatureHalt ea) :=
  .bind (keeps_edptClearStallOp C _) fun _ => .bind (.peek _) fun _ => .ite (keeps_edptStallOp C _) <|
    .ite (.ite (keeps_sendCsw C) (.pure _)) <| .ite (.ite (keeps_prepareCbw C) (.pure _)) (.pure _)

theorem keeps_mscControlOp (a b : Word) : Keeps P (mscControlOp a b) :=
  .ite (.bind (keeps_clearFeatureHalt C _) fun _ => .pure _) <| .ite (.pure _) <|
    .ite (.ite (.pure _) (.bind (keeps_changeMsc C _) fun _ => .pure _)) <|
      .ite (.ite (.pure _) (.bind (.peek _) fun _ => .bind (keeps_emit C.toDeviceClosed _) fun _ => .pure _)) (.pure _)

end

/-! ### Commands and steps -/

section
variable {P : State → Prop} (C : Closed P)
include C

theorem keeps_setRes (r : Word) : Keeps P (setRes r) := .change fun _ h => C.res r h

theorem keeps_mscXferCbOp (ep : Byte) (n : Word) : Keeps P (mscXferCbOp ep n) :=
  .bind (keeps_setRes C 1) fun _ => keeps_mscEvent C.toClassClosed ep n

theorem keeps_handleEvent (ev : Event) : Keeps P (handleEvent ev) := by
  cases ev with
  | busReset =>
    have h0 := fun (s : State) (h : P s) => C.stalled (Vector.replicate 32 false)
      (C.busy (Vector.replicate 32 false) h)
    exact .bind (.change h0) fun _ => .bind (keeps_changeMsc C.toClassClosed _) fun _ => keeps_emit C.toDeviceClosed _
  | setupReceived b =>
    exact .bind (.change fun _ h => keeps_putStalled C.toClassClosed _ _ (keeps_putStalled C.toClassClosed _ _ (keeps_putBusy C.toClassClosed _ _
      (keeps_putBusy C.toClassClosed _ _ h)))) fun _ => keeps_emit C.toDeviceClosed _
  | xferComplete ep n =>
    exact .bind (.change fun _ h => C.busy _ h) fun _ => .bind (.peek _) fun _ =>
      .ite (keeps_mscXferCbOp C _ _) (keeps_emit C.toDeviceClosed _)
  | deferred v => exact keeps_replayDeferred C.toClassClosed v
  | sof f => exact keeps_emit C.toDeviceClosed _
  | suspend => exact keeps_emit C.toDeviceClosed _
  | resume => exact keeps_emit C.toDeviceClosed _

theorem keeps_taskOp : Keeps P taskOp := by
  intro s h
  simp only [taskOp, bind_run, peek_run]
  cases hq : s.evq with
  | nil => exact C.res 0 h
  | cons ev rest =>
    exact Keeps.bind (keeps_handleEvent C ev) (fun _ => keeps_setRes C 1) _ (C.take hq h)

/-- A performed operation leaves the property true of the next state, a recorded fault included. -/
theorem perform_keeps {op : Op Unit} (hk : Keeps P op) {s t : State} (hs : P s)
    (h : perform op s = .next t) : P t := by
  unfold perform at h
  split at h
  · cases h
  · split at h
    · have := hk s hs
      cases ho : op s with
      | ok a u => rw [ho] at h this; cases h; exact this
      | error e u => rw [ho] at h this; cases h; exact C.fault _ this
    · cases h

/-- No command breaks a property closed under the elementary changes. -/
theorem exec_keeps (i : Instr) {s t : State} (hs : P s) (h : exec i s = .next t) : P t := by
  have hr : ∀ r, Keeps P (setRes r) := keeps_setRes C
  have hc : ∀ {op : Op Unit} (ep : Byte), Keeps P op → Keeps P (checkEp ep >>= fun _ => op) := fun ep hop =>
    .bind (keeps_checkOperand _) fun _ => hop
  have hx : ∀ {α : Type} {op : Op α} {f : α → Word}, Keeps P op →
      Keeps P (op >>= fun a => setRes (f a)) := fun hop => .bind hop fun _ => hr _
  have hw : ∀ i c, Keeps P (rmwEpr i c) := keeps_rmwEpr C.toDeviceClosed
  cases i with
  | eprRead i => exact perform_keeps C (hx (keeps_readEpr C.toDeviceClosed _)) hs h
  | eprWrite i w => exact perform_keeps C (keeps_writeEpr C.toDeviceClosed _ _) hs h
  | eprSetTxStat i st => exact perform_keeps C (hw _ _) hs h
  | eprSetRxStat i st => exact perform_keeps C (hw _ _) hs h
  | eprSetTxDtog i d => exact perform_keeps C (hw _ _) hs h
  | eprSetRxDtog i d => exact perform_keeps C (hw _ _) hs h
  | eprClrTxCtr i => exact perform_keeps C (hw _ _) hs h
  | eprClrRxCtr i => exact perform_keeps C (hw _ _) hs h
  | eprSetType i ty => exact perform_keeps C (hw _ _) hs h
  | eprSetEa i ea => exact perform_keeps C (hw _ _) hs h
  | eprMux i ctl => exact perform_keeps C (.bind (keeps_checkOperand _) fun _ => hw _ _) hs h
  | pmaAlloc d n => exact perform_keeps C (.bind (keeps_pmaAllocOp C.toDeviceClosed _ _) fun _ => hr _) hs h
  | pmaReset => exact perform_keeps C (.change fun _ hp => C.cursor _ (.inr (.inl rfl)) hp) hs h
  | btSetAddr i b a => exact perform_keeps C (keeps_btSetAddrOp C.toDeviceClosed _ _ _) hs h
  | btGetAddr i b => exact perform_keeps C (hx (keeps_btGetAddrOp C.toDeviceClosed _ _)) hs h
  | btSetCount i b n => exact perform_keeps C (keeps_btSetCountOp C.toDeviceClosed _ _ _) hs h
  | btGetCount i b => exact perform_keeps C (hx (keeps_btGetCountOp C.toDeviceClosed _ _)) hs h
  | btSetRxBufsize i b n => exact perform_keeps C (keeps_btSetRxBufsizeOp C.toDeviceClosed _ _ _) hs h
  | epAlloc ep ty => exact perform_keeps C (hc _ (hx (keeps_epAllocOp C.toDeviceClosed _ _))) hs h
  | pmaWrite o r n => exact perform_keeps C (keeps_pmaWriteOp C.toDeviceClosed _ _ _) hs h
  | pmaRead o r n => exact perform_keeps C (keeps_pmaReadOp C.toDeviceClosed _ _ _) hs h
  | pmaWriteFifo o f n => exact perform_keeps C (keeps_pmaWriteFifoOp C.toDeviceClosed _ _ _) hs h
  | pmaReadFifo o f n => exact perform_keeps C (keeps_pmaReadFifoOp C.toDeviceClosed _ _ _) hs h
  | dcdInit => exact perform_keeps C (keeps_dcdInitOp C.toDeviceClosed C.btable C.gates) hs h
  | epOpen ep ty m => exact perform_keeps C (hc _ (.bind (keeps_epOpenOp C.toDeviceClosed _ _ _) fun _ => hr _)) hs h
  | isoAlloc ep n => exact perform_keeps C (hc _ (.bind (keeps_isoAllocOp C.toDeviceClosed _ _) fun _ => hr _)) hs h
  | isoActivate ep m => exact perform_keeps C (hc _ (.bind (keeps_isoActivateOp C.toDeviceClosed _ _) fun _ => hr _)) hs h
  | epCloseAll => exact perform_keeps C (keeps_epCloseAllOp C.toDeviceClosed) hs h
  | xfer ep b n => exact perform_keeps C (hc _ (.bind (keeps_xferOp C.toDeviceClosed _ _ _ _) fun _ => hr _)) hs h
  | xferFifo ep f n => exact perform_keeps C (hc _ (.bind (keeps_xferOp C.toDeviceClosed _ _ _ _) fun _ => hr _)) hs h
  | epStall ep => exact perform_keeps C (hc _ (keeps_epStallOp C.toDeviceClosed _)) hs h
  | epClearStall ep => exact perform_keeps C (hc _ (keeps_epClearStallOp C.toDeviceClosed _)) hs h
  | setAddress a => exact perform_keeps C (keeps_writeReg C.toDeviceClosed fun _ hp => C.daddr _ hp) hs h
  | remoteWakeup =>
    exact perform_keeps C (.bind (keeps_updateCntr C.toDeviceClosed _ _) fun _ => .change fun _ hp => C.wake _ hp) hs h
  | sofEnable en => exact perform_keeps C (keeps_updateCntr C.toDeviceClosed _ _) hs h
  | connect en => exact perform_keeps C (.change fun _ hp => C.gates _ _ hp) hs h
  | irqEnable en => exact perform_keeps C (.change fun _ hp => C.gates _ _ hp) hs h
  | isrService => exact perform_keeps C (keeps_isrOp C.toDeviceClosed) hs h
  | mscInit => exact perform_keeps C (keeps_changeMsc C.toClassClosed _) hs h
  | mscDeinit => exact perform_keeps C (hr _) hs h
  | mscReset => exact perform_keeps C (keeps_changeMsc C.toClassClosed _) hs h
  | mscOpen d n => exact perform_keeps C (hx (f := id) (keeps_mscOpenOp C.toClassClosed _ _)) hs h
  | mscControl st a b =>
    exact perform_keeps C (.bind (keeps_checkOperand _) fun _ => .bind (hr _) fun _ =>
      .onlyIf (hx (f := id) (keeps_mscControlOp C.toClassClosed _ _))) hs h
  | mscXferCb ep r n => exact perform_keeps C (hc _ (keeps_mscXferCbOp C _ _)) hs h
  | asyncIoDone f v =>
    exact perform_keeps C (.bind (.peek _) fun _ => .ite (.bind (keeps_post C.toDeviceClosed _) fun _ => hr _) (hr _)) hs h
  | taskStep => exact perform_keeps C (keeps_taskOp C) hs h
  | setSense k a q => exact perform_keeps C (keeps_setSenseTo C.toClassClosed _) hs h
  | edptXfer ep b n => exact perform_keeps C (hc _ (hx (keeps_edptXferOp C.toClassClosed _ _ _))) hs h
  | edptStall ep => exact perform_keeps C (hc _ (keeps_edptStallOp C.toClassClosed _)) hs h
  | edptClearStall ep => exact perform_keeps C (hc _ (keeps_edptClearStallOp C.toClassClosed _)) hs h
  | edptStalled ep => exact perform_keeps C (hc _ (.bind (.peek _) fun _ => hr _)) hs h
  | edptReady ep => exact perform_keeps C (hc _ (.bind (.peek _) fun _ => hr _)) hs h

theorem keeps_isrTurn : Keeps P isrTurn := .bind (.peek _) fun _ => .onlyIf (keeps_isrOp C.toDeviceClosed)

theorem keeps_taskTurn : Keeps P taskTurn := .bind (.peek _) fun _ => .ite (.pure _) (keeps_taskOp C)

theorem keeps_setFifoTurn (k : Word) (f : Fifo) : Keeps P (setFifoTurn k f) := by
  unfold setFifoTurn
  split
  · next hf => exact .change fun _ hp => C.fifo _ _ (.inl hf) hp
  · exact .pure _

theorem issue_keeps {a b c : Word} {s t : State} (hs : P s) (h : issue a b c s = .next t) : P t := by
  unfold issue at h
  have hc := C.command a b c hs
  split at h
  · exact exec_keeps C _ hc h
  · exact perform_keeps C (.raise _) hc h

theorem runTurn_keeps (u : Turn) {s t : State} (hs : P s) (h : runTurn u s = .next t) : P t := by
  cases u with
  | command a b c => exact issue_keeps C hs h
  | bus r => exact perform_keeps C (keeps_busStep C.toDeviceClosed r) hs h
  | isr => exact perform_keeps C (keeps_isrTurn C) hs h
  | task => exact perform_keeps C (keeps_taskTurn C) hs h
  | ramStore a bs => exact perform_keeps C (keeps_memWrite C.toDeviceClosed _ _) hs h
  | setFifo k f => exact perform_keeps C (keeps_setFifoTurn C k f) hs h

/-- No step breaks a property closed under the elementary changes. -/
theorem step_keeps {s t : State} (hs : P s) (h : step s = .next t) : P t := by
  unfold step at h
  split at h
  · cases h
  · unfold nextTurn at h
    split at h
    · exact perform_keeps C (.ite (keeps_isrTurn C) (keeps_taskTurn C)) hs h
    · exact runTurn_keeps C _ (C.schedule _ hs) h

end

end Sys2Proof.Machine
end

