-- ==== Sys2Proof/Laws/Class.lean ====
section
/-! SUPPORT. The class machine: that it leaves `RES` to the commands (00_scope.md rule R12), the status step, and what
a SCSI command answered by the application can change (48_scsi.md). -/

namespace Sys2Proof.Machine

/-! ### `RES` -/

theorem classClosed_res (r : Word) : ClassClosed (fun s => s.res = r) where
  outputs  := fun _ h => h
  post     := fun _ _ h => h
  pma      := fun _ _ h => h
  ram      := fun _ _ h => h
  fifo     := fun _ _ _ h => h
  ctx      := fun _ _ _ h => h
  slotFree := fun _ h => h
  slotTake := fun _ _ h => h
  reopen   := fun h => h
  cursor   := fun _ _ h => h
  busTape  := fun _ h => h
  epr      := fun {s} i v h => by cases hf : s.fres <;> simpa [State.putEpr, hf] using h
  istr     := fun {s} w h => by simpa [State.writeIstr] using h
  cntr     := fun _ h => h
  daddr    := fun _ h => h
  flag     := fun _ _ h => h
  busReset := fun _ h => h
  sof      := fun _ _ h => h
  wake     := fun _ h => h
  busy     := fun _ h => h
  stalled  := fun _ h => h
  msc      := fun _ h => h
  answers  := fun _ _ h => h
  isrTape  := fun _ h => h

/-- The stage's handler and the status step leave `RES` as it is. -/
theorem mscEvent_res {ep : Byte} {n : Word} {s t : State} (h : mscEvent ep n s = .ok () t) : t.res = s.res := by
  have := keeps_mscEvent (classClosed_res s.res) ep n s rfl
  rwa [h] at this

/-- `MSC_XFER_CB` leaves 1 in `RES` where it completes (47_bot_fsm.md rule R430). -/
theorem mscXferCbOp_res {ep : Byte} {n : Word} {s t : State} (h : mscXferCbOp ep n s = .ok () t) : t.res = 1 := by
  simp only [mscXferCbOp, bind_run, setRes, change_run] at h
  exact mscEvent_res h

/-! ### The status step (47_bot_fsm.md rule R439) -/

/-- `status_step()` with nothing falling inside. -/
theorem statusStep_quiet {s : State} (h : s.CanStatus) : statusStep s = .ok () s.statusStepped := by
  obtain ⟨⟨hq, hr, hl, hw⟩, hstall, hsend⟩ := h
  simp only [statusStep, bind_run, peek_run, onlyIf_run, State.statusStepped, Bool.and_eq_true, beq_iff_eq,
    Bool.not_eq_true', id]
  split
  · rename_i hs
    rw [ite_run]
    split
    · rename_i hm
      exact edptStallOp_quiet hq hr fun _ => hstall hs.1 hs.2 hm
    · rename_i hm
      exact sendCsw_quiet hl hq hw hr (hsend hs.1 hs.2 hm)
  · rfl

/-! ### What an answered command changes (48_scsi.md rules R485 to R498) -/

/-- Only RAM, what was observed, the answers and the sense triple differ. -/
structure State.OnlyApp (s t : State) : Prop where
  rest : t = { s with
    ram := t.ram, outputs := t.outputs, answers := t.answers, draws := t.draws
    msc := { s.msc with sense := t.msc.sense } }

theorem State.OnlyApp.refl (s : State) : s.OnlyApp s := ⟨rfl⟩

theorem State.OnlyApp.trans {s t u : State} (h : s.OnlyApp t) (h' : t.OnlyApp u) : s.OnlyApp u := by
  obtain ⟨h⟩ := h
  obtain ⟨h'⟩ := h'
  constructor
  rw [h'] at *
  rw [h]

/-- The operation changes nothing else, with a value or with a fault. -/
def AppOnly {α : Type} (op : Op α) : Prop :=
  ∀ s, match op s with | .ok _ t => s.OnlyApp t | .error _ t => s.OnlyApp t

section
variable {α β : Type}

theorem AppOnly.pure (a : α) : AppOnly (pure a : Op α) := fun s => .refl s

theorem AppOnly.raise (f : Fault) : AppOnly (raise f : Op α) := fun s => .refl s

theorem AppOnly.peek (f : State → α) : AppOnly (peek f) := fun s => .refl s

theorem AppOnly.change {f : State → State} (h : ∀ s : State, s.OnlyApp (f s)) : AppOnly (change f) := fun s => h s

theorem AppOnly.bind {x : Op α} {f : α → Op β} (hx : AppOnly x) (hf : ∀ a, AppOnly (f a)) : AppOnly (x >>= f) := by
  intro s
  have h := hx s
  rw [bind_run]
  cases e : x s with
  | ok a t =>
    rw [e] at h
    have h' := hf a t
    dsimp only
    cases e' : f a t with
    | ok b u => rw [e'] at h'; exact h.trans h'
    | error b u => rw [e'] at h'; exact h.trans h'
  | error a t => rw [e] at h; exact h

theorem AppOnly.ite {c : Prop} [Decidable c] {x y : Op α} (hx : AppOnly x) (hy : AppOnly y) :
    AppOnly (if c then x else y) := by split <;> assumption

theorem AppOnly.onlyIf {b : Bool} {x : Op Unit} (hx : AppOnly x) : AppOnly (onlyIf b x) := .ite hx (.pure ())

theorem appOnly_memRead (a n : Nat) : AppOnly (memRead a n) := by
  induction n generalizing a with
  | zero => exact .pure _
  | succ n ih =>
    exact .bind (.bind (.peek _) fun _ => .ite (.pure _) (.raise _)) fun _ => .bind (ih _) fun _ => .pure _

theorem appOnly_memWrite (a : Nat) (bs : List Byte) : AppOnly (memWrite a bs) := by
  induction bs generalizing a with
  | nil => exact .pure _
  | cons b bs ih =>
    exact .bind (.bind (.peek _) fun _ => .ite (.change fun _ => ⟨rfl⟩) (.raise _)) fun _ => ih _

theorem appOnly_stagingRead (o n : Nat) : AppOnly (stagingRead o n) := .bind (.peek _) fun _ => appOnly_memRead _ _

theorem appOnly_stagingWrite (o : Nat) (bs : List Byte) : AppOnly (stagingWrite o bs) :=
  .bind (.peek _) fun _ => appOnly_memWrite _ _

theorem appOnly_setSenseTo (v : Sense) : AppOnly (setSenseTo v) := .change fun _ => ⟨rfl⟩

theorem appOnly_ask (c : AppCall) : AppOnly (ask c) := by
  refine .bind (.change fun _ => ⟨rfl⟩) fun _ => .bind ?_ fun a => .bind ?_ fun _ => .pure _
  · intro s
    unfold nextAnswer
    cases s.answers <;> exact ⟨rfl⟩
  · cases a.sense with
    | none => exact .pure _
    | some v => exact appOnly_setSenseTo v

theorem appOnly_defaultSense (v : Sense) : AppOnly (defaultSense v) :=
  .bind (.peek _) fun _ => .onlyIf (appOnly_setSenseTo v)

theorem appOnly_contract (cb : Callback) (b : Bool) : AppOnly (contract cb b) := .ite (.pure _) (.raise _)

/-- The application's fallback changes RAM, the observations, the answers and the sense, and nothing else. -/
theorem appOnly_appScsi (o : Bool) (n : Nat) : AppOnly (appScsi o n) :=
  .bind (.peek _) fun _ => .bind (appOnly_stagingRead _ _) fun _ => .bind (appOnly_ask _) fun _ =>
    .bind (appOnly_contract _ _) fun _ => .bind (.onlyIf (appOnly_stagingWrite _ _)) fun _ => .pure _

theorem appOnly_boolAnswer (b : Bool) : AppOnly (boolAnswer b) :=
  .ite (.pure _) (.bind (appOnly_defaultSense _) fun _ => .pure _)

theorem appOnly_capacityResponse (l : Byte) (f : Word → Half → List Byte) : AppOnly (capacityResponse l f) :=
  .bind (appOnly_ask _) fun _ => .ite (.bind (appOnly_defaultSense _) fun _ => .pure _)
    (.bind (appOnly_stagingWrite _ _) fun _ => .pure _)

theorem appOnly_inquiry (l : Byte) : AppOnly (inquiry l) :=
  .bind (appOnly_stagingWrite _ _) fun _ => .bind (.peek _) fun _ => .bind (appOnly_ask _) fun _ =>
    .bind (appOnly_contract _ _) fun _ => .ite (.bind (appOnly_stagingWrite _ _) fun _ => .pure _)
      (.bind (appOnly_ask _) fun _ => .bind (appOnly_stagingWrite _ _) fun _ => .pure _)

theorem appOnly_modeSense6 (l : Byte) : AppOnly (modeSense6 l) :=
  .bind (appOnly_ask _) fun _ => .bind (appOnly_stagingWrite _ _) fun _ => .pure _

theorem appOnly_requestSense (l : Byte) : AppOnly (requestSense l) :=
  .bind (.peek _) fun _ => .bind (appOnly_stagingWrite _ _) fun _ => .bind (appOnly_stagingRead _ _) fun _ =>
    .bind (appOnly_ask _) fun _ => .ite (.bind (appOnly_setSenseTo _) fun _ => .pure _)
      (.bind (appOnly_contract _ _) fun _ => .bind (appOnly_stagingWrite _ _) fun _ =>
        .bind (appOnly_setSenseTo _) fun _ => .pure _)

/-- A built-in command changes RAM, the observations, the answers and the sense, and nothing else. -/
theorem appOnly_procBuiltin : AppOnly procBuiltin := by
  have hb : ∀ c, AppOnly (do let a ← ask c; boolAnswer a.flag) := fun c =>
    .bind (appOnly_ask c) fun _ => appOnly_boolAnswer _
  exact .bind (.peek _) fun _ => .ite (hb _) <| .ite (appOnly_requestSense _) <| .ite (appOnly_inquiry _) <|
    .ite (appOnly_modeSense6 _) <| .ite (hb _) <| .ite (hb _) <|
      .ite (appOnly_capacityResponse _ _) (appOnly_capacityResponse _ _)

end

/-- What the class machine reads of the state besides those is as before. -/
theorem State.OnlyApp.calm {s t : State} (h : s.OnlyApp t) (hc : s.Calm) : t.Calm := by
  obtain ⟨h⟩ := h
  obtain ⟨⟨hb, hi⟩, hr, hl, hw⟩ := hc
  rw [h]
  exact ⟨⟨hb, hi⟩, hr, hl, hw⟩

end Sys2Proof.Machine
end

