-- ==== Sys2Proof/Tests/Slice0.lean ====
section
/-! SUPPORT. Tests: the checks of WellFormed, the decoding of every command, one step of every command against the
worked examples of the spec, and a witness for the hypotheses of every statement. Each test names the rule or the
vector of 95_test_vectors.md its expected values come from. -/

namespace Sys2Proof.Tests

set_option Elab.async false

open Sys2Proof Sys2Proof.Machine

/-! ### WellFormed: an ill-formed term for each check (rules R141, R145, R440) -/

theorem test_wf_idx_range : wellFormed 8 (.eprRead 8) = false ∧ wellFormed 4 (.btSetAddr 4 true 0) = false := by decide

theorem test_wf_idx_boundary : wellFormed 8 (.eprRead 7) = true ∧ wellFormed 4 (.eprRead 3) = true := by decide

theorem test_wf_ep_bits : wellFormed 8 (.epStall 0x10) = false ∧ wellFormed 8 (.epAlloc 0xC1 2) = false
    ∧ wellFormed 8 (.edptReady 0x20) = false := by decide

theorem test_wf_ctl_bits : wellFormed 8 (.eprMux 0 0x8000) = false ∧ wellFormed 8 (.eprMux 0 0x0020) = false
    ∧ wellFormed 8 (.eprMux 0 0x0080) = false := by decide

theorem test_wf_stage : wellFormed 8 (.mscControl 3 0 0) = false := by decide

/-! ### Decode: one word per command, written out from rules R140 and R142 -/

theorem test_decode_epr :
    decode 8 0x01010000 0 0 = .ok (.eprRead 1) ∧ decode 8 0x02010000 0x231 0 = .ok (.eprWrite 1 0x0231)
    ∧ decode 8 0x03010003 0 0 = .ok (.eprSetTxStat 1 3) ∧ decode 8 0x04000002 0 0 = .ok (.eprSetRxStat 0 2)
    ∧ decode 8 0x05010001 0 0 = .ok (.eprSetTxDtog 1 true) ∧ decode 8 0x06010000 0 0 = .ok (.eprSetRxDtog 1 false)
    ∧ decode 8 0x07010000 0 0 = .ok (.eprClrTxCtr 1) ∧ decode 8 0x08000000 0 0 = .ok (.eprClrRxCtr 0)
    ∧ decode 8 0x09020002 0 0 = .ok (.eprSetType 2 2) ∧ decode 8 0x0A03000C 0 0 = .ok (.eprSetEa 3 12)
    ∧ decode 8 0x0B001E1E 0 0 = .ok (.eprMux 0 0x1E1E) := ⟨rfl, rfl, rfl, rfl, rfl, rfl, rfl, rfl, rfl, rfl, rfl⟩

theorem test_decode_pma :
    decode 8 0x100100C8 0 0 = .ok (.pmaAlloc true 200) ∧ decode 8 0x11000000 0 0 = .ok .pmaReset
    ∧ decode 8 0x12010000 0x80 0 = .ok (.btSetAddr 1 false 0x80) ∧ decode 8 0x13010001 0 0 = .ok (.btGetAddr 1 true)
    ∧ decode 8 0x14010000 0x40 0 = .ok (.btSetCount 1 false 0x40)
    ∧ decode 8 0x15010001 0 0 = .ok (.btGetCount 1 true)
    ∧ decode 8 0x16000001 0x40 0 = .ok (.btSetRxBufsize 0 true 64)
    ∧ decode 8 0x17810002 0 0 = .ok (.epAlloc 0x81 2) := ⟨rfl, rfl, rfl, rfl, rfl, rfl, rfl, rfl⟩

theorem test_decode_copy :
    decode 8 0x20000080 0x20000000 3 = .ok (.pmaWrite 0x80 0x20000000 3)
    ∧ decode 8 0x21000040 0x20000010 5 = .ok (.pmaRead 0x40 0x20000010 5)
    ∧ decode 8 0x22000090 7 3 = .ok (.pmaWriteFifo 0x90 7 3)
    ∧ decode 8 0x23000040 7 3 = .ok (.pmaReadFifo 0x40 7 3) := ⟨rfl, rfl, rfl, rfl⟩

theorem test_decode_dcd :
    decode 8 0x30000000 0 0 = .ok .dcdInit ∧ decode 8 0x31810002 0x40 0 = .ok (.epOpen 0x81 2 64)
    ∧ decode 8 0x32820000 100 0 = .ok (.isoAlloc 0x82 100) ∧ decode 8 0x33820000 100 0 = .ok (.isoActivate 0x82 100)
    ∧ decode 8 0x34000000 0 0 = .ok .epCloseAll ∧ decode 8 0x35010000 0x20000100 31 = .ok (.xfer 1 0x20000100 31)
    ∧ decode 8 0x36820000 7 3 = .ok (.xferFifo 0x82 7 3) ∧ decode 8 0x37810000 0 0 = .ok (.epStall 0x81)
    ∧ decode 8 0x38810000 0 0 = .ok (.epClearStall 0x81) ∧ decode 8 0x39000005 0 0 = .ok (.setAddress 5)
    ∧ decode 8 0x3A000000 0 0 = .ok .remoteWakeup ∧ decode 8 0x3B010000 0 0 = .ok (.sofEnable true)
    ∧ decode 8 0x3C010000 0 0 = .ok (.connect true) ∧ decode 8 0x3D000000 0 0 = .ok (.irqEnable false) :=
  ⟨rfl, rfl, rfl, rfl, rfl, rfl, rfl, rfl, rfl, rfl, rfl, rfl, rfl, rfl⟩

theorem test_decode_class :
    decode 8 0x40000000 0 0 = .ok .isrService ∧ decode 8 0x50000000 0 0 = .ok .mscInit
    ∧ decode 8 0x51000000 0 0 = .ok .mscDeinit ∧ decode 8 0x52000000 0 0 = .ok .mscReset
    ∧ decode 8 0x53000000 0x20001000 32 = .ok (.mscOpen 0x20001000 32)
    ∧ decode 8 0x54000001 0xFEA1 0x10000 = .ok (.mscControl 1 0xFEA1 0x10000)
    ∧ decode 8 0x55810000 0 13 = .ok (.mscXferCb 0x81 0 13) ∧ decode 8 0x56010000 512 0 = .ok (.asyncIoDone true 512)
    ∧ decode 8 0x57000000 0 0 = .ok .taskStep ∧ decode 8 0x58000000 0x00002707 0 = .ok (.setSense 7 0x27 0)
    ∧ decode 8 0x5A810000 0x20000000 13 = .ok (.edptXfer 0x81 0x20000000 13)
    ∧ decode 8 0x5B810000 0 0 = .ok (.edptStall 0x81) ∧ decode 8 0x5C810000 0 0 = .ok (.edptClearStall 0x81)
    ∧ decode 8 0x5D810000 0 0 = .ok (.edptStalled 0x81) ∧ decode 8 0x5E810000 0 0 = .ok (.edptReady 0x81) :=
  ⟨rfl, rfl, rfl, rfl, rfl, rfl, rfl, rfl, rfl, rfl, rfl, rfl, rfl, rfl, rfl⟩

/-- Each rejection of the decoder by name (rules R141, R143, R244, R247, R281, R304, R440). -/
theorem test_decode_rejects :
    decode 8 0x0C000000 0 0 = .error .unknownOpcode ∧ decode 8 0x01110000 0 0 = .error .epIdxHighBits
    ∧ decode 8 0x01080000 0 0 = .error .epIdxRange ∧ decode 8 0x37110000 0 0 = .error .epAddrBits
    ∧ decode 8 0x3B020000 0 0 = .error .flagBits ∧ decode 8 0x30010000 0 0 = .error .epaUsed
    ∧ decode 8 0x39000080 0 0 = .error .immBits ∧ decode 8 0x14010000 0x400 0 = .error .arg0Bits
    ∧ decode 8 0x31810002 0x800 0 = .error .arg0Bits ∧ decode 8 0x20000080 0 0x10002 = .error .arg1Bits
    ∧ decode 8 0x54000003 0 0 = .error .controlStage := ⟨rfl, rfl, rfl, rfl, rfl, rfl, rfl, rfl, rfl, rfl, rfl⟩

/-- The host's numbering: the first word is bits 31:0 of the number, `ARG1` bits 95:64. -/
theorem test_decode_table_word :
    decodeTableWord 96 0x000000032000000020000080 = some (.pmaWrite 0x80 0x20000000 3)
    ∧ decodeTableWord 32 0x0B001E1E = some (.eprMux 0 0x1E1E) := ⟨rfl, rfl⟩

/-! ### Small states -/

/-- Did the step end in a next state of which `p` holds? -/
def after (o : Host.Outcome State Fault Refusal) (p : State → Bool) : Bool :=
  match o with
  | .next t => p t
  | _       => false

/-- `n` bytes of packet memory from `a` up. -/
def pmaAt (s : State) (a n : Nat) : List Byte := Memory.readBytes s.pma a n

/-- `n` bytes of RAM from `a` up. -/
def ramAt (s : State) (a n : Nat) : List Byte := Memory.readBytes s.ram a n

/-- After `DCD_INIT` (vector V44-1) and `SET_ADDRESS 5` (V44-22). -/
def dev : State :=
  { State.reset with
    cntr := 0x9D00, daddr := 0x0085, epr := #v[0x2220, 0, 0, 0, 0, 0, 0, 0]
    slots := #v[⟨0, 0, true, true⟩, .free, .free, .free, .free, .free, .free, .free], pmaCursor := 192
    xc := ((Vector.replicate 32 XferCtx.zero).setIfInBounds 0 ⟨0, none, 0, 0, 64, 0, false⟩).setIfInBounds 1
      ⟨0, none, 0, 0, 64, 0, false⟩
    pullup := true, irqEn := true, pma := [(0, 0x80), (4, 0x40), (7, 0x84)] }

/-- The register `i` at `v`, with the report fields of `ISTR` (10_state.md rule R48). -/
def withReg (s : State) (i : Nat) (v : Half) : State := s.putEpr true i v

/-- With endpoint 1 open for bulk in both directions (vectors V44-2, V44-3), claimed by the class machine. -/
def msd : State :=
  { dev with
    epr := #v[0x2220, 0x2221, 0, 0, 0, 0, 0, 0]
    slots := #v[⟨0, 0, true, true⟩, ⟨1, 2, true, true⟩, .free, .free, .free, .free, .free, .free], pmaCursor := 320
    xc := (dev.xc.setIfInBounds 2 ⟨0x20000100, none, 0, 0, 64, 1, false⟩).setIfInBounds 3
      ⟨0x20000200, none, 0, 0, 64, 1, false⟩
    pma := [(0, 0x80), (4, 0x40), (7, 0x84), (8, 0xC0), (13, 0x01)]
    msc := { Msc.cleared with epIn := 0x81, epOut := 0x01 } }

/-- With `ISO_ALLOC 0x82, 100` and `ISO_ACTIVATE 0x82, 100` done (vectors V44-8, V44-9). -/
def iso : State :=
  { dev with
    epr := #v[0x2220, 0x4402, 0, 0, 0, 0, 0, 0]
    slots := #v[⟨0, 0, true, true⟩, ⟨2, 1, false, true⟩, .free, .free, .free, .free, .free, .free], pmaCursor := 448
    xc := dev.xc.setIfInBounds 5 ⟨0, none, 0, 0, 100, 1, false⟩
    pma := [(0, 0x80), (4, 0x40), (7, 0x84), (8, 0xC0), (12, 0x40), (13, 0x01)]
    fifos := [(7, ⟨8, [1, 2, 3]⟩)] }

/-- The same device on a 32-bit bus (00_scope.md rule R8). -/
def wide (s : State) : State := { s with cfg := { Config.default with bus32 := true } }

/-- The state with a change of the class record. -/
def withMsc (s : State) (f : Msc → Msc) : State := s.updMsc f

/-! ### One step of each command, against 95_test_vectors.md -/

theorem test_epr_read : after (exec (.eprRead 1) (withReg msd 1 0x0221)) (fun t => t.res == 0x0221) = true := by
  decide +kernel -- V41-1

theorem test_epr_write : after (exec (.eprWrite 1 0x0231) (withReg msd 1 0x0231)) (fun t => t.eprAt 1 == 0x0201) = true := by
  decide +kernel -- V41-2

theorem test_epr_set_tx_stat :
    after (exec (.eprSetTxStat 1 1) (withReg msd 1 0x0231)) (fun t => t.eprAt 1 == 0x0211) = true := by
  decide +kernel -- V41-5

/-- V41-24: an OUT transaction falls between the read and the write. -/
theorem test_epr_set_tx_stat_race :
    after (exec (.eprSetTxStat 1 3)
      { withReg msd 1 0x3221 with
        pma := msd.pma ++ [(15, 0x40)], busTape := [[], [.out 5 1 .data0 (List.replicate 31 1)]] })
      (fun t => t.eprAt 1 == 0xE231) = true := by decide +kernel

theorem test_epr_set_rx_stat : after (exec (.eprSetRxStat 0 3) (withReg dev 0 0x2200)) (fun t => t.eprAt 0 == 0x3200) = true := by
  decide +kernel -- V41-6

theorem test_epr_set_tx_dtog : after (exec (.eprSetTxDtog 1 true) (withReg msd 1 0x0261)) (fun t => t.eprAt 1 == 0x0261) = true := by
  decide +kernel -- V41-8

theorem test_epr_set_rx_dtog : after (exec (.eprSetRxDtog 1 true) (withReg msd 1 0x0221)) (fun t => t.eprAt 1 == 0x4221) = true := by
  decide +kernel -- V41-9

theorem test_epr_clr_tx_ctr : after (exec (.eprClrTxCtr 1) (withReg msd 1 0x82A1)) (fun t => t.eprAt 1 == 0x8221) = true := by
  decide +kernel -- V41-11

theorem test_epr_clr_rx_ctr : after (exec (.eprClrRxCtr 0) (withReg dev 0 0xAA00)) (fun t => t.eprAt 0 == 0x2A00) = true := by
  decide +kernel -- V41-12

theorem test_epr_set_type : after (exec (.eprSetType 2 2) (withReg dev 2 0x0002)) (fun t => t.eprAt 2 == 0x0402) = true := by
  decide +kernel -- V41-13

theorem test_epr_set_ea : after (exec (.eprSetEa 3 3) dev) (fun t => t.eprAt 3 == 0x0003) = true := by
  decide +kernel -- V41-15

theorem test_epr_mux : after (exec (.eprMux 0 0x1E1E) (withReg dev 0 0x3230)) (fun t => t.eprAt 0 == 0x6260) = true := by
  decide +kernel -- V41-16

theorem test_pma_alloc :
    after (exec (.pmaAlloc true 200) { dev with pmaCursor := 128, cfg := { Config.default with pmaSize := 1024 } })
      (fun t => t.res == 0x01600080 && t.pmaCursor == 576) = true := by decide +kernel -- V42-3

theorem test_pma_alloc_exhausted :
    after (exec (.pmaAlloc false 400) dev) (fun t => t == { dev with fault := some (.pmaExhausted 400) }) = true := by
  decide +kernel -- V42-9

theorem test_pma_reset : after (exec .pmaReset dev) (fun t => t.pmaCursor == 64) = true := by decide +kernel -- V42-1

theorem test_bt_set_addr : after (exec (.btSetAddr 1 false 0x80) dev) (fun t => pmaAt t 8 2 == [0x80, 0]) = true := by
  decide +kernel -- V42-14

theorem test_bt_get_addr : after (exec (.btGetAddr 1 true) msd) (fun t => t.res == 0x100) = true := by
  decide +kernel -- V44-3: E1.ADDR(1) = 256

theorem test_bt_set_count :
    after (exec (.btSetCount 1 true 5) { msd with pma := msd.pma ++ [(15, 0x84)] })
      (fun t => pmaAt t 14 2 == [0x05, 0x84]) = true := by decide +kernel -- V42-18

theorem test_bt_get_count :
    after (exec (.btGetCount 1 true) { msd with pma := msd.pma ++ [(14, 0x12), (15, 0x88)] }) (fun t => t.res == 18) = true := by
  decide +kernel -- V42-20

theorem test_bt_set_rx_bufsize : after (exec (.btSetRxBufsize 1 true 100) dev) (fun t => pmaAt t 14 2 == [0, 0x8C]) = true := by
  decide +kernel -- V42-21

theorem test_ep_alloc : after (exec (.epAlloc 0x81 3) msd) (fun t => t.res == 2 && t.slotAt 2 == ⟨1, 3, false, true⟩) = true := by
  decide +kernel -- rule R251, as V42-25

theorem test_pma_write :
    after (exec (.pmaWrite 0x80 0x20000000 5)
      { wide dev with ram := [(0x20000000, 0x11), (0x20000001, 0x22), (0x20000002, 0x33), (0x20000003, 0x44),
          (0x20000004, 0x55)] })
      (fun t => pmaAt t 0x80 8 == [0x11, 0x22, 0x33, 0x44, 0x55, 0, 0, 0]) = true := by decide +kernel -- V43-2

theorem test_pma_write_range :
    after (exec (.pmaWrite 510 0x20000000 3) dev) (fun t => t == { dev with fault := some (.pmaRange 513) }) = true := by
  decide +kernel -- V43-5

theorem test_pma_read :
    after (exec (.pmaRead 0x40 0x20000010 3)
      { dev with pma := dev.pma ++ [(0x40, 0xAA), (0x41, 0xBB), (0x42, 0xCC), (0x43, 0xDD)], ram := [(0x20000013, 0x77)] })
      (fun t => ramAt t 0x20000010 4 == [0xAA, 0xBB, 0xCC, 0x77]) = true := by decide +kernel -- V43-3

theorem test_pma_write_fifo :
    after (exec (.pmaWriteFifo 0x90 7 3) iso) (fun t => pmaAt t 0x90 4 == [1, 2, 3, 0] && (t.fifo 7).q == []) = true := by
  decide +kernel -- V43-10

theorem test_pma_read_fifo :
    after (exec (.pmaReadFifo 0x40 7 3)
      { dev with pma := dev.pma ++ [(0x40, 0xAA), (0x41, 0xBB), (0x42, 0xCC), (0x43, 0xDD)], fifos := [(7, ⟨8, []⟩)] })
      (fun t => (t.fifo 7).q == [0xAA, 0xBB, 0xCC]) = true := by decide +kernel -- V43-12

theorem test_dcd_init :
    after (exec .dcdInit { msd with istr := 0x0200, evq := [.suspend] })
      (fun t => t.cntr == 0x9D00 && t.istr == 0 && t.eprAt 0 == 0x2220 && t.eprAt 1 == 0 && t.daddr == 0x80
        && t.pmaCursor == 192 && t.slotAt 0 == ⟨0, 0, true, true⟩ && t.slotAt 1 == .free
        && pmaAt t 0 8 == [0x80, 0, 0, 0, 0x40, 0, 0, 0x84] && t.evq == [.suspend]) = true := by decide +kernel -- V44-1, V70-3

theorem test_ep_open :
    after (exec (.epOpen 0x81 2 64) dev)
      (fun t => t.slotAt 1 == ⟨1, 2, false, true⟩ && pmaAt t 8 2 == [192, 0] && t.eprAt 1 == 0x0221
        && t.pmaCursor == 256 && t.res == 1 && (t.ctx 1 .inn).mps == 64 && (t.ctx 1 .inn).epIdx == 1) = true := by
  decide +kernel -- V44-2

theorem test_ep_open_exhausted :
    after (exec (.epOpen 0x81 2 1023) dev)
      (fun t => t == { dev with slots := dev.slots.setIfInBounds 1 ⟨1, 2, false, true⟩
                                fault := some (.pmaExhausted 1023) }) = true := by decide +kernel -- V60-14

theorem test_iso_alloc :
    after (exec (.isoAlloc 0x82 100) dev)
      (fun t => t.slotAt 1 == ⟨2, 1, false, true⟩ && t.pmaCursor == 448
        && pmaAt t 8 8 == [0xC0, 0, 0, 0, 0x40, 1, 0, 0]) = true := by decide +kernel -- V44-8

theorem test_iso_activate :
    after (exec (.isoActivate 0x82 100) (withReg iso 1 0)) (fun t => t.eprAt 1 == 0x4402 && (t.ctx 2 .inn).mps == 100) = true := by
  decide +kernel -- V44-9

theorem test_ep_close_all :
    after (exec .epCloseAll (withReg msd 1 0xF2F1))
      (fun t => t.eprAt 1 == 0 && t.eprAt 0 == 0x2220 && t.pmaCursor == 192 && t.slotAt 1 == .free) = true := by
  decide +kernel -- V44-7

theorem test_xfer_out :
    after (exec (.xfer 0x01 0x20000100 31) msd) (fun t => t.eprAt 1 == 0x3221 && pmaAt t 14 2 == [0, 0x40]) = true := by
  decide +kernel -- V44-11

theorem test_xfer_in :
    after (exec (.xfer 0x81 0x20000200 3) { msd with ram := [(0x20000200, 7), (0x20000201, 8), (0x20000202, 9)] })
      (fun t => t.eprAt 1 == 0x2231 && pmaAt t 192 4 == [7, 8, 9, 0] && pmaAt t 10 2 == [3, 0]
        && (t.ctx 1 .inn).queuedLen == 3) = true := by decide +kernel -- V44-12, with 3 bytes

theorem test_xfer_fifo :
    after (exec (.xferFifo 0x82 7 3) iso)
      (fun t => t.eprAt 1 == 0x4432 && pmaAt t 320 4 == [1, 2, 3, 0] && pmaAt t 14 2 == [3, 0]
        && (t.ctx 2 .inn).isoInSending && (t.fifo 7).q == []) = true := by decide +kernel -- V44-10

theorem test_ep_stall : after (exec (.epStall 0x01) (withReg msd 1 0x3221)) (fun t => t.eprAt 1 == 0x1221) = true := by
  decide +kernel -- V44-18

theorem test_ep_stall_not_open :
    after (exec (.epStall 0x83) msd) (fun t => t == { msd with fault := some (.epNotOpen 0x83) }) = true := by
  decide +kernel -- V44-21

theorem test_ep_clear_stall : after (exec (.epClearStall 0x81) (withReg msd 1 0x3251)) (fun t => t.eprAt 1 == 0x3221) = true := by
  decide +kernel -- V44-19

theorem test_set_address : after (exec (.setAddress 5) { dev with daddr := 0x80 }) (fun t => t.daddr == 0x85) = true := by
  decide +kernel -- V44-22

theorem test_remote_wakeup : after (exec .remoteWakeup dev) (fun t => t.cntr == 0x9D10 && t.remoteWakeCd == 4) = true := by
  decide +kernel -- V44-24

theorem test_sof_enable : after (exec (.sofEnable true) dev) (fun t => t.cntr == 0x9F00) = true := by decide +kernel -- V44-25

theorem test_connect : after (exec (.connect false) dev) (fun t => t == { dev with pullup := false }) = true := by
  decide +kernel -- V44-27

theorem test_irq_enable : after (exec (.irqEnable false) dev) (fun t => t == { dev with irqEn := false }) = true := by
  decide +kernel -- V44-28

/-- V46-1: SUSP is serviced, SOF is masked and stays. -/
theorem test_isr_susp :
    after (exec .isrService { dev with istr := 0x0A00 })
      (fun t => t.cntr == 0x9D0C && t.istr == 0x0200 && t.evq == [.suspend]) = true := by decide +kernel

/-- V46-5, with 3 bytes. -/
theorem test_isr_rx :
    after (exec .isrService
      { withReg (msd.updCtx 1 .out fun x => { x with totalLen := 31 }) 1 0xE221 with
        pma := msd.pma ++ [(14, 3), (15, 0x40), (256, 7), (257, 8), (258, 9)] })
      (fun t => t.eprAt 1 == 0x6221 && ramAt t 0x20000100 3 == [7, 8, 9] && t.evq == [.xferComplete 1 3]) = true := by
  decide +kernel

/-! ### Bus steps -/

/-- V45-1, with 3 bytes. -/
theorem test_bus_out :
    after (runTurn (.bus (.out 5 1 .data0 [7, 8, 9])) { withReg msd 1 0x3221 with pma := msd.pma ++ [(15, 0x40)] })
      (fun t => pmaAt t 256 3 == [7, 8, 9] && pmaAt t 14 2 == [3, 0x40] && t.eprAt 1 == 0xE221 && t.istr == 0x8011
        && t.outputs == [.bus .ack]) = true := by decide +kernel

/-- V45-5, with 3 bytes. -/
theorem test_bus_in :
    after (runTurn (.bus (.inTok 5 1)) { withReg msd 1 0x3231 with pma := [(0, 0x80), (4, 0x40), (7, 0x84), (8, 0xC0),
        (10, 3), (13, 1), (192, 7), (193, 8)] })
      (fun t => t.eprAt 1 == 0x32E1 && t.istr == 0x8001 && t.outputs == [.bus (.data .data0 [7, 8, 0])]) = true := by
  decide +kernel

/-- V45-9. -/
theorem test_bus_setup :
    after (runTurn (.bus (.setup 5 0 [1, 2, 3, 4, 5, 6, 7, 8])) dev)
      (fun t => pmaAt t 64 8 == [1, 2, 3, 4, 5, 6, 7, 8] && pmaAt t 6 2 == [8, 0x84] && t.eprAt 0 == 0xEA20) = true := by
  decide +kernel

/-! ### The class machine and SCSI -/

/-- The state with an answer of the application listed, `MSCBUF` holding a CBW of `n` bytes of `OPC` `op`. -/
def withCbw (s : State) (total flags op count : Byte) (answers : List Answer) : State :=
  { s with
    answers := answers
    ram := [(0x20000000, 0x55), (0x20000001, 0x53), (0x20000002, 0x42), (0x20000003, 0x43), (0x20000004, 1)]
      ++ (if total = 0 then [] else [(0x20000008, total)]) ++ (if flags = 0 then [] else [(0x2000000C, flags)])
      ++ [(0x2000000E, 10)] ++ (if op = 0 then [] else [(0x2000000F, op)])
      ++ (if count = 0 then [] else [(0x20000017, count)]) }

/-- An answer of the application. -/
def ans (flag : Bool) (ret : Word) (size : Half) (data : List Byte) : Answer := ⟨none, flag, ret, size, false, data⟩

theorem test_msc_init :
    after (exec .mscInit (withMsc msd fun m => { m with stage := .data, sense := ⟨5, 0x20, 0⟩ }))
      (fun t => t == { msd with msc := Msc.cleared }) = true := by decide +kernel -- V47-1

theorem test_msc_deinit : after (exec .mscDeinit msd) (fun t => t == { msd with res := 1 }) = true := by decide +kernel -- V47-3

theorem test_msc_reset :
    after (exec .mscReset (withMsc msd fun m => { m with stage := .data, pendingIo := true }))
      (fun t => t == { msd with msc := Msc.cleared }) = true := by decide +kernel -- V47-4

/-- The interface descriptor of V47-6 at `0x20001000`, with the attributes of its second endpoint. -/
def descriptor (attr : Byte) : List Host.Cell :=
  [(0x20001000, 9), (0x20001001, 4), (0x20001004, 2), (0x20001005, 8), (0x20001006, 6), (0x20001007, 0x50),
    (0x20001009, 7), (0x2000100A, 5), (0x2000100B, 0x81), (0x2000100C, 2), (0x2000100D, 0x40),
    (0x20001010, 7), (0x20001011, 5), (0x20001012, 1), (0x20001013, attr), (0x20001014, 0x40)]

theorem test_msc_open :
    after (exec (.mscOpen 0x20001000 32) { dev with ram := descriptor 2 })
      (fun t => t.res == 23 && t.eprAt 1 == 0x3221 && pmaAt t 8 8 == [192, 0, 0, 0, 0, 1, 0, 0x40]
        && t.pmaCursor == 320 && t.msc.epIn == 0x81 && t.msc.epOut == 0x01 && t.busyAt 0x01) = true := by
  decide +kernel -- V47-6

theorem test_msc_open_not_bulk :
    after (exec (.mscOpen 0x20001000 32) { dev with ram := descriptor 3 })
      (fun t => t.res == 0 && t.eprAt 1 == 0x0221 && t.pmaCursor == 256 && t.msc.epIn == 0x81 && t.msc.epOut == 0) = true := by
  decide +kernel -- V47-10

/-- The state V47-7 starts in. -/
def csStalled : State :=
  withMsc (((withReg msd 1 0x6251).putStalled 0x81 true).putBusy 0x81 true) fun m => { m with
    stage := .status, xferredLen := 16, csw := ⟨0x53425355, 0x11223344, 0, 0⟩
    cbw := { m.cbw with totalBytes := 64, dir := 0x80, tag := 0x11223344 } }

theorem test_msc_control_clear_feature :
    after (exec (.mscControl 0 0x00000102 0x00000081) csStalled)
      (fun t => t.eprAt 1 == 0x6231 && t.res == 1 && t.msc.stage == .statusSent && t.busyAt 0x81
        && ramAt t 0x20000000 13 == [0x55, 0x53, 0x42, 0x53, 0x44, 0x33, 0x22, 0x11, 0x30, 0, 0, 0, 0]) = true := by
  decide +kernel -- V47-7

theorem test_msc_control_get_max_lun :
    after (exec (.mscControl 0 0x0000FEA1 0x00010000) msd)
      (fun t => t == { msd with res := 1, outputs := [.ctrlReply [0]] }) = true := by decide +kernel -- V47-26

theorem test_msc_xfer_cb :
    after (exec (.mscXferCb 0x81 1 13) (withMsc msd fun m => { m with stage := .statusSent }))
      (fun t => t.res == 1 && t.msc.stage == .cmd && t.busyAt 0x01 && t.eprAt 1 == 0x3221
        && pmaAt t 14 2 == [0, 0x40]) = true := by decide +kernel -- V47-16

/-- V47-11: a CBW of 30 bytes. -/
theorem test_msc_xfer_cb_invalid_cbw :
    after (exec (.mscXferCb 0x01 0 30) (withReg msd 1 0x6221))
      (fun t => t.eprAt 1 == 0x5211 && t.msc.stage == .needReset && t.stalledAt 0x01 && t.stalledAt 0x81) = true := by
  decide +kernel

theorem test_async_io_done :
    after (exec (.asyncIoDone true 512) (withMsc msd fun m => { m with pendingIo := true }))
      (fun t => t.res == 1 && t.evq == [.deferred 512]) = true := by decide +kernel -- V48-15

/-- V47-2. -/
theorem test_task_step_to_core :
    after (exec .taskStep { (msd.putBusy 0x01 true) with msc := Msc.cleared, evq := [.xferComplete 1 31] })
      (fun t => t.busyAt 0x01 == false && t.res == 1 && t.outputs == [.core (.xferComplete 1 31)]) = true := by
  decide +kernel

theorem test_set_sense : after (exec (.setSense 7 0x27 0) msd) (fun t => t.msc.sense == ⟨7, 0x27, 0⟩) = true := by
  decide +kernel -- V48-26

theorem test_edpt_xfer :
    after (exec (.edptXfer 0x81 0x20000000 13) (withReg msd 1 0x3221))
      (fun t => t.eprAt 1 == 0x3231 && t.busyAt 0x81 && t.res == 1 && pmaAt t 10 2 == [13, 0]) = true := by
  decide +kernel -- V47-18

theorem test_edpt_xfer_busy : after (exec (.edptXfer 0x81 0x20000000 13) (msd.putBusy 0x81 true))
      (fun t => t == { msd.putBusy 0x81 true with res := 0 }) = true := by decide +kernel -- V47-19

theorem test_edpt_stall :
    after (exec (.edptStall 0x81) (withReg msd 1 0x3231))
      (fun t => t.eprAt 1 == 0x3211 && t.stalledAt 0x81 && t.busyAt 0x81) = true := by decide +kernel -- V47-20

theorem test_edpt_clear_stall :
    after (exec (.edptClearStall 0x81) (((withReg msd 1 0x3211).putStalled 0x81 true).putBusy 0x81 true))
      (fun t => t.eprAt 1 == 0x3221 && !t.stalledAt 0x81 && !t.busyAt 0x81) = true := by decide +kernel -- V47-23

theorem test_edpt_clear_stall_not_stalled :
    after (exec (.edptClearStall 0x81) (withReg msd 1 0x3261)) (fun t => t.eprAt 1 == 0x3261) = true := by
  decide +kernel -- V47-24

theorem test_edpt_stalled : after (exec (.edptStalled 0x81) (msd.putStalled 0x81 true)) (fun t => t.res == 1) = true := by
  decide +kernel -- V47-22

theorem test_edpt_ready : after (exec (.edptReady 0x01) (msd.putBusy 0x01 true)) (fun t => t.res == 0) = true := by
  decide +kernel -- V47-25

/-- V47-40: a zero count, the data phase failed and IN stalled. -/
theorem test_scsi_read10_zero_count :
    after (exec (.mscXferCb 0x01 0 31) (withCbw (withReg msd 1 0x6221) 0xC8 0x80 0x28 0 []))
      (fun t => t.eprAt 1 == 0x6211 && t.msc.stage == .status && t.msc.sense == ⟨5, 0x20, 0⟩
        && t.msc.csw.dataResidue == 200) = true := by decide +kernel

/-- V48-3. -/
theorem test_scsi_read_capacity :
    after (exec (.mscXferCb 0x01 0 31) (withCbw (withReg msd 1 0x6221) 8 0x80 0x25 0 [ans false 0x2000 512 []]))
      (fun t => pmaAt t 192 8 == [0, 0, 0x1F, 0xFF, 0, 0, 2, 0] && t.eprAt 1 == 0x6231) = true := by decide +kernel

/-- Rules R9, R104: two abutting ranges together hold `MSCBUF`; with a byte between them they do not. -/
theorem test_staging_abutting :
    { Config.default with ramMap := [⟨0x20000100, 0x1000⟩, ⟨0x20000000, 0x100⟩] }.legal = true
    ∧ { Config.default with ramMap := [⟨0x20000101, 0x1000⟩, ⟨0x20000000, 0x100⟩] }.legal = false := by decide +kernel

/-- Rules R485, R497: the callback is given the 18 staged bytes, and the sense is cleared. -/
theorem test_scsi_request_sense :
    after (exec (.mscXferCb 0x01 0 31)
      (withMsc (withCbw (withReg msd 1 0x6221) 18 0x80 0x03 0 [⟨none, false, 0, 0, true, []⟩]) fun m =>
        { m with sense := ⟨2, 0x3A, 0⟩ }))
      (fun t => t.msc.sense == ⟨0, 0, 0⟩ && pmaAt t 192 18 == [0xF0, 0, 2, 0, 0, 0, 0, 0x0A, 0, 0, 0, 0, 0x3A, 0, 0, 0, 0, 0]
        && (match t.outputs with
            | [.app (.requestSense 0 buf 512)] => buf.take 14 == [0xF0, 0, 2, 0, 0, 0, 0, 0x0A, 0, 0, 0, 0, 0x3A, 0]
            | _ => false)) = true := by decide +kernel

/-- Rule R451: TASK performs `MSC_XFER_CB` for a completion of the class machine. -/
theorem test_task_step_msc :
    after (exec .taskStep { (withMsc (msd.putBusy 0x81 true) fun m => { m with stage := .statusSent }) with
        evq := [.xferComplete 0x81 13] })
      (fun t => t.res == 1 && t.msc.stage == .cmd && !t.busyAt 0x81 && t.busyAt 0x01) = true := by decide +kernel

/-! ### Witnesses: states and operands that meet the hypotheses of each statement

The checks below decide the hypotheses that are structures; each comes with its soundness. -/

theorem ready_of {s : State} (h : s.fault = none ∧ s.cfg.legal = true) : s.Ready := ⟨h.1, h.2⟩

/-- What most statements ask of a state. -/
def Base (s : State) : Prop :=
  s.Ready ∧ s.Quiet ∧ s.busTape = [] ∧ Memory.wf s.pma ∧ Memory.wf s.ram ∧ s.Running

theorem base_of {s : State} (h : (s.fault = none ∧ s.cfg.legal = true) ∧ (s.busTape = [] ∧ s.isrTape = [])
    ∧ Memory.wf s.pma ∧ Memory.wf s.ram ∧ s.fres = false) : Base s :=
  ⟨⟨h.1.1, h.1.2⟩, ⟨h.2.1.1, h.2.1.2⟩, h.2.1.1, h.2.2.1, h.2.2.2.1, h.2.2.2.2⟩

theorem room_of {s : State} (h : s.evq.length < s.cfg.evqDepth) : s.Room := h

theorem noRoom_of {s : State} (h : s.cfg.evqDepth ≤ s.evq.length) : ¬ s.Room := fun h' => by
  unfold State.Room at h'; omega

theorem isOpened_of {s : State} {ep : Byte} (h : s.opened (epNum ep) (epDir ep) = true) : s.isOpened ep := h

theorem notOpened_of {s : State} {ep : Byte} (h : s.opened (epNum ep) (epDir ep) = false) : ¬ s.isOpened ep :=
  fun h' => by unfold State.isOpened at h'; simp [h] at h'

theorem mapped_of {c : Config} {a n : Nat} (h : (List.range n).all (fun k => Config.mapped c (a + k)) = true) :
    Config.MappedRange c a n := fun k hk => by
  simpa using List.all_eq_true.1 h k (List.mem_range.2 hk)

/-- `State.FirstSlot`, decided. -/
def firstSlotB (s : State) (ep : Byte) (ty : BitVec 2) (i : Nat) : Bool :=
  let f := fun j => (s.slotAt j).isOpen (epNum ep) (epDir ep) ty || (s.slotAt j).fits (epNum ep) (epDir ep) ty
  decide (i < s.cfg.nEp) && f i && (List.range i).all fun j => !f j

theorem firstSlot_of {s : State} {ep : Byte} {ty : BitVec 2} {i : Nat} (h : firstSlotB s ep ty i = true) :
    s.FirstSlot ep ty i := by
  simp only [firstSlotB, Bool.and_eq_true, decide_eq_true_eq, Bool.or_eq_true] at h
  refine ⟨h.1.1, h.1.2, fun j hj => ?_⟩
  have := List.all_eq_true.1 h.2 j (List.mem_range.2 hj)
  simpa using this

theorem canOpen_of {s : State} {ep : Byte} {ty : BitVec 2} {mps : BitVec 11} {i : Nat}
    (h : firstSlotB s ep ty i = true)
    (h' : mps.toNat ≤ 1024 ∧ s.pmaCursor + aligned mps.toNat ≤ s.cfg.pmaSize
      ∧ (s.cfg.bus32 = false ∨ s.pmaCursor % 4 = 0)) : s.CanOpen ep ty mps i :=
  ⟨firstSlot_of h, h'.1, h'.2.1, fun hb => h'.2.2.resolve_left (by simp [hb])⟩

/-- `State.CanSend`, decided. -/
def canSendB (s : State) (n : BitVec 4) : Bool :=
  let x := s.ctx n .inn
  let i := x.epIdx.toNat
  let a := (s.btAddrOf i (txBuf (s.eprAt i))).toNat
  decide (i < s.cfg.nEp) && decide (a % Config.pmaWidth s.cfg = 0)
    && decide (a + roundUp x.packetLen (Config.pmaWidth s.cfg) ≤ s.cfg.pmaSize)
    && (match x.ff with
        | none   => (List.range x.packetLen).all fun k => Config.mapped s.cfg (x.buf.toNat + x.queuedLen.toNat + k)
        | some h => decide (x.packetLen ≤ (s.fifo h).q.length))

theorem canSend_of {s : State} {n : BitVec 4} (h : canSendB s n = true) : s.CanSend n := by
  simp only [canSendB, Bool.and_eq_true, decide_eq_true_eq] at h
  refine ⟨h.1.1.1, h.1.1.2, h.1.2, fun hf => ?_, fun k hf => ?_⟩
  · have h2 := h.2
    rw [hf] at h2
    exact mapped_of h2
  · have h2 := h.2
    rw [hf] at h2
    simpa using h2

/-- `State.CanXfer`, decided. -/
def canXferB (s : State) (ep : Byte) (buf : Word) (ff : Option Word) (total : Half) : Bool :=
  let u := s.started ep buf ff total
  s.opened (epNum ep) (epDir ep)
    && (match epDir ep with
        | .inn => canSendB u (epNum ep)
        | .out => decide ((u.ctx (epNum ep) .out).epIdx.toNat < u.cfg.nEp)
            && decide ((u.ctx (epNum ep) .out).armLen ≤ 1024))

theorem canXfer_of {s : State} {ep : Byte} {buf : Word} {ff : Option Word} {total : Half}
    (h : canXferB s ep buf ff total = true) : s.CanXfer ep buf ff total := by
  simp only [canXferB, Bool.and_eq_true] at h
  refine ⟨h.1, fun hd => ?_, fun hd => ?_⟩
  · have h2 := h.2
    rw [hd] at h2
    exact canSend_of h2
  · have h2 := h.2
    rw [hd] at h2
    simp only [Bool.and_eq_true, decide_eq_true_eq] at h2
    exact ⟨h2.1, h2.2⟩

theorem canCoreXfer_of {s : State} {ep : Byte} {n : Nat}
    (h : canXferB (s.putBusy ep true) ep (BitVec.ofNat 32 s.cfg.mscBufAddr) none (BitVec.ofNat 16 n) = true) :
    s.CanCoreXfer ep n := fun _ => canXfer_of h

theorem canReceive_of {s : State} {x : XferCtx} {a len : Nat} (hf : x.ff = none)
    (h : (a % Config.pmaWidth s.cfg = 0 ∧ a + roundUp len (Config.pmaWidth s.cfg) ≤ s.cfg.pmaSize)
      ∧ (List.range len).all (fun k => Config.mapped s.cfg (x.buf.toNat + x.queuedLen.toNat + k)) = true) :
    s.CanReceive x a len :=
  ⟨h.1.1, h.1.2, fun _ => mapped_of h.2, fun k hk => by simp [hf] at hk⟩

theorem calm_of {s : State} (h : (s.busTape = [] ∧ s.isrTape = []) ∧ s.fres = false ∧ s.cfg.legal = true
    ∧ Memory.wf s.pma) : s.Calm := ⟨⟨h.1.1, h.1.2⟩, h.2.1, h.2.2.1, h.2.2.2⟩

/-- What `State.CanStatus` asks of the status step, decided. -/
def canStatusB (s : State) : Bool :=
  s.msc.stage != .status || s.stalledAt s.msc.epIn
    || (if s.msc.expectsIn then s.opened (epNum s.msc.epIn) (epDir s.msc.epIn)
        else canXferB (s.cswStored.putBusy s.msc.epIn true) s.msc.epIn (BitVec.ofNat 32 s.cfg.mscBufAddr) none 13)

theorem canStatus_of {s : State} (h : (s.busTape = [] ∧ s.isrTape = []) ∧ s.fres = false ∧ s.cfg.legal = true
    ∧ Memory.wf s.pma) (h' : canStatusB s = true) : s.CanStatus := by
  refine ⟨calm_of h, fun hs hn he => ?_, fun hs hn he => ?_⟩ <;> simp [canStatusB, hs, hn] at h'
  · rwa [if_pos he] at h'
  · rw [if_neg he] at h'
    exact canCoreXfer_of h'

theorem canFail_of {s : State} (h : s.opened (epNum s.msc.dataEp) (epDir s.msc.dataEp) = true) : s.CanFail :=
  fun _ _ _ => h

/-- `State.Selects`, decided. -/
def selectsB (s : State) (addr : BitVec 7) (ep : BitVec 4) (d : Dir) (i : Nat) : Bool :=
  s.pullup && !s.fres && s.daddr.getLsbD 7 && (s.daddr.setWidth 7 == addr) && decide (i < s.cfg.nEp)
    && (eaField (s.eprAt i) == ep) && (statOf d (s.eprAt i) != statDis)
    && (List.range i).all fun j => eaField (s.eprAt j) != ep || statOf d (s.eprAt j) == statDis

theorem selects_of {s : State} {addr : BitVec 7} {ep : BitVec 4} {d : Dir} {i : Nat}
    (h : selectsB s addr ep d i = true) : s.Selects addr ep d i := by
  simp only [selectsB, Bool.and_eq_true, decide_eq_true_eq, Bool.not_eq_true', beq_iff_eq, bne_iff_ne] at h
  obtain ⟨⟨⟨⟨⟨⟨⟨h1, h2⟩, h3⟩, h4⟩, h5⟩, h6⟩, h7⟩, h8⟩ := h
  refine ⟨h1, h2, h3, h4, h5, h6, h7, fun j hj he => ?_⟩
  have := List.all_eq_true.1 h8 j (List.mem_range.2 hj)
  simpa [he] using this

/-- `State.OnlyCtr`, decided. -/
def onlyCtrB (s : State) (i : Nat) (rx : Bool) : Bool :=
  (s.istr &&& s.cntr &&& 0xFF00#16 == 0x8000#16) && decide (i < s.cfg.nEp) && (istrEpId s.istr == i)
    && (istrDir s.istr == rx) && (ctrRx (s.eprAt i) == rx) && (ctrTx (s.eprAt i) == !rx)
    && (List.range s.cfg.nEp).all fun j => decide (j = i) || (!ctrRx (s.eprAt j) && !ctrTx (s.eprAt j))

theorem onlyCtr_of {s : State} {i : Nat} {rx : Bool} (h : onlyCtrB s i rx = true) : s.OnlyCtr i rx := by
  simp only [onlyCtrB, Bool.and_eq_true, decide_eq_true_eq, beq_iff_eq] at h
  obtain ⟨⟨⟨⟨⟨⟨h1, h2⟩, h3⟩, h4⟩, h5⟩, h6⟩, h7⟩ := h
  refine ⟨h1, h2, h3, h4, ⟨h5, h6⟩, fun j hj hne => ?_⟩
  have := List.all_eq_true.1 h7 j (List.mem_range.2 hj)
  simpa [hne] using this

theorem eprAt_out {s : State} {i : Nat} (h : 8 ≤ i) : s.eprAt i = 0#16 := by
  simp [State.eprAt, Vector.getElem?_eq_none h]

theorem registersOk_of {s : State} (hn : s.cfg.nEp = 8)
    (h : s.cntr &&& 0x00E0#16 = 0#16 ∧ s.istr &&& 0x00E0#16 = 0#16 ∧ s.daddr &&& 0xFF00#16 = 0#16
      ∧ s.btable &&& 0x0007#16 = 0#16) : s.RegistersOk :=
  ⟨fun i hi => eprAt_out (by omega), h.1, h.2.1, h.2.2.1, h.2.2.2⟩

/-- `State.IstrOk`, decided. -/
def istrOkB (s : State) : Bool :=
  match firstCtr s.cfg.nEp s.epr with
  | none   => !istrCtr s.istr
  | some i => istrCtr s.istr && (istrEpId s.istr == i) && (istrDir s.istr == ctrRx (s.eprAt i))

theorem istrOk_of {s : State} (h : istrOkB s = true) : s.IstrOk := by
  unfold istrOkB at h
  unfold State.IstrOk
  cases hc : firstCtr s.cfg.nEp s.epr <;> rw [hc] at h
  · simpa using h
  · simpa [and_assoc] using h

theorem memoryOk_of {s : State} (h : Memory.wf s.pma ∧ Memory.wf s.ram ∧ (∀ c ∈ s.pma, c.1 < s.cfg.pmaSize)
    ∧ ∀ c ∈ s.ram, Config.mapped s.cfg c.1 = true) : s.MemoryOk := ⟨h.1, h.2.1, h.2.2.1, h.2.2.2⟩

/-- `Slot.ok`, decided. -/
def slotOkB (v : Slot) : Bool :=
  (!(v.allocOut || v.allocIn) || (v.epNum != 0xFF#8 && decide (v.epType.toNat < 4)))
    && (v.epType != 1#8 || !(v.allocOut && v.allocIn))

theorem slotOk_of {v : Slot} (h : slotOkB v = true) : v.ok := by
  unfold slotOkB at h
  unfold Slot.ok
  revert h
  cases v.allocOut <;> cases v.allocIn <;> simp

theorem slotsOk_of {s : State} (h : s.slots.toList.all slotOkB = true) : s.SlotsOk := fun i => by
  by_cases hi : i < 8
  · have : s.slotAt i = s.slots[i] := by simp [State.slotAt, hi]
    rw [this]
    exact slotOk_of (List.all_eq_true.1 h _ (by simp))
  · have : s.slotAt i = Slot.free := by simp [State.slotAt, Vector.getElem?_eq_none (Nat.le_of_not_lt hi)]
    rw [this]
    exact slotOk_of (by decide)

theorem inv_of {s : State} (hm : s.MemoryOk) (hr : s.RegistersOk) (hi : istrOkB s = true)
    (hs : s.slots.toList.all slotOkB = true) (hf : s.fres = false)
    (h : s.cfg.legal = true ∧ (s.pmaCursor ≤ s.cfg.pmaSize ∧ s.pmaCursor % 2 = 0)
      ∧ s.evq.length ≤ s.cfg.evqDepth ∧ ∀ p ∈ s.fifos, p.2.q.length ≤ p.2.cap) : s.Inv :=
  ⟨h.1, hm, hr, istrOk_of hi, fun h' => by simp [hf] at h', h.2.1, slotsOk_of hs, h.2.2.1, h.2.2.2⟩

/-- The state an operation answered, if it raised no fault. -/
def okState {α : Type} (r : EStateM.Result Fault State α) : Option State :=
  match r with
  | .ok _ t    => some t
  | .error _ _ => none

theorem ok_of {r : EStateM.Result Fault State Unit} {d : State} (h : (okState r).isSome = true) :
    r = .ok () ((okState r).getD d) := by
  cases r <;> simp_all [okState]

/-- The answer of an operation and whether `p` holds of its state; the fault it raised instead. -/
def okAnd {α : Type} (p : State → Bool) (r : EStateM.Result Fault State α) : Option (α × Bool) :=
  match r with
  | .ok a t    => some (a, p t)
  | .error _ _ => none

/-- The fault an operation raised. -/
def faultOf {α : Type} (r : EStateM.Result Fault State α) : Option Fault :=
  match r with
  | .ok _ _    => none
  | .error f _ => some f

theorem okAnd_of {α : Type} {r : EStateM.Result Fault State α} {a : α} {p : State → Bool}
    (h : okAnd p r = some (a, true)) : ∃ t, r = .ok a t ∧ p t = true := by
  cases r <;> simp_all [okAnd]

theorem faultOf_of {α : Type} {r : EStateM.Result Fault State α} {f : Fault} (h : faultOf r = some f) :
    ∃ t, r = .error f t := by
  cases r <;> simp_all [faultOf]

/-- The next state of a step. -/
def nextState (o : Host.Outcome State Fault Refusal) : Option State :=
  match o with
  | .next t => some t
  | _       => none

theorem next_of {o : Host.Outcome State Fault Refusal} {d : State} (h : (nextState o).isSome = true) :
    o = .next ((nextState o).getD d) := by
  cases o <;> simp_all [nextState]

theorem dev_base : Base dev := base_of (by decide +kernel)
theorem msd_base : Base msd := base_of (by decide +kernel)
theorem iso_base : Base iso := base_of (by decide +kernel)

/-! #### The command word -/

theorem witness_DecodeEncodeRoundTrip : wellFormed 8 (.epOpen 0x81 2 0x7FF) = true
    ∧ wellFormed 8 (.btSetCount 7 true 0x3FF) = true ∧ wellFormed 1 (.eprMux 0 0x7F1F) = true := by decide

theorem witness_DecodeDeterminesCommand :
    decode 8 0x160F0001 64 0 = .error .epIdxRange ∧ decode 8 0x16070001 64 0 = .ok (.btSetRxBufsize 7 true 64) :=
  ⟨rfl, rfl⟩

/-- The ends of each range of unassigned opcodes, a word for each other way to be malformed, well-formed words at the
ends of their fields, and a row for each of the two clauses on ignored words. -/
theorem witness_IllegalOpcodeFaults :
    { dev with schedule := [.command 0x59000000 0 0] }.Ready
      ∧ (∀ w ∈ [0x00000000#32, 0x0C000000, 0x0F000000, 0x18000000, 0x1F000000, 0x24000000, 0x2F000000, 0x3E000000,
          0x3F000000, 0x41000000, 0x4F000000, 0x59000000, 0x5F000000, 0xFF000000, 0x01100000, 0x01080000, 0x16080000,
          0x37100000, 0x3B020000, 0x30010000, 0x39000080, 0x0B000020, 0x30000001, 0x54000003],
          Malformed 8 w 0 0)
      ∧ Malformed 8 0x12010000 0x10000 0 ∧ Malformed 8 0x14010000 0x400 0 ∧ Malformed 8 0x31810002 0x800 0
      ∧ Malformed 8 0x20000080 0 0x10000 ∧ Malformed 8 0x21000080 0 0x10000
      ∧ (∀ w ∈ [0x01070000#32, 0x0B007F1F, 0x14070001, 0x318F0003, 0x3900007F, 0x54000002, 0x5E8F0000],
          ¬ Malformed 8 w 0x3FF 0xFFFF)
      ∧ (cmdOpc 0x12010000).toNat ∉ [0x20, 0x21, 0x22, 0x23, 0x35, 0x36, 0x53, 0x54, 0x55, 0x5A]
      ∧ (cmdOpc 0x30000000).toNat ∉ [0x02, 0x12, 0x14, 0x16, 0x20, 0x21, 0x22, 0x23, 0x31, 0x32, 0x33, 0x35, 0x36,
          0x53, 0x54, 0x56, 0x58, 0x5A] := by
  refine ⟨⟨rfl, by decide⟩, fun w hw => ?_, ?_, ?_, ?_, ?_, ?_, fun w hw => ?_, by decide, by decide⟩
  · simp only [List.mem_cons, List.not_mem_nil, or_false] at hw
    rcases hw with rfl | rfl | rfl | rfl | rfl | rfl | rfl | rfl | rfl | rfl | rfl | rfl | rfl | rfl | rfl | rfl | rfl
      | rfl | rfl | rfl | rfl | rfl | rfl | rfl <;>
      (unfold Malformed Unassigned BadEpa immUnnamed BadArg; decide)
  iterate 5 (unfold Malformed Unassigned BadEpa immUnnamed BadArg; decide)
  · simp only [List.mem_cons, List.not_mem_nil, or_false] at hw
    rcases hw with rfl | rfl | rfl | rfl | rfl | rfl | rfl <;>
      (unfold Malformed Unassigned BadEpa immUnnamed BadArg; decide)

theorem witness_IllFormedOperandFaults : dev.Ready ∧ wellFormed dev.cfg.nEp (.eprRead 8) = false
    ∧ wellFormed dev.cfg.nEp (.mscControl 3 0 0) = false := ⟨dev_base.1, by decide, by decide⟩

/-! #### The endpoint register engine -/

theorem witness_EprWriteByClass : Base dev ∧ (7#4).toNat < dev.cfg.nEp := ⟨dev_base, by decide⟩

theorem witness_MultiplexerLaw : dev.busTape = [] ∧ dev.Running ∧ dev.cfg.nEp ≤ 8 ∧ 7 < dev.cfg.nEp :=
  ⟨rfl, dev_base.2.2.2.2.2, by decide, by decide⟩

theorem witness_EprPrimitives : Base msd ∧ (1#4).toNat < msd.cfg.nEp := ⟨msd_base, by decide⟩

theorem witness_EprMuxControlWord :
    Base dev ∧ (7#4).toNat < dev.cfg.nEp ∧ 0x7F1F#16 &&& 0x80E0#16 = 0#16 ∧ 0x0000#16 &&& 0x80E0#16 = 0#16 :=
  ⟨dev_base, by decide, by decide, by decide⟩

theorem witness_EprWritesHeldInReset : State.reset.Ready ∧ State.reset.busTape = [] ∧ State.reset.fres = true
    ∧ (7#4).toNat < State.reset.cfg.nEp ∧ 0x1E1E#16 &&& 0x80E0#16 = 0#16 :=
  ⟨⟨rfl, by decide⟩, rfl, by decide, by decide, by decide⟩

/-- The state of vector V41-25, and what its BUS step leaves. -/
def race : State := { withReg msd 1 0x3231 with busTape := [[], [.inTok 5 1]] }

theorem witness_EprSplitRace : ∃ u, race.busTape = [] :: [.inTok 5 1] :: [] ∧ 1 < race.cfg.nEp ∧ race.cfg.nEp ≤ 8
    ∧ forEach [BusRec.inTok 5 1] busStep { race with busTape := [] } = .ok () u ∧ u.cfg = race.cfg ∧ u.Running
    ∧ u.eprAt 1 ≠ race.eprAt 1 :=
  ⟨_, rfl, by decide, by decide, ok_of (d := race) (by decide +kernel), by decide +kernel,
    show State.fres _ = false by decide +kernel, by decide +kernel⟩

theorem witness_ReadingCommands : Base msd ∧ (7#4).toNat < msd.cfg.nEp ∧ epOk 0x8F = true :=
  ⟨msd_base, by decide, by decide⟩

/-! #### Allocator, BTABLE and slots -/

theorem witness_PmaAllocator :
    dev.Ready ∧ (wide dev).Ready ∧ (wide { dev with pmaCursor := 194 }).Ready
      ∧ 1024 < (1025#16).toNat
      ∧ (1024#16).toNat ≤ 1024 ∧ dev.cfg.pmaSize < dev.pmaCursor + aligned (1024#16).toNat
      ∧ dev.pmaCursor + aligned (320#16).toNat = dev.cfg.pmaSize
      ∧ dev.pmaCursor + 2 * aligned (160#16).toNat = dev.cfg.pmaSize
      ∧ (wide { dev with pmaCursor := 194 }).cfg.bus32 = true
      ∧ (wide { dev with pmaCursor := 194 }).pmaCursor % 4 ≠ 0
      ∧ (wide dev).pmaCursor % 4 = 0 ∧ ((wide dev).pmaCursor + aligned (2#16).toNat) % 4 ≠ 0
      ∧ (wide dev).pmaCursor + 2 * aligned (2#16).toNat ≤ (wide dev).cfg.pmaSize := by
  refine ⟨dev_base.1, ⟨rfl, ?_⟩, ⟨rfl, ?_⟩, ?_⟩ <;> decide

theorem witness_RxSizeCodeCapacity : 1024 ≤ 1024 ∧ 0 ≤ 1024 := by decide

theorem witness_BtableWrites : Base msd ∧ (7#4).toNat < msd.cfg.nEp ∧ (1024#16).toNat ≤ 1024
    ∧ 1024 < (1025#16).toNat := ⟨msd_base, by decide, by decide, by decide⟩

/-- Every slot but the last taken by other endpoints, and every slot. -/
def crowded (last : Slot) : State := { dev with slots := (Vector.replicate 8 ⟨9, 2, true, true⟩).setIfInBounds 7 last }

theorem witness_EpAllocFirstFit :
    msd.Ready ∧ epOk 0x81 = true
      ∧ (∀ j, j < 1 → (msd.slotAt j).isOpen (epNum 0x81) (epDir 0x81) 2 = false
          ∧ (msd.slotAt j).fits (epNum 0x81) (epDir 0x81) 2 = false)
      ∧ (msd.slotAt 1).isOpen (epNum 0x81) (epDir 0x81) 2 = true
      ∧ (crowded .free).Ready ∧ 7 < (crowded .free).cfg.nEp
      ∧ (∀ j, j < 7 → ((crowded .free).slotAt j).isOpen (epNum 0x81) (epDir 0x81) 2 = false
          ∧ ((crowded .free).slotAt j).fits (epNum 0x81) (epDir 0x81) 2 = false)
      ∧ ((crowded .free).slotAt 7).fits (epNum 0x81) (epDir 0x81) 2 = true
      ∧ (crowded ⟨9, 2, true, true⟩).Ready
      ∧ ∀ j, j < 8 → ((crowded ⟨9, 2, true, true⟩).slotAt j).isOpen (epNum 0x81) (epDir 0x81) 2 = false
          ∧ ((crowded ⟨9, 2, true, true⟩).slotAt j).fits (epNum 0x81) (epDir 0x81) 2 = false :=
  ⟨msd_base.1, by decide, by decide, by decide, ⟨rfl, by decide⟩, by decide, by decide, by decide,
    ⟨rfl, by decide⟩, by decide⟩

/-! #### Packet copies -/

theorem dev_memoryOk : dev.MemoryOk := memoryOk_of (by decide)

/-- An odd length in the middle, and the last word of packet memory. -/
theorem witness_PmaCopies : Base dev ∧ dev.MemoryOk
    ∧ (0x80#16).toNat % Config.pmaWidth dev.cfg = 0 ∧ (510#16).toNat % Config.pmaWidth dev.cfg = 0
    ∧ (0x80#16).toNat + roundUp (3#16).toNat (Config.pmaWidth dev.cfg) ≤ dev.cfg.pmaSize
    ∧ (510#16).toNat + roundUp (2#16).toNat (Config.pmaWidth dev.cfg) = dev.cfg.pmaSize
    ∧ Config.MappedRange dev.cfg (0x2000FFFD#32).toNat (3#16).toNat :=
  ⟨dev_base, dev_memoryOk, by decide, by decide, by decide, by decide, mapped_of (by decide)⟩

theorem witness_CopyRoundTrip : Base dev ∧ dev.MemoryOk
    ∧ (0x100#16).toNat % Config.pmaWidth dev.cfg = 0
    ∧ (0x100#16).toNat + roundUp (5#16).toNat (Config.pmaWidth dev.cfg) ≤ dev.cfg.pmaSize
    ∧ Config.MappedRange dev.cfg (0x20000000#32).toNat (5#16).toNat
    ∧ Config.MappedRange dev.cfg (0x20000040#32).toNat (5#16).toNat :=
  ⟨dev_base, dev_memoryOk, by decide, by decide, mapped_of (by decide), mapped_of (by decide)⟩

theorem witness_FifoCopies : Base iso ∧ (0x90#16).toNat % Config.pmaWidth iso.cfg = 0
    ∧ (0x90#16).toNat + roundUp (3#16).toNat (Config.pmaWidth iso.cfg) ≤ iso.cfg.pmaSize
    ∧ (3#16).toNat = (iso.fifo 7).q.length ∧ (iso.fifo 7).q.length + (5#16).toNat = (iso.fifo 7).cap :=
  ⟨iso_base, by decide, by decide, by decide, by decide⟩

theorem witness_CopyChecksComeFirst : iso.Ready ∧ (0x81#16).toNat % Config.pmaWidth iso.cfg ≠ 0
    ∧ (510#16).toNat % Config.pmaWidth iso.cfg = 0
    ∧ iso.cfg.pmaSize < (510#16).toNat + roundUp (3#16).toNat (Config.pmaWidth iso.cfg)
    ∧ (0x80#16).toNat % Config.pmaWidth iso.cfg = 0
    ∧ (0x80#16).toNat + roundUp (6#16).toNat (Config.pmaWidth iso.cfg) ≤ iso.cfg.pmaSize
    ∧ (iso.fifo 7).q.length < (4#16).toNat ∧ (iso.fifo 7).cap < (iso.fifo 7).q.length + (6#16).toNat :=
  ⟨iso_base.1, by decide, by decide, by decide, by decide, by decide, by decide, by decide⟩

/-! #### Device controller -/

theorem witness_DcdInitEndState : State.reset.Ready ∧ State.reset.busTape = [] ∧ Memory.wf State.reset.pma :=
  ⟨⟨rfl, by decide⟩, rfl, by decide⟩

/-- A buffer that fills packet memory exactly, and one byte more. -/
theorem witness_EpOpenResult : Base dev ∧ epOk 0x81 = true ∧ dev.CanOpen 0x81 2 320 1 ∧ dev.FirstSlot 0x81 2 1
    ∧ (321#11).toNat ≤ 1024 ∧ dev.cfg.pmaSize < dev.pmaCursor + aligned (321#11).toNat :=
  ⟨dev_base, by decide, canOpen_of (by decide) (by decide), firstSlot_of (by decide), by decide, by decide⟩

theorem witness_IsoEndpoints : Base dev ∧ epOk 0x82 = true ∧ dev.FirstSlot 0x82 xferIso 1 ∧ (160#11).toNat ≤ 1024
    ∧ dev.pmaCursor + 2 * aligned (160#11).toNat = dev.cfg.pmaSize
    ∧ (dev.cfg.bus32 = true → dev.pmaCursor % 4 = 0 ∧ (dev.pmaCursor + aligned (160#11).toNat) % 4 = 0)
    ∧ Base iso ∧ iso.isOpened 0x82 :=
  ⟨dev_base, by decide, firstSlot_of (by decide), by decide, by decide, by decide, iso_base, isOpened_of (by decide)⟩

theorem witness_EpCloseAll : Base msd ∧ msd.IstrOk := ⟨msd_base, istrOk_of (by decide)⟩

/-- From RAM, from a FIFO on an ISO endpoint, and a packet of no bytes; buffer and descriptor do not overlap. -/
theorem witness_XferIn : Base msd ∧ epOk 0x81 = true ∧ epDir 0x81 = .inn ∧ msd.CanXfer 0x81 0x20000200 none 65
    ∧ msd.CanXfer 0x81 0x20000200 none 0 ∧ ((none : Option Word).isSome → 0x20000200#32 = 0)
    ∧ Base iso ∧ epDir 0x82 = .inn ∧ iso.CanXfer 0x82 0 (some 7) 3
    ∧ isIso (iso.eprAt (iso.epIdxOf 0x82)) = true
    ∧ btAddr iso.cfg 1 true + 2 + 2 ≤ (iso.btAddrOf 1 true).toNat :=
  ⟨msd_base, by decide, by decide, canXfer_of (by decide), canXfer_of (by decide), by decide,
    iso_base, by decide, canXfer_of (by decide), by decide, by decide⟩

theorem witness_XferOut : Base msd ∧ epOk 0x01 = true ∧ epDir 0x01 = .out ∧ msd.CanXfer 0x01 0x20000100 none 0xFFFF
    ∧ msd.CanXfer 0x01 0 (some 7) 0 ∧ ((some 7#32).isSome → 0#32 = 0) :=
  ⟨msd_base, by decide, by decide, canXfer_of (by decide), canXfer_of (by decide), by decide⟩

theorem witness_EpStallAndClear : Base msd ∧ epOk 0x81 = true ∧ msd.isOpened 0x81 ∧ epOk 0x01 = true ∧ msd.isOpened 0x01
    ∧ epOk 0x83 = true ∧ ¬ msd.isOpened 0x83 :=
  ⟨msd_base, by decide, isOpened_of (by decide), by decide, isOpened_of (by decide), by decide, notOpened_of (by decide)⟩

theorem witness_EpNotOpen : Base msd ∧ epOk 0x83 = true ∧ ¬ msd.isOpened 0x83 ∧ msd.busyAt 0x83 = false
    ∧ msd.stalledAt 0x83 = false ∧ (msd.putStalled 0x83 true).Ready
    ∧ ¬ (msd.putStalled 0x83 true).isOpened 0x83 ∧ (msd.putStalled 0x83 true).stalledAt 0x83 = true :=
  ⟨msd_base, by decide, notOpened_of (by decide), by decide, by decide, ⟨rfl, by decide⟩, notOpened_of (by decide),
    by decide⟩

theorem witness_DeviceControls : Base dev ∧ dev.RegistersOk := ⟨dev_base, registersOk_of rfl (by decide)⟩

/-! #### Interrupt service -/

/-- A device with the given `CNTR` and `ISTR`. -/
def pend (cntr istr : Half) (evq : List Event := []) : State := { dev with cntr := cntr, istr := istr, evq := evq }

theorem witness_IsrOneFlag :
    (∀ v ∈ [(0x9D00#16, 0x0200#16), (0x9F00, 0x0200), (0x9D0C, 0x1000), (0x9D00, 0x0800), (0x9D10, 0x0100)],
      Base (pend v.1 v.2) ∧ (pend v.1 v.2).RegistersOk ∧ (pend v.1 v.2).Room)
    ∧ 0x0200#16 &&& 0x9D00#16 &&& 0xFF00#16 = 0 ∧ 0x0200#16 &&& 0x9F00#16 &&& 0xFF00#16 = flagSof
    ∧ 0x1000#16 &&& 0x9D0C#16 &&& 0xFF00#16 = flagWkup ∧ 0x0800#16 &&& 0x9D00#16 &&& 0xFF00#16 = flagSusp
    ∧ 0x0100#16 &&& 0x9D10#16 &&& 0xFF00#16 = flagEsof
    ∧ (∀ v ∈ [(0x9F00#16, 0x0200#16), (0x9D0C, 0x1000), (0x9D00, 0x0800)],
        Base (pend v.1 v.2 (List.replicate 16 .suspend)) ∧ (pend v.1 v.2 (List.replicate 16 .suspend)).RegistersOk
          ∧ ¬ (pend v.1 v.2 (List.replicate 16 .suspend)).Room) := by
  refine ⟨fun v hv => ?_, by decide, by decide, by decide, by decide, by decide, fun v hv => ?_⟩ <;>
    simp only [List.mem_cons, List.not_mem_nil, or_false] at hv
  rotate_left
  · rcases hv with rfl | rfl | rfl <;>
      exact ⟨base_of (by decide), registersOk_of rfl (by decide), noRoom_of (by decide)⟩
  rcases hv with rfl | rfl | rfl | rfl | rfl <;>
    exact ⟨base_of (by decide), registersOk_of rfl (by decide), room_of (by decide)⟩

/-- RESET and SUSP pending together (vector V46-3). -/
theorem witness_IsrResetBranch : Base (pend 0x9D00 0x0C00) ∧ (pend 0x9D00 0x0C00).Room
    ∧ (pend 0x9D00 0x0C00).istr &&& (pend 0x9D00 0x0C00).cntr &&& 0x0600#16 = flagReset :=
  ⟨base_of (by decide), room_of (by decide), by decide⟩

/-- Endpoint 1 with a transmission complete: all of it sent, and one packet of 130 bytes. -/
def txDone (total queued : Half) : State :=
  withReg (msd.updCtx 1 .inn fun x => { x with totalLen := total, queuedLen := queued }) 1 0x22E1

/-- The isochronous endpoint with its transmission complete. -/
def isoDone (sending : Bool) (total queued : Half) : State :=
  withReg (iso.updCtx 2 .inn fun x => { x with totalLen := total, queuedLen := queued, isoInSending := sending }) 1 0x44F2

theorem witness_IsrTxCompletion :
    Base (txDone 130 64) ∧ (txDone 130 64).OnlyCtr 1 false
      ∧ isIso ((txDone 130 64).eprAt 1) = false ∧ ((txDone 130 64).putEpr true 1 0x2261).CanSend 1
      ∧ Base (txDone 13 13) ∧ (txDone 13 13).OnlyCtr 1 false ∧ (txDone 13 13).Room
      ∧ Base (isoDone false 100 100) ∧ (isoDone false 100 100).OnlyCtr 1 false
      ∧ isIso ((isoDone false 100 100).eprAt 1) = true
      ∧ ((isoDone false 100 100).ctx 2 .inn).isoInSending = false
      ∧ Base (isoDone true 100 100) ∧ (isoDone true 100 100).OnlyCtr 1 false
      ∧ ((isoDone true 100 100).ctx 2 .inn).isoInSending = true :=
  ⟨base_of (by decide +kernel), onlyCtr_of (by decide +kernel), by decide +kernel, canSend_of (by decide +kernel),
    base_of (by decide +kernel), onlyCtr_of (by decide +kernel), room_of (by decide +kernel),
    base_of (by decide +kernel), onlyCtr_of (by decide +kernel), by decide +kernel, by decide +kernel,
    base_of (by decide +kernel), onlyCtr_of (by decide +kernel), by decide +kernel⟩

/-- Endpoint 1 with a packet of 64 or 3 bytes received, of a transfer of `total`. -/
def rxDone (count : Byte) (total : Half) : State :=
  { withReg (msd.updCtx 1 .out fun x => { x with totalLen := total }) 1 0xE221 with
    pma := msd.pma ++ [(14, count), (15, 0x84)] }

/-- Endpoint 0 with an OUT packet of no bytes received. -/
def rxDone0 : State := withReg dev 0 0xA220

theorem witness_IsrRxCompletion :
    Base (rxDone 64 100) ∧ (rxDone 64 100).OnlyCtr 1 true ∧ setupBit ((rxDone 64 100).eprAt 1) = false
      ∧ (rxDone 64 100).CanReceive ((rxDone 64 100).ctx 1 .out) 256 64
      ∧ ((rxDone 64 100).btAddrOf 1 true).toNat = 256 ∧ countField ((rxDone 64 100).countwOf 1 true) = 64
      ∧ ((rxDone 64 100).ctx 1 .out).mps.toNat ≤ 64 ∧ (64#16).toNat < ((rxDone 64 100).ctx 1 .out).totalLen.toNat
      ∧ Base (rxDone 63 100) ∧ (rxDone 63 100).OnlyCtr 1 true ∧ (rxDone 63 100).Room
      ∧ 63 < ((rxDone 63 100).ctx 1 .out).mps.toNat
      ∧ Base rxDone0 ∧ rxDone0.OnlyCtr 0 true ∧ setupBit (rxDone0.eprAt 0) = false
      ∧ rxDone0.CanReceive (rxDone0.ctx 0 .out) 64 0 :=
  ⟨base_of (by decide +kernel), onlyCtr_of (by decide +kernel), by decide +kernel,
    canReceive_of (by decide +kernel) (by decide +kernel), by decide +kernel, by decide +kernel, by decide +kernel,
    by decide +kernel, base_of (by decide +kernel), onlyCtr_of (by decide +kernel), room_of (by decide +kernel),
    by decide +kernel, base_of (by decide +kernel), onlyCtr_of (by decide +kernel), by decide +kernel,
    canReceive_of (by decide +kernel) (by decide +kernel)⟩

/-- Endpoint 0 with a SETUP packet of the given count (vectors V46-6, V46-7). -/
def setupDone (count : Byte) : State :=
  { withReg dev 0 0xEA20 with pma := [(0, 0x80), (4, 0x40), (6, count), (7, 0x84)] }

/-- The same with 8 bytes in a buffer at PMA offset `a`, and `n` events queued. -/
def setupIn (a : Half) (n : Nat) : State :=
  { withReg dev 0 0xEA20 with
    pma := Memory.writeBytes [] 0 ([0x80, 0, 0, 0] ++ leBytes16 a ++ [8, 0x84]), evq := List.replicate n .suspend }

/-- Rules R109, R398: on a 16-bit bus an odd buffer is read like any other. -/
theorem test_isr_setup_odd_buffer :
    after (exec .isrService { setupIn 0x41 0 with pma := (setupIn 0x41 0).pma ++ [(0x40, 9), (0x41, 1), (0x48, 8)] })
      (fun t => t.fault == none && t.eprAt 0 == 0x6A60 && t.evq == [.setupReceived #v[1, 0, 0, 0, 0, 0, 0, 8]]) = true := by
  decide +kernel

/-- An odd buffer, the last 8 bytes of packet memory, a full queue, one byte past the end and all of it past the end, and
an even buffer of a 32-bit bus. -/
theorem witness_IsrSetupCompletion :
    (∀ s ∈ [setupDone 9, setupIn 0x41 15, setupIn 504 15, setupIn 0x40 16, setupIn 505 0, setupIn 0x200 0,
        wide (setupIn 0x42 0), wide (setupIn 0x44 0)],
      Base s ∧ s.OnlyCtr 0 true ∧ setupBit (s.eprAt 0) = true)
    ∧ countField ((setupDone 9).countwOf 0 true) ≠ 8
    ∧ (∀ s ∈ [setupIn 0x41 15, setupIn 504 15, setupIn 0x40 16, setupIn 505 0, setupIn 0x200 0, wide (setupIn 0x42 0),
        wide (setupIn 0x44 0)], countField (s.countwOf 0 true) = 8)
    ∧ (setupIn 0x41 15).cfg.bus32 = false ∧ ((setupIn 0x41 15).btAddrOf 0 true).toNat = 0x41
    ∧ ((setupIn 504 15).btAddrOf 0 true).toNat + 8 = (setupIn 504 15).cfg.pmaSize ∧ (setupIn 504 15).Room
    ∧ ¬ (setupIn 0x40 16).Room
    ∧ ((setupIn 505 0).btAddrOf 0 true).toNat + 8 = (setupIn 505 0).cfg.pmaSize + 1
    ∧ ((setupIn 0x200 0).btAddrOf 0 true).toNat = (setupIn 0x200 0).cfg.pmaSize
    ∧ (wide (setupIn 0x42 0)).cfg.bus32 = true ∧ ((wide (setupIn 0x42 0)).btAddrOf 0 true).toNat % 4 ≠ 0
    ∧ ((wide (setupIn 0x44 0)).btAddrOf 0 true).toNat % 4 = 0 := by
  refine ⟨fun s hs => ?_, by decide +kernel, by decide +kernel, by decide +kernel, by decide +kernel, by decide +kernel,
    room_of (by decide +kernel), noRoom_of (by decide +kernel), by decide +kernel, by decide +kernel, by decide +kernel,
    by decide +kernel, by decide +kernel⟩
  simp only [List.mem_cons, List.not_mem_nil, or_false] at hs
  rcases hs with rfl | rfl | rfl | rfl | rfl | rfl | rfl | rfl <;>
    exact ⟨base_of (by decide +kernel), onlyCtr_of (by decide +kernel), by decide +kernel⟩

/-- Both directions of endpoint 1 complete (vector V46-16). -/
def bothDone : State :=
  { withReg msd 1 0xE2E1 with pma := msd.pma ++ [(14, 3), (15, 0x84)] }

theorem bothDone_inv : bothDone.Inv :=
  inv_of (memoryOk_of (by decide +kernel)) (registersOk_of rfl (by decide +kernel)) (by decide +kernel)
    (by decide +kernel) (by decide +kernel) (by decide +kernel)

theorem witness_IsrDrainsCtr : ∃ t, bothDone.Inv ∧ bothDone.busTape = [] ∧ hasBit bothDone.cntr flagCtr = true
    ∧ bothDone.istr &&& bothDone.cntr &&& flagReset = 0#16 ∧ exec .isrService bothDone = .next t ∧ t.fault = none :=
  ⟨_, bothDone_inv, rfl, by decide +kernel, by decide +kernel, next_of (d := dev) (by decide +kernel), by decide +kernel⟩

theorem witness_DeviceStepsLeaveClassState : ∃ t t',
    exec .isrService bothDone = .next t ∧ runTurn (.bus .suspend) bothDone = .next t' :=
  ⟨_, _, next_of (d := dev) (by decide +kernel), next_of (d := dev) (by decide +kernel)⟩

/-! #### Bus side -/

theorem witness_BusTokenNotForUs : { dev with pullup := false }.pullup = false ∧ dev.Ready ∧ dev.pullup = true
    ∧ (List.replicate 1023 (0 : Byte)).length ≤ 1023 ∧ dev.daddr.setWidth 7 ≠ 9#7
    ∧ { dev with daddr := 0 }.daddr.getLsbD 7 = false
    ∧ (∀ i, i < dev.cfg.nEp → eaField (dev.eprAt i) = 3 → statOf .inn (dev.eprAt i) = statDis)
    ∧ State.reset.Ready ∧ State.reset.fres = true ∧ { State.reset with pullup := true }.pullup = true :=
  ⟨rfl, dev_base.1, rfl, by decide +kernel, by decide, by decide, by decide, ⟨rfl, by decide⟩, by decide, rfl⟩

theorem witness_BusIn :
    (∀ r ∈ [0x2211#16, 0x2221, 0x2231], (withReg msd 1 r).Ready ∧ (withReg msd 1 r).Selects 5 1 .inn 1)
      ∧ statTx 0x2211 = statStall ∧ statTx 0x2221 = statNak ∧ statTx 0x2231 = statValid
      ∧ ((withReg msd 1 0x2231).btAddrOf 1 false).toNat + countField ((withReg msd 1 0x2231).countwOf 1 false) ≤ msd.cfg.pmaSize
      ∧ ({ withReg msd 1 0x2231 with pma := [(8, 0xFE), (9, 1), (10, 3)] } : State).Selects 5 1 .inn 1
      ∧ 510 + 3 = (({ withReg msd 1 0x2231 with pma := [(8, 0xFE), (9, 1), (10, 3)] } : State).btAddrOf 1 false).toNat
          + countField (({ withReg msd 1 0x2231 with pma := [(8, 0xFE), (9, 1), (10, 3)] } : State).countwOf 1 false)
      ∧ iso.Ready ∧ (withReg iso 1 0x4432).Selects 5 2 .inn 1 ∧ isIso 0x4432 = true := by
  refine ⟨fun r hr => ?_, by decide, by decide, by decide, by decide +kernel, selects_of (by decide +kernel),
    by decide +kernel, iso_base.1, selects_of (by decide +kernel), by decide⟩
  simp only [List.mem_cons, List.not_mem_nil, or_false] at hr
  rcases hr with rfl | rfl | rfl <;> exact ⟨ready_of (by decide +kernel), selects_of (by decide +kernel)⟩

/-- Endpoint 1 armed for 32 bytes. -/
def armed32 (r : Half) : State := { withReg msd 1 r with pma := msd.pma ++ [(15, 0x40)] }

theorem witness_BusOut :
    (∀ r ∈ [0x1221#16, 0x2221, 0x3221], (armed32 r).Ready ∧ (armed32 r).Selects 5 1 .out 1)
      ∧ statRx 0x1221 = statStall ∧ statRx 0x2221 = statNak ∧ statRx 0x3221 = statValid
      ∧ rxCap ((armed32 0x3221).countwOf 1 true) = 32 ∧ 32 < (List.replicate 33 (0 : Byte)).length
      ∧ (List.replicate 32 (0 : Byte)).length ≤ 32 ∧ dtogRx 0x3221 = false ∧ isIso 0x3221 = false
      ∧ ((armed32 0x3221).btAddrOf 1 true).toNat + 32 ≤ (armed32 0x3221).cfg.pmaSize
      ∧ (withReg iso 1 0x7442).Selects 5 2 .out 1 ∧ isIso 0x7442 = true := by
  refine ⟨fun r hr => ?_, by decide, by decide, by decide, by decide +kernel, by decide, by decide, by decide, by decide,
    by decide +kernel, selects_of (by decide +kernel), by decide⟩
  simp only [List.mem_cons, List.not_mem_nil, or_false] at hr
  rcases hr with rfl | rfl | rfl <;> exact ⟨ready_of (by decide +kernel), selects_of (by decide +kernel)⟩

theorem witness_BusSetup : dev.Ready ∧ dev.Selects 5 0 .out 0 ∧ epType (dev.eprAt 0) = typeControl
    ∧ rxCap (dev.countwOf 0 true) = 64 ∧ (List.replicate 64 (0 : Byte)).length ≤ 64
    ∧ 64 < (List.replicate 65 (0 : Byte)).length ∧ (dev.btAddrOf 0 true).toNat + 64 ≤ dev.cfg.pmaSize
    ∧ (withReg iso 1 0x7442).Selects 5 2 .out 1 ∧ epType 0x7442 ≠ typeControl :=
  ⟨dev_base.1, selects_of (by decide), by decide, by decide, by decide, by decide, by decide,
    selects_of (by decide +kernel), by decide⟩

theorem witness_BusSignals : dev.Ready ∧ dev.pullup = true ∧ dev.Running := ⟨dev_base.1, rfl, dev_base.2.2.2.2.2⟩

/-! #### Core endpoint operations -/

theorem witness_CoreEndpointOperations : Base msd ∧ epOk 0x81 = true ∧ (msd.putBusy 0x81 true).busyAt 0x81 = true
    ∧ msd.busyAt 0x81 = false ∧ (msd.putBusy 0x81 true).CanXfer 0x81 0x20000000 none 13
    ∧ msd.stalledAt 0x81 = false ∧ msd.isOpened 0x81
    ∧ (msd.putStalled 0x81 true).stalledAt 0x81 = true ∧ (msd.putStalled 0x81 true).isOpened 0x81 :=
  ⟨msd_base, by decide, by decide, by decide, canXfer_of (by decide +kernel), by decide, isOpened_of (by decide),
    by decide, isOpened_of (by decide)⟩

/-! #### Bulk-Only Transport -/

/-- A command of which data is pending asynchronously, with `n` events queued. -/
def pendingIo (n : Nat) : State := { withMsc msd (fun m => { m with pendingIo := true }) with evq := List.replicate n .suspend }

theorem witness_ClassCommands : msd.Ready ∧ msd.msc.pendingIo = false ∧ (pendingIo 15).Ready
    ∧ (pendingIo 15).msc.pendingIo = true ∧ (pendingIo 15).Room ∧ (pendingIo 16).Ready
    ∧ (pendingIo 16).msc.pendingIo = true ∧ ¬ (pendingIo 16).Room :=
  ⟨msd_base.1, rfl, ready_of (by decide +kernel), by decide +kernel, room_of (by decide +kernel),
    ready_of (by decide +kernel), by decide +kernel, noRoom_of (by decide +kernel)⟩

/-- A device with the descriptor of V47-6 in RAM. -/
def withDesc : State := { dev with ram := descriptor 2 }

/-- The state in which the descriptor's first endpoint is open. -/
def firstOpen : State :=
  State.updMsc (State.epOpened
    (((withDesc.updMsc fun m => { m with itfNum := 0 }).putBusy 0x81 false).putStalled 0x81 false) 0x81 xferBulk 64 1)
    fun m => { m with epIn := 0x81 }

theorem witness_MscOpen :
    Base withDesc ∧ Config.MappedRange withDesc.cfg (0x20001000#32).toNat 9
      ∧ Memory.read withDesc.ram (0x20001000 + 5) = 0x08 ∧ Memory.read withDesc.ram (0x20001000 + 6) = 0x06
      ∧ Memory.read withDesc.ram (0x20001000 + 7) = 0x50 ∧ 23 ≤ (23#16).toNat ∧ (22#16).toNat < 23
      ∧ 0x20001000 + (Memory.read withDesc.ram 0x20001000).toNat = 0x20001009
      ∧ 0x20001009 + (Memory.read withDesc.ram 0x20001009).toNat = 0x20001010
      ∧ Config.MappedRange withDesc.cfg 0x20001009 7 ∧ Config.MappedRange withDesc.cfg 0x20001010 7
      ∧ Memory.read withDesc.ram (0x20001009 + 1) = 0x05 ∧ Memory.read withDesc.ram (0x20001010 + 1) = 0x05
      ∧ (Memory.read withDesc.ram (0x20001009 + 3)).extractLsb' 0 2 = xferBulk
      ∧ (Memory.read withDesc.ram (0x20001010 + 3)).extractLsb' 0 2 = xferBulk
      ∧ Memory.read withDesc.ram (0x20001009 + 2) = 0x81 ∧ Memory.read withDesc.ram (0x20001010 + 2) = 0x01
      ∧ (le16 (Memory.read withDesc.ram (0x20001009 + 4)) (Memory.read withDesc.ram (0x20001009 + 5))).setWidth 11 = 64#11
      ∧ (((withDesc.updMsc fun m => { m with itfNum := 0 }).putBusy 0x81 false).putStalled 0x81 false).CanOpen 0x81
          xferBulk 64 1
      ∧ ((firstOpen.putBusy 0x01 false).putStalled 0x01 false).CanOpen 0x01 xferBulk 64 1 :=
  ⟨base_of (by decide +kernel), mapped_of (by decide +kernel), by decide +kernel, by decide +kernel, by decide +kernel,
    by decide, by decide, by decide +kernel, by decide +kernel, mapped_of (by decide +kernel),
    mapped_of (by decide +kernel), by decide +kernel, by decide +kernel, by decide +kernel, by decide +kernel,
    by decide +kernel, by decide +kernel, by decide +kernel, canOpen_of (by decide +kernel) (by decide +kernel),
    canOpen_of (by decide +kernel) (by decide +kernel)⟩

/-- The setup words of vectors V47-26, V47-33, V47-27 and V47-30. -/
theorem witness_MscControlRequests : msd.Ready
    ∧ ((0x0000FEA1#32).extractLsb' 5 2 = 1 ∧ (0x0000FEA1#32).extractLsb' 8 8 = 0xFE#8
        ∧ (0x0000FEA1#32).extractLsb' 16 16 = 0#16 ∧ (0x00010000#32).extractLsb' 16 16 = 1#16)
    ∧ ((0x0000FF21#32).extractLsb' 5 2 = 1 ∧ (0x0000FF21#32).extractLsb' 8 8 = 0xFF#8
        ∧ (0x00000000#32).extractLsb' 16 16 = 0#16)
    ∧ (0x00020000#32).extractLsb' 16 16 ≠ 1#16 ∧ (0x0000FF41#32).extractLsb' 5 2 ≠ 1#2 :=
  ⟨msd_base.1, by decide, by decide, by decide, by decide⟩

theorem witness_ClearFeatureHalt :
    ((0x00000102#32).extractLsb' 5 2 = 0#2 ∧ (0x00000102#32).extractLsb' 0 5 = 2#5
        ∧ (0x00000102#32).extractLsb' 8 8 = 0x01#8 ∧ (0x00000102#32).extractLsb' 16 16 = 0#16)
      ∧ (0x00000081#32).extractLsb' 0 8 = 0x81#8 ∧ (0x00000001#32).extractLsb' 0 8 = 0x01#8
      ∧ Base csStalled ∧ csStalled.stalledAt 0x81 = true ∧ csStalled.isOpened 0x81 ∧ csStalled.msc.stage = .status
      ∧ csStalled.msc.epIn = 0x81
      ∧ (((csStalled.coreUnstalled 0x81).withRes 1).cswStored).CanCoreXfer 0x81 13
      ∧ Base (withMsc csStalled fun m => { m with stage := .needReset })
      ∧ Base (msd.putStalled 0x01 true) ∧ (msd.putStalled 0x01 true).isOpened 0x01
      ∧ (msd.putStalled 0x01 true).msc.stage = .cmd ∧ (msd.putStalled 0x01 true).msc.epOut = 0x01
      ∧ (((msd.putStalled 0x01 true).coreUnstalled 0x01).withRes 1).ready 0x01 = true
      ∧ ((((msd.putStalled 0x01 true).coreUnstalled 0x01).withRes 1).updMsc fun m => { m with stage := .cmd }).CanCoreXfer
          0x01 31
      ∧ Base (msd.putBusy 0x01 true) ∧ (((msd.putBusy 0x01 true).coreUnstalled 0x01).withRes 1).ready 0x01 = false :=
  ⟨by decide, by decide, by decide, base_of (by decide +kernel), by decide +kernel, isOpened_of (by decide +kernel),
    by decide +kernel, by decide +kernel, canCoreXfer_of (by decide +kernel), base_of (by decide +kernel),
    base_of (by decide +kernel), isOpened_of (by decide +kernel), by decide +kernel, by decide +kernel,
    by decide +kernel, canCoreXfer_of (by decide +kernel), base_of (by decide +kernel), by decide +kernel⟩

/-- The class machine in a stage. -/
def atStage (g : Stage) : State := withMsc msd fun m => { m with stage := g }

theorem witness_MscXferCbIdleStages : (∀ g : Stage, Base (atStage g)) ∧ epOk 0x81 = true ∧ epOk 0x02 = true
    ∧ ¬ (msd.msc.epOut ≠ 0 ∧ (0x02#8 = msd.msc.epIn ∨ 0x02#8 = msd.msc.epOut) ∧ msd.msc.pendingIo = false)
    ∧ (atStage .needReset).msc.stage = .needReset ∧ (0x81#8 ≠ msd.msc.epOut)
    ∧ ¬ (0x81#8 = msd.msc.epIn ∧ 12#32 = 13) ∧ 0x81#8 = msd.msc.epIn
    ∧ (atStage .statusSent).msc.epOut ≠ 0 ∧ (atStage .statusSent).msc.pendingIo = false
    ∧ ((((atStage .statusSent).withRes 1).observed (.app (.complete 0 0))).updMsc fun m =>
        { m with stage := .cmd }).CanCoreXfer 0x01 31 :=
  ⟨fun g => by cases g <;> exact base_of (by decide +kernel), by decide, by decide, by decide, by decide +kernel,
    by decide, by decide, by decide, by decide +kernel, by decide +kernel, canCoreXfer_of (by decide +kernel)⟩

/-- A READ_10 (`op` 0x28) or another command of one block of 200 bytes in its data stage, with the application's answer and
`n` events queued. -/
def inData (op : Byte) (moved : Word) (n : Nat) (answers : List Answer) : State :=
  { withMsc msd (fun m => { m with
      stage := .data, totalLen := 200, xferredLen := moved
      cbw := ⟨cbwSignature, 1, 200, if op = 0x28 then 0x80 else 0, 0, 10,
        #v[op, 0, 0, 0, 0, 4, 0, 0, 1, 0, 0, 0, 0, 0, 0, 0]⟩ }) with
    answers := answers, evq := List.replicate n .suspend }

/-- A vendor command of 200 IN or OUT bytes in its data stage. -/
def vendorData (dir : Byte) (moved : Word) (answers : List Answer) : State :=
  withMsc (inData 0xC0 moved 0 answers) fun m => { m with cbw := { m.cbw with dir := dir } }

/-- A command of `total` bytes, IN or OUT, of which `moved` are moved, in the STATUS stage. -/
def inStatus (total moved : Word) (dir : Byte) : State :=
  withMsc msd fun m => { m with
    stage := .status, xferredLen := moved, cbw := { m.cbw with totalBytes := total, dir := dir } }

theorem witness_StatusStep :
    (∀ s ∈ [inStatus 64 63 0x80, inStatus 64 64 0x80, inStatus 64 0 0x00, (inStatus 64 16 0x80).putStalled 0x81 true],
      s.Ready ∧ s.Calm ∧ s.msc.ignored 0x01 = false ∧ s.msc.stage = .status ∧ s.msc.epIn = 0x81) ∧ epOk 0x01 = true
    ∧ ((inStatus 64 16 0x80).putStalled 0x81 true).stalledAt 0x81 = true
    ∧ (inStatus 64 63 0x80).stalledAt 0x81 = false ∧ (inStatus 64 63 0x80).msc.expectsIn
    ∧ (inStatus 64 63 0x80).isOpened 0x81 ∧ ¬ (inStatus 64 64 0x80).msc.expectsIn
    ∧ ((inStatus 64 64 0x80).withRes 1).cswStored.CanCoreXfer 0x81 13
    ∧ ¬ (inStatus 64 0 0x00).msc.expectsIn ∧ (inStatus 64 64 0x80).MemoryOk := by
  refine ⟨fun s hs => ?_, by decide, by decide +kernel, by decide +kernel, by decide +kernel,
    isOpened_of (by decide +kernel), by decide +kernel, canCoreXfer_of (by decide +kernel), by decide +kernel,
    memoryOk_of (by decide +kernel)⟩
  simp only [List.mem_cons, List.not_mem_nil, or_false] at hs
  rcases hs with rfl | rfl | rfl | rfl <;>
    exact ⟨ready_of (by decide +kernel), calm_of (by decide +kernel), by decide +kernel, by decide +kernel,
      by decide +kernel⟩

/-- The state of the status step, as a test. -/
def calmB (s : State) : Bool :=
  s.busTape.isEmpty && s.isrTape.isEmpty && !s.fres && s.cfg.legal && decide (Memory.wf s.pma) && canStatusB s

theorem canStatus_of_calmB {s : State} (h : calmB s = true) : s.CanStatus := by
  simp only [calmB, Bool.and_eq_true, List.isEmpty_iff, Bool.not_eq_true', decide_eq_true_eq] at h
  exact canStatus_of ⟨⟨h.1.1.1.1.1, h.1.1.1.1.2⟩, h.1.1.1.2, h.1.1.2, h.1.2⟩ h.2

theorem statusAfter_of {r : EStateM.Result Fault State Unit}
    (h : okAnd calmB r = some ((), true)) :
    ∃ t, r = .ok () t ∧ t.CanStatus :=
  (okAnd_of h).imp fun _ ht => ⟨ht.1, canStatus_of_calmB ht.2⟩

/-- The data stage of READ_10 and WRITE_10: the last bytes of 200, more to come, and an answer beyond its bound. -/
theorem witness_StatusStep_rdwr :
    (∀ op ∈ [0x28#8, 0x2A], ∀ r ∈ [64#32, 0x1FFFFFF], (inData op 0 0 [ans false r 0 []]).Ready
      ∧ (inData op 0 0 [ans false r 0 []]).Calm ∧ (inData op 0 0 [ans false r 0 []]).msc.ignored 0x01 = false
      ∧ (inData op 0 0 [ans false r 0 []]).msc.stage = .data ∧ (inData op 0 0 [ans false r 0 []]).msc.cbw.op = op)
    ∧ (inData 0x28 136 0 []).msc.totalLen.toNat = ((inData 0x28 136 0 []).msc.xferredLen + 64).toNat
    ∧ (((inData 0x28 136 0 []).withRes 1).moved 64).toStatusStage.CanStatus
    ∧ ¬ (inData 0x28 0 0 []).msc.totalLen.toNat ≤ ((inData 0x28 0 0 []).msc.xferredLen + 64).toNat
    ∧ (∃ v, procRead10 (((inData 0x28 0 0 [ans false 64 0 []]).withRes 1).moved 64) = .ok () v ∧ v.CanStatus)
    ∧ (∃ v, procRead10 (((inData 0x28 0 0 [ans false 0x1FFFFFF 0 []]).withRes 1).moved 64)
        = .error (.appContract .read10) v)
    ∧ (∃ v, write10NewData 64 ((inData 0x2A 0 0 [ans false 64 0 []]).withRes 1) = .ok () v ∧ v.CanStatus)
    ∧ (∃ v, write10NewData 64 ((inData 0x2A 0 0 [ans false 0x1FFFFFF 0 []]).withRes 1)
        = .error (.appContract .write10) v) := by
  refine ⟨fun op ho r hr => ?_, by decide +kernel, canStatus_of_calmB (by decide +kernel), by decide +kernel,
    statusAfter_of (by decide +kernel), faultOf_of (by decide +kernel), statusAfter_of (by decide +kernel),
    faultOf_of (by decide +kernel)⟩
  simp only [List.mem_cons, List.not_mem_nil, or_false] at ho hr
  rcases ho with rfl | rfl <;> rcases hr with rfl | rfl <;>
    exact ⟨ready_of (by decide +kernel), calm_of (by decide +kernel), by decide +kernel, by decide +kernel,
      by decide +kernel⟩

/-- The data stage of a vendor command, IN and OUT, at the end and short of it; the application answers with a failure,
0, the size of `MSCBUF`, and one more. -/
theorem witness_StatusStep_vendor :
    (∀ d ∈ [0x80#8, 0x00], ∀ n ∈ [0#32, 136], ∀ r ∈ [0xFFFFFFFF#32, 0, 512, 513],
      let s := vendorData d n [ans false r 0 []]
      s.Ready ∧ s.Calm ∧ s.msc.ignored 0x01 = false ∧ s.msc.stage = .data ∧ s.msc.cbw.op ≠ opRead10
        ∧ s.msc.cbw.op ≠ opWrite10 ∧ s.msc.cbw.isIn = (d == 0x80) ∧ s.answers = ans false r 0 [] :: [])
    ∧ (vendorData 0x80 136 []).msc.totalLen.toNat = ((vendorData 0x80 136 []).msc.xferredLen + 64).toNat
    ∧ ¬ (vendorData 0x80 0 []).msc.totalLen.toNat ≤ ((vendorData 0x80 0 []).msc.xferredLen + 64).toNat
    ∧ (((vendorData 0x80 136 []).withRes 1).moved 64).toStatusStage.CanStatus
    ∧ (vendorData 0 0 []).cfg.mscBufSize = 512 ∧ (512#32).toInt = 512 ∧ (513#32).toInt = 513 ∧ (0xFFFFFFFF#32).toInt < 0
    ∧ ((((vendorData 0 136 []).withRes 1).moved 64).asked (.scsi 0 (vendorData 0 0 []).msc.cbw.command
        (Memory.readBytes [] 0x20000000 200) 200) (ans false 0 0 []) []).toStatusStage.CanStatus
    ∧ (∀ n ∈ [0#32, 136], ((((vendorData 0 n []).withRes 1).moved 64).asked (.scsi 0 (vendorData 0 0 []).msc.cbw.command
        (Memory.readBytes [] 0x20000000 200) 200) (ans false 0xFFFFFFFF 0 []) []).CanFail)
    ∧ State.CanStatus (((((vendorData 0 136 []).withRes 1).moved 64).asked (.scsi 0 (vendorData 0 0 []).msc.cbw.command
        (Memory.readBytes [] 0x20000000 200) 200) (ans false 0xFFFFFFFF 0 []) []).opFailed statusFailed) := by
  refine ⟨fun d hd n hn r hr => ?_, by decide +kernel, by decide +kernel, canStatus_of_calmB (by decide +kernel),
    by decide +kernel, by decide, by decide, by decide, canStatus_of_calmB (by decide +kernel), fun n hn => ?_,
    canStatus_of_calmB (by decide +kernel)⟩ <;>
    simp only [List.mem_cons, List.not_mem_nil, or_false] at *
  · rcases hd with rfl | rfl <;> rcases hn with rfl | rfl <;> rcases hr with rfl | rfl | rfl | rfl <;>
      exact ⟨ready_of (by decide +kernel), calm_of (by decide +kernel), by decide +kernel, by decide +kernel,
        by decide +kernel, by decide +kernel, by decide +kernel, by decide +kernel⟩
  · rcases hn with rfl | rfl <;> exact canFail_of (by decide +kernel)

/-- An empty `MSCBUF`, a READ_10 that moves nothing (vector V47-37), READ_10 and WRITE_10 of 200 bytes, a vendor command. -/
theorem witness_CommandStage :
    (∀ s ∈ [msd, withCbw msd 0 0 0x28 0 [], withCbw msd 200 0x80 0x28 1 [ans true 200 0 []],
        withCbw msd 200 0 0x2A 1 [ans true 200 0 []], withCbw msd 200 0 0xC0 0 []],
      s.Ready ∧ s.Calm ∧ epOk s.msc.epOut = true ∧ s.msc.ignored s.msc.epOut = false ∧ s.msc.stage = .cmd
        ∧ s.isOpened s.msc.epIn ∧ s.isOpened s.msc.epOut ∧ s.stalledAt s.msc.epIn = false)
    ∧ msd.stagedCbw.signature ≠ cbwSignature
    ∧ (withCbw msd 0 0 0x28 0 []).stagedCbw.signature = cbwSignature
    ∧ (withCbw msd 0 0 0x28 0 []).stagedCbw.op = opRead10 ∧ (withCbw msd 200 0 0x2A 1 []).stagedCbw.op = opWrite10
    ∧ (withCbw msd 0 0 0x28 0 []).stagedCbw.totalBytes = 0 ∧ (withCbw msd 0 0 0x28 0 []).stagedCbw.count = 0
    ∧ ((withCbw msd 0 0 0x28 0 []).withRes 1).cbwAccepted.toStatusStage.cswStored.CanCoreXfer 0x81 13
    ∧ (withCbw msd 0 0 0x28 0 []).stagedCbw.tag = 1
    ∧ rdwr10Validate (withCbw msd 200 0x80 0x28 1 []).stagedCbw = statusPassed
    ∧ rdwr10Validate (withCbw msd 200 0 0x2A 1 []).stagedCbw = statusPassed
    ∧ (withCbw msd 200 0 0xC0 0 []).stagedCbw.op ∉ [opRead10, opWrite10]
    ∧ (withCbw msd 200 0 0xC0 0 []).stagedCbw.isIn = false
    ∧ (withCbw msd 200 0x80 0xC0 0 []).stagedCbw.isIn = true := by
  refine ⟨fun s hs => ?_, by decide +kernel, by decide +kernel, by decide +kernel, by decide +kernel,
    by decide +kernel, by decide +kernel, canCoreXfer_of (by decide +kernel), by decide +kernel, by decide +kernel,
    by decide +kernel, by decide +kernel, by decide +kernel, by decide +kernel⟩
  simp only [List.mem_cons, List.not_mem_nil, or_false] at hs
  rcases hs with rfl | rfl | rfl | rfl | rfl <;>
    exact ⟨ready_of (by decide +kernel), calm_of (by decide +kernel), by decide +kernel, by decide +kernel,
      by decide +kernel, isOpened_of (by decide +kernel), isOpened_of (by decide +kernel), by decide +kernel⟩

/-- The state in which a valid CBW of `MSCBUF` is dispatched, with a staging buffer of `size` bytes. -/
def accepted (total flags op count : Byte) (a : Answer) (size : Nat := 512) : State :=
  State.cbwAccepted (State.withRes { withCbw msd total flags op count [a, ans true 0 0 []] with
    cfg := { Config.default with mscBufSize := size } } 1)

/-- READ_10 and WRITE_10: refused by their validation, read, beyond the bound, armed, write protected. -/
theorem witness_CommandStage_rdwr :
    (∀ d ∈ [0x28#8, 0x2A], let u := accepted 200 0x80 d 0 (ans true 0 0 [])
      rdwr10Validate u.msc.cbw ≠ statusPassed ∧ u.CanFail
        ∧ (u.opFailed (rdwr10Validate u.msc.cbw)).CanStatus)
    ∧ (∃ v, procRead10 (accepted 200 0x80 0x28 1 (ans true 200 0 [])) = .ok () v ∧ v.CanStatus)
    ∧ (∃ v, procRead10 (accepted 200 0x80 0x28 1 (ans true 201 0 [])) = .error (.appContract .read10) v)
    ∧ ((accepted 200 0 0x2A 1 (ans true 0 0 [])).asked (.isWritable 0) (ans true 0 0 [])
        [ans true 0 0 []]).CanCoreXfer 0x01 200
    ∧ State.CanFail (((accepted 200 0 0x2A 1 (ans false 0 0 [])).asked (.isWritable 0) (ans false 0 0 [])
        [ans true 0 0 []]).updMsc fun m => { m with sense := ⟨0x07, 0x27, 0x00⟩ })
    ∧ State.CanStatus ((((accepted 200 0 0x2A 1 (ans false 0 0 [])).asked (.isWritable 0) (ans false 0 0 [])
        [ans true 0 0 []]).updMsc fun m => { m with sense := ⟨0x07, 0x27, 0x00⟩ }).opFailed statusFailed) := by
  refine ⟨fun d hd => ?_, statusAfter_of (by decide +kernel), faultOf_of (by decide +kernel),
    canCoreXfer_of (by decide +kernel), canFail_of (by decide +kernel), canStatus_of_calmB (by decide +kernel)⟩
  simp only [List.mem_cons, List.not_mem_nil, or_false] at hd
  rcases hd with rfl | rfl <;>
    exact ⟨by decide +kernel, canFail_of (by decide +kernel), canStatus_of_calmB (by decide +kernel)⟩

/-- The answer of a command, with a staging buffer of 512 bytes, that the status step or an IN transfer follows. -/
theorem answered_of {r : EStateM.Result Fault State Int} {a : Int} {n : Nat}
    (h : okAnd (fun t => canXferB ((t.updMsc fun m => { m with totalLen := BitVec.ofNat 32 n }).putBusy 0x81 true) 0x81
      (BitVec.ofNat 32 t.cfg.mscBufAddr) none (BitVec.ofNat 16 n)) r = some (a, true)) :
    ∃ v, r = .ok a v ∧ State.CanCoreXfer (v.updMsc fun m => { m with totalLen := BitVec.ofNat 32 n }) 0x81 n :=
  (okAnd_of h).imp fun _ ht => ⟨ht.1, canCoreXfer_of ht.2⟩

/-- Other commands: OUT data one byte beyond the staging buffer and exactly its size; answers of more than the host
expects, of 0 for nothing, a failure, 0 for something, data for nothing, beyond the bound. -/
theorem witness_CommandStage_other :
    (∀ n ∈ [199, 200], (accepted 200 0 0xC0 0 (ans true 0 0 []) n).cfg.legal = true)
    ∧ (accepted 200 0 0xC0 0 (ans true 0 0 []) 199).CanFail
    ∧ ((accepted 200 0 0xC0 0 (ans true 0 0 []) 199).opFailed statusFailed).CanStatus
    ∧ (accepted 200 0 0xC0 0 (ans true 0 0 []) 200).CanCoreXfer 0x01 200
    ∧ (∃ v, procBuiltin (accepted 7 0x80 0x25 0 (ans true 8 512 [])) = .ok 8 v
        ∧ State.CanCoreXfer (v.updMsc fun m => { m with totalLen := BitVec.ofNat 32 7 }) 0x81 7)
    ∧ (∃ v, appScsi false 200 (accepted 200 0x80 0xC0 0 (ans true 8 0 [])) = .ok 8 v
        ∧ State.CanCoreXfer (v.updMsc fun m => { m with totalLen := BitVec.ofNat 32 8 }) 0x81 8)
    ∧ (∃ v, procBuiltin (accepted 0 0 0x00 0 (ans true 0 0 [])) = .ok 0 v ∧ calmB v.toStatusStage = true)
    ∧ (∃ v, procBuiltin (accepted 8 0x80 0x00 0 (ans false 0 0 [])) = .ok (-1) v
        ∧ (v.opened (epNum v.msc.dataEp) (epDir v.msc.dataEp) && calmB (v.opFailed statusFailed)) = true)
    ∧ (∃ v, procBuiltin (accepted 8 0x80 0x00 0 (ans true 0 0 [])) = .ok 0 v
        ∧ (v.opened (epNum v.msc.dataEp) (epDir v.msc.dataEp) && calmB (v.opFailed statusFailed)) = true)
    ∧ (∃ v, procBuiltin (accepted 0 0 0x25 0 (ans true 8 512 [])) = .ok 8 v
        ∧ (v.opened (epNum v.msc.dataEp) (epDir v.msc.dataEp) && calmB (v.opFailed statusFailed)) = true)
    ∧ (∃ v, procBuiltin (accepted 18 0x80 0x03 0 (ans true 513 0 [])) = .error (.appContract .requestSense) v)
    ∧ (∃ v, appScsi false 200 (accepted 200 0x80 0xC0 0 (ans true 513 0 [])) = .error (.appContract .scsi) v) :=
  ⟨by decide +kernel, canFail_of (by decide +kernel), canStatus_of_calmB (by decide +kernel),
    canCoreXfer_of (by decide +kernel), answered_of (by decide +kernel), answered_of (by decide +kernel),
    okAnd_of (by decide +kernel), okAnd_of (by decide +kernel), okAnd_of (by decide +kernel),
    okAnd_of (by decide +kernel), faultOf_of (by decide +kernel), faultOf_of (by decide +kernel)⟩

theorem witness_FailScsiOp : (inData 0x28 0 0 []).Quiet ∧ (inData 0x28 0 0 []).Running
    ∧ (inData 0x28 0 0 []).cfg.legal = true ∧ (inData 0x28 0 0 []).msc.cbw.totalBytes ≠ 0
    ∧ (inData 0x28 0 0 []).msc.residue ≠ 0 ∧ (inData 0x28 0 0 []).isOpened (inData 0x28 0 0 []).msc.dataEp :=
  ⟨⟨rfl, rfl⟩, show State.fres _ = false by decide +kernel, by decide +kernel, by decide +kernel, by decide +kernel,
    isOpened_of (by decide +kernel)⟩

theorem witness_RdwrValidate : (inData 0x28 0 0 []).msc.cbw.op = opRead10 ∧ (inData 0x2A 0 0 []).msc.cbw.op = opWrite10 := by
  decide +kernel

/-! #### SCSI -/

theorem witness_Read10Chunk :
    (∀ r ∈ [0xFFFFFFF0#32, 201, 0xFFFFFFFF, 0, 200],
      Base (inData 0x28 0 15 [ans false r 0 []]) ∧ (inData 0x28 0 15 [ans false r 0 []]).Room
        ∧ (inData 0x28 0 15 [ans false r 0 []]).msc.cbw.count ≠ 0
        ∧ (inData 0x28 0 15 [ans false r 0 []]).msc.cbw.count.toNat
            ≤ (inData 0x28 0 15 [ans false r 0 []]).msc.cbw.totalBytes.toNat
        ∧ min (inData 0x28 0 15 [ans false r 0 []]).cfg.mscBufSize
            ((inData 0x28 0 15 [ans false r 0 []]).msc.cbw.totalBytes - (inData 0x28 0 15 [ans false r 0 []]).msc.xferredLen).toNat
            = 200)
    ∧ Config.default.asyncRet = 0xFFFFFFF0 ∧ (200 : Int) < (201#32).toInt ∧ (0xFFFFFFFF#32).toInt < 0
    ∧ 0 < (200#32).toInt ∧ (200#32).toInt ≤ 200
    ∧ (inData 0x28 0 15 []).isOpened 0x81
    ∧ (((inData 0x28 0 15 [ans false 200 0 []]).asked (.read10 0 4 0 200) (ans false 200 0 []) []).ramStored 0x20000000
        (takeBytes 200 [])).CanCoreXfer 0x81 200 := by
  refine ⟨fun r hr => ?_, rfl, by decide, by decide, by decide, by decide, isOpened_of (by decide +kernel),
    canCoreXfer_of (by decide +kernel)⟩
  simp only [List.mem_cons, List.not_mem_nil, or_false] at hr
  rcases hr with rfl | rfl | rfl | rfl | rfl <;>
    exact ⟨base_of (by decide +kernel), room_of (by decide +kernel), by decide +kernel, by decide +kernel,
      by decide +kernel⟩

theorem witness_Write10Data :
    (∀ r ∈ [0xFFFFFFF0#32, 201, 0xFFFFFFFF, 0, 199, 200],
      Base (inData 0x2A 0 15 [ans false r 0 []]) ∧ (inData 0x2A 0 15 [ans false r 0 []]).Room
        ∧ (inData 0x2A 0 15 [ans false r 0 []]).msc.cbw.count ≠ 0
        ∧ (inData 0x2A 0 15 [ans false r 0 []]).msc.cbw.count.toNat
            ≤ (inData 0x2A 0 15 [ans false r 0 []]).msc.cbw.totalBytes.toNat
        ∧ (inData 0x2A 0 15 [ans false r 0 []]).msc.totalLen.toNat ≤ (0#32 + 200#32).toNat)
    ∧ (200#32).toNat ≤ Config.default.mscBufSize ∧ Config.default.asyncRet = 0xFFFFFFF0
    ∧ ((200#32).toNat : Int) < (201#32).toInt ∧ (0xFFFFFFFF#32).toInt < 0 ∧ 0 < (200#32).toNat
    ∧ 0 < (199#32).toInt ∧ (199#32).toNat < (200#32).toNat ∧ (200#32).toInt ≥ 0
    ∧ (inData 0x2A 0 15 []).isOpened 0x01
    ∧ ((inData 0x2A 0 15 []).msc.xferredLen + 64).toNat < (inData 0x2A 0 15 []).msc.totalLen.toNat
    ∧ (((inData 0x2A 0 15 []).asked (.write10 0 4 0 (Memory.readBytes [] 0x20000000 64)) (ans false 64 0 []) []).moved
        64).CanCoreXfer 0x01 136 := by
  refine ⟨fun r hr => ?_, by decide, rfl, by decide, by decide, by decide, by decide, by decide, by decide,
    isOpened_of (by decide +kernel), by decide +kernel, canCoreXfer_of (by decide +kernel)⟩
  simp only [List.mem_cons, List.not_mem_nil, or_false] at hr
  rcases hr with rfl | rfl | rfl | rfl | rfl | rfl <;>
    exact ⟨base_of (by decide +kernel), room_of (by decide +kernel), by decide +kernel, by decide +kernel,
      by decide +kernel⟩

theorem witness_BuiltinCommands :
    (∀ op ∈ [opTestUnitReady, opStartStopUnit, opPreventAllow, opReadCapacity10, opReadFormatCapacity, opModeSense6,
        opRequestSense, opInquiry],
      (inData op 0 0 [ans true 0 0 [], ans false 1 512 []]).msc.cbw.op = op
        ∧ (inData op 0 0 [ans true 0 0 [], ans false 1 512 []]).cfg.legal = true)
    ∧ (inData 0 0 0 [ans true 0 0 [], ans false 1 512 []]).answers = ans true 0 0 [] :: ans false 1 512 [] :: []
    ∧ (ans true 0 0 []).ret = 0 ∧ (ans true 1 512 []).ret ≠ 0 ∧ (ans true 1 512 []).size ≠ 0
    ∧ ({ ans true 0 0 [] with keep := true } : Answer).keep = true ∧ (ans true 0 0 []).keep = false
    ∧ (inData 0 0 0 []).cfg.mscBufSize = 512 ∧ (512#32).toInt = 512 ∧ (513#32).toInt = 513
    ∧ (512#32).toNat = 512 ∧ (513#32).toNat = 513 := by
  refine ⟨fun op hop => ?_, by decide +kernel, rfl, by decide, by decide, rfl, rfl, by decide +kernel, by decide,
    by decide, by decide, by decide⟩
  simp only [List.mem_cons, List.not_mem_nil, or_false] at hop
  rcases hop with rfl | rfl | rfl | rfl | rfl | rfl | rfl | rfl <;> exact ⟨by decide +kernel, by decide +kernel⟩

/-! #### Steps and runs -/

/-- The device with one event queued. -/
def oneEvent (e : Event) : State := { msd with evq := [e] }

/-- A deferred answer `v` awaited by a command of opcode `op` that has asked for or offered `x` bytes (vector V48-15). -/
def deferred (op : Byte) (v x : Word) : State :=
  { withMsc (inData op 0 0 []) (fun m => { m with pendingIo := true, ioLen := x }) with evq := [.deferred v] }

/-- The state in which the answer is handled. -/
def awaited (op : Byte) (x : Word) : State :=
  State.updMsc { deferred op 0 x with evq := [] } fun m => { m with pendingIo := false }

theorem witness_TaskStep :
    (∀ e ∈ [Event.suspend, .resume, .sof 0x7FF, .busReset, .setupReceived #v[0, 5, 5, 0, 0, 0, 0, 0],
        .xferComplete 0x02 8, .xferComplete 0x81 8, .deferred 512],
      (oneEvent e).Ready ∧ (oneEvent e).evq = e :: [])
    ∧ msd.Ready ∧ msd.evq = [] ∧ (0x02#8 ≠ msd.msc.epIn ∧ 0x02#8 ≠ msd.msc.epOut)
    ∧ (oneEvent (.xferComplete 0x81 8)).msc.epOut ≠ 0 ∧ 0x81#8 = msd.msc.epIn ∧ epOk 0x81 = true
    ∧ (oneEvent (.deferred 512)).msc.pendingIo = false := by
  refine ⟨fun e _ => ⟨⟨rfl, msd_base.1.legal⟩, rfl⟩, msd_base.1, rfl, by decide, by decide, by decide, by decide, rfl⟩

/-- Deferred answers to a READ_10 and a WRITE_10 of 200 bytes and to another command, at each bound; WRITE_10 with all
and with 64 of its bytes offered. -/
theorem witness_TaskStep_deferred :
    (∀ op ∈ [opRead10, opWrite10, 0xC0#8], ∀ v ∈ [0xFFFFFFF0#32, 201, 0xFFFFFFFF, 0, 64, 199, 200], ∀ x ∈ [64#32, 200],
      (deferred op v x).Ready ∧ (deferred op v x).Calm ∧ (deferred op v x).evq = .deferred v :: []
        ∧ (deferred op v x).msc.pendingIo = true ∧ (deferred op v x).msc.cbw.op = op
        ∧ (deferred op v x).msc.stage = .data ∧ State.Room { deferred op v x with evq := [] })
    ∧ min (deferred 0x28 0 0).cfg.mscBufSize
        ((deferred 0x28 0 0).msc.cbw.totalBytes - (deferred 0x28 0 0).msc.xferredLen).toNat = 200
    ∧ Config.default.asyncRet = 0xFFFFFFF0 ∧ (200 : Int) < (201#32).toInt ∧ (0xFFFFFFFF#32).toInt < 0
    ∧ State.CanFail ((awaited opRead10 0).updMsc fun m => { m with sense := ⟨0x02, 0x3A, 0x00⟩ })
    ∧ State.CanStatus (((awaited opRead10 0).updMsc fun m => { m with sense := ⟨0x02, 0x3A, 0x00⟩ }).opFailed statusFailed)
    ∧ (awaited opRead10 0).CanCoreXfer 0x81 200
    ∧ State.CanFail (((awaited opWrite10 64).moved 64).updMsc fun m => { m with sense := ⟨0x02, 0x3A, 0x00⟩ })
    ∧ State.CanStatus ((((awaited opWrite10 64).moved 64).updMsc fun m =>
        { m with sense := ⟨0x02, 0x3A, 0x00⟩ }).opFailed statusFailed)
    ∧ (199#32).toNat < (200#32).toNat ∧ (200#32).toNat ≤ (awaited opWrite10 200).cfg.mscBufSize
    ∧ (awaited opWrite10 200).msc.totalLen.toNat = ((awaited opWrite10 200).msc.xferredLen + 200).toNat
    ∧ ((awaited opWrite10 200).moved 200).toStatusStage.CanStatus
    ∧ ((awaited opWrite10 64).msc.xferredLen + 64).toNat < (awaited opWrite10 64).msc.totalLen.toNat
    ∧ ((awaited opWrite10 64).moved 64).CanCoreXfer 0x01 136
    ∧ (awaited 0xC0 0).CanStatus := by
  refine ⟨fun op ho v hv x hx => ?_, by decide +kernel, rfl, by decide, by decide, canFail_of (by decide +kernel),
    canStatus_of_calmB (by decide +kernel), canCoreXfer_of (by decide +kernel), canFail_of (by decide +kernel),
    canStatus_of_calmB (by decide +kernel), by decide, by decide +kernel, by decide +kernel,
    canStatus_of_calmB (by decide +kernel), by decide +kernel, canCoreXfer_of (by decide +kernel),
    canStatus_of_calmB (by decide +kernel)⟩
  exact ⟨⟨rfl, msd_base.1.legal⟩, ⟨⟨rfl, rfl⟩, msd_base.2.2.2.2.2, msd_base.1.legal, msd_base.2.2.2.1⟩, rfl, rfl,
    rfl, rfl, room_of (show 0 < 16 by decide)⟩

theorem witness_FaultTerminal : { dev with fault := some (.pmaLen 1025) }.fault = some (.pmaLen 1025) := rfl

/-- A command scheduled from reset, and the three cases of an empty schedule. -/
theorem witness_StepRunsDecoded :
    { State.reset with schedule := [.command 0x30000000 0 0] }.Ready
      ∧ decode State.reset.cfg.nEp 0x30000000 0 0 = .ok .dcdInit
      ∧ (pend 0x9D00 0x0400).Ready ∧ (pend 0x9D00 0x0400).schedule = [] ∧ (pend 0x9D00 0x0400).isrEnabled = true
      ∧ (oneEvent .suspend).Ready ∧ (oneEvent .suspend).isrEnabled = false ∧ (oneEvent .suspend).evq ≠ []
      ∧ dev.Ready ∧ dev.isrEnabled = false ∧ dev.evq = [] :=
  ⟨⟨rfl, by decide⟩, rfl, ⟨rfl, by decide⟩, rfl, by decide, ⟨rfl, by decide⟩, by decide, by decide, dev_base.1,
    by decide, rfl⟩

/-- A step of the ISR from a state in the invariant that no helper built as a reset state. -/
theorem witness_StepInv : ∃ t, bothDone.Inv ∧ step bothDone = .next t :=
  ⟨_, bothDone_inv, next_of (d := dev) (by decide +kernel)⟩

/-- The status step sends the CSW of a READ_10 that has moved its data. -/
def cswDue : State :=
  { withMsc (inData 0x28 200 0 []) (fun m => { m with stage := .status, csw := ⟨cswSignature, 1, 0, statusPassed⟩ }) with
    evq := [.xferComplete 0x81 200] }

theorem witness_StepCswOk : ∃ t, cswDue.CswOk ∧ cswDue.msc.stage = .status ∧ step cswDue = .next t
    ∧ t.msc.stage = .statusSent :=
  ⟨_, fun _ => by decide +kernel, by decide +kernel, next_of (d := dev) (by decide +kernel), by decide +kernel⟩

end Sys2Proof.Tests
end

/-! PROOFS. The invariant of the machine (O59), the finality of a fault (O56), and what a step runs (O57). -/

namespace Sys2Proof.Machine

/-! ### The invariant and the fields it reads

`State.Inv` reads the parameters, the memories, the registers but `FNR`, the cursor, the slots, the queue and the
FIFOs. One lemma per group of fields says what a change of that group has to keep. -/

/-- The memories' law reads the parameters and the two memories. -/
theorem State.MemoryOk.of_eq {s t : State} (h : s.MemoryOk) (hc : t.cfg = s.cfg) (hp : t.pma = s.pma)
    (hr : t.ram = s.ram) : t.MemoryOk := by
  obtain ⟨pmaWf, ramWf, pmaInside, ramInside⟩ := h
  exact ⟨hp ▸ pmaWf, hr ▸ ramWf, hp ▸ hc ▸ pmaInside, hr ▸ hc ▸ ramInside⟩

/-- The registers' law reads the parameters and the five registers with bits that do not exist. -/
theorem State.RegistersOk.of_eq {s t : State} (h : s.RegistersOk) (hc : t.cfg = s.cfg) (he : t.epr = s.epr)
    (hn : t.cntr = s.cntr) (hi : t.istr = s.istr) (hd : t.daddr = s.daddr) (hb : t.btable = s.btable) :
    t.RegistersOk := by
  obtain ⟨absent, cntr, istr, daddr, btable⟩ := h
  refine ⟨fun i hle => ?_, hn ▸ cntr, hi ▸ istr, hd ▸ daddr, hb ▸ btable⟩
  have := absent i (hc ▸ hle)
  rwa [State.eprAt, he]

section
variable {s t : State} (h : s.Inv)
include h

/-- The fields the invariant does not read may change. -/
theorem State.Inv.of_unread
    (e : t = { s with
      fnr := t.fnr, xc := t.xc, epBusy := t.epBusy, epStalled := t.epStalled, remoteWakeCd := t.remoteWakeCd
      pullup := t.pullup, irqEn := t.irqEn, msc := t.msc, cmd := t.cmd, arg0 := t.arg0, arg1 := t.arg1
      res := t.res, fault := t.fault, schedule := t.schedule, busTape := t.busTape, isrTape := t.isrTape
      answers := t.answers, draws := t.draws, outputs := t.outputs }) : t.Inv := by
  rw [e]
  exact ⟨h.legal, h.memory.of_eq rfl rfl rfl, h.registers.of_eq rfl rfl rfl rfl rfl rfl, h.istr, h.held, h.cursor,
    h.slots, h.queue, h.fifos⟩

/-- The memories may change within their law. -/
theorem State.Inv.withMemory (e : t = { s with pma := t.pma, ram := t.ram }) (hm : t.MemoryOk) : t.Inv := by
  rw [e] at hm ⊢
  exact ⟨h.legal, hm, h.registers.of_eq rfl rfl rfl rfl rfl rfl, h.istr, h.held, h.cursor, h.slots, h.queue, h.fifos⟩

/-- The registers may change within their laws. -/
theorem State.Inv.withRegisters
    (e : t = { s with
      epr := t.epr, cntr := t.cntr, istr := t.istr, daddr := t.daddr, btable := t.btable, fnr := t.fnr })
    (hr : t.RegistersOk) (hi : t.IstrOk) (hh : t.HeldOk) : t.Inv := by
  rw [e] at hr hi hh ⊢
  exact ⟨h.legal, h.memory.of_eq rfl rfl rfl, hr, hi, hh, h.cursor, h.slots, h.queue, h.fifos⟩

/-- The cursor and the slots may change within their laws. -/
theorem State.Inv.withAllocation (e : t = { s with pmaCursor := t.pmaCursor, slots := t.slots })
    (hc : t.CursorOk) (hs : t.SlotsOk) : t.Inv := by
  rw [e] at hc hs ⊢
  exact ⟨h.legal, h.memory.of_eq rfl rfl rfl, h.registers.of_eq rfl rfl rfl rfl rfl rfl, h.istr, h.held, hc, hs,
    h.queue, h.fifos⟩

/-- The event queue and the FIFOs may change within their laws. -/
theorem State.Inv.withQueues (e : t = { s with evq := t.evq, fifos := t.fifos })
    (hq : t.QueueOk) (hf : t.FifosOk) : t.Inv := by
  rw [e] at hq hf ⊢
  exact ⟨h.legal, h.memory.of_eq rfl rfl rfl, h.registers.of_eq rfl rfl rfl rfl rfl rfl, h.istr, h.held, h.cursor,
    h.slots, hq, hf⟩

end

/-! ### Memory (20_memory.md rules R100, R104) -/

section
variable {s : State} (h : s.MemoryOk) {a : Nat} (b : Byte)
include h

/-- A byte stored inside packet memory. -/
theorem State.MemoryOk.writePma (ha : a < s.cfg.pmaSize) :
    State.MemoryOk { s with pma := Memory.write s.pma a b } where
  pmaWf := Memory.wf_write h.pmaWf
  ramWf := h.ramWf
  pmaInside c hc := by
    rcases Memory.mem_write hc with ⟨rfl, -⟩ | hc
    · exact ha
    · exact h.pmaInside c hc
  ramInside := h.ramInside

/-- A byte stored in mapped RAM. -/
theorem State.MemoryOk.writeRam (ha : Config.mapped s.cfg a = true) :
    State.MemoryOk { s with ram := Memory.write s.ram a b } where
  pmaWf := h.pmaWf
  ramWf := Memory.wf_write h.ramWf
  pmaInside := h.pmaInside
  ramInside c hc := by
    rcases Memory.mem_write hc with ⟨rfl, -⟩ | hc
    · exact ha
    · exact h.ramInside c hc

end

/-! ### FIFO objects (20_memory.md rule R106) -/

/-- The FIFOs of a list after one is put are that one and old ones. -/
theorem mem_fifoPut {m : List (Nat × Fifo)} {k : Nat} {f : Fifo} {p : Nat × Fifo} (h : p ∈ fifoPut m k f) :
    p = (k, f) ∨ p ∈ m := by
  induction m with
  | nil => exact .inl (List.mem_singleton.1 h)
  | cons q m ih =>
    unfold fifoPut at h
    split at h
    · rcases List.mem_cons.1 h with rfl | h
      · exact .inr List.mem_cons_self
      · exact (ih h).imp_right (List.mem_cons_of_mem _)
    · split at h
      · exact (List.mem_cons.1 h).imp_right (List.mem_cons_of_mem _)
      · exact List.mem_cons.1 h

/-- The FIFO a handle names holds at most its capacity, where all do; the one of no handle is empty. -/
theorem fifoFind_le_cap {m : List (Nat × Fifo)} (h : ∀ p ∈ m, p.2.q.length ≤ p.2.cap) (k : Nat) :
    (fifoFind m k).q.length ≤ (fifoFind m k).cap := by
  induction m with
  | nil => exact Nat.le_refl 0
  | cons q m ih =>
    unfold fifoFind
    split
    · exact h q List.mem_cons_self
    · exact ih fun p hp => h p (List.mem_cons_of_mem _ hp)

/-- A FIFO that holds at most its capacity is put, or one that holds no more than the one it replaces. -/
theorem State.FifosOk.put {s : State} (h : s.FifosOk) {k : Nat} {f : Fifo}
    (hf : f.q.length ≤ f.cap ∨ f.cap = (fifoFind s.fifos k).cap ∧ f.q.length ≤ (fifoFind s.fifos k).q.length) :
    State.FifosOk { s with fifos := fifoPut s.fifos k f } := fun p hp => by
  rcases mem_fifoPut hp with rfl | hp
  · have hle := fifoFind_le_cap h k
    change f.q.length ≤ f.cap
    omega
  · exact h p hp

/-! ### The event queue (10_state.md rule R61) -/

/-- The queue without its head. -/
theorem State.QueueOk.tail {s : State} (h : s.QueueOk) {ev : Event} {rest : List Event} (hq : s.evq = ev :: rest) :
    State.QueueOk { s with evq := rest } := by
  have : s.evq.length ≤ s.cfg.evqDepth := h
  rw [hq, List.length_cons] at this
  change rest.length ≤ s.cfg.evqDepth
  omega

/-! ### The cursor (10_state.md rule R53; 20_memory.md rule R109) -/

/-- The cursor of `PMA_RESET` is even, and packet memory has room for endpoint 0 behind it (00_scope.md rule R9). -/
theorem pmaFirst_bounds {c : Config} (h : c.legal = true) :
    pmaFirst c % 2 = 0 ∧ pmaFirst c + 2 * aligned c.ep0Size ≤ c.pmaSize := by
  obtain ⟨-, -, hb, hp, -⟩ := Config.legal_bounds h
  rw [aligned_ep0 h, pmaFirst]
  omega

/-- The values an allocation or a reset of the allocator gives the cursor (42_pma_btable.md rules R241, R242) are in
range and even. -/
theorem State.Inv.cursorOk_of_allocated {s : State} (h : s.Inv) {n : Nat}
    (hn : (∃ k, n = s.pmaCursor + 2 * k ∧ n ≤ s.cfg.pmaSize) ∨ n = pmaFirst s.cfg ∨
      n = pmaFirst s.cfg + 2 * aligned s.cfg.ep0Size) : State.CursorOk { s with pmaCursor := n } := by
  have hf := pmaFirst_bounds h.legal
  have hc : s.pmaCursor % 2 = 0 := h.cursor.2
  change n ≤ s.cfg.pmaSize ∧ n % 2 = 0
  rcases hn with ⟨k, rfl, hk⟩ | rfl | rfl <;> omega

/-! ### Slots (42_pma_btable.md rule R252) -/

theorem Slot.free_ok : Slot.free.ok := by simp [Slot.ok, Slot.free]

/-- A slot a direction fits into obeys the law once it is taken: an ISO slot had the other direction free. -/
theorem Slot.ok_take {v : Slot} {n : BitVec 4} {d : Dir} {ty : BitVec 2} (hf : v.fits n d ty = true) :
    (v.take n d ty).ok := by
  refine ⟨fun _ => ⟨?_, ?_⟩, fun hiso => ?_⟩
  · change n.setWidth 8 ≠ 0xFF#8
    bv_omega
  · change (ty.setWidth 8).toNat < 4
    have := ty.isLt
    simp only [BitVec.toNat_setWidth]
    omega
  · have code : ∀ c : BitVec 2, c.setWidth 8 = 1#8 → c = xferIso := by decide
    obtain rfl := code ty hiso
    cases d <;> simp_all [Slot.fits, Slot.take, Slot.alloc, Dir.opp]

/-- One slot changed to one that obeys the law. -/
theorem State.SlotsOk.put {s : State} (h : s.SlotsOk) {i : Nat} {v : Slot} (hv : v.ok) : (s.putSlot i v).SlotsOk :=
  fun j => by
    rw [putSlot_slotAt]
    split
    · exact hv
    · exact h j

/-! ### The report of `ISTR` (10_state.md rules R47, R48) -/

/-- `ISTR` without its rc_w0 flags: what only the peripheral changes, and the reserved bits. -/
def reportOf (v : Half) : Half := v &&& 0x80FF#16

@[simp] theorem istrCtr_reportOf (v : Half) : istrCtr (reportOf v) = istrCtr v := by simp [istrCtr, reportOf]

@[simp] theorem istrDir_reportOf (v : Half) : istrDir (reportOf v) = istrDir v := by simp [istrDir, reportOf]

@[simp] theorem istrEpId_reportOf (v : Half) : istrEpId (reportOf v) = istrEpId v := by
  rw [istrEpId, istrEpId, reportOf, BitVec.extractLsb'_and]
  exact congrArg BitVec.toNat (BitVec.and_allOnes)

@[simp] theorem reportOf_reserved (v : Half) : reportOf v &&& 0x00E0#16 = v &&& 0x00E0#16 := and_mask v _ _

/-- A change of the flags only leaves the report as it was. -/
theorem reportOf_or_flags (v f : Half) (hf : reportOf f = 0#16) : reportOf (v ||| f) = reportOf v := by
  unfold reportOf at *
  rw [BitVec.and_or_distrib_right, hf, BitVec.or_zero]

theorem reportOf_istrWrite (v w : Half) : reportOf (istrWrite v w) = reportOf v := by
  ext j hj
  simp only [reportOf, istrWrite, BitVec.getElem_and, BitVec.getElem_or]
  cases (0x80FF#16)[j] <;> simp

/-- The report on register `i`, whose CTR_RX is `rx`. -/
def ctrReport (rx : Bool) (i : Nat) : Half :=
  0x8000#16 ||| (if rx then 0x0010#16 else 0) ||| BitVec.ofNat 16 (i % 16)

/-- What a report on an existing register says. -/
theorem ctrReport_reads (rx : Bool) {i : Nat} (hi : i < 8) :
    istrCtr (ctrReport rx i) = true ∧ istrEpId (ctrReport rx i) = i ∧ istrDir (ctrReport rx i) = rx
      ∧ ctrReport rx i &&& 0x00E0#16 = 0#16 ∧ reportOf (ctrReport rx i) = ctrReport rx i := by
  have reads : ∀ (b : Bool) (j : Fin 8), istrCtr (ctrReport b j) = true ∧ istrEpId (ctrReport b j) = j
      ∧ istrDir (ctrReport b j) = b ∧ ctrReport b j &&& 0x00E0#16 = 0#16
      ∧ reportOf (ctrReport b j) = ctrReport b j := by decide
  exact reads rx ⟨i, hi⟩

/-- The first register with a CTR bit is one that exists. -/
theorem firstCtr_lt {n i : Nat} {e : Vector Half 8} (h : firstCtr n e = some i) : i < 8 := by
  obtain ⟨hi, -⟩ := List.findIdx?_eq_some_iff_getElem.1 h
  have hlt : i < n ∧ i < 8 := by simpa using hi
  exact hlt.2

theorem firstCtr_zero (n : Nat) : firstCtr n (Vector.replicate 8 0) = none := by
  refine List.findIdx?_eq_none_iff.2 fun r hr => ?_
  have : r = 0 := by simpa using List.mem_of_mem_take hr
  simp [this, ctrRx, ctrTx]

theorem reportOf_istrOf_some {n i : Nat} {e : Vector Half 8} (h : firstCtr n e = some i) (old : Half) :
    reportOf (istrOf n e old) = ctrReport (ctrRx (e[i]?.getD 0)) i := by
  obtain ⟨-, -, -, -, hr⟩ := ctrReport_reads (ctrRx (e[i]?.getD 0)) (firstCtr_lt h)
  have hf : reportOf (old &&& 0x7F00#16) = 0#16 := by rw [reportOf, and_mask]; exact BitVec.and_zero
  have he : istrOf n e old = ctrReport (ctrRx (e[i]?.getD 0)) i ||| (old &&& 0x7F00#16) := by
    simp only [istrOf, h, ctrReport]
    ac_rfl
  rw [he, reportOf_or_flags _ _ hf, hr]

/-- Recomputing `ISTR` makes it report the CTR bits. -/
theorem State.istrOk_of_istrOf {t : State} {old : Half} (h : t.istr = istrOf t.cfg.nEp t.epr old) : t.IstrOk := by
  unfold State.IstrOk
  rw [h]
  cases hf : firstCtr t.cfg.nEp t.epr with
  | none => simp [istrOf, hf, istrCtr]
  | some i =>
    obtain ⟨hc, hi, hd, -, -⟩ := ctrReport_reads (ctrRx (t.eprAt i)) (firstCtr_lt hf)
    have hr := reportOf_istrOf_some hf old
    dsimp only
    rw [← istrCtr_reportOf, ← istrEpId_reportOf, ← istrDir_reportOf, hr]
    exact ⟨hc, hi, hd⟩

/-- Recomputing `ISTR` sets no reserved bit. -/
theorem istrOf_reserved {old : Half} (h : old &&& 0x00E0#16 = 0#16) (n : Nat) (e : Vector Half 8) :
    istrOf n e old &&& 0x00E0#16 = 0#16 := by
  cases hf : firstCtr n e with
  | none => simp only [istrOf, hf]; rw [and_mask]; exact h
  | some i =>
    obtain ⟨-, -, -, h0, -⟩ := ctrReport_reads (ctrRx (e[i]?.getD 0)) (firstCtr_lt hf)
    rw [← reportOf_reserved, reportOf_istrOf_some hf, h0]

/-- The law of `ISTR` reads the report and the endpoint registers. -/
theorem State.IstrOk.of_report {s t : State} (h : s.IstrOk) (hc : t.cfg = s.cfg) (he : t.epr = s.epr)
    (hr : reportOf t.istr = reportOf s.istr) : t.IstrOk := by
  unfold State.IstrOk State.eprAt at *
  rw [hc, he, ← istrCtr_reportOf, ← istrDir_reportOf, ← istrEpId_reportOf, hr, istrCtr_reportOf, istrDir_reportOf,
    istrEpId_reportOf]
  exact h

/-! ### Registers (10_state.md rules R43 to R50; 44_dcd_ops.md rule R301) -/

theorem State.heldOk_of_running {s : State} (h : s.fres = false) : s.HeldOk := fun hf => by simp [h] at hf

/-- After a bus reset every endpoint register is 0 (45_bus_side.md rule R362). -/
theorem busReset_eprAt (s : State) (i : Nat) : s.busReset.eprAt i = 0#16 := by
  rw [State.eprAt, State.busReset_epr, Vector.getElem?_replicate]
  split <;> rfl

@[simp] theorem writeCntr_fres (s : State) (w : Half) : (s.writeCntr w).fres = hasBit w cntrFres := by
  rw [State.fres, State.writeCntr_cntr, hasBit, and_mask]
  rfl

section
variable {s t : State} (h : s.Inv)
include h

/-- Flags of `ISTR` and the frame number change while the peripheral runs. -/
theorem State.Inv.withFlags (hf : s.fres = false) (e : t = { s with istr := t.istr, fnr := t.fnr })
    (hr : reportOf t.istr = reportOf s.istr) : t.Inv := by
  obtain ⟨absent, cntr, istr, daddr, btable⟩ := h.registers
  have istr' : t.istr &&& 0x00E0#16 = 0#16 := by rw [← reportOf_reserved, hr, reportOf_reserved, istr]
  have hcfg : t.cfg = s.cfg := by rw [e]
  have hepr : t.epr = s.epr := by rw [e]
  have hok := h.istr.of_report hcfg hepr hr
  rw [e] at istr' hok ⊢
  exact h.withRegisters rfl ⟨absent, cntr, istr', daddr, btable⟩ hok (State.heldOk_of_running hf)

/-- Endpoint registers change while the peripheral runs, and `ISTR` is recomputed (rule R48). -/
theorem State.Inv.withEpr (hf : s.fres = false) {old : Half}
    (e : t = { s with epr := t.epr, istr := istrOf s.cfg.nEp t.epr old, daddr := t.daddr })
    (hold : old &&& 0x00E0#16 = 0#16) (habsent : ∀ i, s.cfg.nEp ≤ i → t.eprAt i = 0#16)
    (hdaddr : t.daddr &&& 0xFF00#16 = 0#16) : t.Inv := by
  obtain ⟨-, cntr, -, -, btable⟩ := h.registers
  rw [e] at habsent hdaddr ⊢
  exact h.withRegisters rfl ⟨habsent, cntr, istrOf_reserved hold _ _, hdaddr, btable⟩ (State.istrOk_of_istrOf rfl)
    (State.heldOk_of_running hf)

theorem State.Inv.putEpr (i : Nat) (v : Half) : (s.putEpr (!s.fres) i v).Inv := by
  cases hf : s.fres with
  | true => rwa [Bool.not_true, putEpr_false]
  | false =>
    by_cases hi : i < s.cfg.nEp
    · refine h.withEpr hf (old := s.istr) ?_ h.registers.istr (fun j hj => ?_) h.registers.daddr
      · simp [State.putEpr, hi]
      · rw [Bool.not_false, putEpr_eprAt hi (Config.legal_bounds h.legal).2.1, if_neg (by omega)]
        exact h.registers.absent j hj
    · simpa [State.putEpr, hi] using h

theorem State.Inv.writeIstr (w : Half) : (s.writeIstr w).Inv := by
  cases hf : s.fres with
  | true => simpa [State.writeIstr, hf] using h
  | false => exact h.withFlags hf rfl (by simp [hf, reportOf_istrWrite])

theorem State.Inv.raiseFlag (hf : s.fres = false) (w : Half) : (s.raiseFlag w).Inv :=
  h.withFlags hf rfl (reportOf_or_flags _ _ (by rw [reportOf, and_mask]; exact BitVec.and_zero))

theorem State.Inv.busSof (hf : s.fres = false) (f : BitVec 11) : (s.busSof f).Inv :=
  h.withFlags hf rfl (reportOf_or_flags _ _ (by decide))

theorem State.Inv.busReset (hf : s.fres = false) : s.busReset.Inv := by
  have hold : (s.istr ||| flagReset) &&& 0x00E0#16 = 0#16 := by
    rw [BitVec.and_or_distrib_right, h.registers.istr]
    decide
  exact h.withEpr hf rfl hold (fun i _ => busReset_eprAt s i) BitVec.zero_and

theorem State.Inv.writeDaddr (w : Half) : (s.writeDaddr w).Inv := by
  cases hf : s.fres with
  | true => simpa [State.writeDaddr, hf] using h
  | false =>
    obtain ⟨absent, cntr, istr, -, btable⟩ := h.registers
    have daddr : (s.writeDaddr w).daddr &&& 0xFF00#16 = 0#16 := by
      rw [State.writeDaddr_daddr, if_neg (by simp [hf]), and_mask]
      exact BitVec.and_zero
    exact h.withRegisters rfl ⟨absent, cntr, istr, daddr, btable⟩ h.istr (State.heldOk_of_running hf)

theorem State.Inv.writeBtable (w : Half) : (s.writeBtable w).Inv := by
  obtain ⟨absent, cntr, istr, daddr, -⟩ := h.registers
  have btable : (s.writeBtable w).btable &&& 0x0007#16 = 0#16 := by
    rw [State.writeBtable_btable, and_mask]
    exact BitVec.and_zero
  exact h.withRegisters rfl ⟨absent, cntr, istr, daddr, btable⟩ h.istr h.held

/-- `CNTR` puts the peripheral into reset, which clears the endpoint registers, `ISTR` and `DADDR`, or out of it. -/
theorem State.Inv.writeCntr (w : Half) : (s.writeCntr w).Inv := by
  obtain ⟨absent, -, istr, daddr, btable⟩ := h.registers
  have cntr : (s.writeCntr w).cntr &&& 0x00E0#16 = 0#16 := by
    rw [State.writeCntr_cntr, and_mask]
    exact BitVec.and_zero
  cases hw : hasBit w cntrFres with
  | true =>
    have he : (s.writeCntr w).epr = Vector.replicate 8 0 := if_pos hw
    have hepr (i : Nat) : (s.writeCntr w).eprAt i = 0#16 := by
      rw [State.eprAt, he]
      exact busReset_eprAt s i
    have hi : (s.writeCntr w).istr = 0#16 := by simp [hw]
    have hd : (s.writeCntr w).daddr = 0#16 := by simp [hw]
    have hok : (s.writeCntr w).IstrOk :=
      State.istrOk_of_istrOf (old := 0#16) (by rw [hi, he, istrOf, firstCtr_zero]; rfl)
    exact h.withRegisters rfl ⟨fun i _ => hepr i, cntr, by rw [hi]; rfl, by rw [hd]; rfl, btable⟩ hok
      fun _ => ⟨hepr, hi, hd⟩
  | false =>
    have hepr : (s.writeCntr w).epr = s.epr := by simp [hw]
    have hi : (s.writeCntr w).istr = s.istr := by simp [hw]
    have hd : (s.writeCntr w).daddr = s.daddr := by simp [hw]
    refine h.withRegisters rfl ⟨fun i hle => ?_, cntr, hi ▸ istr, hd ▸ daddr, btable⟩
      (h.istr.of_report rfl hepr (by rw [hi])) (State.heldOk_of_running (by rw [writeCntr_fres, hw]))
    rw [State.eprAt, hepr]
    exact absent i hle

end

/-! ### The step (00_scope.md rule R12) -/

/-- The invariant of a machine with the parameters `c`: what a step keeps. -/
def InvFor (c : Config) (s : State) : Prop := s.Inv ∧ s.cfg = c

/-- Every elementary change of the machine keeps the invariant and the parameters. -/
theorem closed_invFor (c : Config) : Closed (InvFor c) where
  outputs _   := fun ⟨h, hc⟩ => ⟨h.of_unread rfl, hc⟩
  post _ hq   := fun ⟨h, hc⟩ => ⟨h.withQueues rfl (by simpa [State.QueueOk] using hq) h.fifos, hc⟩
  pma b ha    := fun ⟨h, hc⟩ => ⟨h.withMemory rfl (h.memory.writePma b ha), hc⟩
  ram b ha    := fun ⟨h, hc⟩ => ⟨h.withMemory rfl (h.memory.writeRam b ha), hc⟩
  fifo _ _ hf := fun ⟨h, hc⟩ => ⟨h.withQueues rfl h.queue (h.fifos.put hf), hc⟩
  ctx _ _ _   := fun ⟨h, hc⟩ => ⟨h.of_unread rfl, hc⟩
  slotFree _  := fun ⟨h, hc⟩ => ⟨h.withAllocation rfl h.cursor (h.slots.put Slot.free_ok), hc⟩
  slotTake _ hf := fun ⟨h, hc⟩ => ⟨h.withAllocation rfl h.cursor (h.slots.put (Slot.ok_take hf)), hc⟩
  reopen {s}  := fun ⟨h, hc⟩ =>
    ⟨h.withAllocation rfl (h.cursorOk_of_allocated (.inr (.inl rfl)))
      (fun i => (slotsFreed_slotAt s i).symm ▸ Slot.free_ok), hc⟩
  cursor _ hn := fun ⟨h, hc⟩ => ⟨h.withAllocation rfl (h.cursorOk_of_allocated hn) h.slots, hc⟩
  busTape _   := fun ⟨h, hc⟩ => ⟨h.of_unread rfl, hc⟩
  epr _ _     := fun ⟨h, hc⟩ => ⟨h.putEpr _ _, hc⟩
  istr _      := fun ⟨h, hc⟩ => ⟨h.writeIstr _, hc⟩
  cntr _      := fun ⟨h, hc⟩ => ⟨h.writeCntr _, hc⟩
  daddr _     := fun ⟨h, hc⟩ => ⟨h.writeDaddr _, hc⟩
  flag _ hf   := fun ⟨h, hc⟩ => ⟨h.raiseFlag hf _, hc⟩
  busReset hf := fun ⟨h, hc⟩ => ⟨h.busReset hf, hc⟩
  sof _ hf    := fun ⟨h, hc⟩ => ⟨h.busSof hf _, hc⟩
  wake _      := fun ⟨h, hc⟩ => ⟨h.of_unread rfl, hc⟩
  busy _      := fun ⟨h, hc⟩ => ⟨h.of_unread rfl, hc⟩
  stalled _   := fun ⟨h, hc⟩ => ⟨h.of_unread rfl, hc⟩
  msc _       := fun ⟨h, hc⟩ => ⟨h.of_unread rfl, hc⟩
  answers _ _ := fun ⟨h, hc⟩ => ⟨h.of_unread rfl, hc⟩
  isrTape _   := fun ⟨h, hc⟩ => ⟨h.of_unread rfl, hc⟩
  btable _    := fun ⟨h, hc⟩ => ⟨h.writeBtable _, hc⟩
  gates _ _   := fun ⟨h, hc⟩ => ⟨h.of_unread rfl, hc⟩
  res _       := fun ⟨h, hc⟩ => ⟨h.of_unread rfl, hc⟩
  take hq     := fun ⟨h, hc⟩ => ⟨h.withQueues rfl (h.queue.tail hq) h.fifos, hc⟩
  schedule _  := fun ⟨h, hc⟩ => ⟨h.of_unread rfl, hc⟩
  command _ _ _ := fun ⟨h, hc⟩ => ⟨h.of_unread rfl, hc⟩
  fault _     := fun ⟨h, hc⟩ => ⟨h.of_unread rfl, hc⟩

/-- Settles O59: the invariant, with the parameters, is closed under every elementary change, so every step keeps it. -/
theorem stepInv : Obligations.StepInv := by
  intro s t hs ht
  exact step_keeps (closed_invFor s.cfg) ⟨hs, rfl⟩ ht

/-! ### The finality of a fault (10_state.md rule R74) -/

/-- Every command is an operation the engine performs. -/
theorem exec_performs (i : Instr) (s : State) : ∃ op, exec i s = perform op s := by
  cases i <;> unfold exec <;> exact ⟨_, rfl⟩

section
variable {s : State} {f : Fault} (h : s.fault = some f)
include h

theorem exec_faulted (i : Instr) : exec i s = .fault f := by
  obtain ⟨op, hop⟩ := exec_performs i s
  rw [hop, perform_faulted h]

theorem issue_faulted (cmd arg0 arg1 : Word) : issue cmd arg0 arg1 s = .fault f := by
  have h' : (s.withCommand cmd arg0 arg1).fault = some f := h
  unfold issue
  split
  · exact exec_faulted h' _
  · exact perform_faulted h' _

theorem runTurn_faulted (u : Turn) : runTurn u s = .fault f := by
  cases u with
  | command cmd arg0 arg1 => exact issue_faulted h cmd arg0 arg1
  | bus r => exact perform_faulted h _
  | isr => exact perform_faulted h _
  | task => exact perform_faulted h _
  | ramStore addr bytes => exact perform_faulted h _
  | setFifo k v => exact perform_faulted h _

theorem step_faulted : step s = .fault f := by simp only [step, h]

end

/-- Settles O56: every turn and every command performs an operation, and a faulted machine performs none. -/
theorem faultTerminal : Obligations.FaultTerminal := by
  intro s f h
  exact ⟨step_faulted h, runTurn_faulted h, exec_faulted h⟩

/-! ### What a step runs (10_state.md rules R66, R90; 60_exceptions.md rule R550) -/

/-- A step of a machine without a fault is its next turn. -/
theorem step_noFault {s : State} (h : s.fault = none) : step s = nextTurn s := by simp only [step, h]

theorem nextTurn_cons {s : State} {u : Turn} {rest : List Turn} (h : s.schedule = u :: rest) :
    nextTurn s = runTurn u { s with schedule := rest } := by simp only [nextTurn, h]

theorem nextTurn_nil {s : State} (h : s.schedule = []) : nextTurn s = idleTurn s := by simp only [nextTurn, h]

theorem issue_decoded {s : State} {cmd arg0 arg1 : Word} {i : Instr} (h : decode s.cfg.nEp cmd arg0 arg1 = .ok i) :
    issue cmd arg0 arg1 s = exec i (s.withCommand cmd arg0 arg1) := by simp only [issue, h]

/-- Two operations that do the same from a state are performed alike there. -/
theorem perform_congr {s : State} {op op' : Op Unit} (h : op s = op' s) : perform op s = perform op' s := by
  simp only [perform, h]

theorem isrTurn_run (s : State) : isrTurn s = if s.isrEnabled then isrOp s else .ok () s := by
  simp only [isrTurn, bind_run, peek_run, onlyIf_run, id]

theorem taskTurn_run (s : State) : taskTurn s = if s.evq.isEmpty then .ok () s else taskOp s := by
  simp only [taskTurn, bind_run, peek_run, ite_run, pure_run, id]

theorem idleTurn_isr {s : State} (h : s.isrEnabled = true) : idleTurn s = exec .isrService s :=
  perform_congr (by simp [h, isrTurn_run])

theorem idleTurn_task {s : State} (h : s.isrEnabled = false) (hq : s.evq ≠ []) : idleTurn s = exec .taskStep s :=
  perform_congr (by simp [h, hq, taskTurn_run])

theorem idleTurn_idle {s : State} (hs : s.Ready) (h : s.isrEnabled = false) (hq : s.evq = []) :
    idleTurn s = .next s := by
  simp [idleTurn, h, perform_ready hs, taskTurn_run, hq]

/-- Settles O57: by the head of the schedule, and with none by which of the two idle agents is enabled. -/
theorem stepRunsDecoded : Obligations.StepRunsDecoded := by
  intro s hs
  have hstep : step s = nextTurn s := step_noFault hs.noFault
  refine ⟨fun cmd arg0 arg1 rest i hsch hdec => ?_, fun hsch hi => ?_, fun hsch hi hq => ?_, fun hsch hi hq => ?_,
    fun nbits w => rfl⟩
  · rw [hstep, nextTurn_cons hsch]
    exact issue_decoded hdec
  · rw [hstep, nextTurn_nil hsch, idleTurn_isr hi]
  · rw [hstep, nextTurn_nil hsch, idleTurn_task hi hq]
  · rw [hstep, nextTurn_nil hsch, idleTurn_idle hs hi hq]

end Sys2Proof.Machine

/-! PROOFS. The BTABLE writers (O15), and what a step of the ISR or of BUS leaves as it is (O36). -/

namespace Sys2Proof.Machine

/-! ### The BTABLE writers (42_pma_btable.md rules R244, R246, R247, R249) -/

/-- A store changes no byte outside its range. -/
theorem Memory.sameOutside_writeBytes {m : List Host.Cell} (h : Memory.wf m) (a : Nat) (bs : List Byte) :
    Memory.SameOutside m (Memory.writeBytes m a bs) a bs.length := by
  intro j hj
  rw [Memory.read_writeBytes h, if_neg (by omega)]

/-- A 16-bit store reads back as stored (20_memory.md rule R107). -/
theorem le16_read_writeBytes {m : List Host.Cell} (h : Memory.wf m) (a : Nat) (v : Half) :
    le16 (Memory.read (Memory.writeBytes m a (leBytes16 v)) a)
      (Memory.read (Memory.writeBytes m a (leBytes16 v)) (a + 1)) = v := by
  rw [Memory.read_writeBytes h, Memory.read_writeBytes h]
  simp [leBytes16]

section
variable {s : State} (hw : Memory.wf s.pma) (i : Nat) (b : Bool)
include hw

theorem addrStored_btAddrOf (a : Half) : (s.addrStored i b a).btAddrOf i b = a := le16_read_writeBytes hw _ a

theorem countwStored_countwOf (v : Half) : (s.countwStored i b v).countwOf i b = v := le16_read_writeBytes hw _ v

theorem countStored_countwOf (n : Nat) : (s.countStored i b n).countwOf i b = withCount (s.countwOf i b) n :=
  le16_read_writeBytes hw _ _

end

/-- Storing a count is replacing the ten low bits (rule R247). -/
theorem withCount_eq_putBits (v : Half) (n : BitVec 10) :
    withCount v n.toNat = putBits 0x03FF v (n.setWidth 16) := by
  rw [withCount, putBits, BitVec.ofNat_toNat]
  rfl

theorem placed_numBlock {k : Nat} (h : k < 32) : placed 10 (BitVec.ofNat 5 k) = BitVec.ofNat 16 (k * 1024) := by
  apply BitVec.eq_of_toNat_eq
  simp only [placed, BitVec.toNat_shiftLeft, BitVec.toNat_setWidth, BitVec.toNat_ofNat, Nat.shiftLeft_eq]
  omega

/-- The receive-size code field by field: no block number reaches 32 (rule R246). -/
theorem rxSizeCode_eq_placed {size : Nat} (h : size ≤ 1024) :
    rxSizeCode size = if size ≤ 62 then placed 10 (BitVec.ofNat 5 (ceilDiv size 2))
      else 0x8000#16 ||| placed 10 (BitVec.ofNat 5 (ceilDiv size 32 - 1)) := by
  unfold rxSizeCode
  split
  · rw [placed_numBlock (by unfold ceilDiv; omega)]
  · rw [placed_numBlock (by unfold ceilDiv; omega)]

/-- An operation that completes is the next state of a ready machine. -/
theorem perform_ok {s t : State} {op : Op Unit} (hs : s.Ready) (h : op s = .ok () t) : perform op s = .next t := by
  rw [perform_ready hs, h]

/-- An operation that raises a fault leaves it recorded in the next state of a ready machine (rule R541). -/
theorem perform_error {s t : State} {op : Op Unit} {f : Fault} (hs : s.Ready) (h : op s = .error f t) :
    perform op s = .next (takeFault f t) := by
  rw [perform_ready hs, h]

theorem btSetRxBufsizeOp_tooLong {s : State} {i : Nat} (hi : i < s.cfg.nEp) (b : Bool) {n : Nat} (hn : 1024 < n) :
    btSetRxBufsizeOp i b n s = .error (.pmaLen n) s := by
  simp only [btSetRxBufsizeOp, bind_run, checkIdx_ok hi, if_pos hn, raise_run]

/-- Settles O15: each writer is one 16-bit store at the descriptor's place, and the stored word reads back. -/
theorem btableWrites : Obligations.BtableWrites := by
  intro s i b hs hb hw hi
  have outside := Memory.sameOutside_writeBytes hw
  refine ⟨fun a => ?_, fun n => ?_, fun size hsize => ?_, fun size hsize => ?_⟩
  · exact ⟨s.addrStored i.toNat b a, perform_ok hs (btSetAddrOp_quiet hs.legal hb hw hi b a), rfl,
      addrStored_btAddrOf hw _ b a, outside _ (leBytes16 a)⟩
  · exact ⟨s.countStored i.toNat b n.toNat, perform_ok hs (btSetCountOp_quiet hs.legal hb hw hi b n.toNat), rfl,
      (countStored_countwOf hw _ b _).trans (withCount_eq_putBits _ n), outside _ (leBytes16 _)⟩
  · exact ⟨s.countwStored i.toNat b (rxSizeCode size.toNat),
      perform_ok hs (btSetRxBufsizeOp_quiet hs.legal hb hw hi b hsize), rfl,
      (countwStored_countwOf hw _ b _).trans (rxSizeCode_eq_placed hsize), outside _ (leBytes16 _)⟩
  · exact perform_error hs (btSetRxBufsizeOp_tooLong hi b hsize)

/-! ### What a step of the ISR or of BUS leaves as it is (20_memory.md rule R117; 47_bot_fsm.md rule R401) -/

/-- What TASK and the issuer alone change is in `t` as in `s`: the parameters, `BTABLE`, the core shadow, the gates,
the class machine, the command registers, the schedule, the answers and their tapes. -/
structure State.OnlyDevice (s t : State) : Prop where
  rest : t = { s with
    epr := t.epr, cntr := t.cntr, istr := t.istr, daddr := t.daddr, fnr := t.fnr, pma := t.pma
    pmaCursor := t.pmaCursor, slots := t.slots, xc := t.xc, remoteWakeCd := t.remoteWakeCd, evq := t.evq
    ram := t.ram, fifos := t.fifos, fault := t.fault, busTape := t.busTape, outputs := t.outputs }

theorem State.OnlyDevice.trans {s t u : State} (h : s.OnlyDevice t) (h' : t.OnlyDevice u) : s.OnlyDevice u := by
  obtain ⟨h⟩ := h
  obtain ⟨h'⟩ := h'
  constructor
  rw [h'] at *
  rw [h]

/-- Only the device part of `s` changed, and events were only appended to its queue. -/
structure State.DeviceStepped (s t : State) : Prop where
  only  : s.OnlyDevice t
  queue : s.evq <+: t.evq

section
variable {s t u : State} (h : s.DeviceStepped t)
include h

/-- A change of the device part that leaves the queue. -/
theorem State.DeviceStepped.change (hd : t.OnlyDevice u) (hq : u.evq = t.evq) : s.DeviceStepped u :=
  ⟨h.only.trans hd, hq ▸ h.queue⟩

theorem State.DeviceStepped.post (ev : Event) : s.DeviceStepped { t with evq := t.evq ++ [ev] } :=
  ⟨h.only.trans ⟨rfl⟩, h.queue.trans (List.prefix_append _ _)⟩

end

/-- The device controller, its interrupt service and BUS change the device part only. -/
theorem deviceClosed_deviceStepped (s : State) : DeviceClosed s.DeviceStepped where
  outputs _      := fun h => h.change ⟨rfl⟩ rfl
  post ev _      := fun h => h.post ev
  pma _ _        := fun h => h.change ⟨rfl⟩ rfl
  ram _ _        := fun h => h.change ⟨rfl⟩ rfl
  fifo _ _ _     := fun h => h.change ⟨rfl⟩ rfl
  ctx _ _ _      := fun h => h.change ⟨rfl⟩ rfl
  slotFree _     := fun h => h.change ⟨rfl⟩ rfl
  slotTake _ _   := fun h => h.change ⟨rfl⟩ rfl
  reopen         := fun h => h.change ⟨rfl⟩ rfl
  cursor _ _     := fun h => h.change ⟨rfl⟩ rfl
  busTape _      := fun h => h.change ⟨rfl⟩ rfl
  epr _ _        := fun h => h.change ⟨rfl⟩ rfl
  istr _         := fun h => h.change ⟨rfl⟩ rfl
  cntr _         := fun h => h.change ⟨rfl⟩ rfl
  daddr _        := fun h => h.change ⟨rfl⟩ rfl
  flag _ _       := fun h => h.change ⟨rfl⟩ rfl
  busReset _     := fun h => h.change ⟨rfl⟩ rfl
  sof _ _        := fun h => h.change ⟨rfl⟩ rfl
  wake _         := fun h => h.change ⟨rfl⟩ rfl

/-! #### Observations are only appended (00_scope.md rule R17)

`DeviceClosed` lets an observation replace the earlier ones, so what the device operations append is followed
through them once more, for the one field `outputs`: `emit` of BUS appends to it, every other change is silent. -/

/-- The run has observed `o`, and then perhaps more. -/
def State.ObservedFirst (o : List Output) (s : State) : Prop := o <+: s.outputs

/-- After observations that begin with `o`, the operation only appends, with a value or with a fault. -/
abbrev Appends (o : List Output) {α : Type} (op : Op α) : Prop := Keeps (State.ObservedFirst o) op

section
variable {o : List Output}

theorem appends_silent {f : State → State} (hf : ∀ s, (f s).outputs = s.outputs) : Appends o (change f) :=
  .change fun s h => by rwa [State.ObservedFirst, hf s]

theorem appends_emit (v : Output) : Appends o (emit v) :=
  .change fun _ h => List.IsPrefix.trans h (List.prefix_append _ _)

theorem appends_post (ev : Event) : Appends o (post ev) :=
  .bind (.peek _) fun _ => .ite (appends_silent fun _ => rfl) (.raise _)

theorem appends_pmaWriteBytes (a : Nat) (bs : List Byte) : Appends o (pmaWriteBytes a bs) := by
  induction bs generalizing a with
  | nil => exact .pure _
  | cons b bs ih =>
    exact .bind (.bind (.peek _) fun _ => .ite (appends_silent fun _ => rfl) (.raise _)) fun _ => ih _

theorem appends_memWrite (a : Nat) (bs : List Byte) : Appends o (memWrite a bs) := by
  induction bs generalizing a with
  | nil => exact .pure _
  | cons b bs ih =>
    exact .bind (.bind (.peek _) fun _ => .ite (appends_silent fun _ => rfl) (.raise _)) fun _ => ih _

theorem appends_fifoPop (h : Word) (n : Nat) : Appends o (fifoPop h n) :=
  .bind (.peek _) fun _ => .ite (.raise _) (.bind (appends_silent fun _ => rfl) fun _ => .pure _)

theorem appends_fifoPush (h : Word) (bs : List Byte) : Appends o (fifoPush h bs) :=
  .bind (.peek _) fun _ => .ite (.raise _) (appends_silent fun _ => rfl)

/-! BUS (45_bus_side.md) -/

theorem appends_busIn (i : Nat) (l : Bool) : Appends o (busIn i l) :=
  .bind (.peek _) fun _ => .ite (appends_emit _) <| .ite (appends_emit _) <|
    .bind (keeps_pmaHalf _) fun _ => .bind (keeps_pmaHalf _) fun _ => .ite (.raise _) <|
      .bind (keeps_pmaReadBytes _ _) fun _ => .bind (appends_emit _) fun _ =>
        .ite (.pure _) (appends_silent fun _ => rfl)

theorem appends_busOut (i : Nat) (p : Pid) (bs : List Byte) : Appends o (busOut i p bs) :=
  .bind (.peek _) fun _ => .ite (appends_emit _) <| .ite (appends_emit _) <|
    .bind (keeps_pmaHalf _) fun _ => .bind (keeps_pmaHalf _) fun _ => .ite (.raise _) <| .ite (appends_emit _) <|
      .bind (appends_pmaWriteBytes _ _) fun _ => .bind (keeps_pmaHalf _) fun _ =>
        .bind (appends_pmaWriteBytes _ _) fun _ => .bind (appends_silent fun _ => rfl) fun _ => appends_emit _

theorem appends_busSetup (i : Nat) (bs : List Byte) : Appends o (busSetup i bs) :=
  .bind (.peek _) fun _ => .ite (appends_emit _) <|
    .bind (keeps_pmaHalf _) fun _ => .bind (keeps_pmaHalf _) fun _ => .ite (.raise _) <|
      .bind (appends_pmaWriteBytes _ _) fun _ => .bind (keeps_pmaHalf _) fun _ =>
        .bind (appends_pmaWriteBytes _ _) fun _ => .bind (appends_silent fun _ => rfl) fun _ => appends_emit _

theorem appends_busToken (a : BitVec 7) (ep : BitVec 4) (d : Dir) {f : Nat → Op Unit}
    (hf : ∀ i, Appends o (f i)) : Appends o (busToken a ep d f) := by
  refine .bind (.peek _) fun s => .ite (appends_emit _) ?_
  cases s.selectEp ep d with
  | none => exact appends_emit _
  | some i => exact hf i

theorem appends_busStep (r : BusRec) : Appends o (busStep r) := by
  refine .bind (.peek _) fun _ => .ite (.pure _) ?_
  cases r with
  | setup a ep bs => exact .ite (.pure _) (appends_busToken _ _ _ fun i => appends_busSetup i bs)
  | out a ep p bs => exact .ite (.pure _) (appends_busToken _ _ _ fun i => appends_busOut i p bs)
  | inTok a ep => exact appends_busToken _ _ _ fun i => appends_busIn i _
  | inNoAck a ep => exact appends_busToken _ _ _ fun i => appends_busIn i _
  | reset => exact keeps_busSignal fun _ _ h => h
  | suspend => exact keeps_busSignal fun _ _ h => h
  | resume => exact keeps_busSignal fun _ _ h => h
  | sof f => exact keeps_busSignal fun _ _ h => h
  | frameMissed => exact keeps_busSignal fun _ _ h => h

theorem appends_busWindow : Appends o busWindow := by
  intro s h
  unfold busWindow
  cases s.busTape with
  | nil => exact h
  | cons w rest => exact Keeps.forEach appends_busStep _ h

/-! Accesses (20_memory.md rules R102, R110), the allocators and the copies (42_pma_btable.md, 43_pma_copy.md) -/

theorem appends_readReg {α : Type} (f : State → α) : Appends o (readReg f) :=
  .bind appends_busWindow fun _ => .peek _

theorem appends_writeReg {f : State → State} (hf : ∀ s, (f s).outputs = s.outputs) : Appends o (writeReg f) :=
  .bind appends_busWindow fun _ => appends_silent hf

theorem appends_readEpr (i : Nat) : Appends o (readEpr i) :=
  .bind (keeps_checkIdx i) fun _ => appends_readReg _

theorem appends_writeEpr (i : Nat) (w : Half) : Appends o (writeEpr i w) :=
  .bind (keeps_checkIdx i) fun _ => appends_writeReg fun _ => rfl

theorem appends_rmwEpr (i : Nat) (c : MuxSel) : Appends o (rmwEpr i c) :=
  .bind (appends_readEpr i) fun _ => appends_writeEpr i _

theorem appends_clearFlag (f : Half) : Appends o (clearFlag f) := appends_writeReg fun _ => rfl

theorem appends_updateCntr (m v : Half) : Appends o (updateCntr m v) :=
  .bind (appends_readReg _) fun _ => appends_writeReg fun _ => rfl

theorem appends_pmaReadWord (a n : Nat) : Appends o (pmaReadWord a n) :=
  .bind appends_busWindow fun _ => keeps_pmaReadBytes a n

theorem appends_pmaWriteWord (a : Nat) (bs : List Byte) : Appends o (pmaWriteWord a bs) :=
  .bind appends_busWindow fun _ => appends_pmaWriteBytes a bs

theorem appends_readHalf (a : Nat) : Appends o (readHalf a) :=
  .bind appends_busWindow fun _ => keeps_pmaHalf a

theorem appends_btWrite (i : Nat) (b c : Bool) (v : Half) : Appends o (btWrite i b c v) :=
  .bind (.peek _) fun _ =>
    .ite (.bind (appends_pmaReadWord _ _) fun _ => appends_pmaWriteWord _ _) (appends_pmaWriteWord _ _)

theorem appends_btSetAddrOp (i : Nat) (b : Bool) (a : Half) : Appends o (btSetAddrOp i b a) :=
  .bind (keeps_checkIdx i) fun _ => appends_btWrite _ _ _ _

theorem appends_btGetAddrOp (i : Nat) (b : Bool) : Appends o (btGetAddrOp i b) :=
  .bind (keeps_checkIdx i) fun _ => .bind (.peek _) fun _ => appends_readHalf _

theorem appends_btSetCountOp (i : Nat) (b : Bool) (n : Nat) : Appends o (btSetCountOp i b n) :=
  .bind (keeps_checkIdx i) fun _ => .bind (.peek _) fun _ =>
    .ite (.bind (appends_pmaReadWord _ _) fun _ => appends_pmaWriteWord _ _)
      (.bind (appends_readHalf _) fun _ => appends_pmaWriteWord _ _)

theorem appends_btGetCountOp (i : Nat) (b : Bool) : Appends o (btGetCountOp i b) :=
  .bind (keeps_checkIdx i) fun _ => .bind (.peek _) fun _ => .bind (appends_readHalf _) fun _ => .pure _

theorem appends_btSetRxBufsizeOp (i : Nat) (b : Bool) (n : Nat) : Appends o (btSetRxBufsizeOp i b n) :=
  .bind (keeps_checkIdx i) fun _ => .ite (.raise _) (appends_btWrite _ _ _ _)

theorem appends_pmaAllocOp (n : Nat) (d : Bool) : Appends o (pmaAllocOp n d) :=
  .bind (.peek _) fun _ => .ite (.raise _) <| .ite (.raise _) <| .bind (appends_silent fun _ => rfl) fun _ =>
    .bind (keeps_checkAlign _) fun _ => .ite (.bind (keeps_checkAlign _) fun _ => .pure _) (.pure _)

theorem appends_epAllocOp (ep : Byte) (ty : BitVec 2) : Appends o (epAllocOp ep ty) := by
  refine .bind (.peek _) fun s => ?_
  cases s.firstSlot (epNum ep) (epDir ep) ty with
  | none => exact .raise _
  | some i => exact .ite (.pure _) (.bind (appends_silent fun _ => rfl) fun _ => .pure _)

theorem appends_readSpans (a w : Nat) (l : List (Nat × Nat)) : Appends o (readSpans a w l) := by
  induction l with
  | nil => exact .pure _
  | cons p ps ih => exact .bind (appends_pmaReadWord _ _) fun _ => .bind ih fun _ => .pure _

/-- The copy out of the transfer's buffer or FIFO (43_pma_copy.md rules R281, R285). -/
theorem appends_txStore (x : XferCtx) (a n : Nat) : Appends o (txStore x a n) := by
  unfold txStore
  cases x.ff with
  | none =>
    exact .bind (keeps_checkSpan _ _) fun _ => .bind (.peek _) fun _ =>
      .forEach fun _ => .bind (keeps_memRead _ _) fun _ => appends_pmaWriteWord _ _
  | some h =>
    exact .bind (keeps_checkSpan _ _) fun _ => .bind (appends_fifoPop _ _) fun _ => .bind (.peek _) fun _ =>
      .forEach fun _ => appends_pmaWriteWord _ _

/-- The copy into the transfer's buffer or FIFO (rules R283, R286). -/
theorem appends_rxStore (x : XferCtx) (a n : Nat) : Appends o (rxStore x a n) := by
  unfold rxStore
  cases x.ff with
  | none =>
    exact .bind (keeps_checkSpan _ _) fun _ => .bind (.peek _) fun _ =>
      .forEach fun _ => .bind (appends_pmaReadWord _ _) fun _ => appends_memWrite _ _
  | some h =>
    exact .bind (keeps_checkSpan _ _) fun _ => .bind (.peek _) fun _ =>
      .ite (.raise _) (.bind (appends_readSpans _ _ _) fun _ => appends_fifoPush _ _)

/-! The bus-reset handler (44_dcd_ops.md) and the interrupt service (46_isr.md) -/

theorem appends_ep0Open (d : Dir) : Appends o (ep0Open d) :=
  .bind (.peek _) fun _ => .bind (appends_epAllocOp _ _) fun _ => .bind (appends_silent fun _ => rfl) fun _ =>
    .bind (appends_pmaAllocOp _ _) fun _ => .bind (appends_btSetAddrOp _ _ _) fun _ =>
      .bind (.onlyIf (appends_btSetRxBufsizeOp _ _ _)) fun _ => appends_rmwEpr _ _

theorem appends_busResetHandler : Appends o busResetHandler :=
  .bind (appends_writeReg fun _ => rfl) fun _ => .bind (appends_silent fun _ => rfl) fun _ =>
    .bind (appends_ep0Open _) fun _ => .bind (appends_ep0Open _) fun _ => appends_writeReg fun _ => rfl

theorem appends_transmitPacket (n : BitVec 4) : Appends o (transmitPacket n) :=
  .bind (.peek _) fun _ => .bind (appends_readEpr _) fun _ => .bind (appends_btGetAddrOp _ _) fun _ =>
    .bind (appends_txStore _ _ _) fun _ => .bind (appends_silent fun _ => rfl) fun _ =>
      .bind (appends_btSetCountOp _ _ _) fun _ => .bind (appends_silent fun _ => rfl) fun _ => appends_writeEpr _ _

theorem appends_txNext (n : BitVec 4) (x : XferCtx) : Appends o (txNext n x) :=
  .ite (appends_transmitPacket _) (appends_post _)

theorem appends_txPath (i : Nat) : Appends o (txPath i) :=
  .bind (appends_rmwEpr _ _) fun _ => .bind (appends_readEpr _) fun _ => .bind (.peek _) fun _ =>
    .ite (.ite (.bind (appends_silent fun _ => rfl) fun _ => .bind (appends_btSetCountOp _ _ _) fun _ =>
      appends_txNext _ _) (.pure _)) (appends_txNext _ _)

theorem appends_setupPath (i : Nat) : Appends o (setupPath i) := by
  have packet (a n : Nat) : Appends o (pmaPacketOp a n) :=
    .bind (keeps_checkAlign _) fun _ => .bind (.peek _) fun _ => appends_readSpans _ _ _
  exact .bind (appends_btGetCountOp _ _) fun _ => .ite (.bind (appends_btGetAddrOp _ _) fun _ =>
    .bind (packet _ _) fun _ => .bind (appends_rmwEpr _ _) fun _ => appends_post _) (appends_rmwEpr _ _)

theorem appends_rxNext (i : Nat) (b : Bool) (n : BitVec 4) (x : XferCtx) (l : Nat) (q : Half) :
    Appends o (rxNext i b n x l q) :=
  .ite (appends_post _) (.bind (appends_btSetRxBufsizeOp _ _ _) fun _ => appends_rmwEpr _ _)

theorem appends_rxEnd (i : Nat) : Appends o (rxEnd i) :=
  .bind (.peek _) fun _ => .ite (.bind (appends_btSetRxBufsizeOp _ _ _) fun _ => appends_rmwEpr _ _) (.pure _)

theorem appends_rxData (i : Nat) (r : Half) : Appends o (rxData i r) :=
  .bind (.onlyIf (appends_rmwEpr _ _)) fun _ => .bind (.peek _) fun _ =>
    .bind (appends_btGetCountOp _ _) fun _ => .bind (appends_btGetAddrOp _ _) fun _ =>
      .bind (appends_rxStore _ _ _) fun _ => .bind (appends_silent fun _ => rfl) fun _ =>
        .bind (appends_rxNext _ _ _ _ _ _) fun _ => appends_rxEnd _

theorem appends_rxPath (i : Nat) : Appends o (rxPath i) :=
  .bind (.peek _) fun _ => .bind (.onlyIf appends_busWindow) fun _ => .bind (appends_readEpr i) fun _ =>
    .ite (appends_setupPath i) (appends_rxData i _)

theorem appends_ctrLoop (n : Nat) : Appends o (ctrLoop n) := by
  induction n with
  | zero => exact .pure _
  | succ n ih =>
    exact .bind (appends_readReg _) fun _ => .ite (.bind (appends_readReg _) fun _ =>
      .bind (appends_readReg _) fun _ => .bind (.ite (appends_rxPath _) (appends_txPath _)) fun _ => ih) (.pure _)

theorem appends_unmasked (v f : Half) : Appends o (unmasked v f) :=
  .ite (.bind (appends_readReg _) fun _ => .pure _) (.pure _)

theorem appends_serviceFlag (v f : Half) {b : Op Unit} (hb : Appends o b) : Appends o (serviceFlag v f b) :=
  .bind (appends_unmasked v f) fun _ => .onlyIf hb

theorem appends_sofBranch : Appends o sofBranch :=
  .bind (appends_clearFlag _) fun _ => .bind (appends_readReg _) fun _ => appends_post _

theorem appends_resetBranch : Appends o resetBranch :=
  .bind (appends_clearFlag _) fun _ => .bind appends_busResetHandler fun _ => appends_post _

theorem appends_wkupBranch : Appends o wkupBranch :=
  .bind (appends_updateCntr _ _) fun _ => .bind (appends_updateCntr _ _) fun _ =>
    .bind (appends_clearFlag _) fun _ => appends_post _

theorem appends_suspBranch : Appends o suspBranch :=
  .bind (appends_updateCntr _ _) fun _ => .bind (appends_updateCntr _ _) fun _ =>
    .bind (appends_clearFlag _) fun _ => appends_post _

theorem appends_esofBranch : Appends o esofBranch :=
  .bind (.peek _) fun _ => .bind (.onlyIf (appends_updateCntr _ _)) fun _ =>
    .bind (.onlyIf (appends_silent fun _ => rfl)) fun _ => appends_clearFlag _

theorem appends_serviceCtr : Appends o serviceCtr :=
  .bind (appends_readReg _) fun _ => .bind (.peek _) fun _ => .onlyIf (appends_ctrLoop _)

theorem appends_isrOp : Appends o isrOp :=
  .bind (appends_readReg _) fun _ => .bind (appends_serviceFlag _ _ appends_sofBranch) fun _ =>
    .bind (appends_unmasked _ _) fun _ => .ite appends_resetBranch <|
      .bind appends_serviceCtr fun _ => .bind (appends_serviceFlag _ _ appends_wkupBranch) fun _ =>
        .bind (appends_serviceFlag _ _ appends_suspBranch) fun _ => appends_serviceFlag _ _ appends_esofBranch

end

/-! #### The step -/

/-- What a performed operation keeps is kept in the next state, if recording a fault keeps it too. -/
theorem perform_keeps_of {P : State → Prop} {op : Op Unit} (hk : Keeps P op)
    (hf : ∀ {s} f, P s → P (takeFault f s)) {s t : State} (hs : P s) (h : perform op s = .next t) : P t := by
  have hp := hk s hs
  unfold perform at h
  split at h
  · cases h
  · split at h
    · cases ho : op s with
      | ok a u => rw [ho] at h hp; cases h; exact hp
      | error e u => rw [ho] at h hp; cases h; exact hf e hp
    · cases h

/-- An operation of the device that only appends observations leaves the class machine and the command registers. -/
theorem perform_deviceStepped {op : Op Unit} (hd : ∀ {P}, DeviceClosed P → Keeps P op)
    (ho : ∀ {o}, Appends o op) {s t : State} (h : perform op s = .next t) :
    s.DeviceStepped t ∧ s.outputs <+: t.outputs :=
  ⟨perform_keeps_of (hd (deviceClosed_deviceStepped s)) (fun _ hp => hp.change ⟨rfl⟩ rfl)
      ⟨⟨rfl⟩, List.prefix_rfl⟩ h,
    perform_keeps_of (ho (o := s.outputs)) (fun _ hp => hp) List.prefix_rfl h⟩

/-- Settles O36: `isrOp` and `busStep` change the device part only, and append what is posted and observed. -/
theorem deviceStepsLeaveClassState : Obligations.DeviceStepsLeaveClassState := by
  intro s t h
  have stepped : s.DeviceStepped t ∧ s.outputs <+: t.outputs := by
    rcases h with h | h | ⟨r, h⟩
    · exact perform_deviceStepped keeps_isrOp appends_isrOp h
    · exact perform_deviceStepped (fun C => .bind (.peek _) fun _ => .onlyIf (keeps_isrOp C))
        (.bind (.peek _) fun _ => .onlyIf appends_isrOp) h
    · exact perform_deviceStepped (fun C => keeps_busStep C r) (appends_busStep r) h
  obtain ⟨⟨⟨rest⟩, queue⟩, seen⟩ := stepped
  exact ⟨rest, queue, seen⟩

end Sys2Proof.Machine

/-! PROOFS. The command word: its decoder and encoder (O1, O2, O3), the words no row admits (O4), ill-formed operands
(O5), and the control word of `EPR_MUX` (O9). -/

namespace Sys2Proof.Machine

/-! ### The fields of a command word (30_encoding.md rule R140) -/

section
variable (opc epa : Byte) (imm : Half)

@[simp] theorem cmdOpc_mkCmd : cmdOpc (mkCmd opc epa imm) = opc := by
  rw [cmdOpc, mkCmd, BitVec.extractLsb'_append_eq_of_le (by decide)]
  exact BitVec.extractLsb'_append_eq_left

@[simp] theorem cmdEpa_mkCmd : cmdEpa (mkCmd opc epa imm) = epa := by
  rw [cmdEpa, mkCmd, BitVec.extractLsb'_append_eq_of_le (by decide)]
  exact BitVec.extractLsb'_append_eq_right

@[simp] theorem cmdImm_mkCmd : cmdImm (mkCmd opc epa imm) = imm := BitVec.extractLsb'_append_eq_right

end

/-- The three fields are the whole of a command word. -/
theorem mkCmd_fields (cmd : Word) : mkCmd (cmdOpc cmd) (cmdEpa cmd) (cmdImm cmd) = cmd := by
  have high : cmdOpc cmd ++ cmdEpa cmd = cmd.extractLsb' 16 16 :=
    BitVec.extractLsb'_append_extractLsb'_eq_extractLsb' rfl
  rw [mkCmd, high]
  exact BitVec.extractLsb'_append_extractLsb'

theorem mkCmd_eq_iff {opc epa : Byte} {imm : Half} {cmd : Word} :
    mkCmd opc epa imm = cmd ↔ (cmdOpc cmd).toNat = opc.toNat ∧ epa = cmdEpa cmd ∧ imm = cmdImm cmd := by
  constructor
  · rintro rfl
    simp
  · rintro ⟨hopc, rfl, rfl⟩
    rw [← BitVec.eq_of_toNat_eq hopc, mkCmd_fields]

/-! ### Operands narrower than the field that carries them -/

/-- A word is its low `n` bits if and only if its other bits are 0. -/
theorem setWidth_setWidth_eq_iff {w n : Nat} {x : BitVec w} :
    (x.setWidth n).setWidth w = x ↔ x &&& BitVec.allOnes w <<< n = 0#w := by
  simp only [BitVec.eq_of_getElem_eq_iff, BitVec.getElem_and, BitVec.getElem_shiftLeft, BitVec.getElem_setWidth,
    BitVec.getLsbD_setWidth, BitVec.getElem_zero]
  refine forall₂_congr fun k hk => ?_
  by_cases hn : k < n <;> simp [hn, hk, BitVec.getLsbD_eq_getElem]

/-- A word that carries a narrower operand has its other bits 0. -/
theorem setWidth_and_high {w n : Nat} (hn : n ≤ w) (x : BitVec n) {mask : BitVec w}
    (hm : mask = BitVec.allOnes w <<< n) : x.setWidth w &&& mask = 0#w := by
  rw [hm, ← setWidth_setWidth_eq_iff, BitVec.setWidth_setWidth_of_le _ hn, BitVec.setWidth_eq]

@[simp] theorem half_and_ones (x : Half) : x &&& 0xFFFF#16 = x := BitVec.and_allOnes

@[simp] theorem bit16_getElem (b : Bool) : (bit16 b)[0] = b := by cases b <;> rfl

@[simp] theorem bit16_and_high (b : Bool) : bit16 b &&& 0xFFFE#16 = 0#16 := by cases b <;> rfl

theorem bit16_getElem_eq_iff {x : Half} : bit16 x[0] = x ↔ x &&& 0xFFFE#16 = 0#16 := by
  have bit : ∀ y : BitVec 1, bit16 y[0] = y.setWidth 16 := by decide
  have low : bit16 x[0] = (x.setWidth 1).setWidth 16 := by rw [← bit, BitVec.getElem_setWidth]; rfl
  rw [low]
  exact setWidth_setWidth_eq_iff

section
variable (key : BitVec 4) (asc ascq : Byte)

/-! The argument word of `SET_SENSE` (48_scsi.md rule R481). -/

@[simp] theorem senseArg_key : (0#8 ++ ascq ++ asc ++ key.setWidth 8).setWidth 4 = key := by
  rw [BitVec.setWidth_append]
  simp

@[simp] theorem senseArg_asc : (0#8 ++ ascq ++ asc ++ key.setWidth 8).extractLsb' 8 8 = asc := by
  rw [BitVec.extractLsb'_append_eq_of_le (by decide)]
  exact BitVec.extractLsb'_append_eq_right

@[simp] theorem senseArg_ascq : (0#8 ++ ascq ++ asc ++ key.setWidth 8).extractLsb' 16 8 = ascq := by
  rw [BitVec.extractLsb'_append_eq_of_le (by decide), BitVec.extractLsb'_append_eq_of_le (by decide)]
  exact BitVec.extractLsb'_append_eq_right

end

/-! ### The operand forms (rule R141): what each accepts and what it yields -/

@[simp] theorem idxForm_ok_iff {nEp : Nat} {epa : Byte} {i : BitVec 4} :
    idxForm nEp epa = .ok i ↔ idxOk nEp i = true ∧ i.setWidth 8 = epa := by
  have low : epa &&& 0xF0#8 = 0#8 ↔ (epa.setWidth 4).setWidth 8 = epa := (setWidth_setWidth_eq_iff (n := 4)).symm
  constructor
  · simp only [idxForm, bne_iff_ne, ne_eq, low, ite_not]
    split_ifs with h hi
    · rintro ⟨rfl⟩
      exact ⟨hi, h⟩
    · exact nofun
    · exact nofun
  · rintro ⟨hi, rfl⟩
    simp [idxForm, low, hi]

@[simp] theorem epForm_ok_iff {epa ep : Byte} : epForm epa = .ok ep ↔ epOk epa = true ∧ ep = epa := by
  cases h : epOk epa <;> simp [epForm, h, eq_comm]

@[simp] theorem flagForm_ok_iff {epa : Byte} {d : Bool} : flagForm epa = .ok d ↔ bit8 d = epa := by
  revert epa d
  decide

@[simp] theorem unusedForm_ok_iff {epa : Byte} {u : Unit} : unusedForm epa = .ok u ↔ epa = 0#8 := by
  simp [unusedForm]

@[simp] theorem immForm_ok_iff {mask imm : Half} {u : Unit} : immForm mask imm = .ok u ↔ imm &&& mask = 0#16 := by
  simp [immForm]

@[simp] theorem argForm_ok_iff {e : DecodeError} {mask arg : Word} {u : Unit} :
    argForm e mask arg = .ok u ↔ arg &&& mask = 0#32 := by
  simp [argForm]

/-- A decoder in two parts accepts if its first part does and its second does on what the first yields. -/
theorem bind_eq_ok_iff {ε α β : Type} {x : Except ε α} {f : α → Except ε β} {b : β} :
    x >>= f = .ok b ↔ ∃ a, x = .ok a ∧ f a = .ok b := by
  cases x with
  | error e => exact ⟨nofun, fun ⟨_, h, _⟩ => nomatch h⟩
  | ok a => exact ⟨fun h => ⟨a, rfl, h⟩, by rintro ⟨_, ⟨rfl⟩, h⟩; exact h⟩

theorem forall_bind_eq_ok_iff {ε α β : Type} {x : Except ε α} {f : α → Except ε β} {P : β → Prop} :
    (∀ b, x >>= f = .ok b → P b) ↔ ∀ a, x = .ok a → ∀ b, f a = .ok b → P b := by
  simp only [bind_eq_ok_iff]
  exact ⟨fun h a ha b hb => h b ⟨a, ha, hb⟩, fun h b ⟨a, ha, hb⟩ => h a ha b hb⟩

theorem exists_bind_eq_ok_iff {ε α β : Type} {x : Except ε α} {f : α → Except ε β} :
    (∃ b, x >>= f = .ok b) ↔ ∃ a, x = .ok a ∧ ∃ b, f a = .ok b := by
  simp only [bind_eq_ok_iff]
  exact ⟨fun ⟨b, a, ha, hb⟩ => ⟨a, ha, b, hb⟩, fun ⟨a, ha, b, hb⟩ => ⟨b, a, ha, hb⟩⟩

@[simp] theorem stageForm_ok_iff {imm : Half} {st : BitVec 2} :
    stageForm imm = .ok st ↔ stageOk st = true ∧ st.setWidth 16 = imm := by
  have low : imm &&& 0xFFFC#16 = 0#16 ↔ (imm.setWidth 2).setWidth 16 = imm := (setWidth_setWidth_eq_iff (n := 2)).symm
  simp only [stageForm, bind_eq_ok_iff, immForm_ok_iff]
  constructor
  · rintro ⟨-, h, hst⟩
    split at hst
    case isTrue ho => cases hst; exact ⟨ho, low.1 h⟩
    case isFalse => cases hst
  · rintro ⟨ho, rfl⟩
    simp [low, ho]

/-! ### Decoder and encoder (rule R142) -/

/-- The encoding of a command decodes to it exactly if it is well-formed: each operand form accepts what the encoder
writes in its field, and yields the operand. -/
theorem decode_encode_iff (nEp : Nat) (i : Instr) :
    decode nEp (encode i).cmd (encode i).arg0 (encode i).arg1 = .ok i ↔ wellFormed nEp i = true := by
  cases i with
  -- `EPA` is an ep_idx
  | eprRead i | eprWrite i | eprClrTxCtr i | eprClrRxCtr i | eprSetTxDtog i | eprSetRxDtog i | btGetAddr i
  | btGetCount i | btSetRxBufsize i => simp [decode, encode, cmd0, wellFormed, bind_eq_ok_iff]
  | eprSetTxStat i | eprSetRxStat i | eprSetType i | eprSetEa i | btSetAddr i | btSetCount i =>
    simp [decode, encode, cmd0, wellFormed, bind_eq_ok_iff, setWidth_and_high]
  | eprMux i ctl => simp [decode, encode, cmd0, wellFormed, bind_eq_ok_iff, ctlOk]
  -- `EPA` is an ep_addr
  | isoAlloc ep | isoActivate ep | xfer ep | xferFifo ep | epStall ep | epClearStall ep | edptXfer ep | edptStall ep
  | edptClearStall ep | edptStalled ep | edptReady ep => simp [decode, encode, cmd0, wellFormed, bind_eq_ok_iff]
  | epAlloc ep | epOpen ep | mscXferCb ep =>
    simp [decode, encode, cmd0, wellFormed, bind_eq_ok_iff, setWidth_and_high]
  -- `EPA` is a flag
  | pmaAlloc dbuf | sofEnable en | connect en | irqEnable en | asyncIoDone inIsr =>
    simp [decode, encode, cmd0, wellFormed, bind_eq_ok_iff]
  -- `EPA` is unused
  | pmaWrite off ram len | pmaRead off ram len | setAddress a =>
    simp [decode, encode, cmd0, wellFormed, bind_eq_ok_iff, setWidth_and_high]
  | _ => simp [decode, encode, cmd0, wellFormed, bind_eq_ok_iff]

/-- Settles O1: one direction of `decode_encode_iff`. -/
theorem decodeEncodeRoundTrip : Obligations.DecodeEncodeRoundTrip := fun nEp i h => (decode_encode_iff nEp i).2 h

/-- Settles O2: on each row the forms pass well-formed operands only, and fix every bit of the three fields. -/
theorem decodeDeterminesCommand : Obligations.DecodeDeterminesCommand := by
  intro nEp cmd arg0 arg1
  unfold decode
  generalize hopc : (cmdOpc cmd).toNat = opc
  split
  all_goals -- what the row's forms say of `EPA`, `IMM` and the operands
    simp only [forall_bind_eq_ok_iff, idxForm_ok_iff, epForm_ok_iff, flagForm_ok_iff, unusedForm_ok_iff,
      immForm_ok_iff, argForm_ok_iff, stageForm_ok_iff, and_imp, Except.ok.injEq, forall_eq', reduceCtorEq,
      forall_const, false_imp_iff]
  all_goals -- the three fields are those of the encoding
    simp +contextual [wellFormed, encode, cmd0, mkCmd_eq_iff, hopc, ctlOk, setWidth_setWidth_eq_iff,
      bit16_getElem_eq_iff]

/-- Settles O3: each word decodes by evaluation. -/
theorem decodeTableWords : Obligations.DecodeTableWords :=
  ⟨rfl, rfl, rfl, rfl, rfl, rfl, rfl, rfl, rfl, rfl, rfl⟩

/-! ### The words no row admits (rules R141, R143, R440) -/

theorem exists_idxForm_ok_iff {nEp : Nat} {epa : Byte} :
    (∃ i, idxForm nEp epa = .ok i) ↔ epa &&& 0xF0#8 = 0#8 ∧ epa.toNat < nEp := by
  simp only [idxForm_ok_iff, idxOk, decide_eq_true_eq]
  constructor
  · rintro ⟨i, hi, rfl⟩
    exact ⟨setWidth_and_high (by decide) i rfl, by rwa [BitVec.toNat_setWidth_of_le (by decide)]⟩
  · rintro ⟨h, hlt⟩
    have low : (epa.setWidth 4).setWidth 8 = epa := setWidth_setWidth_eq_iff.2 h
    refine ⟨epa.setWidth 4, ?_, low⟩
    rwa [← low, BitVec.toNat_setWidth_of_le (by decide)] at hlt

theorem exists_epForm_ok_iff {epa : Byte} : (∃ ep, epForm epa = .ok ep) ↔ epa &&& 0x70#8 = 0#8 := by
  simp [epOk]

theorem exists_flagForm_ok_iff {epa : Byte} : (∃ d, flagForm epa = .ok d) ↔ epa &&& 0xFE#8 = 0#8 := by
  simp only [flagForm_ok_iff]
  revert epa
  decide

theorem exists_stageForm_ok_iff {imm : Half} :
    (∃ st, stageForm imm = .ok st) ↔ imm &&& 0xFFFC#16 = 0#16 ∧ imm ≠ 3#16 := by
  simp only [stageForm_ok_iff, stageOk, bne_iff_ne, ne_eq]
  constructor
  · rintro ⟨st, hst, rfl⟩
    exact ⟨setWidth_and_high (by decide) st rfl, by revert st; decide⟩
  · rintro ⟨h, hst⟩
    have low : (imm.setWidth 2).setWidth 16 = imm := setWidth_setWidth_eq_iff.2 h
    exact ⟨imm.setWidth 2, fun h3 => hst (by rw [← low, h3]; rfl), low⟩

/-- The decoder accepts exactly the words that are not malformed. -/
theorem exists_decode_ok_iff (nEp : Nat) (cmd arg0 arg1 : Word) :
    (∃ i, decode nEp cmd arg0 arg1 = .ok i) ↔ ¬ Malformed nEp cmd arg0 arg1 := by
  unfold decode Malformed
  generalize (cmdOpc cmd).toNat = opc
  split
  case h_53 =>
    -- the `OPC` of no row
    have unassigned : Unassigned opc := by grind [Unassigned]
    exact ⟨nofun, fun h => absurd (.inl unassigned) h⟩
  all_goals
    simp only [exists_bind_eq_ok_iff, exists_and_right, exists_idxForm_ok_iff, exists_epForm_ok_iff,
      exists_flagForm_ok_iff, unusedForm_ok_iff, immForm_ok_iff, argForm_ok_iff, exists_stageForm_ok_iff,
      Except.ok.injEq, exists_eq', exists_const, and_true]
    simp [Unassigned, BadEpa, immUnnamed, BadArg, and_assoc]

/-- Issuing a malformed word raises `ILLEGAL_CMD` with the word as its info. -/
theorem issue_malformed {s : State} (hs : s.Ready) {cmd arg0 arg1 : Word} (h : Malformed s.cfg.nEp cmd arg0 arg1) :
    issue cmd arg0 arg1 s = .next (takeFault (.illegalCmd cmd) (s.withCommand cmd arg0 arg1)) := by
  have hready : (s.withCommand cmd arg0 arg1).Ready := ⟨hs.noFault, hs.legal⟩
  cases hd : decode s.cfg.nEp cmd arg0 arg1 with
  | ok i => exact absurd h ((exists_decode_ok_iff ..).1 ⟨i, hd⟩)
  | error e =>
    simp only [issue, hd]
    exact perform_error hready rfl

/-- A row whose `ARG1` column is `-` does not read `ARG1`. -/
theorem decode_arg1_unread (nEp : Nat) (cmd arg0 arg1 arg1' : Word)
    (h : (cmdOpc cmd).toNat ∉ [0x20, 0x21, 0x22, 0x23, 0x35, 0x36, 0x53, 0x54, 0x55, 0x5A]) :
    decode nEp cmd arg0 arg1 = decode nEp cmd arg0 arg1' := by
  unfold decode
  generalize (cmdOpc cmd).toNat = opc at h
  -- a row that reads it is one of those `h` excludes; on any other the two sides are the same
  revert h
  split <;> simp

/-- A row whose `ARG0` column is `-` does not read `ARG0`. -/
theorem decode_arg0_unread (nEp : Nat) (cmd arg0 arg0' arg1 : Word)
    (h : (cmdOpc cmd).toNat ∉ [0x02, 0x12, 0x14, 0x16, 0x20, 0x21, 0x22, 0x23, 0x31, 0x32, 0x33, 0x35, 0x36, 0x53,
      0x54, 0x56, 0x58, 0x5A]) :
    decode nEp cmd arg0 arg1 = decode nEp cmd arg0' arg1 := by
  unfold decode
  generalize (cmdOpc cmd).toNat = opc at h
  -- a row that reads it is one of those `h` excludes; on any other the two sides are the same
  revert h
  split <;> simp

/-- Settles O4: the decoder accepts exactly the words that are not malformed, and the step issues the word. -/
theorem illegalOpcodeFaults : Obligations.IllegalOpcodeFaults := by
  refine ⟨fun s cmd arg0 arg1 rest hs hsch hm => ?_, fun nEp cmd arg0 arg1 => (exists_decode_ok_iff ..).2,
    decode_arg1_unread, decode_arg0_unread⟩
  have hready : State.Ready { s with schedule := rest } := ⟨hs.noFault, hs.legal⟩
  rw [step_noFault hs.noFault, nextTurn_cons hsch]
  exact issue_malformed hready hm

/-! ### Ill-formed operands (rules R141, R145, R440) -/

/-- The operation raises `ILLEGAL_CMD` from `s` and has no other effect. -/
def Refuses {α : Type} (s : State) (op : Op α) : Prop := op s = .error (.illegalCmd s.cmd) s

section
variable {s : State}

theorem Refuses.bind {α β : Type} {x : Op α} (h : Refuses s x) (f : α → Op β) : Refuses s (x >>= f) := by
  unfold Refuses at *
  rw [bind_run, h]

theorem refuses_checkOperand {ok : Bool} (h : ok = false) : Refuses s (checkOperand ok) := by
  simp [Refuses, checkOperand_run, h]

theorem refuses_checkIdx {i : BitVec 4} (h : idxOk s.cfg.nEp i = false) : Refuses s (checkIdx i.toNat) := by
  have : ¬ i.toNat < s.cfg.nEp := by simpa [idxOk] using h
  simp [Refuses, checkIdx_run, this]

theorem refuses_rmwEpr {i : BitVec 4} (h : idxOk s.cfg.nEp i = false) (c : MuxSel) : Refuses s (rmwEpr i.toNat c) :=
  ((refuses_checkIdx h).bind _).bind _

/-- `EPR_MUX` refuses its control word before it looks at its register. -/
theorem refuses_eprMux {i : BitVec 4} {ctl : Half} (h : (idxOk s.cfg.nEp i && ctlOk ctl) = false) :
    Refuses s (do checkOperand (ctlOk ctl); rmwEpr i.toNat (MuxSel.ofCtl ctl)) := by
  cases hc : ctlOk ctl with
  | false => exact (refuses_checkOperand rfl).bind _
  | true =>
    rw [hc, Bool.and_true] at h
    simp only [Refuses, bind_run, checkOperand_run, if_true]
    exact refuses_rmwEpr h _

end

/-- Settles O5: every command with an operand check begins with it. -/
theorem illFormedOperandFaults : Obligations.IllFormedOperandFaults := by
  intro s i hs h
  have refused {op : Op Unit} (ho : Refuses s op) :
      perform op s = .next { s with fault := some (.illegalCmd s.cmd) } := perform_error hs ho
  cases i with
  | eprSetTxStat i | eprSetRxStat i | eprSetTxDtog i | eprSetRxDtog i | eprClrTxCtr i | eprClrRxCtr i | eprSetType i
  | eprSetEa i => exact refused (refuses_rmwEpr h _)
  | eprMux i ctl => exact refused (refuses_eprMux h)
  | eprWrite i | btSetAddr i | btSetCount i | btSetRxBufsize i => exact refused ((refuses_checkIdx h).bind _)
  | eprRead i | btGetAddr i | btGetCount i => exact refused (((refuses_checkIdx h).bind _).bind _)
  | epAlloc ep | epOpen ep | isoAlloc ep | isoActivate ep | xfer ep | xferFifo ep | epStall ep | epClearStall ep
  | mscControl stage | mscXferCb ep | edptXfer ep | edptStall ep | edptClearStall ep | edptStalled ep
  | edptReady ep => exact refused ((refuses_checkOperand h).bind _)
  | _ => cases h

/-! ### One register written (10_state.md rules R41, R48) -/

/-- Recomputing `ISTR` keeps its flags. -/
theorem istrOf_flags (n : Nat) (e : Vector Half 8) (old : Half) :
    istrOf n e old &&& 0x7F00#16 = old &&& 0x7F00#16 := by
  cases hf : firstCtr n e with
  | none => simp only [istrOf, hf]; exact and_mask _ _ _
  | some i =>
    have hi := firstCtr_lt hf
    simp only [istrOf, hf, BitVec.and_or_distrib_right, and_mask]
    interval_cases i <;> split <;> simp

/-- Where no CTR bit is set, recomputing `ISTR` keeps `DIR` and `EP_ID`. -/
theorem istrOf_kept {n : Nat} {e : Vector Half 8} {old : Half} (h : istrCtr (istrOf n e old) = false) :
    istrOf n e old &&& 0x001F#16 = old &&& 0x001F#16 := by
  cases hf : firstCtr n e with
  | none => simp only [istrOf, hf]; exact and_mask _ _ _
  | some i =>
    obtain ⟨hc, -⟩ := ctrReport_reads (ctrRx (e[i]?.getD 0)) (firstCtr_lt hf)
    rw [← istrCtr_reportOf, reportOf_istrOf_some hf, hc] at h
    cases h

theorem putEpr_onlyEpr {s : State} {i : Nat} (hi : i < s.cfg.nEp) (hn : s.cfg.nEp ≤ 8) (v : Half) :
    s.OnlyEpr (s.putEpr true i v) i := by
  have istr : (s.putEpr true i v).istr = istrOf s.cfg.nEp (s.putEpr true i v).epr s.istr := by simp [hi]
  constructor
  case rest => rfl
  case others => exact fun j hj => by rw [putEpr_eprAt hi hn, if_neg hj]
  case flags => rw [istr, istrOf_flags]
  case report => exact State.istrOk_of_istrOf istr
  case kept => rw [istr]; exact istrOf_kept

/-! ### The fields after a multiplexed write (41_epreg_engine.md rule R204) -/

theorem getElem_ite_bit (b : Bool) (x : Half) (k : Nat) (hk : k < 16) :
    (if b = true then x else 0#16)[k] = (b && x[k]) := by cases b <;> simp

section
variable (r : Half) (c : MuxSel)

theorem statTx_hwWrite_mux : statTx (hwWrite r (mux r c)) = c.statTx.getD (statTx r) := by
  rw [hwWrite_mux]
  ext k hk
  interval_cases k <;> cases h : c.statTx <;>
    simp [statTx, putBits, MuxSel.mask, MuxSel.value, getElem_ite_bit, placed, h]

theorem statRx_hwWrite_mux : statRx (hwWrite r (mux r c)) = c.statRx.getD (statRx r) := by
  rw [hwWrite_mux]
  ext k hk
  interval_cases k <;> cases h : c.statRx <;>
    simp [statRx, putBits, MuxSel.mask, MuxSel.value, getElem_ite_bit, placed, h]

theorem dtogTx_hwWrite_mux : dtogTx (hwWrite r (mux r c)) = c.dtogTx.getD (dtogTx r) := by
  rw [hwWrite_mux]
  cases h : c.dtogTx <;> simp [dtogTx, putBits, MuxSel.mask, MuxSel.value, getElem_ite_bit, placed, h]

theorem dtogRx_hwWrite_mux : dtogRx (hwWrite r (mux r c)) = c.dtogRx.getD (dtogRx r) := by
  rw [hwWrite_mux]
  cases h : c.dtogRx <;> simp [dtogRx, putBits, MuxSel.mask, MuxSel.value, getElem_ite_bit, placed, h]

theorem ctrTx_hwWrite_mux : ctrTx (hwWrite r (mux r c)) = (ctrTx r && !c.clrCtrTx) := by
  rw [hwWrite_mux]
  cases h : c.clrCtrTx <;> simp [ctrTx, putBits, MuxSel.mask, MuxSel.value, getElem_ite_bit, placed, h]

theorem ctrRx_hwWrite_mux : ctrRx (hwWrite r (mux r c)) = (ctrRx r && !c.clrCtrRx) := by
  rw [hwWrite_mux]
  cases h : c.clrCtrRx <;> simp [ctrRx, putBits, MuxSel.mask, MuxSel.value, getElem_ite_bit, placed, h]

end

/-- The bits outside the replaced ones stay. -/
theorem putBits_and_of_disjoint {mask k : Half} (h : mask &&& k = 0#16) (r v : Half) :
    putBits mask r v &&& k = r &&& k := by
  ext j hj
  have hbit : (mask[j] && k[j]) = false := by rw [← BitVec.getElem_and, h, BitVec.getElem_zero]
  cases hm : mask[j] <;> simp_all [putBits]

/-! ### The control word of `EPR_MUX` (rules R145, R216) -/

theorem ite_and_eq_zero (b : Bool) {x k : Half} (h : x &&& k = 0#16) : (if b = true then x else 0#16) &&& k = 0#16 := by
  cases b <;> simp [h]

/-- The control word selects neither `EP_TYPE`, `EP_KIND` nor `EA`, and nothing replaces `SETUP`. -/
theorem ofCtl_mask_and (ctl : Half) : (MuxSel.ofCtl ctl).mask &&& 0x0F0F#16 = 0#16 := by
  simp [MuxSel.mask, MuxSel.ofCtl, BitVec.and_or_distrib_right, ite_and_eq_zero]

theorem getD_ite_some {α : Type} (b : Bool) (v d : α) :
    (if b = true then some v else none).getD d = if b = true then v else d := by cases b <;> rfl

/-- Settles O9: the law of the multiplexer with the select inputs of the control word. -/
theorem eprMuxControlWord : Obligations.EprMuxControlWord := by
  intro s i ctl hs hb hr hi hc
  have hn : s.cfg.nEp ≤ 8 := (Config.legal_bounds hs.legal).2.1
  have hok : ctlOk ctl = true := beq_iff_eq.2 hc
  have run : (do checkOperand (ctlOk ctl); rmwEpr i.toNat (MuxSel.ofCtl ctl) : Op Unit) s
      = .ok () (s.putEpr true i.toNat (hwWrite (s.eprAt i.toNat) (mux (s.eprAt i.toNat) (MuxSel.ofCtl ctl)))) := by
    simp only [bind_run, checkOperand_run, hok, if_true, rmwEpr_quiet hb hi, hwWriteEpr_running hr]
  refine ⟨_, perform_ok hs run, putEpr_onlyEpr hi hn _, ?_⟩
  rw [putEpr_eprAt hi hn, if_pos rfl]
  refine ⟨?_, ?_, ?_, ?_, ctrTx_hwWrite_mux _ _, ctrRx_hwWrite_mux _ _, ?_⟩
  · rw [statTx_hwWrite_mux, MuxSel.ofCtl, getD_ite_some]
  · rw [dtogTx_hwWrite_mux, MuxSel.ofCtl, getD_ite_some]
  · rw [statRx_hwWrite_mux, MuxSel.ofCtl, getD_ite_some]
  · rw [dtogRx_hwWrite_mux, MuxSel.ofCtl, getD_ite_some]
  · rw [hwWrite_mux, putBits_and_of_disjoint (ofCtl_mask_and ctl)]

end Sys2Proof.Machine

/-! PROOFS. The endpoint register engine (O6, O7, O8, O11) and the reading commands (O12). -/

namespace Sys2Proof.Machine

/-! ### The hardware write, field by field (41_epreg_engine.md rule R203) -/

theorem and_ones_two (x : BitVec 2) : x &&& 3#2 = x := BitVec.and_allOnes

theorem and_ones_four (x : BitVec 4) : x &&& 15#4 = x := BitVec.and_allOnes

section
variable (o w : Half)

theorem ctrRx_hwWrite : ctrRx (hwWrite o w) = (ctrRx o && ctrRx w) := by simp [ctrRx, hwWrite]

theorem dtogRx_hwWrite : dtogRx (hwWrite o w) = (dtogRx o ^^ dtogRx w) := by simp [dtogRx, hwWrite]

theorem statRx_hwWrite : statRx (hwWrite o w) = statRx o ^^^ statRx w := by
  simp [statRx, hwWrite, BitVec.extractLsb'_or, BitVec.extractLsb'_and, BitVec.extractLsb'_xor, and_ones_two]

theorem setupBit_hwWrite : setupBit (hwWrite o w) = setupBit o := by simp [setupBit, hwWrite]

theorem epType_hwWrite : epType (hwWrite o w) = epType w := by
  simp [epType, hwWrite, BitVec.extractLsb'_or, BitVec.extractLsb'_and, and_ones_two]

theorem epKind_hwWrite : epKind (hwWrite o w) = epKind w := by simp [epKind, hwWrite]

theorem ctrTx_hwWrite : ctrTx (hwWrite o w) = (ctrTx o && ctrTx w) := by simp [ctrTx, hwWrite]

theorem dtogTx_hwWrite : dtogTx (hwWrite o w) = (dtogTx o ^^ dtogTx w) := by simp [dtogTx, hwWrite]

theorem statTx_hwWrite : statTx (hwWrite o w) = statTx o ^^^ statTx w := by
  simp [statTx, hwWrite, BitVec.extractLsb'_or, BitVec.extractLsb'_and, BitVec.extractLsb'_xor, and_ones_two]

theorem eaField_hwWrite : eaField (hwWrite o w) = eaField w := by
  simp [eaField, hwWrite, BitVec.extractLsb'_or, BitVec.extractLsb'_and, and_ones_four]

end

/-! ### The multiplexer, field by field (rule R201)

A CTR bit of the written word is 0 where it is cleared, a toggle field is the difference to its target, 0 where it
is not selected, and a writable field is its target or the value that was read. -/

theorem getElem_ite_zero_bit (b : Bool) (x : Half) (k : Nat) (hk : k < 16) :
    (if b = true then 0#16 else x)[k] = (!b && x[k]) := by cases b <;> simp

section
variable (r : Half) (c : MuxSel)

theorem ctrTx_mux : ctrTx (mux r c) = !c.clrCtrTx := by
  simp [ctrTx, mux, keepOr, toggleTo, getElem_ite_zero_bit]

theorem ctrRx_mux : ctrRx (mux r c) = !c.clrCtrRx := by
  simp [ctrRx, mux, keepOr, toggleTo, getElem_ite_zero_bit]

theorem statTx_mux : statTx (mux r c) = c.statTx.elim 0 (statTx r ^^^ ·) := by
  ext k hk
  interval_cases k <;> cases h : c.statTx <;>
    simp [statTx, mux, keepOr, toggleTo, placed, getElem_ite_zero_bit, h]

theorem statRx_mux : statRx (mux r c) = c.statRx.elim 0 (statRx r ^^^ ·) := by
  ext k hk
  interval_cases k <;> cases h : c.statRx <;>
    simp [statRx, mux, keepOr, toggleTo, placed, getElem_ite_zero_bit, h]

theorem dtogTx_mux : dtogTx (mux r c) = c.dtogTx.elim false (dtogTx r ^^ ·) := by
  rcases h : c.dtogTx with _ | _ | _ <;> simp [dtogTx, mux, keepOr, toggleTo, getElem_ite_zero_bit, h]

theorem dtogRx_mux : dtogRx (mux r c) = c.dtogRx.elim false (dtogRx r ^^ ·) := by
  rcases h : c.dtogRx with _ | _ | _ <;> simp [dtogRx, mux, keepOr, toggleTo, getElem_ite_zero_bit, h]

theorem epType_mux : epType (mux r c) = c.type.getD (epType r) := by
  ext k hk
  interval_cases k <;> cases h : c.type <;>
    simp [epType, mux, keepOr, toggleTo, placed, getElem_ite_zero_bit, h]

theorem epKind_mux : epKind (mux r c) = c.kind.getD (epKind r) := by
  rcases h : c.kind with _ | _ | _ <;> simp [epKind, mux, keepOr, toggleTo, getElem_ite_zero_bit, h]

theorem eaField_mux : eaField (mux r c) = c.ea.getD (eaField r) := by
  ext k hk
  interval_cases k <;> cases h : c.ea <;>
    simp [eaField, mux, keepOr, toggleTo, placed, getElem_ite_zero_bit, h]

end

/-! ### The write access and the primitives -/

section
variable {s : State} (hr : s.Running) {i : Nat} (hi : i < s.cfg.nEp) (hn : s.cfg.nEp ≤ 8) (w : Half)
include hr hi hn

theorem hwWriteEpr_onlyEpr : s.OnlyEpr (s.hwWriteEpr i w) i := by
  rw [hwWriteEpr_running hr]
  exact putEpr_onlyEpr hi hn _

theorem hwWriteEpr_eprAt_same : (s.hwWriteEpr i w).eprAt i = hwWrite (s.eprAt i) w := by
  rw [hwWriteEpr_running hr, putEpr_eprAt hi hn, if_pos rfl]

end

/-- Settles O6: `EPR_WRITE` is one hardware write, and each field of that follows its class. -/
theorem eprWriteByClass : Obligations.EprWriteByClass := by
  intro s i w hs hb hr hi
  have hn : s.cfg.nEp ≤ 8 := (Config.legal_bounds hs.legal).2.1
  refine ⟨s.hwWriteEpr i.toNat w, perform_ok hs (writeEpr_quiet hb hi w), hwWriteEpr_onlyEpr hr hi hn w, ?_⟩
  rw [hwWriteEpr_eprAt_same hr hi hn]
  exact ⟨ctrRx_hwWrite _ _, dtogRx_hwWrite _ _, statRx_hwWrite _ _, setupBit_hwWrite _ _, epType_hwWrite _ _,
    epKind_hwWrite _ _, ctrTx_hwWrite _ _, dtogTx_hwWrite _ _, statTx_hwWrite _ _, eaField_hwWrite _ _⟩

/-- Settles O7: the written word is that of the value read, so each toggle field reaches its target. -/
theorem multiplexerLaw : Obligations.MultiplexerLaw := by
  intro s i c hb hr hn hi
  refine ⟨_, rmwEpr_quiet hb hi c, hwWriteEpr_onlyEpr hr hi hn _, ?_⟩
  rw [hwWriteEpr_eprAt_same hr hi hn]
  refine ⟨statTx_hwWrite_mux _ c, dtogTx_hwWrite_mux _ c, statRx_hwWrite_mux _ c, dtogRx_hwWrite_mux _ c,
    ctrTx_hwWrite_mux _ c, ctrRx_hwWrite_mux _ c, ?_, ?_, ?_, setupBit_hwWrite _ _⟩
  · rw [epType_hwWrite, epType_mux]
  · rw [epKind_hwWrite, epKind_mux]
  · rw [eaField_hwWrite, eaField_mux]

/-- Settles O11: the BUS steps leave the value the write acts on, the word written is that of the value read. -/
theorem eprSplitRace : Obligations.EprSplitRace := by
  intro s u i c w rest htape hi hn hu hcfg hr
  have hi' : i < u.cfg.nEp := hcfg ▸ hi
  have hn' : u.cfg.nEp ≤ 8 := hcfg ▸ hn
  refine ⟨_, rmwEpr_split htape hi hu c, hwWriteEpr_onlyEpr hr hi' hn' _, ?_⟩
  rw [hwWriteEpr_eprAt_same hr hi' hn']
  refine ⟨?_, ?_, ?_, ?_, ?_, ?_, ?_, ?_, ?_, setupBit_hwWrite _ _⟩
  · rw [ctrTx_hwWrite, ctrTx_mux]
  · rw [ctrRx_hwWrite, ctrRx_mux]
  · rw [statTx_hwWrite, statTx_mux]
    cases c.statTx <;> simp [BitVec.xor_assoc]
  · rw [dtogTx_hwWrite, dtogTx_mux]
    cases c.dtogTx <;> simp
  · rw [statRx_hwWrite, statRx_mux]
    cases c.statRx <;> simp [BitVec.xor_assoc]
  · rw [dtogRx_hwWrite, dtogRx_mux]
    cases c.dtogRx <;> simp
  · rw [epType_hwWrite, epType_mux]
  · rw [epKind_hwWrite, epKind_mux]
  · rw [eaField_hwWrite, eaField_mux]

/-- A primitive performed with no BUS step inside replaces the bits its select names, and those only. -/
theorem perform_rmwEpr {s : State} (hs : s.Ready) (hb : s.busTape = []) (hr : s.Running) {i : Nat}
    (hi : i < s.cfg.nEp) (c : MuxSel) {v : Half} (hv : putBits c.mask (s.eprAt i) c.value = v) :
    ∃ t, perform (rmwEpr i c) s = .next t ∧ s.OnlyEpr t i ∧ t.eprAt i = v := by
  have hn : s.cfg.nEp ≤ 8 := (Config.legal_bounds hs.legal).2.1
  subst hv
  refine ⟨_, perform_ok hs (rmwEpr_running hb hr hi c), putEpr_onlyEpr hi hn _, ?_⟩
  rw [putEpr_eprAt hi hn, if_pos rfl]

/-- Settles O8: each primitive is the multiplexer with the select of its own fields (rules R207 to R213, R215). -/
theorem eprPrimitives : Obligations.EprPrimitives := by
  intro s i hs hb hr hi
  have replaces := @perform_rmwEpr s hs hb hr i.toNat hi
  refine ⟨fun st => ?_, fun st => ?_, fun d => ?_, fun d => ?_, ?_, ?_, fun ty => ?_, fun ea => ?_⟩
  · exact replaces { statTx := some st } (by simp [MuxSel.mask, MuxSel.value, placed])
  · exact replaces { statRx := some st } (by simp [MuxSel.mask, MuxSel.value, placed])
  · exact replaces { dtogTx := some d } (by simp [MuxSel.mask, MuxSel.value, placed])
  · exact replaces { dtogRx := some d } (by simp [MuxSel.mask, MuxSel.value, placed])
  · exact replaces { clrCtrTx := true } (by simp [MuxSel.mask, MuxSel.value, placed, putBits])
  · exact replaces { clrCtrRx := true } (by simp [MuxSel.mask, MuxSel.value, placed, putBits])
  · exact replaces { type := some ty, kind := some false } (by simp [MuxSel.mask, MuxSel.value, placed])
  · exact replaces { ea := some ea } (by simp [MuxSel.mask, MuxSel.value, placed])

/-! ### The reading commands (rule R205; 42_pma_btable.md rules R245, R248; 47_bot_fsm.md rule R429) -/

/-- A command that puts in `RES` what a read without effect answers. -/
theorem perform_read {α : Type} {s : State} (hs : s.Ready) {read : Op α} {a : α} (h : read s = .ok a s)
    (f : α → Word) : perform (do let v ← read; setRes (f v)) s = .next { s with res := f a } :=
  perform_ok hs (bind_eq h rfl)

/-- A command that puts in `RES` a test of the endpoint it is given. -/
theorem perform_test {s : State} (hs : s.Ready) {ep : Byte} (hep : epOk ep = true) (test : State → Bool) :
    perform (do checkEp ep; let b ← peek test; setRes (boolRes b)) s = .next { s with res := boolRes (test s) } :=
  perform_ok hs (bind_eq (checkEp_ok hep) rfl)

/-- Settles O12: no read has an effect, and `RES` takes the value read. -/
theorem readingCommands : Obligations.ReadingCommands := by
  intro s hs hb
  refine ⟨fun i hi => ?_, fun i b hi => ?_, fun i b hi => ?_, fun ep hep => ?_, fun ep hep => ?_⟩
  · exact perform_read hs (readEpr_quiet hb hi) fun r => r.setWidth 32
  · exact perform_read hs (btGetAddrOp_quiet hs.legal hb hi b) fun a => a.setWidth 32
  · rw [← BitVec.ofNat_toNat]
    exact perform_read hs (btGetCountOp_quiet hs.legal hb hi b) (BitVec.ofNat 32)
  · exact perform_test hs hep fun s => s.stalledAt ep
  · have ready : boolRes (s.ready ep) = if s.busyAt ep = false ∧ s.stalledAt ep = false then 1 else 0 := by
      simp [boolRes, State.ready]
    rw [← ready]
    exact perform_test hs hep fun s => s.ready ep

end Sys2Proof.Machine

/-! PROOFS. The PMA allocator (O13), the receive-size code (O14) and the slot allocator (O16). -/

namespace Sys2Proof.Machine

/-! ### The PMA allocator (42_pma_btable.md rules R241 to R243) -/

theorem checkAlign_misaligned {s : State} {x : Nat} (h32 : s.cfg.bus32 = true) (hx : x % 4 ≠ 0) :
    checkAlign x s = .error (.pmaAlign x) s := by
  simp only [checkAlign, bind_run, peek_run]
  rw [if_pos (by simp [h32, hx]), raise_run]

/-- How far an allocation of `len` bytes, or of two such buffers, moves the cursor (rule R242). -/
abbrev allocSpan (len : Nat) (dbuf : Bool) : Nat := if dbuf then 2 * aligned len else aligned len

section
variable {s : State} {len : Nat} {dbuf : Bool}

theorem pmaAllocOp_tooLong (hlen : 1024 < len) : pmaAllocOp len dbuf s = .error (.pmaLen len) s := by
  simp only [pmaAllocOp, bind_run, peek_run, id]
  rw [if_pos hlen, raise_run]

variable (hlen : len ≤ 1024)
include hlen

theorem pmaAllocOp_exhausted (hroom : s.cfg.pmaSize < s.pmaCursor + allocSpan len dbuf) :
    pmaAllocOp len dbuf s = .error (.pmaExhausted len) s := by
  simp only [pmaAllocOp, bind_run, peek_run, id]
  rw [if_neg (Nat.not_lt.2 hlen), if_pos hroom, raise_run]

/-- With room the cursor moves, and the offset or offsets are checked afterwards (rules R242, R243). -/
theorem pmaAllocOp_room (hroom : s.pmaCursor + allocSpan len dbuf ≤ s.cfg.pmaSize) :
    pmaAllocOp len dbuf s = (do
      checkAlign s.pmaCursor
      if dbuf then do
        checkAlign (s.pmaCursor + aligned len)
        pure (BitVec.ofNat 16 (s.pmaCursor + aligned len) ++ BitVec.ofNat 16 s.pmaCursor)
      else pure (BitVec.ofNat 32 s.pmaCursor) : Op Word) (s.withCursor (s.pmaCursor + allocSpan len dbuf)) := by
  rw [pmaAllocOp, bind_run, peek_run]
  simp only [id]
  rw [if_neg (Nat.not_lt.2 hlen), if_neg (Nat.not_lt.2 hroom), bind_run, change_run]
  rfl

variable (hroom : s.pmaCursor + allocSpan len dbuf ≤ s.cfg.pmaSize) (h32 : s.cfg.bus32 = true)
include hroom h32

theorem pmaAllocOp_misaligned (hal : s.pmaCursor % 4 ≠ 0) :
    pmaAllocOp len dbuf s = .error (.pmaAlign s.pmaCursor) (s.withCursor (s.pmaCursor + allocSpan len dbuf)) := by
  rw [pmaAllocOp_room hlen hroom, bind_run, checkAlign_misaligned (by exact h32) hal]

theorem pmaAllocOp_secondMisaligned (hd : dbuf = true) (hal : s.pmaCursor % 4 = 0)
    (hal' : (s.pmaCursor + aligned len) % 4 ≠ 0) :
    pmaAllocOp len dbuf s
      = .error (.pmaAlign (s.pmaCursor + aligned len)) (s.withCursor (s.pmaCursor + allocSpan len dbuf)) := by
  rw [pmaAllocOp_room hlen hroom]
  refine bind_eq (checkAlign_ok fun _ => hal) ?_
  rw [if_pos hd, bind_run, checkAlign_misaligned (by exact h32) hal']

end

theorem exec_pmaAlloc_ok {s t : State} (hs : s.Ready) {len : Half} {dbuf : Bool} {v : Word}
    (h : pmaAllocOp len.toNat dbuf s = .ok v t) : exec (.pmaAlloc dbuf len) s = .next { t with res := v } :=
  perform_ok hs (bind_eq h rfl)

theorem exec_pmaAlloc_error {s t : State} (hs : s.Ready) {len : Half} {dbuf : Bool} {f : Fault}
    (h : pmaAllocOp len.toNat dbuf s = .error f t) : exec (.pmaAlloc dbuf len) s = .next { t with fault := some f } :=
  perform_error hs (by rw [bind_run, h])

/-- Settles O13: the length, room and alignment checks in turn, the cursor moved before the last. -/
theorem pmaAllocator : Obligations.PmaAllocator := by
  intro s len dbuf hs
  refine ⟨?_, fun hlen => ?_, fun hlen hroom => ?_, fun hlen hroom hal => ?_,
    fun hlen hroom h32 hal => ?_, fun hlen hd hroom h32 hal hal' => ?_⟩
  · exact perform_ok hs (change_run (fun s => s.withCursor (pmaFirst s.cfg)) s)
  · exact exec_pmaAlloc_error hs (pmaAllocOp_tooLong hlen)
  · exact exec_pmaAlloc_error hs (pmaAllocOp_exhausted hlen hroom)
  · exact exec_pmaAlloc_ok hs (pmaAllocOp_ok hlen hroom fun h32 => hal.resolve_left (by simp [h32]))
  · exact exec_pmaAlloc_error hs (pmaAllocOp_misaligned hlen hroom h32 hal)
  · subst hd
    exact exec_pmaAlloc_error hs (pmaAllocOp_secondMisaligned (dbuf := true) hlen hroom h32 rfl hal hal')

/-! ### The receive-size code (rule R246) -/

theorem rxCap_smallBlocks : ∀ k : BitVec 5, rxCap (placed 10 k) = 2 * k.toNat := by decide

theorem rxCap_largeBlocks : ∀ k : BitVec 5, rxCap (0x8000#16 ||| placed 10 k) = 32 * (k.toNat + 1) := by decide

/-- Settles O14: the block number fits its five bits, and large blocks are counted from one. -/
theorem rxSizeCodeCapacity : Obligations.RxSizeCodeCapacity := by
  intro size hsize
  rw [rxSizeCode_eq_placed hsize, aligned]
  split
  · have hk : ceilDiv size 2 < 2 ^ 5 := by unfold ceilDiv; omega
    rw [rxCap_smallBlocks, BitVec.toNat_ofNat, Nat.mod_eq_of_lt hk]
  · have hk : ceilDiv size 32 - 1 < 2 ^ 5 := by unfold ceilDiv; omega
    have hpos : 1 ≤ ceilDiv size 32 := by unfold ceilDiv; omega
    rw [rxCap_largeBlocks, BitVec.toNat_ofNat, Nat.mod_eq_of_lt hk, Nat.sub_add_cancel hpos]

/-! ### The slot allocator (rules R250, R251) -/

/-- Taking a direction sets the number, the type and that direction, and keeps the other one (rule R251). -/
theorem Slot.take_fields (v : Slot) (n : BitVec 4) (d : Dir) (ty : BitVec 2) :
    (v.take n d ty).epNum = n.setWidth 8 ∧ (v.take n d ty).epType = ty.setWidth 8
      ∧ (v.take n d ty).alloc d = true ∧ (v.take n d ty).alloc d.opp = v.alloc d.opp := by
  refine ⟨rfl, rfl, ?_⟩
  cases d <;> simp [Slot.take, Slot.alloc, Dir.opp]

section
variable {s : State} {ep : Byte} {ty : BitVec 2}

theorem firstSlot_none (h : ∀ j, j < s.cfg.nEp →
      (s.slotAt j).isOpen (epNum ep) (epDir ep) ty = false ∧ (s.slotAt j).fits (epNum ep) (epDir ep) ty = false) :
    s.firstSlot (epNum ep) (epDir ep) ty = none := by
  cases hf : s.firstSlot (epNum ep) (epDir ep) ty with
  | none => rfl
  | some i =>
    obtain ⟨hi, hhere⟩ := firstSlot_spec hf
    simp [h i hi] at hhere

theorem epAllocOp_open {i : Nat} (hn : s.cfg.nEp ≤ 8) (h : s.FirstSlot ep ty i)
    (ho : (s.slotAt i).isOpen (epNum ep) (epDir ep) ty = true) : epAllocOp ep ty s = .ok i s := by
  rw [epAllocOp_run, h.firstSlot hn]
  exact if_pos ho

theorem exec_epAlloc_ok {t : State} (hs : s.Ready) (hep : epOk ep = true) {i : Nat} (h : epAllocOp ep ty s = .ok i t) :
    exec (.epAlloc ep ty) s = .next { t with res := BitVec.ofNat 32 i } :=
  perform_ok hs (bind_eq (checkEp_ok hep) (bind_eq h rfl))

theorem exec_epAlloc_exhausted (hs : s.Ready) (hep : epOk ep = true)
    (h : s.firstSlot (epNum ep) (epDir ep) ty = none) :
    exec (.epAlloc ep ty) s = .next { s with fault := some (.slotExhausted ep) } :=
  perform_error hs (bind_eq (checkEp_ok hep) (by rw [bind_run, epAllocOp_run, h]))

end

/-- Settles O16: the first open slot stays as it is, the first fitting one takes the direction. -/
theorem epAllocFirstFit : Obligations.EpAllocFirstFit := by
  intro s ep ty hs hep
  have hn : s.cfg.nEp ≤ 8 := (Config.legal_bounds hs.legal).2.1
  refine ⟨fun i hi hfirst => ⟨fun ho => ?_, fun hf => ?_⟩, fun hnone => ?_⟩
  · exact exec_epAlloc_ok hs hep (epAllocOp_open hn ⟨hi, .inl ho, hfirst⟩ ho)
  · have slots := fun j => slotTaken_slotAt s ep ty i j (by omega)
    have fields := Slot.take_fields (s.slotAt i) (epNum ep) (epDir ep) ty
    rw [← (slots i).trans (if_pos rfl)] at fields
    exact ⟨_, exec_epAlloc_ok hs hep (epAllocOp_first hn ⟨hi, .inr hf, hfirst⟩), rfl,
      fun j hj => (slots j).trans (if_neg hj), fields⟩
  · exact exec_epAlloc_exhausted hs hep (firstSlot_none hnone)

end Sys2Proof.Machine

/-! PROOFS. The packet memory copies: their checks (O20), and what they move and leave (O17 to O19). -/

namespace Sys2Proof.Machine

/-! ### The checks before the first access (43_pma_copy.md rules R281, R283, R285, R286) -/

section
variable {s : State}

theorem checkSpan_misaligned {off : Nat} (len : Nat) (ha : off % Config.pmaWidth s.cfg ≠ 0) :
    checkSpan off len s = .error (.pmaAlign off) s := by
  simp only [checkSpan, bind_run, peek_run]
  rw [if_pos (by simpa using ha), raise_run]

theorem checkSpan_beyond {off len : Nat} (ha : off % Config.pmaWidth s.cfg = 0)
    (hr : s.cfg.pmaSize < off + roundUp len (Config.pmaWidth s.cfg)) :
    checkSpan off len s = .error (.pmaRange (off + roundUp len (Config.pmaWidth s.cfg) - 1)) s := by
  simp only [checkSpan, bind_run, peek_run]
  rw [if_neg (by simpa using ha), if_pos hr, raise_run]

theorem fifoPop_underrun {h : Word} {n : Nat} (hn : (s.fifo h).q.length < n) :
    fifoPop h n s = .error (.fifoUnderrun h) s := by
  simp only [fifoPop, bind_run, peek_run]
  rw [if_pos hn, raise_run]

/-- An operation whose first part raises a fault and changes nothing leaves only that fault recorded (rule R541). -/
theorem perform_bind_error {α : Type} {x : Op α} {g : α → Op Unit} {f : Fault} (hs : s.Ready)
    (h : x s = .error f s) : perform (x >>= g) s = .next { s with fault := some f } :=
  perform_error hs (by rw [bind_run, h])

variable (hs : s.Ready) {off len : Half}
include hs

/-- All four copies begin with the same check. -/
theorem exec_copies_checkSpan_error (ram : Word) {f : Fault} (h : checkSpan off.toNat len.toNat s = .error f s) :
    exec (.pmaWrite off ram len) s = .next { s with fault := some f }
      ∧ exec (.pmaRead off ram len) s = .next { s with fault := some f }
      ∧ exec (.pmaWriteFifo off ram len) s = .next { s with fault := some f }
      ∧ exec (.pmaReadFifo off ram len) s = .next { s with fault := some f } :=
  ⟨perform_bind_error hs h, perform_bind_error hs h, perform_bind_error hs h, perform_bind_error hs h⟩

variable (ha : off.toNat % Config.pmaWidth s.cfg = 0)
  (hr : off.toNat + roundUp len.toNat (Config.pmaWidth s.cfg) ≤ s.cfg.pmaSize) {h : Word}
include ha hr

theorem exec_pmaWriteFifo_underrun (hn : (s.fifo h).q.length < len.toNat) :
    exec (.pmaWriteFifo off h len) s = .next { s with fault := some (.fifoUnderrun h) } :=
  perform_error hs (bind_eq (checkSpan_ok ha hr) (by rw [bind_run, fifoPop_underrun hn]))

theorem exec_pmaReadFifo_overrun (hn : (s.fifo h).cap < (s.fifo h).q.length + len.toNat) :
    exec (.pmaReadFifo off h len) s = .next { s with fault := some (.fifoOverrun h) } :=
  perform_error hs (bind_eq (checkSpan_ok ha hr) (by
    simp only [bind_run, peek_run, id]
    rw [if_pos hn, raise_run]))

end

/-- Settles O20: the shared check faults for all four copies, then the FIFO's contents or room is checked. -/
theorem copyChecksComeFirst : Obligations.CopyChecksComeFirst := by
  intro s off ram len hs
  refine ⟨fun ha => ?_, fun ha hr => ?_, fun ha hr => ⟨fun hn => ?_, fun hn => ?_⟩⟩
  · exact exec_copies_checkSpan_error hs ram (checkSpan_misaligned len.toNat ha)
  · exact exec_copies_checkSpan_error hs ram (checkSpan_beyond ha hr)
  · exact exec_pmaWriteFifo_underrun hs ha hr hn
  · exact exec_pmaReadFifo_overrun hs ha hr hn

/-! ### What stands in memory after a copy (rules R281 to R283) -/

section
variable {m : List Host.Cell} (h : Memory.wf m) (a : Nat) (bs : List Byte) {j : Nat}
include h

theorem Memory.read_writeBytes_add (hj : j < bs.length) :
    Memory.read (Memory.writeBytes m a bs) (a + j) = bs.getD j 0 := by
  rw [Memory.read_writeBytes h, if_pos (by omega), Nat.add_sub_cancel_left]

/-- A store filled up with zeros holds the source, and zeros behind it (rule R281). -/
theorem Memory.read_writeBytes_takeBytes {n : Nat} (hj : j < n) :
    Memory.read (Memory.writeBytes m a (takeBytes n bs)) (a + j) = bs.getD j 0 := by
  rw [Memory.read_writeBytes_add h a _ (by rwa [takeBytes_length]), takeBytes_getD, if_pos hj]

theorem Memory.read_writeBytes_takeBytes_tail {n : Nat} (hl : bs.length ≤ j) (hj : j < n) :
    Memory.read (Memory.writeBytes m a (takeBytes n bs)) (a + j) = 0 := by
  rw [Memory.read_writeBytes_takeBytes h a bs hj, List.getD_eq_default _ _ hl]

theorem Memory.sameOutside_writeBytes_takeBytes (n : Nat) :
    Memory.SameOutside m (Memory.writeBytes m a (takeBytes n bs)) a n := by
  have outside := Memory.sameOutside_writeBytes h a (takeBytes n bs)
  rwa [takeBytes_length] at outside

end

theorem lt_roundUp {c : Config} {len j : Nat} (hj : j < len) : j < roundUp len (Config.pmaWidth c) :=
  Nat.lt_of_lt_of_le hj (le_roundUp (pmaWidth_pos c) len)

theorem getD_take_of_lt {bs : List Byte} {n j : Nat} (hj : j < n) : (bs.take n).getD j 0 = bs.getD j 0 := by
  rw [List.getD_eq_getElem?_getD, List.getElem?_take_of_lt hj, ← List.getD_eq_getElem?_getD]

/-! ### Copies from and to RAM -/

/-- `PMA_WRITE` as one store: the source bytes, filled up to a whole word (rule R281). -/
def State.pmaCopied (s : State) (off ram len : Nat) : State :=
  s.pmaStored off (takeBytes (roundUp len (Config.pmaWidth s.cfg)) (Memory.readBytes s.ram ram len))

/-- `PMA_READ` as one store of exactly `len` bytes (rule R283). -/
def State.ramCopied (s : State) (off ram len : Nat) : State := s.ramStored ram (Memory.readBytes s.pma off len)

section
variable {s : State} (hs : s.Ready) (hb : s.busTape = []) {off len : Half} {ram : Word}
  (ha : off.toNat % Config.pmaWidth s.cfg = 0)
  (hr : off.toNat + roundUp len.toNat (Config.pmaWidth s.cfg) ≤ s.cfg.pmaSize)
  (hm : Config.MappedRange s.cfg ram.toNat len.toNat)
include hs hb ha hr hm

theorem exec_pmaWrite_ok :
    exec (.pmaWrite off ram len) s = .next (s.pmaCopied off.toNat ram.toNat len.toNat) :=
  perform_ok hs (pmaWriteOp_quiet hb ha hr hm)

theorem exec_pmaRead_ok :
    exec (.pmaRead off ram len) s = .next (s.ramCopied off.toNat ram.toNat len.toNat) :=
  perform_ok hs (pmaReadOp_quiet hb ha hr hm)

end

section
variable {s : State} (off ram : Nat) {len j : Nat}

theorem pmaCopied_read (hw : Memory.wf s.pma) (hj : j < len) :
    Memory.read (s.pmaCopied off ram len).pma (off + j) = Memory.read s.ram (ram + j) := by
  rw [State.pmaCopied, State.pmaStored_pma, Memory.read_writeBytes_takeBytes hw _ _ (lt_roundUp hj),
    Memory.getD_readBytes, if_pos hj]

theorem ramCopied_read (hw : Memory.wf s.ram) (hj : j < len) :
    Memory.read (s.ramCopied off ram len).ram (ram + j) = Memory.read s.pma (off + j) := by
  rw [State.ramCopied, State.ramStored_ram, Memory.read_writeBytes_add hw _ _ (by rwa [Memory.readBytes_length]),
    Memory.getD_readBytes, if_pos hj]

end

/-- Settles O17: each copy is one store, of the source filled up to a whole word or of exactly `len` bytes. -/
theorem pmaCopies : Obligations.PmaCopies := by
  intro s off ram len hs hb hmem ha hr hm
  refine ⟨⟨_, exec_pmaWrite_ok hs hb ha hr hm, rfl, fun j hj => ?_, fun j hl hj => ?_, ?_⟩,
    ⟨_, exec_pmaRead_ok hs hb ha hr hm, rfl, fun j hj => ?_, ?_⟩⟩
  · exact pmaCopied_read _ _ hmem.pmaWf hj
  · exact Memory.read_writeBytes_takeBytes_tail hmem.pmaWf _ _ (by rwa [Memory.readBytes_length]) hj
  · exact Memory.sameOutside_writeBytes_takeBytes hmem.pmaWf _ _ _
  · exact ramCopied_read _ _ hmem.ramWf hj
  · have outside := Memory.sameOutside_writeBytes hmem.ramWf ram.toNat (Memory.readBytes s.pma off.toNat len.toNat)
    rwa [Memory.readBytes_length] at outside

/-- Settles O18: the read copies what the write stored, and the write leaves RAM as it was. -/
theorem copyRoundTrip : Obligations.CopyRoundTrip := by
  intro s off a b n hs hb hmem ha hr hma hmb
  have ready : (s.pmaCopied off.toNat a.toNat n.toNat).Ready := ⟨hs.noFault, hs.legal⟩
  refine ⟨_, _, exec_pmaWrite_ok hs hb ha hr hma, exec_pmaRead_ok ready hb ha hr hmb, fun j hj => ?_⟩
  exact Eq.trans (ramCopied_read _ _ hmem.ramWf hj) (pmaCopied_read _ _ hmem.pmaWf hj)

/-! ### Copies from and to a FIFO (rules R285, R286; 20_memory.md rule R106) -/

theorem fifoFind_fifoPut (m : List (Nat × Fifo)) (k : Nat) (f : Fifo) (j : Nat) :
    fifoFind (fifoPut m k f) j = if k = j then f else fifoFind m j := by
  induction m with
  | nil => rfl
  | cons p m ih =>
    obtain ⟨h, g⟩ := p
    rcases Nat.lt_trichotomy h k with hlt | rfl | hlt
    · rw [fifoPut, if_pos hlt, fifoFind, fifoFind, ih]
      by_cases hj : h = j
      · rw [if_pos hj, if_pos hj, if_neg (by omega)]
      · rw [if_neg hj, if_neg hj]
    · rw [fifoPut, if_neg (Nat.lt_irrefl h), if_pos rfl, fifoFind, fifoFind]
      split_ifs <;> rfl
    · rw [fifoPut, if_neg (Nat.not_lt_of_lt hlt), if_neg (Nat.ne_of_gt hlt), fifoFind]

section
variable {s t : State} {h : Word} {f : Fifo} (ht : t.fifos = fifoPut s.fifos h.toNat f)
include ht

theorem State.fifo_put_same : t.fifo h = f := by rw [State.fifo, ht, fifoFind_fifoPut, if_pos rfl]

theorem State.fifo_put_other {k : Word} (hk : k ≠ h) : t.fifo k = s.fifo k := by
  rw [State.fifo, ht, fifoFind_fifoPut, if_neg fun e => hk (BitVec.eq_of_toNat_eq e.symm), State.fifo]

end

/-- Settles O19: a pop and one filled-up store, or one push of the bytes read. -/
theorem fifoCopies : Obligations.FifoCopies := by
  intro s off h len hs hb hw ha hr
  refine ⟨fun hn => ?_, fun hn => ?_⟩
  · refine ⟨_, perform_ok hs (pmaWriteFifoOp_quiet hb ha hr hn), rfl, State.fifo_put_same rfl,
      fun k hk => State.fifo_put_other rfl hk, fun j hj => ?_, fun j hl hj => ?_, ?_⟩
    · exact (Memory.read_writeBytes_takeBytes hw _ _ (lt_roundUp hj)).trans (getD_take_of_lt hj)
    · exact Memory.read_writeBytes_takeBytes_tail hw _ _ (by rw [List.length_take]; omega) hj
    · exact Memory.sameOutside_writeBytes_takeBytes hw _ _ _
  · exact ⟨_, perform_ok hs (pmaReadFifoOp_quiet hb ha hr hn), rfl, State.fifo_put_same rfl,
      fun k hk => State.fifo_put_other rfl hk⟩

end Sys2Proof.Machine

/-! PROOFS. Registers held in reset (O10), operations on a closed endpoint (O28), stalls (O27), and the device controls
(O29). -/

namespace Sys2Proof.Machine

/-! ### Registers held in reset (44_dcd_ops.md rule R301) -/

/-- A primitive performed while the peripheral is held in reset changes nothing. -/
theorem perform_rmwEpr_held {s : State} (hs : s.Ready) (hb : s.busTape = []) (hf : s.fres = true) {i : Nat}
    (hi : i < s.cfg.nEp) (c : MuxSel) : perform (rmwEpr i c) s = .next s :=
  perform_ok hs (by rw [rmwEpr_quiet hb hi, hwWriteEpr_held hf])

/-- Settles O10: the one hardware write of each command has no effect. -/
theorem eprWritesHeldInReset : Obligations.EprWritesHeldInReset := by
  intro s i hs hb hf hi
  have held := perform_rmwEpr_held hs hb hf hi
  refine ⟨fun w => ?_, fun st => held _, fun st => held _, fun d => held _, fun d => held _, held _, held _,
    fun ty => held _, fun ea => held _, fun ctl hctl => ?_⟩
  · exact perform_ok hs (by rw [writeEpr_quiet hb hi, hwWriteEpr_held hf])
  · have hok : ctlOk ctl = true := beq_iff_eq.2 hctl
    have run : checkOperand (ctlOk ctl) s = .ok () s := by rw [checkOperand_run, if_pos hok]
    exact perform_ok hs (bind_eq run (by rw [rmwEpr_quiet hb hi, hwWriteEpr_held hf]))

/-! ### Operations on an endpoint that is not open (rule R306) -/

/-- An operation whose first part raises a fault raises it. -/
theorem bind_eq_error {α β : Type} {x : Op α} {s t : State} {f : Fault} (h : x s = .error f t) (g : α → Op β) :
    (x >>= g) s = .error f t := by rw [bind_run, h]

section
variable {s : State} {ep : Byte} (h : ¬ s.isOpened ep)
include h

theorem checkOpen_closed : checkOpen ep s = .error (.epNotOpen ep) s := by
  refine bind_eq (peek_run _ _) ?_
  rw [ite_run]
  exact if_neg h

theorem xferOp_closed (buf : Word) (ff : Option Word) (n : Half) : xferOp ep buf ff n s = .error (.epNotOpen ep) s :=
  bind_eq_error (checkOpen_closed h) _

theorem epStallOp_closed : epStallOp ep s = .error (.epNotOpen ep) s := bind_eq_error (checkOpen_closed h) _

theorem epClearStallOp_closed : epClearStallOp ep s = .error (.epNotOpen ep) s := bind_eq_error (checkOpen_closed h) _

theorem isoActivateOp_closed (mps : BitVec 11) : isoActivateOp ep mps s = .error (.epNotOpen ep) s :=
  bind_eq_error (checkOpen_closed h) _

end

/-- A DCD operation that faults inside a class operation, no ISR step before it. -/
theorem callDcd_error {s t : State} {op : Op Unit} {f : Fault} (hi : s.isrTape = []) (h : op s = .error f t) :
    callDcd op s = .error f t :=
  bind_eq (boundary_quiet hi) (bind_eq_error h _)

section
variable {s : State} {ep : Byte} (h : ¬ s.isOpened ep) (hi : s.isrTape = [])
include h hi

/-- The busy flag is set before the transfer is tried (47_bot_fsm.md rule R426). -/
theorem edptXferOp_closed (hbusy : s.busyAt ep = false) (buf : Word) (n : Half) :
    edptXferOp ep buf n s = .error (.epNotOpen ep) (s.putBusy ep true) := by
  rw [edptXferOp, bind_run, peek_run]
  simp only [id, hbusy, Bool.false_eq_true, if_false]
  have closed : ¬ (s.putBusy ep true).isOpened ep := h
  have notIsr : (s.putBusy ep true).isrTape = [] := hi
  exact bind_eq (change_run _ _) (bind_eq_error (callDcd_error notIsr (xferOp_closed closed buf none n)) _)

theorem edptStallOp_closed (hst : s.stalledAt ep = false) : edptStallOp ep s = .error (.epNotOpen ep) s := by
  rw [edptStallOp, bind_run, peek_run]
  simp only [id, hst, Bool.false_eq_true, if_false]
  exact bind_eq_error (callDcd_error hi (epStallOp_closed h)) _

theorem edptClearStallOp_closed (hst : s.stalledAt ep = true) : edptClearStallOp ep s = .error (.epNotOpen ep) s := by
  rw [edptClearStallOp, bind_run, peek_run]
  simp only [id, hst, if_true]
  exact bind_eq_error (callDcd_error hi (epClearStallOp_closed h)) _

end

/-- A command on an endpoint that checks its operand and then performs `op`. -/
theorem perform_checkEp_error {s t : State} {op : Op Unit} {ep : Byte} {f : Fault} (hs : s.Ready) (hep : epOk ep = true)
    (h : op s = .error f t) : perform (do checkEp ep; op) s = .next (takeFault f t) :=
  perform_error hs (bind_eq (checkEp_ok hep) h)

/-- Settles O28: each operation begins with the open check, a core transfer after its busy flag. -/
theorem epNotOpen : Obligations.EpNotOpen := by
  intro s ep hs hep h
  refine ⟨fun mps => ?_, fun buf n => ?_, fun k n => ?_, ?_, ?_, fun hi => ⟨fun buf n hbusy => ?_, fun hst => ?_,
    fun hst => ?_⟩⟩
  · exact perform_checkEp_error hs hep (bind_eq_error (isoActivateOp_closed h mps) _)
  · exact perform_checkEp_error hs hep (bind_eq_error (xferOp_closed h buf none n) _)
  · exact perform_checkEp_error hs hep (bind_eq_error (xferOp_closed h 0 (some k) n) _)
  · exact perform_checkEp_error hs hep (epStallOp_closed h)
  · exact perform_checkEp_error hs hep (epClearStallOp_closed h)
  · exact perform_checkEp_error hs hep (bind_eq_error (edptXferOp_closed h hi hbusy buf n) _)
  · exact perform_checkEp_error hs hep (edptStallOp_closed h hi hst)
  · exact perform_checkEp_error hs hep (edptClearStallOp_closed h hi hst)

/-! ### Stalls (rules R318, R319) -/

theorem statOf_stalledReg (d : Dir) (r : Half) : statOf d (stalledReg d r) = statStall := by
  cases d
  · ext k hk
    interval_cases k <;> simp [statOf, statRx, stalledReg, putBits, statStall]
  · ext k hk
    interval_cases k <;> simp [statOf, statTx, stalledReg, putBits, statStall]

theorem statOf_unstalledReg (d : Dir) (r : Half) : statOf d (unstalledReg d r) = statNak := by
  cases d
  · ext k hk
    interval_cases k <;> simp [statOf, statRx, unstalledReg, putBits, statNak]
  · ext k hk
    interval_cases k <;> simp [statOf, statTx, unstalledReg, putBits, statNak]

/-- A stall leaves every bit but the direction's STAT. -/
theorem stalledReg_rest (d : Dir) (r : Half) :
    stalledReg d r &&& (if d = .inn then 0xFFCF#16 else 0xCFFF#16)
      = r &&& (if d = .inn then 0xFFCF#16 else 0xCFFF#16) := by
  cases d
  · exact putBits_and_of_disjoint (by decide) _ _
  · exact putBits_and_of_disjoint (by decide) _ _

/-- Clearing a stall leaves every bit but the direction's STAT and DTOG. -/
theorem unstalledReg_rest (d : Dir) (r : Half) :
    unstalledReg d r &&& (if d = .inn then 0xFF8F#16 else 0x8FFF#16)
      = r &&& (if d = .inn then 0xFF8F#16 else 0x8FFF#16) := by
  cases d
  · exact putBits_and_of_disjoint (by decide) _ _
  · exact putBits_and_of_disjoint (by decide) _ _

theorem unstalledReg_dtog (d : Dir) (r : Half) :
    (if d = .inn then dtogTx (unstalledReg d r) else dtogRx (unstalledReg d r)) = false := by
  cases d <;> simp [unstalledReg, dtogTx, dtogRx, putBits]

/-- Settles O27: one write of the direction's fields; a closed endpoint fails the open check. -/
theorem epStallAndClear : Obligations.EpStallAndClear := by
  refine ⟨fun s ep hs hep h => ⟨?_, ?_⟩, fun s ep hs hb hr hep ho => ?_⟩
  · exact perform_checkEp_error hs hep (epStallOp_closed h)
  · exact perform_checkEp_error hs hep (epClearStallOp_closed h)
  · have hn : s.cfg.nEp ≤ 8 := (Config.legal_bounds hs.legal).2.1
    have hi := ho.inside
    have written : ∀ v, (s.putEpr true (s.epIdxOf ep) v).eprAt (s.epIdxOf ep) = v :=
      fun v => by rw [putEpr_eprAt hi hn, if_pos rfl]
    refine ⟨⟨s.epStalledBy ep, perform_ok hs (bind_eq (checkEp_ok hep) (epStallOp_quiet hb hr ho)), rfl,
        putEpr_onlyEpr hi hn _, ?_⟩,
      ⟨s.epUnstalledBy ep, perform_ok hs (bind_eq (checkEp_ok hep) (epClearStallOp_quiet hb hr ho)), rfl,
        putEpr_onlyEpr hi hn _, ?_⟩⟩
    · rw [State.epStalledBy, written]
      exact ⟨statOf_stalledReg _ _, stalledReg_rest _ _⟩
    · rw [State.epUnstalledBy, written]
      exact ⟨statOf_unstalledReg _ _, unstalledReg_dtog _ _, unstalledReg_rest _ _⟩

/-! ### Device controls (rules R320 to R324) -/

/-- Clearing bits that are 0 changes nothing. -/
theorem and_not_of_and_eq_zero {x m : Half} (h : x &&& m = 0#16) : x &&& ~~~m = x := by
  calc x &&& ~~~m = (x &&& m) ||| (x &&& ~~~m) := by rw [h, BitVec.zero_or]
    _ = x := by rw [← BitVec.and_or_distrib_left, BitVec.or_not_self, BitVec.and_allOnes]

/-- Replacing bits by ones sets them. -/
theorem putBits_ones (mask r : Half) : putBits mask r mask = r ||| mask := by
  ext k hk
  simp only [putBits, BitVec.getElem_or, BitVec.getElem_and, BitVec.getElem_not]
  cases r[k] <;> cases mask[k] <;> rfl

/-- Replacing bits by zeros clears them. -/
theorem putBits_zero (mask r : Half) : putBits mask r 0 = r &&& ~~~mask := by
  rw [putBits, BitVec.ofNat_eq_ofNat, BitVec.zero_and, BitVec.or_zero]

/-- A write of `CNTR` that keeps FRES clear changes `CNTR` only. -/
theorem writeCntr_running {s : State} {w : Half} (hw : hasBit w cntrFres = false) :
    s.writeCntr w = { s with cntr := w &&& 0xFF1F#16 } := by
  simp [State.writeCntr, hw]

/-- Bits of `CNTR` other than FRES are replaced, and nothing else changes. -/
theorem updateCntr_running {s : State} (hb : s.busTape = []) (hr : s.Running) (hreg : s.RegistersOk) {mask v : Half}
    (hf : mask &&& cntrFres = 0#16) (hm : mask &&& 0x00E0#16 = 0#16) :
    updateCntr mask v s = .ok () { s with cntr := putBits mask s.cntr v } := by
  have keeps : ∀ k : Half, mask &&& k = 0#16 → putBits mask s.cntr v &&& k = s.cntr &&& k :=
    fun k hk => putBits_and_of_disjoint hk _ _
  have held : hasBit (putBits mask s.cntr v) cntrFres = false := by
    have : hasBit s.cntr cntrFres = false := hr
    unfold hasBit at this ⊢
    rwa [keeps cntrFres hf]
  have reserved : putBits mask s.cntr v &&& 0xFF1F#16 = putBits mask s.cntr v :=
    and_not_of_and_eq_zero ((keeps _ hm).trans hreg.cntr)
  rw [updateCntr_quiet hb, writeCntr_running held, reserved]

/-- Settles O29: `DADDR` holds the eight bits written, the `CNTR` controls replace one bit, the gates are software. -/
theorem deviceControls : Obligations.DeviceControls := by
  intro s hs hb hr hreg
  refine ⟨fun a => ?_, ?_, ?_, ?_, fun en => ?_, fun en => ?_⟩
  · have hf : s.fres = false := hr
    have low : (0x0080#16 ||| a.setWidth 16) &&& 0x00FF#16 = 0x0080#16 ||| a.setWidth 16 := by
      revert a; decide
    refine perform_ok hs ((writeReg_quiet hb _).trans ?_)
    simp [State.writeDaddr, hf, low]
  · refine perform_ok hs (bind_eq (updateCntr_running hb hr hreg rfl rfl) ?_)
    rw [change_run, putBits_ones]
    rfl
  · refine perform_ok hs ((updateCntr_running hb hr hreg rfl rfl).trans ?_)
    rw [if_pos rfl, putBits_ones]
    rfl
  · refine perform_ok hs ((updateCntr_running hb hr hreg rfl rfl).trans ?_)
    rw [if_neg Bool.false_ne_true, putBits_zero]
    rfl
  · exact perform_ok hs (change_run (fun s => { s with pullup := en }) s)
  · exact perform_ok hs (change_run (fun s => { s with irqEn := en }) s)

end Sys2Proof.Machine

/-! PROOFS. Initialisation (O21), opening (O22, O23) and closing (O24) of endpoints. -/

namespace Sys2Proof.Machine

/-! ### One BTABLE field beside another (20_memory.md rule R101) -/

/-- A 16-bit word beside a store reads as before. -/
theorem le16_read_writeBytes_disjoint {m : List Host.Cell} (h : Memory.wf m) {a b : Nat} {bs : List Byte}
    (hd : b + 2 ≤ a ∨ a + bs.length ≤ b) :
    le16 (Memory.read (Memory.writeBytes m a bs) b) (Memory.read (Memory.writeBytes m a bs) (b + 1))
      = le16 (Memory.read m b) (Memory.read m (b + 1)) := by
  rw [Memory.read_writeBytes h, Memory.read_writeBytes h, if_neg (by omega), if_neg (by omega)]

theorem Memory.SameOutside.trans {m m' m'' : List Host.Cell} {a n : Nat} (h : Memory.SameOutside m m' a n)
    (h' : Memory.SameOutside m' m'' a n) : Memory.SameOutside m m'' a n :=
  fun j hj => (h' j hj).trans (h j hj)

/-- A store inside a range changes no byte outside it. -/
theorem Memory.sameOutside_writeBytes_inside {m : List Host.Cell} (h : Memory.wf m) {a n b : Nat} {bs : List Byte}
    (hin : a ≤ b ∧ b + bs.length ≤ a + n) : Memory.SameOutside m (Memory.writeBytes m b bs) a n := by
  intro j hj
  rw [Memory.read_writeBytes h, if_neg (by omega)]

/-- The BTABLE is read from packet memory at the parameters' place. -/
theorem btable_congr {s t : State} (hp : t.pma = s.pma) (hc : t.cfg = s.cfg) (i : Nat) (b : Bool) :
    t.btAddrOf i b = s.btAddrOf i b ∧ t.countwOf i b = s.countwOf i b := by
  simp only [State.btAddrOf, State.countwOf, State.pmaHalfAt, hp, hc, and_self]

section
variable (c : Config) (i : Nat) (b b' : Bool)

theorem btAddr_true : btAddr c i true = btAddr c i false + 4 := rfl

/-- The two descriptors of an entry do not overlap. -/
theorem btAddr_not : btAddr c i (!b) + 4 = btAddr c i b ∨ btAddr c i b + 4 = btAddr c i (!b) := by
  cases b
  · exact .inr rfl
  · exact .inl rfl

theorem btAddr_eq_or_apart :
    btAddr c i b' = btAddr c i b ∨ btAddr c i b' + 4 = btAddr c i b ∨ btAddr c i b + 4 = btAddr c i b' := by
  obtain rfl | rfl := Bool.eq_or_eq_not b' b
  · exact .inl rfl
  · exact .inr (btAddr_not c i b)

/-- A descriptor lies in its entry of 8 bytes. -/
theorem btAddr_in_entry : btAddr c i false ≤ btAddr c i b ∧ btAddr c i b + 4 ≤ btAddr c i false + 8 := by
  have h := btAddr_true c i
  cases b <;> omega

end

section
variable {s : State} (hw : Memory.wf s.pma) (i : Nat) (b : Bool)
include hw

theorem addrStored_countwOf (b' : Bool) (a : Half) : (s.addrStored i b a).countwOf i b' = s.countwOf i b' :=
  le16_read_writeBytes_disjoint hw (by
    have := btAddr_eq_or_apart s.cfg i b b'
    rw [leBytes16_length, State.addrStored_cfg]
    omega)

theorem countwStored_btAddrOf (b' : Bool) (v : Half) : (s.countwStored i b v).btAddrOf i b' = s.btAddrOf i b' :=
  le16_read_writeBytes_disjoint hw (by
    have := btAddr_eq_or_apart s.cfg i b b'
    rw [leBytes16_length, State.countwStored_cfg]
    omega)

theorem addrStored_btAddrOf_other (a : Half) : (s.addrStored i b a).btAddrOf i (!b) = s.btAddrOf i (!b) :=
  le16_read_writeBytes_disjoint hw (by
    have := btAddr_not s.cfg i b
    rw [leBytes16_length, State.addrStored_cfg]
    omega)

theorem countwStored_countwOf_other (v : Half) : (s.countwStored i b v).countwOf i (!b) = s.countwOf i (!b) :=
  le16_read_writeBytes_disjoint hw (by
    have := btAddr_not s.cfg i b
    rw [leBytes16_length, State.countwStored_cfg]
    omega)

theorem addrStored_wf (a : Half) : Memory.wf (s.addrStored i b a).pma := Memory.wf_writeBytes hw _ _

theorem countwStored_wf (v : Half) : Memory.wf (s.countwStored i b v).pma := Memory.wf_writeBytes hw _ _

theorem countStored_wf (n : Nat) : Memory.wf (s.countStored i b n).pma := Memory.wf_writeBytes hw _ _

/-- A descriptor field lies in its entry, so the rest of the memory stays. -/
theorem addrStored_sameOutside (a : Half) :
    Memory.SameOutside s.pma (s.addrStored i b a).pma (btAddr s.cfg i false) 8 :=
  Memory.sameOutside_writeBytes_inside hw (by
    have := btAddr_in_entry s.cfg i b
    rw [leBytes16_length]
    omega)

theorem countwStored_sameOutside (v : Half) :
    Memory.SameOutside s.pma (s.countwStored i b v).pma (btAddr s.cfg i false) 8 :=
  Memory.sameOutside_writeBytes_inside hw (by
    have := btAddr_in_entry s.cfg i b
    rw [leBytes16_length]
    omega)

end

theorem withCount_zero (v : Half) : withCount v 0 = v &&& 0xFC00#16 := BitVec.or_zero

/-! ### `DCD_INIT` (44_dcd_ops.md rules R300 to R303) -/

/-- The state before the bus-reset handler: the peripheral was reset and runs, its interrupts unmasked (rules R300,
R301). -/
def State.peripheralReset (s : State) : State :=
  { s with
    cntr := 0x9D00, istr := 0, daddr := 0, btable := BitVec.ofNat 16 s.cfg.btableBase, epr := Vector.replicate 8 0 }

theorem eprAt_of_zeros {s : State} (he : s.epr = Vector.replicate 8 0) (i : Nat) : s.eprAt i = 0#16 := by
  rw [State.eprAt, he, Vector.getElem?_replicate]
  split <;> rfl

/-- A zero written to an endpoint register that is 0 changes nothing, where `ISTR` is 0 too. -/
theorem hwWriteEpr_zero {s : State} (he : s.epr = Vector.replicate 8 0) (hi : s.istr = 0#16) (i : Nat) :
    s.hwWriteEpr i 0x0000 = s := by
  have hv : hwWrite (s.eprAt i) 0x0000 = 0#16 := by
    rw [eprAt_of_zeros he]
    rfl
  have hset : s.epr.setIfInBounds i 0#16 = s.epr := by
    rw [he]
    ext j hj
    rw [Vector.getElem_setIfInBounds]
    simp
  have histr : istrOf s.cfg.nEp s.epr s.istr = s.istr := by
    rw [he, istrOf, firstCtr_zero, hi]
    rfl
  simp only [State.hwWriteEpr, State.putEpr, hv, hset, histr, ite_self]

theorem forEach_writeEpr_zero {s : State} (hb : s.busTape = []) (he : s.epr = Vector.replicate 8 0)
    (hi : s.istr = 0#16) {l : List Nat} (hl : ∀ i ∈ l, i < s.cfg.nEp) :
    forEach l (fun i => writeEpr i 0x0000) s = .ok () s := by
  induction l with
  | nil => rfl
  | cons i l ih =>
    rw [forEach_cons, writeEpr_quiet hb (hl i (by simp)), hwWriteEpr_zero he hi]
    exact ih fun j hj => hl j (by simp [hj])

theorem btableBase_aligned {c : Config} (h : c.legal = true) :
    BitVec.ofNat 16 c.btableBase &&& 0xFFF8#16 = BitVec.ofNat 16 c.btableBase := by
  have h8 := (Config.legal_bounds h).2.2.1
  refine and_not_of_and_eq_zero (m := 0x0007#16) ?_
  apply BitVec.eq_of_toNat_eq
  rw [BitVec.toNat_and, BitVec.toNat_ofNat]
  change _ &&& (2 ^ 3 - 1) = 0
  rw [Nat.and_two_pow_sub_one_eq_mod]
  omega

/-- While FRES is set the endpoint registers, `ISTR` and `DADDR` are 0; they stay so when it is cleared (rule R301). -/
theorem reset_pulse (s : State) : (((s.writeCntr 0x0003).writeCntr 0x0001).writeCntr 0x0000).writeIstr 0x0000
    = { s with cntr := 0, istr := 0, daddr := 0, epr := Vector.replicate 8 0 } := by
  have set : hasBit 0x0001 cntrFres = true := rfl
  have clear : hasBit 0x0000 cntrFres = false := rfl
  rw [State.writeIstr, writeCntr_fres, clear]
  simp only [State.writeCntr, set, clear, if_true, Bool.false_eq_true, if_false, istrWrite]
  rfl

theorem peripheralReset_eq {s : State} (hl : s.cfg.legal = true) :
    ((State.writeBtable { s with cntr := 0, istr := 0, daddr := 0, epr := Vector.replicate 8 0 }
      (BitVec.ofNat 16 s.cfg.btableBase)).writeCntr 0x9D00) = s.peripheralReset := by
  rw [State.writeBtable, btableBase_aligned hl]
  rfl

theorem peripheralReset_running (s : State) : s.peripheralReset.Running := by
  change hasBit 0x9D00#16 cntrFres = false
  decide

/-- `DCD_INIT` resets the peripheral, performs the bus-reset handler and opens the gates (rule R300). -/
theorem dcdInitOp_quiet {s : State} (hl : s.cfg.legal = true) (hb : s.busTape = []) (hw : Memory.wf s.pma) :
    dcdInitOp s = .ok () { s.peripheralReset.ep0Reopened with pullup := true, irqEn := true } := by
  refine bind_eq (writeReg_quiet (by exact hb) _) ?_
  refine bind_eq (writeReg_quiet (by exact hb) _) ?_
  refine bind_eq (writeReg_quiet (by exact hb) _) ?_
  refine bind_eq (writeReg_quiet (by exact hb) _) (bind_eq (peek_run _ _) ?_)
  rw [reset_pulse]
  refine bind_eq (forEach_writeEpr_zero (by exact hb) rfl rfl fun i hi => List.mem_range.1 hi) ?_
  refine bind_eq (writeReg_quiet (by exact hb) _) ?_
  refine bind_eq (writeReg_quiet (by exact hb) _) ?_
  rw [peripheralReset_eq hl]
  exact bind_eq (busResetHandler_quiet hl hb hw (peripheralReset_running s)) (change_run _ _)

/-- Endpoint 0 as the bus-reset handler leaves it raises no completion. -/
theorem firstCtr_ep0 {n : Nat} (hn : n ≤ 8) :
    firstCtr n ((Vector.replicate 8 0).setIfInBounds 0 0x2220#16) = none := by
  rw [firstCtr_none hn]
  have all : ∀ i : Fin 8, ctrRx (((Vector.replicate 8 0).setIfInBounds 0 0x2220#16)[i.val]?.getD 0) = false
      ∧ ctrTx (((Vector.replicate 8 0).setIfInBounds 0 0x2220#16)[i.val]?.getD 0) = false := by decide
  exact fun i hi => all ⟨i, by omega⟩

/-- The registers after `DCD_INIT`: endpoint 0 is open both ways and nothing is reported. -/
theorem peripheralReset_ep0Reopened {s : State} (hl : s.cfg.legal = true) :
    s.peripheralReset.ep0Reopened.epr = (Vector.replicate 8 0).setIfInBounds 0 0x2220
      ∧ s.peripheralReset.ep0Reopened.istr = 0 := by
  have hn := Config.legal_bounds hl
  have h0 : (true && decide (0 < s.cfg.nEp)) = true := by simp; omega
  have hv : putBits 0x777F (s.peripheralReset.eprAt 0) 0x2220 = 0x2220 := by
    rw [eprAt_of_zeros rfl]
    rfl
  constructor
  · refine (if_pos h0).trans ?_
    rw [hv]
    rfl
  · refine (if_pos h0).trans ?_
    rw [hv]
    change istrOf s.cfg.nEp ((Vector.replicate 8 0).setIfInBounds 0 0x2220#16) 0 = 0
    rw [istrOf, firstCtr_ep0 hn.2.1]
    rfl

section
variable (s : State)

/-- The context `ep0_open` sets up from the one before (rule R303). -/
def State.ep0Ctx (x : XferCtx) : XferCtx := { x with mps := BitVec.ofNat 16 s.cfg.ep0Size, epIdx := 0 }

theorem ep0Reopened_ctx (n : BitVec 4) (d : Dir) :
    s.ep0Reopened.ctx n d = if n = 0 then s.ep0Ctx (s.ctx n d) else s.ctx n d := by
  have ctx : s.ep0Reopened.ctx n d = ((s.updCtx 0 .out s.ep0Ctx).updCtx 0 .inn s.ep0Ctx).ctx n d := rfl
  rw [ctx, updCtx_ctx, updCtx_ctx, updCtx_ctx]
  by_cases hn : n = 0
  · subst hn
    cases d <;> simp
  · have hn' : n ≠ 0#4 := hn
    simp [hn']

variable {s} (hw : Memory.wf s.pma)
include hw

/-- The BTABLE entry of endpoint 0 after the bus-reset handler, and nothing else stored (rule R303). -/
theorem ep0Reopened_btable :
    s.ep0Reopened.btAddrOf 0 true = BitVec.ofNat 16 (pmaFirst s.cfg)
      ∧ s.ep0Reopened.countwOf 0 true = rxSizeCode s.cfg.ep0Size
      ∧ s.ep0Reopened.btAddrOf 0 false = BitVec.ofNat 16 (pmaFirst s.cfg + s.cfg.ep0Size)
      ∧ s.ep0Reopened.countwOf 0 false = s.countwOf 0 false
      ∧ Memory.SameOutside s.pma s.ep0Reopened.pma s.cfg.btableBase 8 := by
  have wu := addrStored_wf hw 0 true (BitVec.ofNat 16 (pmaFirst s.cfg))
  have wv := countwStored_wf wu 0 true (rxSizeCode s.cfg.ep0Size)
  refine ⟨?_, ?_, addrStored_btAddrOf wv 0 false _, ?_, ?_⟩
  · calc _ = State.btAddrOf _ 0 true := addrStored_btAddrOf_other wv 0 false _
      _ = State.btAddrOf _ 0 true := countwStored_btAddrOf wu 0 true true _
      _ = _ := addrStored_btAddrOf hw 0 true _
  · calc _ = State.countwOf _ 0 true := addrStored_countwOf wv 0 false true _
      _ = _ := countwStored_countwOf wu 0 true _
  · calc _ = State.countwOf _ 0 false := addrStored_countwOf wv 0 false false _
      _ = State.countwOf _ 0 false := countwStored_countwOf_other wu 0 true _
      _ = _ := addrStored_countwOf hw 0 true false _
  · exact ((addrStored_sameOutside hw 0 true _).trans (countwStored_sameOutside wu 0 true _)).trans
      (addrStored_sameOutside wv 0 false _)

end

/-- Settles O21: the peripheral is reset whatever it held, then the bus-reset handler opens endpoint 0. -/
theorem dcdInitEndState : Obligations.DcdInitEndState := by
  intro s hs hb hw
  obtain ⟨hepr, histr⟩ := peripheralReset_ep0Reopened hs.legal
  have ctx := ep0Reopened_ctx s.peripheralReset
  refine ⟨_, perform_ok hs (dcdInitOp_quiet hs.legal hb hw), ?_, fun d => ?_, fun n d hn => ?_,
    ep0Reopened_btable (s := s.peripheralReset) hw⟩
  · rw [← hepr, ← histr]
    rfl
  · exact (ctx 0 d).trans (if_pos rfl)
  · exact (ctx n d).trans (if_neg hn)

/-! ### `EP_OPEN` (rules R304 to R306) -/

theorem Slot.take_alloc (v : Slot) (n : BitVec 4) (d : Dir) (ty : BitVec 2) : (v.take n d ty).alloc d = true := by
  obtain ⟨-, -, own, -⟩ := Slot.take_fields v n d ty
  exact own

/-- An endpoint is open once its context names a slot that holds the direction under its number (rule R306). -/
theorem opened_of_slot {s : State} {n : BitVec 4} {d : Dir} {i : Nat} {v : Slot} {ty : BitVec 2} (hi : i < s.cfg.nEp)
    (hn : s.cfg.nEp ≤ 8) (hx : (s.ctx n d).epIdx = BitVec.ofNat 8 i) (hs : s.slotAt i = v.take n d ty) :
    s.opened n d = true := by
  have hx' : (s.ctx n d).epIdx.toNat = i := by
    rw [hx, BitVec.toNat_ofNat]
    omega
  simp only [State.opened, hx', hs, hi, decide_true, Bool.true_and, Bool.and_eq_true, beq_iff_eq]
  exact ⟨Slot.take_alloc v n d ty, rfl⟩

theorem epOpened_rest (s : State) (ep : Byte) (ty : BitVec 2) (mps : BitVec 11) (i : Nat) :
    (s.epOpened ep ty mps i).pma = (s.addrStored i (bufOf (epDir ep)) (BitVec.ofNat 16 s.pmaCursor)).pma
      ∧ (s.epOpened ep ty mps i).cfg = s.cfg
      ∧ (s.epOpened ep ty mps i).pmaCursor = s.pmaCursor + aligned mps.toNat := by
  refine ⟨?_, ?_, ?_⟩
  · rw [State.epOpened, State.putEpr_pma, State.updCtx_pma, State.addrStored_pma, State.withCursor_pma,
      State.withCursor_cfg, State.slotTaken_pma, State.slotTaken_cfg, State.addrStored_pma]
  · rw [State.epOpened, State.putEpr_cfg, State.updCtx_cfg, State.addrStored_cfg, State.withCursor_cfg,
      State.slotTaken_cfg]
  · rw [State.epOpened, State.putEpr_pmaCursor, State.updCtx_pmaCursor, State.addrStored_pmaCursor,
      State.withCursor_pmaCursor]

section
variable {s : State} (hl : s.cfg.legal = true) {ep : Byte} {ty : BitVec 2} {mps : BitVec 11} {i : Nat}
include hl

/-- A full packet memory is found after the slot is taken (rules R242, R304). -/
theorem epOpenOp_exhausted (h : s.FirstSlot ep ty i) (hsize : mps.toNat ≤ 1024)
    (hroom : s.cfg.pmaSize < s.pmaCursor + aligned mps.toNat) :
    epOpenOp ep ty mps s = .error (.pmaExhausted mps.toNat) (s.slotTaken ep ty i) :=
  bind_eq (epAllocOp_first (Config.legal_bounds hl).2.1 h)
    (bind_eq_error (pmaAllocOp_exhausted (s := s.slotTaken ep ty i) (dbuf := false) hsize hroom) _)

theorem epOpened_slotAt (h : s.FirstSlot ep ty i) (j : Nat) : (s.epOpened ep ty mps i).slotAt j
    = if j = i then (s.slotAt i).take (epNum ep) (epDir ep) ty else s.slotAt j := by
  rw [State.epOpened, putEpr_slotAt, updCtx_slotAt, addrStored_slotAt, withCursor_slotAt]
  exact slotTaken_slotAt s ep ty i j (Nat.lt_of_lt_of_le h.inside (Config.legal_bounds hl).2.1)

theorem epOpened_eprAt (h : s.FirstSlot ep ty i) (j : Nat) : (s.epOpened ep ty mps i).eprAt j
    = if j = i then openedReg (epNum ep) (epDir ep) ty (s.eprAt i) else s.eprAt j := by
  rw [State.epOpened, putEpr_eprAt (by exact h.inside) (by exact (Config.legal_bounds hl).2.1), updCtx_eprAt,
    addrStored_eprAt, withCursor_eprAt, slotTaken_eprAt]

theorem epOpened_opened (h : s.FirstSlot ep ty i) :
    (s.epOpened ep ty mps i).opened (epNum ep) (epDir ep) = true := by
  refine opened_of_slot h.inside (Config.legal_bounds hl).2.1 ?_ ((epOpened_slotAt hl h i).trans (if_pos rfl))
  rw [State.epOpened, putEpr_ctx, updCtx_ctx, if_pos ⟨rfl, rfl⟩]

end

/-- Settles O22: the state after `EP_OPEN` is `State.epOpened`, whose one store is the buffer's offset. -/
theorem epOpenResult : Obligations.EpOpenResult := by
  intro s ep ty mps i hs hb hw hr hep
  refine ⟨fun h => ?_, fun h hsize hroom => ?_⟩
  · have run := epOpenOp_quiet hs.legal hb hw hr h
    have slot := epOpened_slotAt (mps := mps) hs.legal h.slot
    have reg := epOpened_eprAt (mps := mps) hs.legal h.slot
    have opened := epOpened_opened (mps := mps) hs.legal h.slot
    obtain ⟨pma, cfg, cursor⟩ := epOpened_rest s ep ty mps i
    generalize s.epOpened ep ty mps i = u at run slot reg opened pma cfg cursor
    refine ⟨u.withRes 1, perform_ok hs (bind_eq (checkEp_ok hep) (bind_eq run rfl)), rfl, ?_, ?_, cursor,
      (slot i).trans (if_pos rfl), fun j hj => (slot j).trans (if_neg hj), (reg i).trans (if_pos rfl),
      fun j hj => (reg j).trans (if_neg hj), opened⟩
    · exact (btable_congr pma cfg i _).1.trans (addrStored_btAddrOf hw i _ _)
    · rw [State.withRes_pma, pma]
      exact Memory.sameOutside_writeBytes hw _ (leBytes16 _)
  · exact perform_checkEp_error hs hep (bind_eq_error (epOpenOp_exhausted hs.legal h hsize hroom) _)

/-! ### Isochronous endpoints (rules R310, R311) -/

/-- `ADDR(b)` of BTABLE entry `i` is `a` and its count 0 (rule R310). -/
def State.bufferEmptied (s : State) (i : Nat) (b : Bool) (a : Half) : State := (s.addrStored i b a).countStored i b 0

theorem bufferEmptied_rest (s : State) (i : Nat) (b : Bool) (a : Half) :
    s.bufferEmptied i b a = { s with pma := (s.bufferEmptied i b a).pma } := rfl

theorem bufferEmptied_cfg (s : State) (i : Nat) (b : Bool) (a : Half) : (s.bufferEmptied i b a).cfg = s.cfg := by
  rw [bufferEmptied_rest]

theorem bufferEmptied_busTape (s : State) (i : Nat) (b : Bool) (a : Half) :
    (s.bufferEmptied i b a).busTape = s.busTape := by rw [bufferEmptied_rest]

theorem bufferEmptied_ctx (s : State) (i : Nat) (b : Bool) (a : Half) (n : BitVec 4) (d : Dir) :
    (s.bufferEmptied i b a).ctx n d = s.ctx n d := by
  rw [State.bufferEmptied, countStored_ctx, addrStored_ctx]

section
variable {s : State} (hw : Memory.wf s.pma) (i : Nat) (b : Bool) (a : Half)
include hw

theorem bufferEmptied_wf : Memory.wf (s.bufferEmptied i b a).pma := countStored_wf (addrStored_wf hw i b a) i b 0

theorem bufferEmptied_same : (s.bufferEmptied i b a).btAddrOf i b = a
    ∧ (s.bufferEmptied i b a).countwOf i b = s.countwOf i b &&& 0xFC00#16 := by
  have w := addrStored_wf hw i b a
  constructor
  · exact (countwStored_btAddrOf w i b b _).trans (addrStored_btAddrOf hw i b a)
  · rw [State.bufferEmptied, countStored_countwOf w, withCount_zero, addrStored_countwOf hw]

theorem bufferEmptied_other : (s.bufferEmptied i b a).btAddrOf i (!b) = s.btAddrOf i (!b)
    ∧ (s.bufferEmptied i b a).countwOf i (!b) = s.countwOf i (!b) := by
  have w := addrStored_wf hw i b a
  exact ⟨(countwStored_btAddrOf w i b (!b) _).trans (addrStored_btAddrOf_other hw i b a),
    (countwStored_countwOf_other w i b _).trans (addrStored_countwOf hw i b (!b) a)⟩

theorem bufferEmptied_sameOutside :
    Memory.SameOutside s.pma (s.bufferEmptied i b a).pma (btAddr s.cfg i false) 8 :=
  (addrStored_sameOutside hw i b a).trans (countwStored_sameOutside (addrStored_wf hw i b a) i b _)

theorem bufferEmptied_run (hl : s.cfg.legal = true) (hb : s.busTape = []) (hi : i < s.cfg.nEp) (next : Op Unit) :
    (do btSetAddrOp i b a; btSetCountOp i b 0; next : Op Unit) s = next (s.bufferEmptied i b a) :=
  bind_eq (btSetAddrOp_quiet hl hb hw hi b a)
    (bind_eq (btSetCountOp_quiet (s := s.addrStored i b a) hl hb (addrStored_wf hw i b a) hi b 0) rfl)

end

theorem pair_low (hi lo : Half) : (hi ++ lo).extractLsb' 0 16 = lo := BitVec.extractLsb'_append_eq_right

theorem pair_high (hi lo : Half) : (hi ++ lo).extractLsb' 16 16 = hi := BitVec.extractLsb'_append_eq_left

/-- The state after `ISO_ALLOC` on slot `i`, before its `RES` (rule R310). -/
def State.isoAllocated (s : State) (ep : Byte) (size : BitVec 11) (i : Nat) : State :=
  State.updCtx
    (State.bufferEmptied
      (((s.slotTaken ep xferIso i).withCursor (s.pmaCursor + 2 * aligned size.toNat)).bufferEmptied i false
        (BitVec.ofNat 16 s.pmaCursor)) i true (BitVec.ofNat 16 (s.pmaCursor + aligned size.toNat)))
    (epNum ep) (epDir ep) fun x => { x with epIdx := BitVec.ofNat 8 i }

theorem isoAllocOp_quiet {s : State} (hl : s.cfg.legal = true) (hb : s.busTape = []) (hw : Memory.wf s.pma)
    {ep : Byte} {size : BitVec 11} {i : Nat} (h : s.FirstSlot ep xferIso i) (hsize : size.toNat ≤ 1024)
    (hroom : s.pmaCursor + 2 * aligned size.toNat ≤ s.cfg.pmaSize)
    (hal : s.cfg.bus32 = true → s.pmaCursor % 4 = 0 ∧ (s.pmaCursor + aligned size.toNat) % 4 = 0) :
    isoAllocOp ep size s = .ok () (s.isoAllocated ep size i) := by
  refine bind_eq (epAllocOp_first (Config.legal_bounds hl).2.1 h) ?_
  refine bind_eq (pmaAllocOp_ok (d := true) hsize hroom fun h32 => ⟨(hal h32).1, fun _ => (hal h32).2⟩) ?_
  rw [if_pos rfl, if_pos rfl, pair_low, pair_high, State.slotTaken_pmaCursor]
  have w := bufferEmptied_wf (s := (s.slotTaken ep xferIso i).withCursor (s.pmaCursor + 2 * aligned size.toNat)) hw i
    false (BitVec.ofNat 16 s.pmaCursor)
  rw [bufferEmptied_run (by exact hw) i false _ (by exact hl) (by exact hb) (by exact h.inside)]
  rw [bufferEmptied_run w i true _ (by rw [bufferEmptied_cfg]; exact hl) (by rw [bufferEmptied_busTape]; exact hb)
    (by rw [bufferEmptied_cfg]; exact h.inside), change_run, State.isoAllocated]

/-- Both buffers of the entry after `ISO_ALLOC`, and nothing else stored (rule R310). -/
theorem isoAllocated_btable {s : State} (hw : Memory.wf s.pma) (ep : Byte) (size : BitVec 11) (i : Nat) :
    (s.isoAllocated ep size i).btAddrOf i false = BitVec.ofNat 16 s.pmaCursor
      ∧ (s.isoAllocated ep size i).btAddrOf i true = BitVec.ofNat 16 (s.pmaCursor + aligned size.toNat)
      ∧ (∀ b, (s.isoAllocated ep size i).countwOf i b = s.countwOf i b &&& 0xFC00#16)
      ∧ Memory.SameOutside s.pma (s.isoAllocated ep size i).pma (btAddr s.cfg i false) 8 := by
  generalize hu : (s.slotTaken ep xferIso i).withCursor (s.pmaCursor + 2 * aligned size.toNat) = u
  have wu : Memory.wf u.pma := hu ▸ hw
  have wv := bufferEmptied_wf wu i false (BitVec.ofNat 16 s.pmaCursor)
  obtain ⟨addr0, count0⟩ := bufferEmptied_same wu i false (BitVec.ofNat 16 s.pmaCursor)
  obtain ⟨-, count1⟩ := bufferEmptied_other wu i false (BitVec.ofNat 16 s.pmaCursor)
  obtain ⟨addr1', count1'⟩ := bufferEmptied_same wv i true (BitVec.ofNat 16 (s.pmaCursor + aligned size.toNat))
  obtain ⟨addr0', count0'⟩ := bufferEmptied_other wv i true (BitVec.ofNat 16 (s.pmaCursor + aligned size.toNat))
  have outside := (bufferEmptied_sameOutside wu i false (BitVec.ofNat 16 s.pmaCursor)).trans
    (bufferEmptied_sameOutside wv i true (BitVec.ofNat 16 (s.pmaCursor + aligned size.toNat)))
  subst hu
  refine ⟨addr0'.trans addr0, addr1', fun b => ?_, outside⟩
  cases b
  · exact count0'.trans count0
  · exact count1'.trans (congrArg (· &&& 0xFC00#16) count1)

/-- Beside packet memory `ISO_ALLOC` changes the slot, the cursor and the context (rule R310). -/
theorem isoAllocated_rest (s : State) (ep : Byte) (size : BitVec 11) (i : Nat) :
    s.isoAllocated ep size i = { s with
      slots := (s.slotTaken ep xferIso i).slots, pmaCursor := s.pmaCursor + 2 * aligned size.toNat
      pma := (s.isoAllocated ep size i).pma
      xc := (s.updCtx (epNum ep) (epDir ep) fun x => { x with epIdx := BitVec.ofNat 8 i }).xc } := by
  generalize ht : s.isoAllocated ep size i = t
  rw [State.isoAllocated, State.updCtx, bufferEmptied_ctx, bufferEmptied_ctx, withCursor_ctx, slotTaken_ctx,
    bufferEmptied_rest, bufferEmptied_rest ((s.slotTaken _ _ _).withCursor _)] at ht
  subst ht
  rfl

/-- The select of `ISO_ACTIVATE`: the ISO type, both STATs DIS, the own toggle 0 and the other 1 (rule R311). -/
def selIso (n : BitVec 4) (d : Dir) : MuxSel :=
  selStat d statDis (selDtog d false (selStat d.opp statDis (selDtog d.opp true
    { type := some typeIso, kind := some false, ea := some n })))

/-- The fields of that select, whichever the direction. -/
theorem selIso_eq (n : BitVec 4) (d : Dir) : selIso n d =
    { statTx := some statDis, dtogTx := some (d == .out), statRx := some statDis, dtogRx := some (d == .inn)
      type := some typeIso, kind := some false, ea := some n } := by
  cases d <;> rfl

theorem isoActivateOp_quiet {s : State} (hb : s.busTape = []) (hr : s.Running) {ep : Byte} (h : s.isOpened ep)
    (mps : BitVec 11) :
    isoActivateOp ep mps s = .ok () (State.putEpr
      (s.updCtx (epNum ep) (epDir ep) fun x => { x with mps := mps.setWidth 16 }) true (s.epIdxOf ep)
      (hwWrite (s.eprAt (s.epIdxOf ep)) (mux (s.eprAt (s.epIdxOf ep)) (selIso (epNum ep) (epDir ep))))) := by
  refine bind_eq (checkOpen_ok h) (bind_eq (change_run _ _) (bind_eq (peek_run _ _) ?_))
  rw [updCtx_ctx, if_pos ⟨rfl, rfl⟩]
  refine (rmwEpr_quiet (i := s.epIdxOf ep) (by exact hb) (by exact h.inside) (selIso (epNum ep) (epDir ep))).trans ?_
  rw [hwWriteEpr_running (by exact hr)]
  rfl

/-- Settles O23: two emptied buffers under one slot; one multiplexed write with the select of `ISO_ACTIVATE`. -/
theorem isoEndpoints : Obligations.IsoEndpoints := by
  intro s ep hs hb hw hr hep
  refine ⟨fun size i h hsize hroom hal => ?_, fun mps h => ?_⟩
  · have run := isoAllocOp_quiet hs.legal hb hw h hsize hroom hal
    have rest := isoAllocated_rest s ep size i
    have table := isoAllocated_btable hw ep size i
    generalize s.isoAllocated ep size i = u at run rest table
    exact ⟨u.withRes 1, perform_ok hs (bind_eq (checkEp_ok hep) (bind_eq run rfl)),
      congrArg (State.withRes · 1) rest, table⟩
  · have run := isoActivateOp_quiet hb hr h mps
    have hi := h.inside
    have hn := (Config.legal_bounds hs.legal).2.1
    generalize hu : (s.updCtx (epNum ep) (epDir ep) fun x => { x with mps := mps.setWidth 16 }) = u at run ⊢
    have hc : u.cfg = s.cfg := by rw [← hu, State.updCtx_cfg]
    refine ⟨_, perform_ok hs (bind_eq (checkEp_ok hep) (bind_eq run (change_run (·.withRes 1) _))), ?_⟩
    have reg : ∀ v, (State.withRes (u.putEpr true (s.epIdxOf ep) v) 1).eprAt (s.epIdxOf ep) = v := fun v =>
      (putEpr_eprAt (hc ▸ hi) (hc ▸ hn) v _).trans (if_pos rfl)
    rw [reg, selIso_eq]
    refine ⟨rfl, ?_, ?_, ?_, statTx_hwWrite_mux _ _, statRx_hwWrite_mux _ _, dtogTx_hwWrite_mux _ _,
      dtogRx_hwWrite_mux _ _, ?_, ?_, setupBit_hwWrite _ _⟩
    · rw [epType_hwWrite, epType_mux]
      rfl
    · rw [epKind_hwWrite, epKind_mux]
      rfl
    · rw [eaField_hwWrite, eaField_mux]
      rfl
    · rw [ctrTx_hwWrite_mux, Bool.not_false, Bool.and_true]
    · rw [ctrRx_hwWrite_mux, Bool.not_false, Bool.and_true]

/-! ### `EP_CLOSE_ALL` (rule R309) -/

/-- The endpoints of `l` are closed: each register cleared but for SETUP, each slot free; the other registers and slots,
the flags of `ISTR` and the rest of the state stay (rule R309). -/
structure State.ClosedOn (s t : State) (l : List Nat) : Prop where
  rest   : t = { s with epr := t.epr, istr := t.istr, slots := t.slots }
  closed : ∀ i ∈ l, t.eprAt i = s.eprAt i &&& 0x0800#16 ∧ t.slotAt i = Slot.free
  others : ∀ i, i ∉ l → t.eprAt i = s.eprAt i ∧ t.slotAt i = s.slotAt i
  flags  : t.istr &&& 0x7F00#16 = s.istr &&& 0x7F00#16
  report : s.IstrOk → t.IstrOk

theorem State.ClosedOn.refl (s : State) : s.ClosedOn s [] :=
  ⟨rfl, by simp, fun _ _ => ⟨rfl, rfl⟩, rfl, id⟩

theorem State.ClosedOn.cons {s t u : State} {i : Nat} {l : List Nat} (h : s.ClosedOn t [i]) (h' : t.ClosedOn u l) :
    s.ClosedOn u (i :: l) := by
  obtain ⟨rest, closed, others, flags, report⟩ := h
  obtain ⟨rest', closed', others', flags', report'⟩ := h'
  have twice : ∀ r : Half, r &&& 0x0800#16 &&& 0x0800#16 = r &&& 0x0800#16 := fun r => and_mask r _ _
  refine ⟨?_, fun j hj => ?_, fun j hj => ?_, flags'.trans flags, report' ∘ report⟩
  · rw [rest', rest]
  · by_cases hl : j ∈ l
    · obtain ⟨hr, hs⟩ := closed' j hl
      refine ⟨hr.trans ?_, hs⟩
      by_cases hi : j = i
      · rw [(closed j (by simp [hi])).1, twice]
      · rw [(others j (by simpa using hi)).1]
    · obtain ⟨hr, hs⟩ := others' j hl
      have hi : j ∈ [i] := by simpa [hl] using hj
      rw [hr, hs]
      exact closed j hi
  · obtain ⟨hi, hl⟩ : j ≠ i ∧ j ∉ l := by simpa using hj
    obtain ⟨hr, hs⟩ := others' j hl
    rw [hr, hs]
    exact others j (by simpa using hi)

theorem selClose_clears (r : Half) : putBits selClose.mask r selClose.value = r &&& 0x0800#16 :=
  putBits_zero 0xF7FF r

theorem closeOne_quiet {s : State} (hb : s.busTape = []) (hr : s.Running) (hn : s.cfg.nEp ≤ 8) {i : Nat}
    (hi : i < s.cfg.nEp) :
    ∃ t, (do rmwEpr i selClose; change (·.putSlot i Slot.free) : Op Unit) s = .ok () t ∧ s.ClosedOn t [i] := by
  refine ⟨_, bind_eq (rmwEpr_running hb hr hi selClose) (change_run _ _), ?_⟩
  rw [selClose_clears]
  have only := putEpr_onlyEpr hi hn (s.eprAt i &&& 0x0800#16)
  generalize ht : s.putEpr true i (s.eprAt i &&& 0x0800#16) = t at only
  have reg : t.eprAt i = s.eprAt i &&& 0x0800#16 := by rw [← ht, putEpr_eprAt hi hn, if_pos rfl]
  have slot : ∀ j, t.slotAt j = s.slotAt j := fun j => by rw [← ht, putEpr_slotAt]
  obtain ⟨rest, others, flags, report, -⟩ := only
  refine ⟨?_, fun j hj => ?_, fun j hj => ?_, flags, fun _ => report⟩
  · rw [rest]
    rfl
  · obtain rfl : j = i := by simpa using hj
    exact ⟨reg, by rw [putSlot_slotAt, if_pos ⟨rfl, by omega⟩]⟩
  · have hj' : j ≠ i := by simpa using hj
    exact ⟨others j hj', by rw [putSlot_slotAt, if_neg fun h => hj' h.1, slot]⟩

theorem closeEach_quiet {s : State} (hb : s.busTape = []) (hr : s.Running) (hn : s.cfg.nEp ≤ 8) {l : List Nat}
    (hl : ∀ i ∈ l, i < s.cfg.nEp) :
    ∃ t, forEach l (fun i => do rmwEpr i selClose; change (·.putSlot i Slot.free)) s = .ok () t
      ∧ s.ClosedOn t l := by
  induction l generalizing s with
  | nil => exact ⟨s, rfl, .refl s⟩
  | cons i l ih =>
    obtain ⟨t, run, hst⟩ := closeOne_quiet hb hr hn (hl i (by simp))
    have hc : t.cfg = s.cfg := by rw [hst.rest]
    obtain ⟨u, run', htu⟩ := ih (s := t) (by rw [hst.rest]; exact hb) (by rw [hst.rest]; exact hr) (hc ▸ hn)
      (fun j hj => hc ▸ hl j (by simp [hj]))
    exact ⟨u, by rw [forEach_cons, run]; exact run', hst.cons htu⟩

theorem mem_endpoints_iff {n i : Nat} : i ∈ (List.range n).drop 1 ↔ 1 ≤ i ∧ i < n := by
  rw [List.range_eq_range', List.drop_range', List.mem_range'_1]
  omega

/-- Settles O24: the registers from 1 up are cleared one after another, then the cursor is set. -/
theorem epCloseAll : Obligations.EpCloseAll := by
  intro s hs hb hr hok
  have hn := Config.legal_bounds hs.legal
  obtain ⟨t, run, ⟨rest, closed, others, flags, report⟩⟩ :=
    closeEach_quiet hb hr hn.2.1 (l := (List.range s.cfg.nEp).drop 1) fun i hi => (mem_endpoints_iff.1 hi).2
  refine ⟨_, perform_ok hs (bind_eq (peek_run _ _) (bind_eq run (change_run _ _))), ?_,
    fun i h1 hi => closed i (mem_endpoints_iff.2 ⟨h1, hi⟩),
    fun i hi => others i (by rw [mem_endpoints_iff]; omega), flags, report hok⟩
  have hc : t.cfg = s.cfg := by rw [rest]
  rw [hc, aligned_ep0 hs.legal, rest]
  rfl

end Sys2Proof.Machine

/-! PROOFS. Transfers on IN endpoints (O25) and on OUT endpoints (O26). -/

namespace Sys2Proof.Machine

/-! ### What `XFER` sets up (44_dcd_ops.md rules R313, R314) -/

/-- A transfer context as `XFER` sets it up. -/
def XferCtx.begun (x : XferCtx) (buf : Word) (ff : Option Word) (total : Half) : XferCtx :=
  { x with buf := buf, ff := ff, totalLen := total, queuedLen := 0 }

theorem started_ctx (s : State) (ep : Byte) (buf : Word) (ff : Option Word) (total : Half) :
    (s.started ep buf ff total).ctx (epNum ep) (epDir ep) = (s.ctx (epNum ep) (epDir ep)).begun buf ff total :=
  (updCtx_ctx s _ _ _ _ _).trans (if_pos ⟨rfl, rfl⟩)

theorem started_eprAt (s : State) (ep : Byte) (buf : Word) (ff : Option Word) (total : Half) (i : Nat) :
    (s.started ep buf ff total).eprAt i = s.eprAt i := rfl

/-- The command that starts a transfer: `XFER` from or to RAM, `XFER_FIFO` with a FIFO (rules R313, R314). -/
def xferInstr (ep : Byte) (buf : Word) (ff : Option Word) (total : Half) : Instr :=
  match ff with
  | none => .xfer ep buf total
  | some h => .xferFifo ep h total

/-- `XFER` and `XFER_FIFO` complete with `RES` 1 (rules R313, R314). -/
theorem exec_xfer_ok {s : State} (hs : s.Ready) (hb : s.busTape = []) (hw : Memory.wf s.pma) (hr : s.Running)
    {ep : Byte} (hep : epOk ep = true) {buf : Word} {ff : Option Word} {total : Half} (h : s.CanXfer ep buf ff total)
    (hbuf : ff.isSome → buf = 0) :
    exec (xferInstr ep buf ff total) s = .next ((s.xferred ep buf ff total).withRes 1) := by
  have run : (do checkEp ep; xferOp ep buf ff total; setRes 1 : Op Unit) s
      = .ok () ((s.xferred ep buf ff total).withRes 1) :=
    bind_eq (checkEp_ok hep) (bind_eq (xferOp_quiet hs.legal hb hw hr h) rfl)
  cases ff with
  | none => exact perform_ok hs run
  | some k =>
    obtain rfl : buf = 0 := hbuf rfl
    exact perform_ok hs run

/-! ### The OUT branch (rule R313) -/

/-- The receive size of endpoint register `i`'s buffer, or of both buffers, is `code`. -/
def State.sizeStored (s : State) (i : Nat) (both : Bool) (code : Half) : State :=
  (if both then s.countwStored i false code else s).countwStored i true code

theorem sizeStored_rest (s : State) (i : Nat) (both : Bool) (code : Half) :
    s.sizeStored i both code = { s with pma := (s.sizeStored i both code).pma } := by
  cases both <;> rfl

section
variable {s : State} (hw : Memory.wf s.pma) (i : Nat) (both : Bool) (code : Half)
include hw

theorem sizeStored_countwOf : (s.sizeStored i both code).countwOf i true = code
    ∧ (s.sizeStored i both code).countwOf i false = if both then code else s.countwOf i false := by
  cases both
  · exact ⟨countwStored_countwOf hw i true code, countwStored_countwOf_other hw i true code⟩
  · have w := countwStored_wf hw i false code
    exact ⟨countwStored_countwOf w i true code,
      (countwStored_countwOf_other w i true code).trans (countwStored_countwOf hw i false code)⟩

/-- No byte but those count words changes. -/
theorem sizeStored_read {j : Nat} (h1 : j < btAddr s.cfg i true + 2 ∨ btAddr s.cfg i true + 4 ≤ j)
    (h0 : both = false ∨ j < btAddr s.cfg i false + 2 ∨ btAddr s.cfg i false + 4 ≤ j) :
    Memory.read (s.sizeStored i both code).pma j = Memory.read s.pma j := by
  have outside := fun {m} (w : Memory.wf m) b =>
    Memory.sameOutside_writeBytes w (btAddr s.cfg i b + 2) (leBytes16 code) j
  cases both
  · exact outside hw true h1
  · exact (outside (countwStored_wf hw i false code) true h1).trans (outside hw false (h0.resolve_left (by simp)))

end

theorem armed_eq {s : State} {n : BitVec 4} {x : XferCtx} {i : Nat} (hx : s.ctx n .out = x) (hi : x.epIdx.toNat = i) :
    s.armed n = State.putEpr (s.sizeStored i (isIso (s.eprAt i)) (rxSizeCode x.armLen)) true i
      (putBits 0x3000 (s.eprAt i) 0x3000) := by
  subst hx hi
  rfl

/-- The OUT branch of a transfer: the count word or words, then the one write of STAT_RX. -/
theorem xferred_out (s : State) {ep : Byte} (hd : epDir ep = .out) (buf : Word) (ff : Option Word) (total : Half) :
    s.xferred ep buf ff total = State.putEpr
      ((s.started ep buf ff total).sizeStored (s.epIdxOf ep) (isIso (s.eprAt (s.epIdxOf ep)))
        (rxSizeCode (min total.toNat (s.ctx (epNum ep) .out).mps.toNat)))
      true (s.epIdxOf ep) (putBits 0x3000 (s.eprAt (s.epIdxOf ep)) 0x3000) := by
  have ctx := started_ctx s ep buf ff total
  have idx : ((s.ctx (epNum ep) (epDir ep)).begun buf ff total).epIdx.toNat = s.epIdxOf ep := rfl
  rw [hd] at ctx idx
  have armed := armed_eq ctx idx
  rw [started_eprAt] at armed
  rw [State.xferred, hd]
  exact armed

/-- Settles O26: no store but the count words', no register but the endpoint's. -/
theorem xferOut : Obligations.XferOut := by
  intro s ep buf ff total hs hb hw hr hep hd h hbuf i r code
  have hn := (Config.legal_bounds hs.legal).2.1
  have hi : i < s.cfg.nEp := h.isOpen.inside
  have ctx := started_ctx s ep buf ff total
  rw [hd] at ctx
  have run := exec_xfer_ok hs hb hw hr hep h hbuf
  rw [xferred_out s hd] at run ⊢
  have wu : Memory.wf (s.started ep buf ff total).pma := hw
  obtain ⟨count1, count0⟩ := sizeStored_countwOf wu i (isIso r) code
  have read := fun j => @sizeStored_read _ wu i (isIso r) code j
  have rest := sizeStored_rest (s.started ep buf ff total) i (isIso r) code
  generalize State.sizeStored _ _ _ _ = u at run count1 count0 read rest ⊢
  have hu : u.cfg = s.cfg := by rw [rest]; rfl
  have reg := putEpr_eprAt (hu ▸ hi) (hu ▸ hn) (putBits 0x3000 r 0x3000)
  have others : ∀ j, u.eprAt j = s.eprAt j := fun j => by rw [rest]; rfl
  have same : u.ctx (epNum ep) .out = (s.started ep buf ff total).ctx (epNum ep) .out := by rw [rest]; rfl
  exact ⟨_, run, rfl, (reg i).trans (if_pos rfl), fun j hj => (reg j).trans ((if_neg hj).trans (others j)), count1,
    count0, same.trans ctx, read⟩

/-! ### The IN branch (rule R315; 43_pma_copy.md rules R281, R285) -/

theorem packet_length_le (s : State) (x : XferCtx) : (s.packet x).length ≤ x.packetLen := by
  unfold State.packet
  split
  · exact (Memory.readBytes_length _ _ _).le
  · exact List.length_take_le _ _

/-- The packet's bytes are those of RAM behind what was sent, or the first of the FIFO. -/
theorem packet_getD (s : State) (x : XferCtx) {k : Nat} (hk : k < x.packetLen) : (s.packet x).getD k 0
    = match x.ff with
      | none => Memory.read s.ram (x.buf.toNat + x.queuedLen.toNat + k)
      | some h => (s.fifo h).q.getD k 0 := by
  unfold State.packet
  cases x.ff with
  | none => exact (Memory.getD_readBytes _ _ _ _).trans (if_pos hk)
  | some h => exact getD_take_of_lt hk

/-- The packet memory after a transmit: the padded packet at `a`, then the count of descriptor `b` of entry `i`. -/
def State.packetStored (s : State) (a : Nat) (packet : List Byte) (wide i : Nat) (b : Bool) (len : Nat) : State :=
  (s.pmaStored a (takeBytes wide packet)).countStored i b len

section
variable {s : State} (hw : Memory.wf s.pma) (a : Nat) (bs : List Byte) (wide i : Nat) (b : Bool) (len : Nat)
include hw

theorem packetStored_read {j : Nat} (hj : j < btAddr s.cfg i b + 2 ∨ btAddr s.cfg i b + 2 + 2 ≤ j) :
    Memory.read (s.packetStored a bs wide i b len).pma j = Memory.read (s.pmaStored a (takeBytes wide bs)).pma j :=
  Memory.sameOutside_writeBytes (Memory.wf_writeBytes hw _ _) _ (leBytes16 _) j hj

/-- The count is stored over the word that stood there, the packet not being over it. -/
theorem packetStored_countwOf (hd : btAddr s.cfg i b + 2 + 2 ≤ a ∨ a + wide ≤ btAddr s.cfg i b + 2) :
    (s.packetStored a bs wide i b len).countwOf i b = withCount (s.countwOf i b) len := by
  rw [State.packetStored, countStored_countwOf (Memory.wf_writeBytes hw _ _)]
  congr 1
  exact le16_read_writeBytes_disjoint hw (by rwa [takeBytes_length])

end

theorem withCount_eq (v : Half) (n : Nat) : withCount v n = putBits 0x03FF v (BitVec.ofNat 16 n) := rfl

/-- The context after one more packet, of an ISO endpoint or not (rule R315). -/
def XferCtx.packetQueued (iso : Bool) (x : XferCtx) : XferCtx :=
  { x with queuedLen := x.queuedLen + BitVec.ofNat 16 x.packetLen, isoInSending := iso || x.isoInSending }

/-- The state `transmit_packet(n)` leaves before its register write, by the context `x` and the register `i` (rule
R315). -/
def State.packetSent (s : State) (n : BitVec 4) (x : XferCtx) (i : Nat) : State :=
  { s.packetTaken x with
    xc := (s.updCtx n .inn (XferCtx.packetQueued (isIso (s.eprAt i)))).xc
    pma := (s.packetStored (s.btAddrOf i (txBuf (s.eprAt i))).toNat (s.packet x)
      (roundUp x.packetLen (Config.pmaWidth s.cfg)) i (txBuf (s.eprAt i)) x.packetLen).pma }

theorem sent_eq {s : State} {n : BitVec 4} {x : XferCtx} {i : Nat} (hx : s.ctx n .inn = x) (hi : x.epIdx.toNat = i) :
    s.sent n = State.putEpr (s.packetSent n x i) true i (putBits 0x0030 (s.eprAt i) 0x0030) := by
  subst hx hi
  cases hff : (s.ctx n .inn).ff with
  | none =>
    simp only [State.sent, State.packetSent, State.packetTaken, hff]
    rfl
  | some h =>
    simp only [State.sent, State.packetSent, State.packetTaken, hff]
    rfl

section
variable {s : State} {n : BitVec 4} {x : XferCtx} {i : Nat} (hx : s.ctx n .inn = x) (hi : x.epIdx.toNat = i)
include hx hi

theorem sent_cfg : (s.sent n).cfg = s.cfg := by
  rw [sent_eq hx hi]
  exact packetTaken_cfg s x

theorem sent_eprAt (hlt : i < s.cfg.nEp) (hn : s.cfg.nEp ≤ 8) (j : Nat) :
    (s.sent n).eprAt j = if j = i then putBits 0x0030 (s.eprAt i) 0x0030 else s.eprAt j := by
  have cfg : (s.packetSent n x i).cfg = s.cfg := packetTaken_cfg s x
  have same : (s.packetSent n x i).eprAt j = s.eprAt j := packetTaken_eprAt s x j
  rw [sent_eq hx hi, putEpr_eprAt (cfg ▸ hlt) (cfg ▸ hn), same]

theorem sent_ctx : (s.sent n).ctx n .inn = x.packetQueued (isIso (s.eprAt i)) := by
  rw [sent_eq hx hi, ← hx]
  exact (updCtx_ctx s n n .inn .inn _).trans (if_pos ⟨rfl, rfl⟩)

/-- A FIFO transfer takes its packet from its FIFO and from no other (rule R314). -/
theorem sent_fifo {h : Word} (hff : x.ff = some h) :
    (s.sent n).fifo h = { s.fifo h with q := (s.fifo h).q.drop x.packetLen }
      ∧ ∀ k : Word, k ≠ h → (s.sent n).fifo k = s.fifo k := by
  have fifos : (s.sent n).fifos = fifoPut s.fifos h.toNat { s.fifo h with q := (s.fifo h).q.drop x.packetLen } := by
    rw [sent_eq hx hi]
    simp only [State.putEpr_fifos, State.packetSent, State.packetTaken, hff]
  exact ⟨State.fifo_put_same fifos, fun k hk => State.fifo_put_other fifos hk⟩

theorem sent_pma : (s.sent n).pma = (s.packetStored (s.btAddrOf i (txBuf (s.eprAt i))).toNat (s.packet x)
    (roundUp x.packetLen (Config.pmaWidth s.cfg)) i (txBuf (s.eprAt i)) x.packetLen).pma := by
  rw [sent_eq hx hi]
  rfl

theorem sent_countwOf (hw : Memory.wf s.pma) {b : Bool} (hb : txBuf (s.eprAt i) = b)
    (hd : btAddr s.cfg i b + 2 + 2 ≤ (s.btAddrOf i b).toNat
      ∨ (s.btAddrOf i b).toNat + roundUp x.packetLen (Config.pmaWidth s.cfg) ≤ btAddr s.cfg i b + 2) :
    (s.sent n).countwOf i b = putBits 0x03FF (s.countwOf i b) (BitVec.ofNat 16 x.packetLen) := by
  subst hb
  rw [(btable_congr (sent_pma hx hi) (sent_cfg hx hi) i _).2]
  exact (packetStored_countwOf hw _ _ _ i _ _ hd).trans (withCount_eq _ _)

end

/-- The length of the first packet (rule R315). -/
theorem begun_packetLen (x : XferCtx) (buf : Word) (ff : Option Word) (total : Half) :
    (x.begun buf ff total).packetLen = min total.toNat x.mps.toNat := rfl

theorem begun_packetQueued_queuedLen (iso : Bool) (x : XferCtx) (buf : Word) (ff : Option Word) (total : Half) :
    ((x.begun buf ff total).packetQueued iso).queuedLen.toNat = min total.toNat x.mps.toNat := by
  have hlt : min total.toNat x.mps.toNat < 2 ^ 16 := Nat.lt_of_le_of_lt (Nat.min_le_left _ _) total.isLt
  rw [← begun_packetLen x buf ff total] at hlt ⊢
  change (0#16 + BitVec.ofNat 16 _).toNat = _
  rw [BitVec.zero_add, BitVec.toNat_ofNat, Nat.mod_eq_of_lt hlt]

/-- The first packet's bytes are those of the buffer, or the first of the FIFO. -/
theorem begun_packet_getD (s : State) (x : XferCtx) (buf : Word) (ff : Option Word) (total : Half) {k : Nat}
    (hk : k < min total.toNat x.mps.toNat) : (s.packet (x.begun buf ff total)).getD k 0
      = match ff with
        | none => Memory.read s.ram (buf.toNat + k)
        | some h => (s.fifo h).q.getD k 0 := by
  rw [packet_getD s _ hk]
  cases ff <;> rfl

/-- Settles O25: no store but the packet's and the count's, no register but the endpoint's. -/
theorem xferIn : Obligations.XferIn := by
  intro s ep buf ff total hs hb hw hr hep hd h hbuf i r len a e wide
  have hn := (Config.legal_bounds hs.legal).2.1
  have run := exec_xfer_ok hs hb hw hr hep h hbuf
  have hx := started_ctx s ep buf ff total
  have hi : ((s.ctx (epNum ep) (epDir ep)).begun buf ff total).epIdx.toNat = i := rfl
  rw [hd] at hx hi
  have sent : s.xferred ep buf ff total = (s.started ep buf ff total).sent (epNum ep) := by rw [State.xferred, hd]
  have reg := sent_eprAt hx hi h.isOpen.inside hn
  have ctx := sent_ctx hx hi
  have pma := sent_pma hx hi
  have countw := @sent_countwOf _ _ _ _ hx hi hw (txBuf r) rfl
  have fifo := @sent_fifo _ _ _ _ hx hi
  have bytes := @begun_packet_getD (s.started ep buf ff total) (s.ctx (epNum ep) .inn) buf ff total
  have short := packet_length_le (s.started ep buf ff total) ((s.ctx (epNum ep) .inn).begun buf ff total)
  rw [sent] at run ⊢
  generalize (s.started ep buf ff total).sent (epNum ep) = t at run reg ctx pma countw fifo ⊢
  generalize (s.started ep buf ff total).packet _ = bs at pma bytes short
  have outside := fun j => @packetStored_read s hw a bs wide i (txBuf r) len j
  replace pma : t.pma = (s.packetStored a bs wide i (txBuf r) len).pma := pma
  rw [← pma] at outside
  refine ⟨t.withRes 1, run, rfl, (reg i).trans (if_pos rfl), fun j hj => (reg j).trans (if_neg hj),
    (congrArg (fun x => x.queuedLen.toNat) ctx).trans (begun_packetQueued_queuedLen _ _ _ _ _), fun hiso => ?_,
    fun j ha he => ?_, fun k hk he => ?_, fun k hl hk he => ?_, countw, fun k hff => fifo hff⟩
  · refine (congrArg XferCtx.isoInSending ctx).trans ?_
    change (isIso r || _) = true
    rw [hiso, Bool.true_or]
  · exact (outside j he).trans (Memory.sameOutside_writeBytes_takeBytes hw a bs wide j ha)
  · exact (outside (a + k) he).trans ((Memory.read_writeBytes_takeBytes hw a bs (lt_roundUp hk)).trans (bytes hk))
  · exact (outside (a + k) he).trans (Memory.read_writeBytes_takeBytes_tail hw a bs (short.trans hl) hk)

end Sys2Proof.Machine

/-! PROOFS. The bus side: tokens for nobody and signals in reset (O37), IN (O38), OUT (O39), SETUP (O40) and the
signals (O41). -/

namespace Sys2Proof.Machine

/-! ### Which register serves a token (45_bus_side.md rule R351) -/

section
variable {s : State} {addr : BitVec 7} {ep : BitVec 4} {d : Dir} {i : Nat} {f : Nat → Op Unit}

/-- The list a token is matched against holds the endpoint registers in order. -/
theorem getElem_take_epr {j : Nat} (hj : j < (s.epr.toList.take s.cfg.nEp).length) :
    (s.epr.toList.take s.cfg.nEp)[j] = s.eprAt j := by
  obtain ⟨-, h8⟩ : j < s.cfg.nEp ∧ j < 8 := by simpa using hj
  simp [State.eprAt, h8]

theorem State.Selects.selectEp (hn : s.cfg.nEp ≤ 8) (h : s.Selects addr ep d i) : s.selectEp ep d = some i := by
  have hi := h.inside
  refine List.findIdx?_eq_some_iff_getElem.2 ⟨by simp; omega, ?_, fun j hj => ?_⟩
  · rw [getElem_take_epr, h.number]
    simpa using h.live
  · rw [getElem_take_epr]
    simpa using h.first j hj

theorem selectEp_none (h : ∀ j, j < s.cfg.nEp → eaField (s.eprAt j) = ep → statOf d (s.eprAt j) = statDis) :
    s.selectEp ep d = none := by
  refine List.findIdx?_eq_none_iff.2 fun r hr => ?_
  obtain ⟨j, hj, rfl⟩ := List.getElem_of_mem hr
  obtain ⟨hlt, -⟩ : j < s.cfg.nEp ∧ j < 8 := by simpa using hj
  rw [getElem_take_epr]
  simpa using h j hlt

/-- A token on the register it selects is that register's transaction. -/
theorem busToken_selected (hn : s.cfg.nEp ≤ 8) (h : s.Selects addr ep d i) : busToken addr ep d f s = f i s := by
  have hforUs : ¬ (s.fres || !s.addressed addr) = true := by
    simp [State.addressed, h.running, h.enabled, h.address]
  rw [busToken, bind_run, peek_run]
  dsimp only [id]
  rw [if_neg hforUs, h.selectEp hn]

theorem busToken_ignored (h : (s.fres || !s.addressed addr) = true ∨ s.selectEp ep d = none) :
    busToken addr ep d f s = .ok () (s.observed (.bus .none)) := by
  rw [busToken, bind_run, peek_run]
  dsimp only [id]
  by_cases hign : (s.fres || !s.addressed addr) = true
  · rw [if_pos hign]
    rfl
  · rw [if_neg hign, h.resolve_left hign]
    rfl

/-- A token that is not for this device, or that no register serves, is answered `NONE`. -/
theorem busToken_unserved (h : s.fres = true ∨ s.daddr.getLsbD 7 = false ∨ s.daddr.setWidth 7 ≠ addr
      ∨ ∀ j, j < s.cfg.nEp → eaField (s.eprAt j) = ep → statOf d (s.eprAt j) = statDis) :
    busToken addr ep d f s = .ok () (s.observed (.bus .none)) := by
  rcases h with hf | hen | haddr | hno
  · exact busToken_ignored (.inl (by rw [hf, Bool.true_or]))
  · exact busToken_ignored (.inl (by rw [State.addressed, hen, Bool.false_and, Bool.not_false, Bool.or_true]))
  · exact busToken_ignored (.inl (by simp [State.addressed, haddr]))
  · exact busToken_ignored (.inr (selectEp_none hno))

end

/-! ### Records: tokens and signals (rules R350, R352, R361, R362) -/

/-- The record is a token for endpoint `ep` of the device at `addr`, in direction `d`, whose transaction on the
register `i` is `f i`. -/
inductive BusRec.Token (addr : BitVec 7) (ep : BitVec 4) : BusRec → Dir → (Nat → Op Unit) → Prop
  | setup {bytes : List Byte} (h : bytes.length ≤ 1023) : Token addr ep (.setup addr ep bytes) .out (busSetup · bytes)
  | out {pid : Pid} {bytes : List Byte} (h : bytes.length ≤ 1023) :
      Token addr ep (.out addr ep pid bytes) .out (busOut · pid bytes)
  | inTok : Token addr ep (.inTok addr ep) .inn (busIn · false)
  | inNoAck : Token addr ep (.inNoAck addr ep) .inn (busIn · true)

/-- What a signal does to a peripheral that is out of reset; a token is no signal. -/
def BusRec.signal : BusRec → Option (State → State)
  | .reset       => some (·.busReset)
  | .suspend     => some (·.raiseFlag flagSusp)
  | .resume      => some (·.raiseFlag flagWkup)
  | .sof frame   => some (·.busSof frame)
  | .frameMissed => some (·.raiseFlag flagEsof)
  | _            => none

section
variable {s : State} {r : BusRec}

theorem busStep_detached (h : s.pullup = false) (r : BusRec) : busStep r s = .ok () s := by simp [busStep, h]

theorem busStep_token {addr : BitVec 7} {ep : BitVec 4} {d : Dir} {f : Nat → Op Unit} (hp : s.pullup = true)
    (h : BusRec.Token addr ep r d f) : busStep r s = busToken addr ep d f s := by
  cases h with
  | setup hl => simp [busStep, hp, Nat.not_lt.2 hl]
  | out hl => simp [busStep, hp, Nat.not_lt.2 hl]
  | inTok => simp [busStep, hp]
  | inNoAck => simp [busStep, hp]

theorem busStep_signal {g : State → State} (hp : s.pullup = true) (h : r.signal = some g) :
    busStep r s = .ok () (if s.fres then s else g s) := by
  cases r <;> cases h <;> simp [busStep, busSignal, hp]

/-- The turn of a token that selects the register `i` performs the transaction on it. -/
theorem runTurn_selected {addr : BitVec 7} {ep : BitVec 4} {d : Dir} {f : Nat → Op Unit} {i : Nat} (hs : s.Ready)
    (hsel : s.Selects addr ep d i) (h : BusRec.Token addr ep r d f) : runTurn (.bus r) s = perform (f i) s :=
  perform_congr ((busStep_token hsel.attached h).trans (busToken_selected (Config.legal_bounds hs.legal).2.1 hsel))

end

/-- Settles O37: no register is selected, and neither the answer nor a signal in reset touches the rest of the state. -/
theorem busTokenNotForUs : Obligations.BusTokenNotForUs := by
  intro s addr ep hs
  refine ⟨fun hp r => perform_ok hs (busStep_detached hp r), fun hp d r pid bytes hl hr hnone => ?_, fun hf r hr => ?_⟩
  · have htok : ∃ f, BusRec.Token addr ep r d f := by
      rcases hr with ⟨rfl, rfl | rfl⟩ | ⟨rfl, rfl | rfl⟩
      · exact ⟨_, .inTok⟩
      · exact ⟨_, .inNoAck⟩
      · exact ⟨_, .out hl⟩
      · exact ⟨_, .setup hl⟩
    obtain ⟨f, htok⟩ := htok
    exact perform_ok hs ((busStep_token hp htok).trans (busToken_unserved hnone))
  · have hsig : ∃ g, r.signal = some g := by
      rcases hr with rfl | rfl | rfl | ⟨f, rfl⟩ | rfl <;> exact ⟨_, rfl⟩
    obtain ⟨g, hg⟩ := hsig
    cases hp : s.pullup
    · exact perform_ok hs (busStep_detached hp r)
    · exact perform_ok hs ((busStep_signal hp hg).trans (by rw [if_pos hf]))

/-- Settles O41: out of reset each signal is its own change of the state. -/
theorem busSignals : Obligations.BusSignals := by
  intro s hs hp hr
  have hf : s.fres = false := hr
  have run : ∀ r g, BusRec.signal r = some g → runTurn (.bus r) s = .next (g s) := fun _ _ h =>
    perform_ok hs ((busStep_signal hp h).trans (by rw [hf]; rfl))
  refine ⟨fun f => ⟨s.busSof f, run _ (·.busSof f) rfl, rfl, ?_, putBits_and_of_disjoint rfl _ _⟩,
    run _ (·.raiseFlag flagEsof) rfl, run _ (·.raiseFlag flagSusp) rfl, run _ (·.raiseFlag flagWkup) rfl,
    s.busReset, run _ (·.busReset) rfl, rfl, ?_⟩
  · ext k hk
    interval_cases k <;> simp [State.busSof, putBits]
  · rw [State.busReset_istr, istrOf, firstCtr_zero]
    rfl

/-! ### What BUS does to a register after a transaction (rules R353 to R356) -/

theorem busSetEpr_running {s : State} (h : s.fres = false) (i : Nat) (g : Half → Half) :
    busSetEpr i g s = .ok () (s.putEpr true i (g (s.eprAt i))) := by
  rw [busSetEpr, change_run, State.busPutEpr, h]
  rfl

/-- A toggle flipped and a flag set leave the bits outside both. -/
theorem flip_set_and {flip flag k : Half} (hx : flip &&& k = 0#16) (hf : flag &&& k = 0#16) (r : Half) :
    ((r ^^^ flip) ||| flag) &&& k = r &&& k := by
  rw [BitVec.and_or_distrib_right, hf, BitVec.or_zero]
  ext j hj
  have hbit : (flip[j] && k[j]) = false := by rw [← BitVec.getElem_and, hx, BitVec.getElem_zero]
  cases hk : k[j] <;> simp_all

/-- The register after a packet was sent (rule R354). -/
def txDone (r : Half) : Half :=
  if isIso r then (r ^^^ 0x0040#16) ||| 0x0080#16 else putBits 0x0030 ((r ^^^ 0x0040#16) ||| 0x0080#16) 0x0020

/-- The register after a packet was received (rule R355). -/
def rxDone (r : Half) : Half :=
  if isIso r then putBits 0x0800 ((r ^^^ 0x4000#16) ||| 0x8000#16) 0
  else putBits 0x3000 (putBits 0x0800 ((r ^^^ 0x4000#16) ||| 0x8000#16) 0) 0x2000

theorem dtogTx_txDone (r : Half) : dtogTx (txDone r) = !dtogTx r := by
  cases h : isIso r <;> simp [txDone, h, dtogTx, putBits]

theorem ctrTx_txDone (r : Half) : ctrTx (txDone r) = true := by
  cases h : isIso r <;> simp [txDone, h, ctrTx, putBits]

theorem statTx_txDone {r : Half} (hv : statTx r = statValid) :
    statTx (txDone r) = if isIso r then statValid else statNak := by
  cases h : isIso r
  · simp [txDone, h, statTx, putBits, statNak, BitVec.extractLsb'_or, BitVec.extractLsb'_and, BitVec.extractLsb'_xor]
  · refine Eq.trans ?_ hv
    simp [txDone, h, statTx, BitVec.extractLsb'_or, BitVec.extractLsb'_xor]

theorem txDone_rest (r : Half) : txDone r &&& 0xFF0F#16 = r &&& 0xFF0F#16 := by
  unfold txDone
  split
  · exact flip_set_and rfl rfl r
  · exact (putBits_and_of_disjoint rfl _ _).trans (flip_set_and rfl rfl r)

theorem dtogRx_rxDone (r : Half) : dtogRx (rxDone r) = !dtogRx r := by
  cases h : isIso r <;> simp [rxDone, h, dtogRx, putBits]

theorem ctrRx_rxDone (r : Half) : ctrRx (rxDone r) = true := by
  cases h : isIso r <;> simp [rxDone, h, ctrRx, putBits]

theorem setupBit_rxDone (r : Half) : setupBit (rxDone r) = false := by
  cases h : isIso r <;> simp [rxDone, h, setupBit, putBits]

theorem statRx_rxDone {r : Half} (hv : statRx r = statValid) :
    statRx (rxDone r) = if isIso r then statValid else statNak := by
  cases h : isIso r
  · simp [rxDone, h, statRx, putBits, statNak, BitVec.extractLsb'_or, BitVec.extractLsb'_and, BitVec.extractLsb'_xor]
  · refine Eq.trans ?_ hv
    simp [rxDone, h, statRx, putBits, BitVec.extractLsb'_or, BitVec.extractLsb'_and, BitVec.extractLsb'_xor,
      and_ones_two]

theorem rxDone_rest (r : Half) : rxDone r &&& 0x07FF#16 = r &&& 0x07FF#16 := by
  have received : putBits 0x0800 ((r ^^^ 0x4000#16) ||| 0x8000#16) 0 &&& 0x07FF#16 = r &&& 0x07FF#16 :=
    (putBits_and_of_disjoint rfl _ _).trans (flip_set_and rfl rfl r)
  unfold rxDone
  split
  · exact received
  · exact (putBits_and_of_disjoint rfl _ _).trans received

/-- The register after a setup packet was received (rule R356): bits 15:11 are fixed. -/
theorem setupDone_eq (r : Half) : putBits 0x3000 (r ||| 0xC800#16) 0x2000 = putBits 0xF800 r 0xE800 := by
  rw [← putBits_ones, putBits_putBits]
  rfl

/-! ### Transactions (rules R354 to R360) -/

section
variable {s : State} {i : Nat} {bytes : List Byte}

/-- The buffer an IN transaction reads (rules R354, R360). -/
def State.inBuf (s : State) (i : Nat) : Bool := isIso (s.eprAt i) && hwBuf s.cfg (dtogTx (s.eprAt i))

/-- The offset of the packet an IN transaction sends (rule R354). -/
def State.inAddr (s : State) (i : Nat) : Nat := (s.btAddrOf i (s.inBuf i)).toNat

/-- The length of the packet an IN transaction sends (rule R354). -/
def State.inLen (s : State) (i : Nat) : Nat := countField (s.countwOf i (s.inBuf i))

/-- The state after an IN transaction's packet is sent (rule R354). -/
def State.dataSent (s : State) (i : Nat) : State :=
  s.observed (.bus (.data (if isIso (s.eprAt i) then .data0 else pidOf (dtogTx (s.eprAt i)))
    (Memory.readBytes s.pma (s.inAddr i) (s.inLen i))))

theorem dataSent_eq (s : State) (i : Nat) : s.dataSent i = s.observed (.bus (.data
    (if isIso (s.eprAt i) = false ∧ dtogTx (s.eprAt i) = true then .data1 else .data0)
    (Memory.readBytes s.pma (s.inAddr i) (s.inLen i)))) := by
  rw [State.dataSent]
  cases isIso (s.eprAt i) <;> cases dtogTx (s.eprAt i) <;> rfl

theorem busIn_stall (lost : Bool) (h : statTx (s.eprAt i) = statStall) :
    busIn i lost s = .ok () (s.observed (.bus .stall)) :=
  bind_eq (peek_run _ _) (by rw [if_pos (by simp [h])]; rfl)

theorem busIn_nak (lost : Bool) (h : statTx (s.eprAt i) = statNak) :
    busIn i lost s = .ok () (s.observed (.bus .nak)) :=
  bind_eq (peek_run _ _) (by rw [if_neg (by simp [h, statNak, statStall]), if_pos (by simp [h])]; rfl)

theorem busIn_valid (hl : s.cfg.legal = true) (hr : s.fres = false) (hi : i < s.cfg.nEp)
    (h : statTx (s.eprAt i) = statValid) (lost : Bool) :
    busIn i lost s = if s.cfg.pmaSize < s.inAddr i + s.inLen i then .error (.pmaRange (s.inAddr i + s.inLen i - 1)) s
      else if lost && !isIso (s.eprAt i) then .ok () (s.dataSent i)
      else .ok () ((s.dataSent i).putEpr true i (txDone (s.eprAt i))) := by
  have he := btAddr_inside hl hi (s.inBuf i)
  refine bind_eq (peek_run _ _) ?_
  dsimp only [id]
  rw [if_neg (by simp [h, statValid, statStall]), if_neg (by simp [h, statValid, statNak])]
  refine bind_eq (pmaHalf_ok (show btAddr s.cfg i (s.inBuf i) + 2 ≤ _ by omega)) (bind_eq (pmaHalf_ok he) ?_)
  change (if s.cfg.pmaSize < s.inAddr i + s.inLen i then _ else _ : Op Unit) s = _
  by_cases hfit : s.cfg.pmaSize < s.inAddr i + s.inLen i
  · rw [if_pos hfit, if_pos hfit]
    rfl
  · rw [if_neg hfit, if_neg hfit]
    refine bind_eq (pmaReadBytes_ok (Nat.not_lt.1 hfit)) (bind_eq (emit_run _ _) ?_)
    rw [ite_run]
    congr 1
    exact busSetEpr_running (s := s.dataSent i) hr i txDone

/-- The buffer an OUT transaction writes (rules R355, R360). -/
def State.outBuf (s : State) (i : Nat) : Bool := !isIso (s.eprAt i) || hwBuf s.cfg (dtogRx (s.eprAt i))

theorem outBuf_eq (s : State) (i : Nat) :
    (if isIso (s.eprAt i) then hwBuf s.cfg (dtogRx (s.eprAt i)) else true) = s.outBuf i := by
  rw [State.outBuf]
  cases isIso (s.eprAt i) <;> rfl

/-- The end of an accepted OUT or SETUP transaction with the buffer at `a` and the descriptor at `e`: bytes, count,
register, answer (rules R355, R356). -/
def busReceive (i e a : Nat) (bytes : List Byte) (g : Half → Half) (answer : BusAnswer) : Op Unit := do
  pmaWriteBytes a bytes
  let countw ← pmaHalf (e + 2)
  pmaWriteBytes (e + 2) (leBytes16 (withCount countw bytes.length))
  busSetEpr i g
  emit (.bus answer)

/-- The state an accepted packet leaves, with `g` the register's change. -/
def State.accepted (s : State) (i : Nat) (b : Bool) (bytes : List Byte) (g : Half → Half) (answer : BusAnswer) :
    State :=
  (((s.pmaStored (s.btAddrOf i b).toNat bytes).countStored i b bytes.length).putEpr true i
    (g (s.eprAt i))).observed (.bus answer)

theorem accepted_eprAt (hi : i < s.cfg.nEp) (hn : s.cfg.nEp ≤ 8) (b : Bool) (g : Half → Half) (answer : BusAnswer) :
    (s.accepted i b bytes g answer).eprAt i = g (s.eprAt i) :=
  (putEpr_eprAt (s := (s.pmaStored (s.btAddrOf i b).toNat bytes).countStored i b bytes.length) hi hn _ i).trans
    (if_pos rfl)

section
variable (hl : s.cfg.legal = true) (hi : i < s.cfg.nEp)
include hl hi

theorem busReceive_ok (hr : s.fres = false) {b : Bool} (hfit : (s.btAddrOf i b).toNat + bytes.length ≤ s.cfg.pmaSize)
    (g : Half → Half) (answer : BusAnswer) :
    busReceive i (btAddr s.cfg i b) (s.btAddrOf i b).toNat bytes g answer s
      = .ok () (s.accepted i b bytes g answer) := by
  have he := btAddr_inside hl hi b
  have stored := busSetEpr_running
    (s := (s.pmaStored (s.btAddrOf i b).toNat bytes).countStored i b bytes.length) hr i g
  exact bind_eq (pmaWriteBytes_ok hfit) (bind_eq (pmaHalf_ok he) (bind_eq (pmaWriteBytes_ok he) (bind_eq stored rfl)))

theorem busOut_valid (h : statRx (s.eprAt i) = statValid) (pid : Pid) :
    busOut i pid bytes s = if rxCap (s.countwOf i (s.outBuf i)) < bytes.length then .error (.rxOverrun i) s
      else if !isIso (s.eprAt i) && pid != pidOf (dtogRx (s.eprAt i)) then .ok () (s.observed (.bus .ack))
      else busReceive i (btAddr s.cfg i (s.outBuf i)) (s.btAddrOf i (s.outBuf i)).toNat bytes rxDone
        (if isIso (s.eprAt i) then .none else .ack) s := by
  have he := btAddr_inside hl hi (s.outBuf i)
  refine bind_eq (peek_run _ _) ?_
  dsimp only [id]
  rw [if_neg (by simp [h, statValid, statStall]), if_neg (by simp [h, statValid, statNak]), outBuf_eq]
  refine bind_eq (pmaHalf_ok (by omega)) (bind_eq (pmaHalf_ok he) ?_)
  rw [ite_run, ite_run]
  rfl

theorem busSetup_control (h : epType (s.eprAt i) = typeControl) :
    busSetup i bytes s = if rxCap (s.countwOf i true) < bytes.length then .error (.rxOverrun i) s
      else busReceive i (btAddr s.cfg i true) (s.btAddrOf i true).toNat bytes
        (fun r => putBits 0x3000 (r ||| 0xC800#16) 0x2000) .ack s := by
  have he := btAddr_inside hl hi true
  refine bind_eq (peek_run _ _) ?_
  dsimp only [id]
  rw [if_neg (by simp [h])]
  refine bind_eq (pmaHalf_ok (by omega)) (bind_eq (pmaHalf_ok he) ?_)
  rw [ite_run]
  rfl

end

theorem busOut_stall (pid : Pid) (h : statRx (s.eprAt i) = statStall) :
    busOut i pid bytes s = .ok () (s.observed (.bus .stall)) :=
  bind_eq (peek_run _ _) (by rw [if_pos (by simp [h])]; rfl)

theorem busOut_nak (pid : Pid) (h : statRx (s.eprAt i) = statNak) :
    busOut i pid bytes s = .ok () (s.observed (.bus .nak)) :=
  bind_eq (peek_run _ _) (by rw [if_neg (by simp [h, statNak, statStall]), if_pos (by simp [h])]; rfl)

theorem busSetup_otherType (h : epType (s.eprAt i) ≠ typeControl) :
    busSetup i bytes s = .ok () (s.observed (.bus .none)) :=
  bind_eq (peek_run _ _) (by rw [if_pos (by simpa using h)]; rfl)

end

/-- Settles O38: the answer and the register's change are read off the transaction on the register selected. -/
theorem busInTransaction : Obligations.BusIn := by
  intro s addr ep i lost hs sel tok r b a n sent
  have hi := sel.inside
  have hn := (Config.legal_bounds hs.legal).2.1
  have htok : BusRec.Token addr ep tok .inn (busIn · lost) := by
    cases lost
    · exact .inTok
    · exact .inNoAck
  have run := runTurn_selected hs sel htok
  have valid := fun h => busIn_valid hs.legal sel.running hi h lost
  have hsent : s.dataSent i = sent := dataSent_eq s i
  rw [hsent] at valid
  refine ⟨fun h => run.trans (perform_ok hs (busIn_stall lost h)),
    fun h => run.trans (perform_ok hs (busIn_nak lost h)),
    fun h hfit => ?_, fun h hbeyond => run.trans (perform_error hs ((valid h).trans (if_pos hbeyond)))⟩
  have fits := (valid h).trans (if_neg (Nat.not_lt.2 hfit))
  refine ⟨fun hno => run.trans (perform_ok hs (fits.trans (if_pos (by simpa using hno)))), fun hack => ?_⟩
  have acked : ¬ (lost && !isIso r) = true := by
    rcases hack with h | h <;> simp [h]
  have reg : (sent.putEpr true i (txDone r)).eprAt i = txDone r :=
    (putEpr_eprAt (s := sent) hi hn (txDone r) i).trans (if_pos rfl)
  refine ⟨sent.putEpr true i (txDone r), run.trans (perform_ok hs (fits.trans (if_neg acked))), ?_⟩
  rw [reg]
  exact ⟨rfl, dtogTx_txDone r, ctrTx_txDone r, statTx_txDone h, txDone_rest r⟩

/-- Settles O39: the packet is refused, dropped or stored, by the checks of the rule in their order. -/
theorem busOutTransaction : Obligations.BusOut := by
  intro s addr ep i pid bytes hs sel hlen tok r b a stored
  have hi := sel.inside
  have hn := (Config.legal_bounds hs.legal).2.1
  have run := runTurn_selected hs sel (.out (pid := pid) hlen)
  have valid := fun h => busOut_valid (bytes := bytes) hs.legal hi h pid
  refine ⟨fun h => run.trans (perform_ok hs (busOut_stall pid h)),
    fun h => run.trans (perform_ok hs (busOut_nak pid h)),
    fun h hover => run.trans (perform_error hs ((valid h).trans (if_pos hover))), fun h hcap => ?_⟩
  have fits := (valid h).trans (if_neg (Nat.not_lt.2 hcap))
  refine ⟨fun hiso hpid => run.trans (perform_ok hs (fits.trans (if_pos ?_))), fun hmatch hfit => ?_⟩
  · simpa [pidOf] using ⟨hiso, hpid⟩
  · have taken : ¬ (!isIso r && pid != pidOf (dtogRx r)) = true := by
      rcases hmatch with h | h <;> simp [h, pidOf]
    have accepted := fits.trans ((if_neg taken).trans (busReceive_ok hs.legal hi sel.running hfit rxDone _))
    refine ⟨_, run.trans (perform_ok hs accepted), ?_⟩
    rw [accepted_eprAt hi hn]
    exact ⟨rfl, dtogRx_rxDone r, ctrRx_rxDone r, setupBit_rxDone r, statRx_rxDone h, rxDone_rest r⟩

/-- Settles O40: the type is checked first, then the capacity; STAT_RX and DTOG_RX are not read. -/
theorem busSetupTransaction : Obligations.BusSetup := by
  intro s addr ep i bytes hs sel hlen r a
  have hi := sel.inside
  have run := runTurn_selected hs sel (.setup hlen)
  have control := @busSetup_control s i bytes hs.legal hi
  refine ⟨fun h => run.trans (perform_ok hs (busSetup_otherType h)), fun h hover => run.trans (perform_error hs ?_),
    fun h hcap hfit => run.trans (perform_ok hs ?_)⟩
  · exact (control h).trans (if_pos hover)
  · rw [control h, if_neg (Nat.not_lt.2 hcap), busReceive_ok hs.legal hi sel.running hfit, State.accepted, setupDone_eq]

end Sys2Proof.Machine

/-! PROOFS. Interrupt service: the single flags (O30), the bus reset (O31), the completions of one endpoint (O32, O33,
O34), and the loop that drains them (O35). -/

namespace Sys2Proof.Machine

/-! ### The sequencer (46_isr.md rule R380) -/

/-- The word has one bit, of those in which `ISTR` flags and their `CNTR` masks lie (10_state.md rules R46, R47). -/
abbrev IsFlag (f : Half) : Prop := ∃ k < 8, f = BitVec.twoPow 16 (8 + k)

theorem hasBit_twoPow (v : Half) (k : Nat) : hasBit v (BitVec.twoPow 16 k) = v.getLsbD k := by
  rw [hasBit, BitVec.and_twoPow]
  cases hv : v.getLsbD k
  · simp
  · have hk : k < 16 := BitVec.lt_of_getLsbD hv
    have hne : BitVec.twoPow 16 k ≠ 0#16 := fun h => by
      have := congrArg (BitVec.getLsbD · k) h
      simp [hk] at this
    simp [hne]

/-- A flag is set and unmasked where it stands in what is pending, seen through any mask that shows it. -/
theorem hasBit_pending {v c m p f : Half} (hp : v &&& c &&& m = p) (hf : IsFlag f) (hm : hasBit m f = true) :
    (hasBit v f && hasBit c f) = hasBit p f := by
  obtain ⟨k, -, rfl⟩ := hf
  rw [hasBit_twoPow] at hm
  subst hp
  simp only [hasBit_twoPow, BitVec.getLsbD_and, hm, Bool.and_true]

theorem unmasked_quiet {s : State} (hb : s.busTape = []) (v f : Half) :
    unmasked v f s = .ok (hasBit v f && hasBit s.cntr f) s := by
  rw [unmasked]
  cases hasBit v f
  · rfl
  · exact bind_eq (readCntr_quiet hb) rfl

theorem serviceFlag_quiet {s : State} (hb : s.busTape = []) (v f : Half) (branch : Op Unit) :
    serviceFlag v f branch s = if hasBit v f && hasBit s.cntr f then branch s else .ok () s :=
  bind_eq (unmasked_quiet hb v f) (onlyIf_run _ _ _)

section
variable {s : State} (hb : s.busTape = []) {v m p f : Half} (hp : v &&& s.cntr &&& m = p)
include hb hp

theorem unmasked_pending (hf : IsFlag f) (hm : hasBit m f = true) : unmasked v f s = .ok (hasBit p f) s := by
  rw [unmasked_quiet hb, hasBit_pending hp hf hm]

theorem serviceFlag_pending (hf : IsFlag f) (hm : hasBit m f = true) (hpf : hasBit p f = true) (branch : Op Unit) :
    serviceFlag v f branch s = branch s := by
  rw [serviceFlag_quiet hb, hasBit_pending hp hf hm, if_pos hpf]

theorem serviceFlag_idle (hf : IsFlag f) (hm : hasBit m f = true) (hpf : hasBit p f = false) (branch : Op Unit) :
    serviceFlag v f branch s = .ok () s := by
  rw [serviceFlag_quiet hb, hasBit_pending hp hf hm, hpf]
  rfl

end

theorem hasBit_flagCtr (v : Half) : hasBit v flagCtr = istrCtr v := hasBit_twoPow v 15

/-- With no CTR reported the loop ends at its first test. -/
theorem ctrLoop_drained {s : State} (hb : s.busTape = []) (h : istrCtr s.istr = false) (fuel : Nat) :
    ctrLoop fuel s = .ok () s := by
  cases fuel with
  | zero => rfl
  | succ fuel => exact bind_eq (readIstr_quiet hb) (by rw [h]; rfl)

theorem serviceCtr_quiet {s : State} (hb : s.busTape = []) :
    serviceCtr s = if hasBit s.cntr flagCtr then ctrLoop (ctrFuel s) s else .ok () s :=
  bind_eq (readCntr_quiet hb) (bind_eq (peek_run _ _) (onlyIf_run _ _ _))

theorem serviceCtr_idle {s : State} (hb : s.busTape = []) (h : (hasBit s.istr flagCtr && hasBit s.cntr flagCtr) = false) :
    serviceCtr s = .ok () s := by
  rw [serviceCtr_quiet hb]
  cases hc : hasBit s.cntr flagCtr
  · rfl
  · rw [hc, Bool.and_true, hasBit_flagCtr] at h
    exact ctrLoop_drained hb h _

/-- What follows the CTR part, for the snapshot `v`. -/
def serviceRest (v : Half) : Op Unit := do
  serviceFlag v flagWkup wkupBranch
  serviceFlag v flagSusp suspBranch
  serviceFlag v flagEsof esofBranch

/-- What follows the SOF part, for the snapshot `v`. -/
def afterSof (v : Half) : Op Unit := do
  let reset ← unmasked v flagReset
  if reset then resetBranch else do serviceCtr; serviceRest v

theorem isrOp_quiet {s : State} (hb : s.busTape = []) :
    isrOp s = (do serviceFlag s.istr flagSof sofBranch; afterSof s.istr : Op Unit) s :=
  bind_eq (readIstr_quiet hb) rfl

theorem afterSof_noReset {s : State} (hb : s.busTape = []) {v : Half}
    (h : (hasBit v flagReset && hasBit s.cntr flagReset) = false) :
    afterSof v s = (do serviceCtr; serviceRest v : Op Unit) s :=
  bind_eq (unmasked_quiet hb _ _) (by rw [h]; rfl)

/-! ### One flag (rules R381, R386, R387, R390) -/

/-- A post, and then nothing more to do. -/
theorem bind_post {x : Op Unit} {rest : Unit → Op Unit} {s t : State} {ev : Event} (h : x s = post ev t)
    (hrest : rest () (t.posted ev) = .ok () (t.posted ev)) : (x >>= rest) s = post ev t := by
  by_cases hq : t.Room
  · rw [post_ok hq] at h ⊢
    exact bind_eq h hrest
  · rw [post_full hq] at h ⊢
    exact bind_eq_error h _

/-- A flag is cleared alone (10_state.md rule R47). -/
theorem clearFlag_running {s : State} (hb : s.busTape = []) (hr : s.Running) {f m : Half}
    (hm : ~~~f ||| 0x80FF#16 = m) : clearFlag f s = .ok () { s with istr := s.istr &&& m } := by
  have hf : s.fres = false := hr
  rw [clearFlag_quiet hb, State.writeIstr, hf, istrWrite, hm]
  rfl

/-- Replacing bits of `CNTR` other than FRES and the reserved ones keeps the peripheral running and its registers in
order. -/
theorem cntr_replaced {s : State} (hr : s.Running) (hreg : s.RegistersOk) {mask : Half} (hf : mask &&& cntrFres = 0#16)
    (hm : mask &&& 0x00E0#16 = 0#16) (v : Half) :
    State.Running { s with cntr := putBits mask s.cntr v }
      ∧ State.RegistersOk { s with cntr := putBits mask s.cntr v } := by
  have keeps : ∀ k : Half, mask &&& k = 0#16 → putBits mask s.cntr v &&& k = s.cntr &&& k :=
    fun k hk => putBits_and_of_disjoint hk _ _
  obtain ⟨habsent, hcntr, histr, hdaddr, hbtable⟩ := hreg
  refine ⟨?_, habsent, (keeps _ hm).trans hcntr, histr, hdaddr, hbtable⟩
  have held : hasBit s.cntr cntrFres = false := hr
  change hasBit (putBits mask s.cntr v) cntrFres = false
  rwa [hasBit, keeps _ hf]

section
variable {s : State} (hb : s.busTape = []) (hr : s.Running)
include hb hr

theorem sofBranch_running : sofBranch s
    = post (.sof (s.fnr.setWidth 11)) { s with istr := s.istr &&& 0xFDFF#16 } :=
  bind_eq (clearFlag_running hb hr rfl) (bind_eq (readReg_quiet (by exact hb) _) rfl)

variable (hreg : s.RegistersOk)
include hreg

/-- Two replacements of `CNTR` bits before what follows are one. -/
theorem updateCntr_twice {m v m' v' : Half} {next : Op Unit} (hf : m &&& cntrFres = 0#16) (hm : m &&& 0x00E0#16 = 0#16)
    (hf' : m' &&& cntrFres = 0#16) (hm' : m' &&& 0x00E0#16 = 0#16) :
    (do updateCntr m v; updateCntr m' v'; next : Op Unit) s
      = next { s with cntr := putBits (m ||| m') s.cntr (putBits m' v v') } := by
  obtain ⟨hr', hreg'⟩ := cntr_replaced hr hreg hf hm v
  refine bind_eq (updateCntr_running hb hr hreg hf hm) (bind_eq (updateCntr_running (by exact hb) hr' hreg' hf' hm') ?_)
  rw [putBits_putBits]

theorem wkupBranch_running : wkupBranch s
    = post .resume { s with cntr := s.cntr &&& 0xFFF3#16, istr := s.istr &&& 0xEFFF#16 } := by
  have cleared : putBits (cntrLpMode ||| cntrFsusp) s.cntr (putBits cntrFsusp 0 0) = s.cntr &&& 0xFFF3#16 :=
    putBits_zero 0x000C _
  refine (updateCntr_twice hb hr hreg rfl rfl rfl rfl).trans (bind_eq (clearFlag_running (by exact hb) ?_ rfl) ?_)
  · exact (cntr_replaced hr hreg rfl rfl _).1
  · rw [cleared]
    rfl

theorem suspBranch_running : suspBranch s
    = post .suspend { s with cntr := s.cntr ||| 0x000C#16, istr := s.istr &&& 0xF7FF#16 } := by
  have set : putBits (cntrFsusp ||| cntrLpMode) s.cntr (putBits cntrLpMode cntrFsusp cntrLpMode) = s.cntr ||| 0x000C#16 :=
    putBits_ones 0x000C _
  refine (updateCntr_twice hb hr hreg rfl rfl rfl rfl).trans (bind_eq (clearFlag_running (by exact hb) ?_ rfl) ?_)
  · exact (cntr_replaced hr hreg rfl rfl _).1
  · rw [set]
    rfl

/-- The first part of the ESOF branch: the end of a resume pulse. -/
theorem resume_ended : onlyIf (s.remoteWakeCd == 1#8) (updateCntr cntrResume 0) s
    = .ok () { s with cntr := if s.remoteWakeCd = 1 then s.cntr &&& 0xFFEF#16 else s.cntr } := by
  rw [onlyIf_run]
  by_cases h : s.remoteWakeCd = 1
  · rw [if_pos (by simp [h]), if_pos h, updateCntr_running hb hr hreg rfl rfl, putBits_zero]
    rfl
  · rw [if_neg (by simpa using h), if_neg h]

theorem esofBranch_running : esofBranch s = .ok () { s with
    cntr := if s.remoteWakeCd = 1 then s.cntr &&& 0xFFEF#16 else s.cntr
    remoteWakeCd := if s.remoteWakeCd = 0 then 0 else s.remoteWakeCd - 1
    istr := s.istr &&& 0xFEFF#16 } := by
  refine bind_eq (peek_run _ _) (bind_eq (resume_ended hb hr hreg) ?_)
  refine bind_eq (t := { s with
    cntr := if s.remoteWakeCd = 1 then s.cntr &&& 0xFFEF#16 else s.cntr
    remoteWakeCd := if s.remoteWakeCd = 0 then 0 else s.remoteWakeCd - 1 }) (a := ()) ?_ ?_
  · rw [onlyIf_run]
    by_cases h : s.remoteWakeCd = 0
    · rw [if_neg (by simp [h]), if_pos h, ← h]
    · rw [if_pos (by simpa using h), if_neg h, change_run]
  · refine clearFlag_running (by exact hb) ?_ rfl
    split
    · exact (putBits_zero cntrResume s.cntr) ▸ (cntr_replaced hr hreg (mask := cntrResume) rfl rfl 0).1
    · exact hr

end

section
variable {s : State} (hb : s.busTape = []) {p : Half}
include hb

theorem serviceRest_idle {v : Half} (hp : v &&& s.cntr &&& 0xFF00#16 = p) (hwkup : hasBit p flagWkup = false)
    (hsusp : hasBit p flagSusp = false) (hesof : hasBit p flagEsof = false) : serviceRest v s = .ok () s :=
  bind_eq (serviceFlag_idle hb hp (by decide) rfl hwkup _) <|
    bind_eq (serviceFlag_idle hb hp (by decide) rfl hsusp _) <| serviceFlag_idle hb hp (by decide) rfl hesof _

/-- With neither RESET nor CTR pending and unmasked the last flags are serviced on the state as it is. -/
theorem afterSof_rest {v : Half} (hp : v &&& s.cntr &&& 0xFF00#16 = p) (hreset : hasBit p flagReset = false)
    (hctr : (hasBit s.istr flagCtr && hasBit s.cntr flagCtr) = false) : afterSof v s = serviceRest v s := by
  refine (afterSof_noReset hb ?_).trans (bind_eq (serviceCtr_idle hb hctr) rfl)
  rw [hasBit_pending hp (by decide) rfl, hreset]

theorem isrOp_rest (hp : s.istr &&& s.cntr &&& 0xFF00#16 = p) (hsof : hasBit p flagSof = false)
    (hreset : hasBit p flagReset = false) (hctr : hasBit p flagCtr = false) : isrOp s = serviceRest s.istr s :=
  (isrOp_quiet hb).trans <| bind_eq (serviceFlag_idle hb hp (by decide) rfl hsof _) <|
    afterSof_rest hb hp hreset ((hasBit_pending hp (by decide) rfl).trans hctr)

end

/-- What is pending depends on the mask bits of `CNTR` only. -/
theorem pending_congr {v c c' p : Half} (hc : c' &&& 0xFF00#16 = c &&& 0xFF00#16) (hp : v &&& c &&& 0xFF00#16 = p) :
    v &&& c' &&& 0xFF00#16 = p := by
  rw [← hp, BitVec.and_assoc, BitVec.and_assoc, hc]

section
variable {s : State} (hb : s.busTape = []) (hr : s.Running)
include hb hr

theorem isrOp_sof (hp : s.istr &&& s.cntr &&& 0xFF00#16 = flagSof) : isrOp s
    = post (.sof (s.fnr.setWidth 11)) { s with istr := s.istr &&& 0xFDFF#16 } := by
  have kept : hasBit (s.istr &&& 0xFDFF#16) flagCtr = hasBit s.istr flagCtr := by
    rw [hasBit, and_mask]
    rfl
  have idle : (hasBit (s.istr &&& 0xFDFF#16) flagCtr && hasBit s.cntr flagCtr) = false :=
    (congrArg (· && _) kept).trans (hasBit_pending hp (by decide) rfl)
  refine (isrOp_quiet hb).trans (bind_post ((serviceFlag_pending hb hp (by decide) rfl rfl _).trans
    (sofBranch_running hb hr)) ?_)
  exact (afterSof_rest (by exact hb) (by exact hp) rfl idle).trans
    (serviceRest_idle (by exact hb) (by exact hp) rfl rfl rfl)

variable (hreg : s.RegistersOk)
include hreg

theorem isrOp_wkup (hp : s.istr &&& s.cntr &&& 0xFF00#16 = flagWkup) : isrOp s
    = post .resume { s with cntr := s.cntr &&& 0xFFF3#16, istr := s.istr &&& 0xEFFF#16 } := by
  have hp' := pending_congr (show s.cntr &&& 0xFFF3#16 &&& 0xFF00#16 = _ from and_mask _ _ _) hp
  refine (isrOp_rest hb hp rfl rfl rfl).trans (bind_post ((serviceFlag_pending hb hp (by decide) rfl rfl _).trans
    (wkupBranch_running hb hr hreg)) ?_)
  exact bind_eq (serviceFlag_idle (by exact hb) hp' (by decide) rfl rfl _)
    (serviceFlag_idle (by exact hb) hp' (by decide) rfl rfl _)

theorem isrOp_susp (hp : s.istr &&& s.cntr &&& 0xFF00#16 = flagSusp) : isrOp s
    = post .suspend { s with cntr := s.cntr ||| 0x000C#16, istr := s.istr &&& 0xF7FF#16 } := by
  have hp' := pending_congr (show (s.cntr ||| 0x000C#16) &&& 0xFF00#16 = s.cntr &&& 0xFF00#16 by
    rw [BitVec.and_or_distrib_right]; exact BitVec.or_zero) hp
  refine (isrOp_rest hb hp rfl rfl rfl).trans (bind_eq (serviceFlag_idle hb hp (by decide) rfl rfl _) ?_)
  exact bind_post ((serviceFlag_pending hb hp (by decide) rfl rfl _).trans (suspBranch_running hb hr hreg))
    (serviceFlag_idle (by exact hb) hp' (by decide) rfl rfl _)

theorem isrOp_esof (hp : s.istr &&& s.cntr &&& 0xFF00#16 = flagEsof) : isrOp s = .ok () { s with
    cntr := if s.remoteWakeCd = 1 then s.cntr &&& 0xFFEF#16 else s.cntr
    remoteWakeCd := if s.remoteWakeCd = 0 then 0 else s.remoteWakeCd - 1
    istr := s.istr &&& 0xFEFF#16 } :=
  (isrOp_rest hb hp rfl rfl rfl).trans <| bind_eq (serviceFlag_idle hb hp (by decide) rfl rfl _) <|
    bind_eq (serviceFlag_idle hb hp (by decide) rfl rfl _) <|
      (serviceFlag_pending hb hp (by decide) rfl rfl _).trans (esofBranch_running hb hr hreg)

end

section
variable {s t : State} (hs : s.Ready) {ev : Event} (h : isrOp s = post ev t)
include hs h

theorem isrService_posted (hq : t.Room) : exec .isrService s = .next (t.posted ev) :=
  perform_ok hs (h.trans (post_ok hq))

theorem isrService_overflow (hq : ¬ t.Room) : exec .isrService s = .next (takeFault (.evqOverflow ev.kind) t) :=
  perform_error hs (h.trans (post_full hq))

end

/-- Settles O30: the one branch whose flag is pending and unmasked is run, and every other part of the sequence is
idle. -/
theorem isrOneFlag : Obligations.IsrOneFlag := by
  intro s hs hb hr hreg p
  refine ⟨fun hp => ?_, fun hp hq => ?_, fun hp hq => ?_, fun hp hq => ?_, fun hp hq => ?_, fun hp hq => ?_,
    fun hp hq => ?_, fun hp => ?_⟩
  · exact perform_ok hs ((isrOp_rest hb hp rfl rfl rfl).trans (serviceRest_idle hb hp rfl rfl rfl))
  · exact isrService_posted hs (isrOp_sof hb hr hp) hq
  · exact isrService_overflow hs (isrOp_sof hb hr hp) hq
  · exact isrService_posted hs (isrOp_wkup hb hr hreg hp) hq
  · exact isrService_overflow hs (isrOp_wkup hb hr hreg hp) hq
  · exact isrService_overflow hs (isrOp_susp hb hr hreg hp) hq
  · exact isrService_posted hs (isrOp_susp hb hr hreg hp) hq
  · exact perform_ok hs (isrOp_esof hb hr hreg hp)

/-! ### The bus reset (rule R383) -/

section
variable {s : State} (hl : s.cfg.legal = true)
include hl

theorem ep0Reopened_eprAt (i : Nat) :
    s.ep0Reopened.eprAt i = if i = 0 then putBits 0x777F (s.eprAt 0) 0x2220 else s.eprAt i := by
  obtain ⟨h1, h8, -⟩ := Config.legal_bounds hl
  exact putEpr_eprAt (by exact h1) (by exact h8) _ i

end

theorem ep0Reopened_slotAt (s : State) (i : Nat) :
    s.ep0Reopened.slotAt i = if i = 0 then ⟨0, 0, true, true⟩ else Slot.free := by
  have slots : s.ep0Reopened.slotAt i = (s.slotsFreed.putSlot 0 ⟨0, 0, true, true⟩).slotAt i := rfl
  rw [slots, putSlot_slotAt, slotsFreed_slotAt]
  simp

/-- Settles O31: RESET is serviced before the CTR part, on the state with its flag cleared, and ends the sequence. -/
theorem isrResetBranch : Obligations.IsrResetBranch := by
  intro s hs hb hr hw hq hp
  have hl := hs.legal
  have run : isrOp s = post .busReset (State.ep0Reopened { s with istr := s.istr &&& 0xFBFF#16 }) := by
    refine (isrOp_quiet hb).trans (bind_eq (serviceFlag_idle hb hp (by decide) rfl rfl _) ?_)
    refine bind_eq (unmasked_pending hb hp (by decide) rfl) ?_
    exact bind_eq (clearFlag_running hb hr rfl) (bind_eq (busResetHandler_quiet (by exact hl) (by exact hb) hw hr) rfl)
  have epr := ep0Reopened_eprAt (s := { s with istr := s.istr &&& 0xFBFF#16 }) hl
  have slots := ep0Reopened_slotAt { s with istr := s.istr &&& 0xFBFF#16 }
  obtain ⟨-, -, -, -, outside⟩ := ep0Reopened_btable (s := { s with istr := s.istr &&& 0xFBFF#16 }) hw
  refine ⟨_, isrService_posted hs run hq, rfl, rfl, slots 0, fun i hi => (slots i).trans (if_neg hi), rfl, ?_,
    fun i hi => (epr i).trans (if_neg hi), outside⟩
  refine (congrArg (· &&& 0x7F7F#16) (epr 0)).trans ?_
  simp only [putBits, if_true, BitVec.and_or_distrib_right, and_mask]
  rfl

/-! ### The CTR part with one completion pending (rule R384) -/

/-- Replacing other bits keeps both CTR bits. -/
theorem ctr_putBits {mask : Half} (hm : mask &&& 0x8080#16 = 0#16) (r v : Half) :
    ctrRx (putBits mask r v) = ctrRx r ∧ ctrTx (putBits mask r v) = ctrTx r := by
  have seen : ∀ w : Half, ctrRx w = ctrRx (w &&& 0x8080#16) ∧ ctrTx w = ctrTx (w &&& 0x8080#16) :=
    fun w => by simp [ctrRx, ctrTx]
  obtain ⟨hrx, htx⟩ := seen (putBits mask r v)
  rw [hrx, htx, putBits_and_of_disjoint hm, ← (seen r).1, ← (seen r).2]
  exact ⟨rfl, rfl⟩

/-- What is left of the CTR bits of `s` in `t`, whose next access no BUS step precedes and whose masks are those of `s`:
at most the reception of register `i`, and that where `rx` holds. -/
structure State.CtrLeft (s : State) (i : Nat) (rx : Bool) (t : State) : Prop where
  tape   : t.busTape = []
  cntr   : t.cntr = s.cntr
  cfg    : t.cfg = s.cfg
  others : ∀ j, j < s.cfg.nEp → j ≠ i → ctrRx (t.eprAt j) = false ∧ ctrTx (t.eprAt j) = false
  here   : ctrRx (t.eprAt i) = rx ∧ ctrTx (t.eprAt i) = false
  report : rx = false → t.IstrOk

section
variable {s t u : State} {i j : Nat} {rx rx' : Bool}

theorem State.CtrLeft.same (h : s.CtrLeft i rx t) (hb : u.busTape = t.busTape) (hn : u.cntr = t.cntr)
    (hc : u.cfg = t.cfg) (he : u.epr = t.epr) (hi : u.istr = t.istr) : s.CtrLeft i rx u := by
  obtain ⟨tape, cntr, cfg, others, here, report⟩ := h
  have epr : ∀ j, u.eprAt j = t.eprAt j := fun j => by rw [State.eprAt, he]; rfl
  refine ⟨hb.trans tape, hn.trans cntr, hc.trans cfg, fun j hj hji => ?_, ?_, fun hrx => ?_⟩
  · rw [epr]
    exact others j hj hji
  · rwa [epr]
  · exact (report hrx).of_report hc he (congrArg reportOf hi)

/-- A write to register `i`, after which what is left is read off the value written. -/
theorem ctrLeft_putEpr (hl : s.cfg.legal = true) (hi : i < s.cfg.nEp) (tape : t.busTape = []) (cntr : t.cntr = s.cntr)
    (cfg : t.cfg = s.cfg) (others : ∀ j, j < s.cfg.nEp → j ≠ i → ctrRx (t.eprAt j) = false ∧ ctrTx (t.eprAt j) = false)
    {v : Half} (hv : ctrRx v = rx ∧ ctrTx v = false) : s.CtrLeft i rx (t.putEpr true i v) := by
  have hn := (Config.legal_bounds hl).2.1
  have written := putEpr_eprAt (s := t) (i := i) (by rwa [cfg]) (by rwa [cfg]) v
  refine ⟨tape, cntr, cfg, fun j hj hji => ?_, ?_, fun _ => (putEpr_onlyEpr (by rwa [cfg]) (by rwa [cfg]) v).report⟩
  · rw [written, if_neg hji]
    exact others j hj hji
  · rwa [written, if_pos rfl]

theorem State.CtrLeft.putEpr (h : s.CtrLeft i rx t) (hl : s.cfg.legal = true) (hi : i < s.cfg.nEp) {v : Half}
    (hv : ctrRx v = rx' ∧ ctrTx v = false) : s.CtrLeft i rx' (t.putEpr true i v) :=
  ctrLeft_putEpr hl hi h.tape h.cntr h.cfg h.others hv

theorem State.CtrLeft.running (h : s.CtrLeft i rx t) (hr : s.Running) : t.Running :=
  (congrArg (hasBit · cntrFres) h.cntr).trans hr

/-- Where nothing is left, no register has a CTR bit. -/
theorem State.CtrLeft.none (h : s.CtrLeft i false t) (j : Nat) (hj : j < s.cfg.nEp) :
    ctrRx (t.eprAt j) = false ∧ ctrTx (t.eprAt j) = false := by
  by_cases hji : j = i
  · exact hji ▸ h.here
  · exact h.others j hj hji

/-- `ISTR` reports no completion where no register has a CTR bit (10_state.md rule R48). -/
theorem istrCtr_of_none (hn : t.cfg.nEp ≤ 8) (report : t.IstrOk)
    (h : ∀ j, j < t.cfg.nEp → ctrRx (t.eprAt j) = false ∧ ctrTx (t.eprAt j) = false) : istrCtr t.istr = false := by
  have first : firstCtr t.cfg.nEp t.epr = none := (firstCtr_none hn).2 h
  rwa [State.IstrOk, first] at report

end

section
variable {s t : State} {i j : Nat} {rx : Bool} (hs : s.Ready) (hb : s.busTape = []) (h : s.OnlyCtr i rx)
include hb h

/-- With one completion pending the sequence comes to its path first. -/
theorem isrOp_onlyCtr : isrOp s = (do ctrPath rx i; ctrLoop 23; serviceRest s.istr : Op Unit) s := by
  have hp := h.pending
  obtain ⟨reported, unmasked⟩ : hasBit s.istr flagCtr = true ∧ hasBit s.cntr flagCtr = true := by
    rw [← Bool.and_eq_true]
    exact hasBit_pending hp (by decide) rfl
  rw [hasBit_flagCtr] at reported
  have fuel : ctrFuel s = 23 + 1 := by rw [ctrFuel, hb]; rfl
  have loop : serviceCtr s = (do ctrPath rx i; ctrLoop 23 : Op Unit) s := by
    rw [serviceCtr_quiet hb, if_pos unmasked, fuel]
    refine bind_eq (readIstr_quiet hb) ?_
    rw [if_pos reported]
    refine bind_eq (readIstr_quiet hb) (bind_eq (readIstr_quiet hb) ?_)
    rw [h.id, h.dir]
  refine (isrOp_quiet hb).trans (bind_eq (serviceFlag_idle hb hp (by decide) rfl rfl _) ?_)
  refine (afterSof_noReset hb (hasBit_pending hp (by decide) rfl)).trans ?_
  rw [bind_run, loop, bind_run, bind_run]
  cases ctrPath rx i s <;> simp only [bind_run]

include hs

theorem isrService_completes (run : ctrPath rx i s = .ok () t) (left : s.CtrLeft j false t) :
    exec .isrService s = .next t := by
  have hn := (Config.legal_bounds hs.legal).2.1
  have hd : istrCtr t.istr = false :=
    istrCtr_of_none (by rwa [left.cfg]) (left.report rfl) fun j hj => left.none j (by rwa [← left.cfg])
  refine perform_ok hs ((isrOp_onlyCtr hb h).trans (bind_eq run (bind_eq (ctrLoop_drained left.tape hd _) ?_)))
  exact serviceRest_idle left.tape ((congrArg (s.istr &&& · &&& 0xFF00#16) left.cntr).trans h.pending) rfl rfl rfl

theorem isrService_faults {f : Fault} (run : ctrPath rx i s = .error f t) :
    exec .isrService s = .next (takeFault f t) :=
  perform_error hs ((isrOp_onlyCtr hb h).trans (bind_eq_error run _))

end

/-! ### The transmit completion (rule R395) -/

theorem clrCtrTx_mask (r : Half) : putBits (MuxSel.mask { clrCtrTx := true }) r (MuxSel.value { clrCtrTx := true })
    = r &&& 0xFF7F#16 := by simp [MuxSel.mask, MuxSel.value, placed, putBits]

/-- The state once CTR_TX of register `i` is cleared. -/
def State.txAcked (s : State) (i : Nat) : State := s.putEpr true i (s.eprAt i &&& 0xFF7F#16)

/-- The state in which the next packet is sent or the completion posted: an ISO endpoint's flag and count are cleared. -/
def State.txEmptied (s : State) (i : Nat) : State :=
  if isIso (s.eprAt i) then
    ((s.txAcked i).updCtx (eaField (s.eprAt i)) .inn fun x => { x with isoInSending := false }).countStored i
      (!dtogTx (s.eprAt i)) 0
  else s.txAcked i

theorem txEmptied_wf {s : State} (hw : Memory.wf s.pma) (i : Nat) : Memory.wf (s.txEmptied i).pma := by
  unfold State.txEmptied
  split
  · exact countStored_wf hw _ _ _
  · exact hw

theorem txEmptied_room {s : State} (hq : s.Room) (i : Nat) : (s.txEmptied i).Room := by
  unfold State.txEmptied
  split <;> exact hq

section
variable {s : State} {i : Nat} (hl : s.cfg.legal = true) (hb : s.busTape = []) (hr : s.Running) (hi : i < s.cfg.nEp)
include hl hb hr hi

/-- The path up to its test of the type, which is made on the register read after the clearing. -/
theorem txPath_acked : txPath i s = (do
    let x ← peek (·.ctx (eaField (s.eprAt i)) .inn)
    if isIso (s.eprAt i) then
      if x.isoInSending then do
        change (·.updCtx (eaField (s.eprAt i)) .inn fun x => { x with isoInSending := false })
        btSetCountOp i (!dtogTx (s.eprAt i)) 0
        txNext (eaField (s.eprAt i)) x
      else pure ()
    else txNext (eaField (s.eprAt i)) x : Op Unit) (s.txAcked i) := by
  have hn := (Config.legal_bounds hl).2.1
  have acked : (s.txAcked i).eprAt i = s.eprAt i &&& 0xFF7F#16 := by rw [State.txAcked, putEpr_eprAt hi hn, if_pos rfl]
  have keptEa : eaField (s.eprAt i &&& 0xFF7F#16) = eaField (s.eprAt i) := by
    simp [eaField, BitVec.extractLsb'_and, and_ones_four]
  have keptIso : isIso (s.eprAt i &&& 0xFF7F#16) = isIso (s.eprAt i) := by
    simp [isIso, epType, BitVec.extractLsb'_and, and_ones_two]
  have keptDtog : dtogTx (s.eprAt i &&& 0xFF7F#16) = dtogTx (s.eprAt i) := by simp [dtogTx]
  refine bind_eq (t := s.txAcked i) (by rw [rmwEpr_running hb hr hi, clrCtrTx_mask]; rfl) ?_
  refine bind_eq (readEpr_quiet (by exact hb) (by exact hi)) ?_
  rw [acked, keptEa, keptIso, keptDtog]
  rfl

theorem txPath_ignored (hiso : isIso (s.eprAt i) = true)
    (hsend : (s.ctx (eaField (s.eprAt i)) .inn).isoInSending = false) : txPath i s = .ok () (s.txAcked i) := by
  have ctx : (s.txAcked i).ctx (eaField (s.eprAt i)) .inn = s.ctx (eaField (s.eprAt i)) .inn := rfl
  refine (txPath_acked hl hb hr hi).trans (bind_eq (peek_run _ _) ?_)
  rw [if_pos hiso, ctx, hsend]
  rfl

theorem txPath_next (hw : Memory.wf s.pma)
    (h : isIso (s.eprAt i) = false ∨ (s.ctx (eaField (s.eprAt i)) .inn).isoInSending = true) :
    txPath i s = txNext (eaField (s.eprAt i)) (s.ctx (eaField (s.eprAt i)) .inn) (s.txEmptied i) := by
  have ctx : (s.txAcked i).ctx (eaField (s.eprAt i)) .inn = s.ctx (eaField (s.eprAt i)) .inn := rfl
  refine (txPath_acked hl hb hr hi).trans (bind_eq (peek_run _ _) ?_)
  cases hiso : isIso (s.eprAt i)
  · rw [State.txEmptied, hiso]
    rfl
  · rw [if_pos rfl, ctx, h.resolve_left (by simp [hiso]), State.txEmptied, hiso]
    exact bind_eq (change_run _ _)
      (bind_eq (btSetCountOp_quiet (by exact hl) (by exact hb) (by exact hw) (by exact hi) _ _) rfl)

end

section
variable {s : State} {i : Nat} {rx : Bool} (hl : s.cfg.legal = true) (hb : s.busTape = []) (h : s.OnlyCtr i rx)
include hl hb h

theorem txAcked_left (htx : rx = false) : s.CtrLeft i false (s.txAcked i) := by
  obtain ⟨hrx, -⟩ := h.here
  refine ctrLeft_putEpr hl h.inside hb rfl rfl h.others ⟨?_, by simp [ctrTx]⟩
  rw [htx] at hrx
  rw [← hrx]
  simp [ctrRx]

theorem txEmptied_left (htx : rx = false) : s.CtrLeft i false (s.txEmptied i) := by
  have acked := txAcked_left hl hb h htx
  rw [State.txEmptied]
  split
  · exact acked.same rfl rfl rfl rfl rfl
  · exact acked

end

@[simp] theorem packetTaken_cntr (s : State) (x : XferCtx) : (s.packetTaken x).cntr = s.cntr := by
  unfold State.packetTaken; split <;> rfl

/-- Sending a packet leaves every CTR bit and mask as it was. -/
theorem sent_left {s t : State} {i : Nat} (hl : s.cfg.legal = true) (h : s.CtrLeft i false t) {n : BitVec 4}
    (hlt : (t.ctx n .inn).epIdx.toNat < s.cfg.nEp) : s.CtrLeft (t.ctx n .inn).epIdx.toNat false (t.sent n) := by
  obtain ⟨hrx, htx⟩ := h.none _ hlt
  have epr : ∀ j, (t.packetSent n (t.ctx n .inn) (t.ctx n .inn).epIdx.toNat).eprAt j = t.eprAt j :=
    packetTaken_eprAt t _
  rw [sent_eq rfl rfl]
  refine ctrLeft_putEpr hl hlt ?_ ?_ ?_ (fun j hj _ => ?_) ?_
  · exact (packetTaken_busTape t _).trans h.tape
  · exact (packetTaken_cntr t _).trans h.cntr
  · exact (packetTaken_cfg t _).trans h.cfg
  · rw [epr]
    exact h.none j hj
  · exact (ctr_putBits rfl _ _).imp (·.trans hrx) (·.trans htx)

theorem txNext_more {s : State} (hl : s.cfg.legal = true) (hb : s.busTape = []) (hw : Memory.wf s.pma)
    (hr : s.Running) {n : BitVec 4} {x : XferCtx} (hmore : x.queuedLen.toNat < x.totalLen.toNat) (h : s.CanSend n) :
    txNext n x s = .ok () (s.sent n) := by
  rw [txNext, if_pos hmore]
  exact transmitPacket_quiet hl hb hw hr h

theorem txNext_done {s : State} {n : BitVec 4} {x : XferCtx} (hdone : x.totalLen.toNat ≤ x.queuedLen.toNat)
    (hq : s.Room) : txNext n x s
      = .ok () (s.posted (.xferComplete (n.setWidth 8 ||| 0x80#8) (x.queuedLen.setWidth 32))) := by
  rw [txNext, if_neg (Nat.not_lt.2 hdone)]
  exact post_ok hq

/-- Settles O32: the path acknowledges the transmission, and what it does then leaves no completion for the loop. -/
theorem isrTxCompletion : Obligations.IsrTxCompletion := by
  intro s i hs hb hr hw h r n x s1 s2
  have hl := hs.legal
  have hi := h.inside
  have left : s.CtrLeft i false s2 := txEmptied_left hl hb h rfl
  refine ⟨fun hiso hsend => ?_, fun hon hmore hcan => ?_, fun hon hdone hq => ?_⟩
  · exact isrService_completes hs hb h (txPath_ignored hl hb hr hi hiso hsend) (txAcked_left hl hb h rfl)
  · have more := txNext_more (left.cfg ▸ hl) left.tape (txEmptied_wf hw i) (left.running hr) hmore hcan
    exact isrService_completes hs hb h ((txPath_next hl hb hr hi hw hon).trans more)
      (sent_left hl left (left.cfg ▸ hcan.inside))
  · exact isrService_completes hs hb h
      ((txPath_next hl hb hr hi hw hon).trans (txNext_done hdone (txEmptied_room hq i))) (left.same rfl rfl rfl rfl rfl)

/-! ### The receive completion (rules R397, R400) -/

theorem clrCtrRx_mask (r : Half) : putBits (MuxSel.mask { clrCtrRx := true }) r (MuxSel.value { clrCtrRx := true })
    = r &&& 0x7FFF#16 := by simp [MuxSel.mask, MuxSel.value, placed, putBits]

theorem rmwEpr_clrCtrRx {s : State} (hb : s.busTape = []) (hr : s.Running) {i : Nat} (hi : i < s.cfg.nEp) :
    rmwEpr i { clrCtrRx := true } s = .ok () (s.putEpr true i (s.eprAt i &&& 0x7FFF#16)) := by
  rw [rmwEpr_running hb hr hi, clrCtrRx_mask]

/-- The path, past the wait of rule R399, branches on SETUP. -/
theorem rxPath_quiet {s : State} (hb : s.busTape = []) {i : Nat} (hi : i < s.cfg.nEp) :
    rxPath i s = (if setupBit (s.eprAt i) then setupPath i else rxData i (s.eprAt i) : Op Unit) s := by
  have wait : onlyIf s.cfg.errataRxDelay busWindow s = .ok () s := by
    rw [onlyIf_run, busWindow_quiet hb]
    split <;> rfl
  exact bind_eq (peek_run _ _) (bind_eq wait (bind_eq (readEpr_quiet hb hi) rfl))

/-- The state in which the packet is stored: CTR_RX of register `i` cleared, but for endpoint 0. -/
def State.rxAcked (s : State) (i : Nat) : State :=
  if i = 0 then s else s.putEpr true i (s.eprAt i &&& 0x7FFF#16)

theorem rxAcked_rest (s : State) (i : Nat) : ∃ e v, s.rxAcked i = { s with epr := e, istr := v } := by
  unfold State.rxAcked
  split
  · exact ⟨s.epr, s.istr, rfl⟩
  · exact ⟨_, _, rfl⟩

section
variable (s : State) (x : XferCtx) (a len : Nat)

@[simp] theorem received_cfg : (s.received x a len).cfg = s.cfg := by unfold State.received; split <;> rfl

@[simp] theorem received_busTape : (s.received x a len).busTape = s.busTape := by unfold State.received; split <;> rfl

@[simp] theorem received_cntr : (s.received x a len).cntr = s.cntr := by unfold State.received; split <;> rfl

@[simp] theorem received_epr : (s.received x a len).epr = s.epr := by unfold State.received; split <;> rfl

@[simp] theorem received_istr : (s.received x a len).istr = s.istr := by unfold State.received; split <;> rfl

@[simp] theorem received_pma : (s.received x a len).pma = s.pma := by unfold State.received; split <;> rfl

@[simp] theorem received_evq : (s.received x a len).evq = s.evq := by unfold State.received; split <;> rfl

end

/-- The received packet goes to RAM or to the FIFO (43_pma_copy.md rules R283, R286). -/
theorem rxStore_quiet {s : State} (hb : s.busTape = []) {x : XferCtx} {a len : Nat} (h : s.CanReceive x a len) :
    rxStore x a len s = .ok () (s.received x a len) := by
  cases hff : x.ff with
  | none =>
    simp only [rxStore, State.received, hff]
    exact pmaReadOp_quiet hb h.align h.room (h.ram hff)
  | some k =>
    simp only [rxStore, State.received, hff]
    exact pmaReadFifoOp_quiet hb h.align h.room (h.fifo k hff)

/-- The state once the packet is stored and the length of its transfer advanced to `q`. -/
def State.rxStored (s : State) (i : Nat) (len : Nat) (q : Half) : State :=
  let n := eaField (s.eprAt i)
  ((s.rxAcked i).received (s.ctx n .out) (s.btAddrOf i (rxBuf (s.eprAt i))).toNat len).updCtx n .out
    fun x => { x with queuedLen := q }

/-- The path with SETUP clear, up to where the transfer is complete or re-armed. -/
theorem rxPath_stored {s : State} (hl : s.cfg.legal = true) (hb : s.busTape = []) (hr : s.Running) {i : Nat}
    (hi : i < s.cfg.nEp) (hset : setupBit (s.eprAt i) = false) {x : XferCtx}
    (hx : s.ctx (eaField (s.eprAt i)) .out = x) {len : Nat} (hlen : countField (s.countwOf i (rxBuf (s.eprAt i))) = len)
    {q : Half} (hq : x.queuedLen + BitVec.ofNat 16 len = q)
    (hcan : s.CanReceive x (s.btAddrOf i (rxBuf (s.eprAt i))).toNat len) :
    rxPath i s = (do
      rxNext i (rxBuf (s.eprAt i)) (eaField (s.eprAt i)) x len q
      rxEnd i : Op Unit) (s.rxStored i len q) := by
  obtain ⟨e, v, hu⟩ := rxAcked_rest s i
  have acked : onlyIf (i != 0) (rmwEpr i { clrCtrRx := true }) s = .ok () (s.rxAcked i) := by
    rw [onlyIf_run, rmwEpr_clrCtrRx hb hr hi, State.rxAcked]
    by_cases h0 : i = 0 <;> simp [h0]
  have buf : (if isIso (s.eprAt i) then isoSwBuf (dtogRx (s.eprAt i)) else true) = rxBuf (s.eprAt i) := by
    rw [rxBuf]
    cases isIso (s.eprAt i) <;> rfl
  rw [hu] at acked
  rw [rxPath_quiet hb hi, hset, if_neg Bool.false_ne_true]
  refine bind_eq acked (bind_eq (peek_run _ _) ?_)
  dsimp only
  rw [buf]
  refine bind_eq (btGetCountOp_quiet (by exact hl) (by exact hb) (by exact hi) _) ?_
  refine bind_eq (btGetAddrOp_quiet (by exact hl) (by exact hb) (by exact hi) _) ?_
  subst hx hlen hq
  refine bind_eq (rxStore_quiet (by exact hb) ⟨hcan.align, hcan.room, hcan.ram, hcan.fifo⟩)
    (bind_eq (change_run _ _) ?_)
  rw [State.rxStored, hu]
  rfl

/-- The end of the path (rule R397). -/
theorem rxEnd_quiet {s : State} (hl : s.cfg.legal = true) (hb : s.busTape = []) (hw : Memory.wf s.pma) (hr : s.Running)
    (i : Nat) : rxEnd i s = .ok () (s.rxEnded i) := by
  obtain ⟨h0, -, -, -, hsize, -⟩ := Config.legal_bounds hl
  refine bind_eq (peek_run _ _) ?_
  by_cases hi : i = 0
  · rw [if_pos hi, State.rxEnded, if_pos hi]
    exact bind_eq (btSetRxBufsizeOp_quiet hl hb hw h0 true (by omega))
      (by exact rmwEpr_clrCtrRx (s := s.countwStored 0 true _) hb hr h0)
  · rw [if_neg hi, State.rxEnded, if_neg hi]
    rfl

theorem rxNext_done {s : State} {i : Nat} {b : Bool} {n : BitVec 4} {x : XferCtx} {len : Nat} {q : Half}
    (h : len < x.mps.toNat ∨ x.totalLen.toNat ≤ q.toNat) (hq : s.Room) :
    rxNext i b n x len q s = .ok () (s.posted (.xferComplete (n.setWidth 8) (q.setWidth 32))) := by
  rw [rxNext, if_pos h]
  exact post_ok hq

theorem statRxValid_mask (r : Half) : putBits (MuxSel.mask { statRx := some statValid }) r
    (MuxSel.value { statRx := some statValid }) = putBits 0x3000 r 0x3000 := rfl

theorem rxNext_more {s : State} (hl : s.cfg.legal = true) (hb : s.busTape = []) (hw : Memory.wf s.pma) (hr : s.Running)
    {i : Nat} (hi : i < s.cfg.nEp) {b : Bool} {n : BitVec 4} {x : XferCtx} {len : Nat} {q : Half}
    (hfull : x.mps.toNat ≤ len) (hmore : q.toNat < x.totalLen.toNat)
    (hcnt : min (x.totalLen.toNat - q.toNat) x.mps.toNat ≤ 1024) :
    rxNext i b n x len q s = .ok () ((s.countwStored i b
      (rxSizeCode (min (x.totalLen.toNat - q.toNat) x.mps.toNat))).putEpr true i
        (putBits 0x3000 (s.eprAt i) 0x3000)) := by
  rw [rxNext, if_neg (by omega)]
  refine bind_eq (btSetRxBufsizeOp_quiet hl hb hw hi b hcnt) ?_
  rw [rmwEpr_running (by exact hb) (by exact hr) (by exact hi), statRxValid_mask]
  rfl

theorem ctr_clearRx (r : Half) : ctrRx (r &&& 0x7FFF#16) = false ∧ ctrTx (r &&& 0x7FFF#16) = ctrTx r := by
  simp [ctrRx, ctrTx]

/-- Storing the packet changes neither packet memory nor the queue. -/
theorem rxStored_rest (s : State) (i len : Nat) (q : Half) : (s.rxStored i len q).pma = s.pma
    ∧ ((s.rxStored i len q).Room ↔ s.Room) := by
  obtain ⟨e, v, hu⟩ := rxAcked_rest s i
  simp [State.rxStored, hu, State.Room]

section
variable {s : State} {i : Nat} (hl : s.cfg.legal = true) (h : s.OnlyCtr i true)
include hl h

theorem rxAcked_left (hb : s.busTape = []) : s.CtrLeft i (decide (i = 0)) (s.rxAcked i) := by
  obtain ⟨hrx, htx⟩ := h.here
  rw [State.rxAcked]
  by_cases h0 : i = 0
  · rw [if_pos h0, decide_eq_true h0]
    exact ⟨hb, rfl, rfl, h.others, ⟨hrx, htx⟩, fun hf => by cases hf⟩
  · rw [if_neg h0, decide_eq_false h0]
    exact ctrLeft_putEpr hl h.inside hb rfl rfl h.others ((ctr_clearRx _).imp_right (·.trans htx))

theorem rxStored_left (hb : s.busTape = []) (len : Nat) (q : Half) :
    s.CtrLeft i (decide (i = 0)) (s.rxStored i len q) :=
  (rxAcked_left hl h hb).same (received_busTape _ _ _ _) (received_cntr _ _ _ _) (received_cfg _ _ _ _)
    (received_epr _ _ _ _) (received_istr _ _ _ _)

/-- The end of the path leaves no completion: that of endpoint 0 is cleared there, any other was before. -/
theorem rxEnded_left {t : State} (left : s.CtrLeft i (decide (i = 0)) t) : s.CtrLeft i false (t.rxEnded i) := by
  obtain ⟨-, htx⟩ := left.here
  rw [State.rxEnded]
  by_cases h0 : i = 0
  · subst h0
    rw [if_pos rfl]
    exact (left.same (u := t.countwStored 0 true _) rfl rfl rfl rfl rfl).putEpr hl h.inside
      ((ctr_clearRx _).imp_right (·.trans htx))
  · rw [decide_eq_false h0] at left
    rwa [if_neg h0]

end

/-- Settles O33: the packet is stored and the length advanced, then the transfer is complete or re-armed. -/
theorem isrRxCompletion : Obligations.IsrRxCompletion := by
  intro s i hs hb hr hw h hset r n x a len q s1 s2 cnt hcan
  have hl := hs.legal
  have hi := h.inside
  have run := rxPath_stored hl hb hr hi hset rfl rfl rfl hcan
  have left : s.CtrLeft i (decide (i = 0)) s2 := rxStored_left hl h hb len q
  have hl2 : s2.cfg.legal = true := left.cfg ▸ hl
  have hr2 : s2.Running := left.running hr
  obtain ⟨pma, room⟩ : s2.pma = s.pma ∧ (s2.Room ↔ s.Room) := rxStored_rest s i len q
  have hw2 : Memory.wf s2.pma := pma ▸ hw
  refine ⟨fun hdone hq => ?_, fun hfull hmore hcnt => ?_⟩
  · have ended := rxEnd_quiet (s := s2.posted (.xferComplete (n.setWidth 8) (q.setWidth 32))) hl2 left.tape hw2 hr2 i
    exact isrService_completes hs hb h (run.trans (bind_eq (rxNext_done hdone (room.2 hq)) ended))
      (rxEnded_left hl h (left.same rfl rfl rfl rfl rfl))
  · have armed := rxNext_more hl2 left.tape hw2 hr2 (left.cfg ▸ hi) (b := rxBuf r) (n := n) hfull hmore hcnt
    have ended := rxEnd_quiet (s := (s2.countwStored i (rxBuf r) (rxSizeCode cnt)).putEpr true i
      (putBits 0x3000 (s2.eprAt i) 0x3000)) hl2 left.tape (countwStored_wf hw2 _ _ _) hr2 i
    refine isrService_completes hs hb h (run.trans (bind_eq armed ended)) (rxEnded_left hl h ?_)
    exact (left.same (u := s2.countwStored i (rxBuf r) (rxSizeCode cnt)) rfl rfl rfl rfl rfl).putEpr hl hi
      ((ctr_putBits rfl _ _).imp (·.trans left.here.1) (·.trans left.here.2))

/-! ### The setup completion (rule R398; 20_memory.md rules R100, R103) -/

/-- Reading packet memory past its end faults at the first byte that does not exist. -/
theorem pmaReadBytes_beyond {s : State} {a n : Nat} (h : max a s.cfg.pmaSize < a + n) :
    pmaReadBytes a n s = .error (.pmaRange (max a s.cfg.pmaSize)) s := by
  induction n generalizing a with
  | zero => omega
  | succ n ih =>
    by_cases ha : a < s.cfg.pmaSize
    · refine bind_eq (pmaRead8_ok ha) (bind_eq_error ?_ _)
      rw [ih (by omega), max_eq_right (by omega), max_eq_right (by omega)]
    · refine bind_eq_error (bind_eq (peek_run _ _) ?_) _
      dsimp only [id]
      rw [if_neg ha, max_eq_left (by omega)]
      rfl

/-- The word reads from the `k`th word on, those before it inside packet memory, fault at the first byte that does not
exist. -/
theorem readSpans_beyond {s : State} (hb : s.busTape = []) {off w : Nat} (hw : 0 < w) (n k : Nat)
    (hk : off + w * k ≤ max off s.cfg.pmaSize) (h : max (off + w * k) s.cfg.pmaSize < off + w * (k + n)) :
    readSpans off w ((List.range' k n).map fun j => (w * j, w)) s = .error (.pmaRange (max off s.cfg.pmaSize)) s := by
  induction n generalizing k with
  | zero => simp at h
  | succ n ih =>
    have next : off + w * (k + 1) = off + w * k + w := by rw [Nat.mul_succ, Nat.add_assoc]
    rw [List.range'_succ, List.map_cons, readSpans]
    by_cases hin : off + w * k + w ≤ s.cfg.pmaSize
    · refine bind_eq (pmaReadWord_quiet hb hin) (bind_eq_error (ih (k + 1) (by omega) ?_) _)
      rw [Nat.add_right_comm k 1 n, Nat.add_assoc k n 1]
      omega
    · refine bind_eq_error (bind_eq (busWindow_quiet hb) ?_) _
      have first : max (off + w * k) s.cfg.pmaSize = max off s.cfg.pmaSize := by omega
      rw [pmaReadBytes_beyond (by omega), first]

/-- The packet of 8 bytes is whole words on either bus. -/
theorem wordSpans_setup (c : Config) : ∃ n, Config.pmaWidth c * n = 8
    ∧ wordSpans (Config.pmaWidth c) 8 = (List.range' 0 n).map fun j => (Config.pmaWidth c * j, Config.pmaWidth c) := by
  unfold Config.pmaWidth
  split
  · exact ⟨2, rfl, rfl⟩
  · exact ⟨4, rfl, rfl⟩

section
variable {s : State} (hb : s.busTape = []) {a : Nat}
include hb

theorem pmaPacketOp_setup (ha : s.cfg.bus32 = true → a % 4 = 0) (hfit : a + 8 ≤ s.cfg.pmaSize) :
    pmaPacketOp a 8 s = .ok (Memory.readBytes s.pma a 8) s := by
  refine pmaPacketOp_quiet hb ha ?_
  have whole : roundUp 8 (Config.pmaWidth s.cfg) = 8 := by
    unfold Config.pmaWidth
    split <;> rfl
  rwa [whole]

theorem pmaPacketOp_beyond (ha : s.cfg.bus32 = true → a % 4 = 0) (hend : s.cfg.pmaSize < a + 8) :
    pmaPacketOp a 8 s = .error (.pmaRange (max a s.cfg.pmaSize)) s := by
  obtain ⟨n, hn, spans⟩ := wordSpans_setup s.cfg
  refine bind_eq (checkAlign_ok ha) (bind_eq (peek_run _ _) ?_)
  rw [spans]
  exact readSpans_beyond hb (pmaWidth_pos _) n 0 (by omega) (by rw [Nat.zero_add, hn]; omega)

end

/-- The select with which a setup packet is taken (rule R398). -/
def selSetup : MuxSel where
  statTx   := some statNak
  statRx   := some statNak
  dtogTx   := some true
  dtogRx   := some true
  clrCtrRx := true

theorem selSetup_mask (r : Half) : putBits selSetup.mask r selSetup.value = putBits 0xF070 r 0x6060 := rfl

/-- The setup packet at PMA offset `a`, as the event reports it. -/
def State.setupPacket (s : State) (a : Nat) : Vector Byte 8 := Vector.ofFn fun k => Memory.read s.pma (a + k)

section
variable {s : State} (hl : s.cfg.legal = true) (hb : s.busTape = []) (hr : s.Running) {i : Nat} (hi : i < s.cfg.nEp)
  (hset : setupBit (s.eprAt i) = true)
include hl hb hi hset

theorem rxPath_setup : rxPath i s = (if countField (s.countwOf i true) = 8 then do
    let bs ← pmaPacketOp (s.btAddrOf i true).toNat 8
    let b := fun k => bs.getD k 0
    rmwEpr i selSetup
    post (.setupReceived #v[b 0, b 1, b 2, b 3, b 4, b 5, b 6, b 7])
    else rmwEpr i { clrCtrRx := true } : Op Unit) s := by
  rw [rxPath_quiet hb hi, if_pos hset]
  refine bind_eq (btGetCountOp_quiet hl hb hi true) ?_
  by_cases h8 : countField (s.countwOf i true) = 8
  · rw [if_pos h8, if_pos h8]
    exact bind_eq (btGetAddrOp_quiet hl hb hi true) rfl
  · rw [if_neg h8, if_neg h8]

theorem rxPath_setup_fault {f : Fault} (h8 : countField (s.countwOf i true) = 8)
    (hread : pmaPacketOp (s.btAddrOf i true).toNat 8 s = .error f s) : rxPath i s = .error f s := by
  rw [rxPath_setup hl hb hi hset, if_pos h8]
  exact bind_eq_error hread _

include hr

theorem rxPath_setup_taken (h8 : countField (s.countwOf i true) = 8)
    (ha : s.cfg.bus32 = true → (s.btAddrOf i true).toNat % 4 = 0)
    (hfit : (s.btAddrOf i true).toNat + 8 ≤ s.cfg.pmaSize) :
    rxPath i s = post (.setupReceived (s.setupPacket (s.btAddrOf i true).toNat))
      (s.putEpr true i (putBits 0xF070 (s.eprAt i) 0x6060)) := by
  rw [rxPath_setup hl hb hi hset, if_pos h8]
  refine bind_eq (pmaPacketOp_setup hb ha hfit) (bind_eq (t := s.putEpr true i (putBits 0xF070 (s.eprAt i) 0x6060))
    (a := ()) (by rw [rmwEpr_running hb hr hi, selSetup_mask]) ?_)
  rfl

theorem rxPath_setup_dropped (h8 : countField (s.countwOf i true) ≠ 8) :
    rxPath i s = .ok () (s.putEpr true i (s.eprAt i &&& 0x7FFF#16)) := by
  rw [rxPath_setup hl hb hi hset, if_neg h8, rmwEpr_clrCtrRx hb hr hi]

end

/-- Settles O34: the count, the alignment and the end of packet memory are checked in turn, each before the register
is written. -/
theorem isrSetupCompletion : Obligations.IsrSetupCompletion := by
  intro s i hs hb hr h hset a startsWord u
  have hl := hs.legal
  have hi := h.inside
  have written : ∀ {v}, ctrRx v = false ∧ ctrTx v = ctrTx (s.eprAt i) → s.CtrLeft i false (s.putEpr true i v) :=
    fun hv => ctrLeft_putEpr hl hi hb rfl rfl h.others (hv.imp_right (·.trans h.here.2))
  refine ⟨fun h8 ha hfit hq => ?_, fun h8 ha hfit hq => ?_, fun h8 ha hend => ?_, fun h8 ha => ?_, fun h8 => ?_⟩
  · refine ⟨s.setupPacket a, fun k hk => ?_, isrService_completes (j := i) hs hb h
      ((rxPath_setup_taken hl hb hr hi hset h8 ha hfit).trans (post_ok hq)) ?_⟩
    · simp [State.setupPacket, hk]
    · exact State.CtrLeft.same (written (by simp [ctrRx, ctrTx, putBits])) rfl rfl rfl rfl rfl
  · exact isrService_faults hs hb h ((rxPath_setup_taken hl hb hr hi hset h8 ha hfit).trans (post_full hq))
  · exact isrService_faults hs hb h (rxPath_setup_fault hl hb hi hset h8 (pmaPacketOp_beyond hb ha hend))
  · obtain ⟨h32, hmis⟩ := Classical.not_imp.1 ha
    exact isrService_faults hs hb h
      (rxPath_setup_fault hl hb hi hset h8 (bind_eq_error (checkAlign_misaligned h32 hmis) _))
  · exact isrService_completes hs hb h (rxPath_setup_dropped hl hb hr hi hset h8) (written (ctr_clearRx _))

/-! ### The loop drains every completion (rule R384)

Software can only clear a CTR bit (41_epreg_engine.md rule R203), and each path clears the one it was taken for. So the
registers with a CTR bit, received or sent, lie in sets of which every iteration takes one element. -/

/-- Every register with CTR_RX set is in `rx` and every one with CTR_TX set in `tx`, on a running machine of the
parameters `c` whose next access no BUS step precedes. -/
structure State.CtrIn (c : Config) (rx tx : Finset Nat) (s : State) : Prop where
  tape    : s.busTape = []
  running : s.fres = false
  cfg     : s.cfg = c
  inRx    : ∀ j, ctrRx (s.eprAt j) = true → j ∈ rx
  inTx    : ∀ j, ctrTx (s.eprAt j) = true → j ∈ tx

/-- If the operation completes from a state with `P`, it leaves one with `Q`. -/
def Leads (P Q : State → Prop) {α : Type} (op : Op α) : Prop := ∀ s, P s → ∀ a t, op s = .ok a t → Q t

theorem bind_ok {α β : Type} {x : Op α} {f : α → Op β} {s u : State} {b : β} (h : (x >>= f) s = .ok b u) :
    ∃ a t, x s = .ok a t ∧ f a t = .ok b u := by
  rw [bind_run] at h
  cases hx : x s with
  | ok a t => exact ⟨a, t, rfl, by rwa [hx] at h⟩
  | error e t => rw [hx] at h; cases h

section
variable {P Q R : State → Prop} {α β : Type}

theorem Keeps.leads {op : Op α} (h : Keeps P op) : Leads P P op := by
  intro s hs a t ho
  have := h s hs
  rwa [ho] at this

theorem Leads.bind {x : Op α} {f : α → Op β} (hx : Leads P Q x) (hf : ∀ a, Leads Q R (f a)) : Leads P R (x >>= f) := by
  intro s hs b u h
  obtain ⟨a, t, hxs, hfs⟩ := bind_ok h
  exact hf a t (hx s hs a t hxs) b u hfs

theorem Leads.ite {p : Prop} [Decidable p] {x y : Op α} (hx : Leads P Q x) (hy : Leads P Q y) :
    Leads P Q (if p then x else y) := by split <;> assumption

end

/-- The change leaves the tape, `CNTR`, the parameters and the endpoint registers. -/
def LeavesRegisters (f : State → State) : Prop :=
  ∀ s, (f s).busTape = s.busTape ∧ (f s).cntr = s.cntr ∧ (f s).cfg = s.cfg ∧ (f s).epr = s.epr

theorem mem_kept {S : Finset Nat} {i j : Nat} {b : Bool} (hj : j ∈ S) (h : j = i → b = true) :
    j ∈ if b then S else S.erase i := by
  split
  · exact hj
  · exact Finset.mem_erase.2 ⟨fun e => ‹¬ b = true› (h e), hj⟩

section
variable {c : Config} (hn : c.nEp ≤ 8) {rx tx rx' tx' : Finset Nat} {s : State}

theorem State.CtrIn.mono (h : s.CtrIn c rx tx) (hrx : rx ⊆ rx') (htx : tx ⊆ tx') : s.CtrIn c rx' tx' := by
  obtain ⟨tape, running, cfg, inRx, inTx⟩ := h
  exact ⟨tape, running, cfg, fun j hj => hrx (inRx j hj), fun j hj => htx (inTx j hj)⟩

theorem State.CtrIn.change (h : s.CtrIn c rx tx) {f : State → State} (hf : LeavesRegisters f) : (f s).CtrIn c rx tx := by
  obtain ⟨tape, running, cfg, inRx, inTx⟩ := h
  obtain ⟨htape, hcntr, hcfg, hepr⟩ := hf s
  have epr : ∀ j, (f s).eprAt j = s.eprAt j := fun j => by rw [State.eprAt, hepr]; rfl
  refine ⟨htape.trans tape, (congrArg (hasBit · cntrFres) hcntr).trans running, hcfg.trans cfg, fun j hj => ?_,
    fun j hj => ?_⟩
  · exact inRx j (by rwa [epr] at hj)
  · exact inTx j (by rwa [epr] at hj)

include hn

/-- A write of register `i` clears the CTR bits that are 0 in the word written. -/
theorem State.CtrIn.write (h : s.CtrIn c rx tx) {i : Nat} (hi : i < c.nEp) (w : Half) :
    (s.hwWriteEpr i w).CtrIn c (if ctrRx w then rx else rx.erase i) (if ctrTx w then tx else tx.erase i) := by
  obtain ⟨tape, running, rfl, inRx, inTx⟩ := h
  have written := putEpr_eprAt hi hn (hwWrite (s.eprAt i) w)
  rw [hwWriteEpr_running running]
  refine ⟨tape, running, rfl, fun j hj => ?_, fun j hj => ?_⟩
  · rw [written] at hj
    split at hj
    · next hji =>
      rw [ctrRx_hwWrite, Bool.and_eq_true] at hj
      exact mem_kept (inRx j (hji ▸ hj.1)) fun _ => hj.2
    · exact mem_kept (inRx j hj) fun hji => absurd hji ‹_›
  · rw [written] at hj
    split at hj
    · next hji =>
      rw [ctrTx_hwWrite, Bool.and_eq_true] at hj
      exact mem_kept (inTx j (hji ▸ hj.1)) fun _ => hj.2
    · exact mem_kept (inTx j hj) fun hji => absurd hji ‹_›

end

section
variable {c : Config} {rx tx : Finset Nat}

/-! #### What every operation of the paths keeps -/

theorem ctrIn_change {f : State → State} (hf : LeavesRegisters f) : Keeps (State.CtrIn c rx tx) (change f) :=
  .change fun _ h => h.change hf

theorem ctrIn_busWindow : Keeps (State.CtrIn c rx tx) busWindow := by
  intro s h
  rw [busWindow_quiet h.tape]
  exact h

theorem ctrIn_post (ev : Event) : Keeps (State.CtrIn c rx tx) (post ev) :=
  .bind (.peek _) fun _ => .ite (ctrIn_change fun _ => ⟨rfl, rfl, rfl, rfl⟩) (.raise _)

theorem ctrIn_pmaWriteBytes (a : Nat) (bs : List Byte) : Keeps (State.CtrIn c rx tx) (pmaWriteBytes a bs) := by
  induction bs generalizing a with
  | nil => exact .pure _
  | cons b bs ih =>
    exact .bind (.bind (.peek _) fun _ => .ite (ctrIn_change fun _ => ⟨rfl, rfl, rfl, rfl⟩) (.raise _)) fun _ => ih _

theorem ctrIn_memWrite (a : Nat) (bs : List Byte) : Keeps (State.CtrIn c rx tx) (memWrite a bs) := by
  induction bs generalizing a with
  | nil => exact .pure _
  | cons b bs ih =>
    exact .bind (.bind (.peek _) fun _ => .ite (ctrIn_change fun _ => ⟨rfl, rfl, rfl, rfl⟩) (.raise _)) fun _ => ih _

theorem ctrIn_fifoPop (h : Word) (n : Nat) : Keeps (State.CtrIn c rx tx) (fifoPop h n) :=
  .bind (.peek _) fun _ => .ite (.raise _) (.bind (ctrIn_change fun _ => ⟨rfl, rfl, rfl, rfl⟩) fun _ => .pure _)

theorem ctrIn_fifoPush (h : Word) (bs : List Byte) : Keeps (State.CtrIn c rx tx) (fifoPush h bs) :=
  .bind (.peek _) fun _ => .ite (.raise _) (ctrIn_change fun _ => ⟨rfl, rfl, rfl, rfl⟩)

theorem ctrIn_readEpr (i : Nat) : Keeps (State.CtrIn c rx tx) (readEpr i) :=
  .bind (keeps_checkIdx i) fun _ => .bind ctrIn_busWindow fun _ => .peek _

theorem ctrIn_pmaReadWord (a n : Nat) : Keeps (State.CtrIn c rx tx) (pmaReadWord a n) :=
  .bind ctrIn_busWindow fun _ => keeps_pmaReadBytes a n

theorem ctrIn_pmaWriteWord (a : Nat) (bs : List Byte) : Keeps (State.CtrIn c rx tx) (pmaWriteWord a bs) :=
  .bind ctrIn_busWindow fun _ => ctrIn_pmaWriteBytes a bs

theorem ctrIn_readHalf (a : Nat) : Keeps (State.CtrIn c rx tx) (readHalf a) :=
  .bind ctrIn_busWindow fun _ => keeps_pmaHalf a

theorem ctrIn_btGetAddrOp (i : Nat) (b : Bool) : Keeps (State.CtrIn c rx tx) (btGetAddrOp i b) :=
  .bind (keeps_checkIdx i) fun _ => .bind (.peek _) fun _ => ctrIn_readHalf _

theorem ctrIn_btGetCountOp (i : Nat) (b : Bool) : Keeps (State.CtrIn c rx tx) (btGetCountOp i b) :=
  .bind (keeps_checkIdx i) fun _ => .bind (.peek _) fun _ => .bind (ctrIn_readHalf _) fun _ => .pure _

theorem ctrIn_btSetCountOp (i : Nat) (b : Bool) (n : Nat) : Keeps (State.CtrIn c rx tx) (btSetCountOp i b n) :=
  .bind (keeps_checkIdx i) fun _ => .bind (.peek _) fun _ =>
    .ite (.bind (ctrIn_pmaReadWord _ _) fun _ => ctrIn_pmaWriteWord _ _)
      (.bind (ctrIn_readHalf _) fun _ => ctrIn_pmaWriteWord _ _)

theorem ctrIn_btSetRxBufsizeOp (i : Nat) (b : Bool) (n : Nat) :
    Keeps (State.CtrIn c rx tx) (btSetRxBufsizeOp i b n) :=
  .bind (keeps_checkIdx i) fun _ => .ite (.raise _) <| .bind (.peek _) fun _ =>
    .ite (.bind (ctrIn_pmaReadWord _ _) fun _ => ctrIn_pmaWriteWord _ _) (ctrIn_pmaWriteWord _ _)

theorem ctrIn_readSpans (off w : Nat) (l : List (Nat × Nat)) : Keeps (State.CtrIn c rx tx) (readSpans off w l) := by
  induction l with
  | nil => exact .pure _
  | cons p ps ih => exact .bind (ctrIn_pmaReadWord _ _) fun _ => .bind ih fun _ => .pure _

theorem ctrIn_pmaPacketOp (off len : Nat) : Keeps (State.CtrIn c rx tx) (pmaPacketOp off len) :=
  .bind (keeps_checkAlign _) fun _ => .bind (.peek _) fun _ => ctrIn_readSpans _ _ _

theorem ctrIn_txStore (x : XferCtx) (a len : Nat) : Keeps (State.CtrIn c rx tx) (txStore x a len) := by
  unfold txStore
  cases x.ff with
  | none =>
    exact .bind (keeps_checkSpan _ _) fun _ => .bind (.peek _) fun _ =>
      .forEach fun _ => .bind (keeps_memRead _ _) fun _ => ctrIn_pmaWriteWord _ _
  | some h =>
    exact .bind (keeps_checkSpan _ _) fun _ => .bind (ctrIn_fifoPop _ _) fun _ => .bind (.peek _) fun _ =>
      .forEach fun _ => ctrIn_pmaWriteWord _ _

theorem ctrIn_rxStore (x : XferCtx) (a len : Nat) : Keeps (State.CtrIn c rx tx) (rxStore x a len) := by
  unfold rxStore
  cases x.ff with
  | none =>
    exact .bind (keeps_checkSpan _ _) fun _ => .bind (.peek _) fun _ =>
      .forEach fun _ => .bind (ctrIn_pmaReadWord _ _) fun _ => ctrIn_memWrite _ _
  | some h =>
    exact .bind (keeps_checkSpan _ _) fun _ => .bind (.peek _) fun _ =>
      .ite (.raise _) (.bind (ctrIn_readSpans _ _ _) fun _ => ctrIn_fifoPush _ _)

theorem ctrIn_updCtx (n : BitVec 4) (d : Dir) (f : XferCtx → XferCtx) :
    Keeps (State.CtrIn c rx tx) (change (·.updCtx n d f)) := ctrIn_change fun _ => ⟨rfl, rfl, rfl, rfl⟩

variable (hn : c.nEp ≤ 8)
include hn

theorem ctrIn_writeEpr (i : Nat) (w : Half) : Keeps (State.CtrIn c rx tx) (writeEpr i w) := by
  intro s h
  rw [writeEpr, bind_run, checkIdx_run]
  by_cases hi : i < s.cfg.nEp
  · rw [if_pos hi]
    dsimp only
    rw [writeReg_quiet h.tape]
    refine (h.write hn (h.cfg ▸ hi) w).mono ?_ ?_ <;> split <;> simp [Finset.erase_subset]
  · rw [if_neg hi]
    exact h

theorem ctrIn_rmwEpr (i : Nat) (sel : MuxSel) : Keeps (State.CtrIn c rx tx) (rmwEpr i sel) :=
  .bind (ctrIn_readEpr i) fun _ => ctrIn_writeEpr hn i _

/-- The primitive that clears CTR bits of register `i` takes it out of their sets. -/
theorem rmwEpr_clears (i : Nat) (sel : MuxSel) : Leads (State.CtrIn c rx tx)
    (State.CtrIn c (if sel.clrCtrRx then rx.erase i else rx) (if sel.clrCtrTx then tx.erase i else tx))
    (rmwEpr i sel) := by
  intro s h a t ht
  by_cases hi : i < s.cfg.nEp
  · rw [rmwEpr_quiet h.tape hi] at ht
    cases ht
    have written := h.write hn (h.cfg ▸ hi) (mux (s.eprAt i) sel)
    rw [ctrRx_mux, ctrTx_mux] at written
    cases hr : sel.clrCtrRx <;> cases ht : sel.clrCtrTx <;> simpa [hr, ht] using written
  · rw [rmwEpr, readEpr, bind_run, bind_run, checkIdx_run, if_neg hi] at ht
    cases ht

/-! #### The paths -/

theorem ctrIn_txNext (n : BitVec 4) (x : XferCtx) : Keeps (State.CtrIn c rx tx) (txNext n x) := by
  refine .ite ?_ (ctrIn_post _)
  exact .bind (.peek _) fun _ => .bind (ctrIn_readEpr _) fun _ => .bind (ctrIn_btGetAddrOp _ _) fun _ =>
    .bind (ctrIn_txStore _ _ _) fun _ => .bind (ctrIn_updCtx _ _ _) fun _ => .bind (ctrIn_btSetCountOp _ _ _) fun _ =>
      .bind (ctrIn_updCtx _ _ _) fun _ => ctrIn_writeEpr hn _ _

theorem txPath_clears (i : Nat) : Leads (State.CtrIn c rx tx) (State.CtrIn c rx (tx.erase i)) (txPath i) := by
  refine .bind (rmwEpr_clears hn i _) fun _ => Keeps.leads ?_
  refine .bind (ctrIn_readEpr i) fun _ => .bind (.peek _) fun _ => .ite (.ite ?_ (.pure _)) (ctrIn_txNext hn _ _)
  exact .bind (ctrIn_updCtx _ _ _) fun _ => .bind (ctrIn_btSetCountOp _ _ _) fun _ => ctrIn_txNext hn _ _

theorem setupPath_clears (i : Nat) : Leads (State.CtrIn c rx tx) (State.CtrIn c (rx.erase i) tx) (setupPath i) := by
  refine .bind (ctrIn_btGetCountOp i true).leads fun _ => .ite ?_ (rmwEpr_clears hn i _)
  exact .bind (ctrIn_btGetAddrOp i true).leads fun _ => .bind (ctrIn_pmaPacketOp _ _).leads fun _ =>
    .bind (rmwEpr_clears hn i _) fun _ => (ctrIn_post _).leads

theorem ctrIn_rxNext (i : Nat) (b : Bool) (n : BitVec 4) (x : XferCtx) (len : Nat) (q : Half) :
    Keeps (State.CtrIn c rx tx) (rxNext i b n x len q) :=
  .ite (ctrIn_post _) (.bind (ctrIn_btSetRxBufsizeOp _ _ _) fun _ => ctrIn_rmwEpr hn _ _)

/-- The data branch clears CTR_RX first, but for endpoint 0, where it does last. -/
theorem rxData_clears (i : Nat) (r : Half) :
    Leads (State.CtrIn c rx tx) (State.CtrIn c (rx.erase i) tx) (rxData i r) := by
  have first : Leads (State.CtrIn c rx tx) (State.CtrIn c (if i = 0 then rx else rx.erase i) tx)
      (onlyIf (i != 0) (rmwEpr i { clrCtrRx := true })) := by
    by_cases h0 : i = 0
    · rw [if_pos h0, h0]
      exact (Keeps.pure ()).leads
    · rw [if_neg h0, bne_iff_ne.2 h0]
      exact rmwEpr_clears hn i _
  have last : Leads (State.CtrIn c (if i = 0 then rx else rx.erase i) tx) (State.CtrIn c (rx.erase i) tx) (rxEnd i) := by
    refine .bind (Keeps.peek _).leads fun _ => ?_
    by_cases h0 : i = 0
    · rw [if_pos h0, if_pos h0, h0]
      exact .bind (ctrIn_btSetRxBufsizeOp _ _ _).leads fun _ => rmwEpr_clears hn 0 _
    · rw [if_neg h0, if_neg h0]
      exact (Keeps.pure ()).leads
  exact .bind first fun _ => .bind (Keeps.peek _).leads fun _ => .bind (ctrIn_btGetCountOp _ _).leads fun _ =>
    .bind (ctrIn_btGetAddrOp _ _).leads fun _ => .bind (ctrIn_rxStore _ _ _).leads fun _ =>
      .bind (ctrIn_updCtx _ _ _).leads fun _ => .bind (ctrIn_rxNext hn _ _ _ _ _ _).leads fun _ => last

theorem rxPath_clears (i : Nat) : Leads (State.CtrIn c rx tx) (State.CtrIn c (rx.erase i) tx) (rxPath i) :=
  .bind (Keeps.peek _).leads fun _ => .bind (Keeps.onlyIf ctrIn_busWindow).leads fun _ =>
    .bind (ctrIn_readEpr i).leads fun _ => .ite (setupPath_clears hn i) (rxData_clears hn i _)

end

/-! #### The loop and what follows it -/

/-- The register and the direction that `ISTR` reports: a completion that is there (10_state.md rule R48). -/
theorem State.IstrOk.reported {s : State} (h : s.IstrOk) (hc : istrCtr s.istr = true) :
    if istrDir s.istr then ctrRx (s.eprAt (istrEpId s.istr)) = true else ctrTx (s.eprAt (istrEpId s.istr)) = true := by
  cases hf : firstCtr s.cfg.nEp s.epr with
  | none => rw [State.IstrOk, hf] at h; rw [hc] at h; cases h
  | some i =>
    rw [State.IstrOk, hf] at h
    obtain ⟨-, rfl, hdir⟩ := h
    obtain ⟨hi, hset, -⟩ := List.findIdx?_eq_some_iff_getElem.1 hf
    rw [getElem_take_epr hi, Bool.or_eq_true] at hset
    rw [hdir]
    split
    · assumption
    · exact hset.resolve_left ‹_›

theorem State.IstrOk.none {s : State} (hn : s.cfg.nEp ≤ 8) (h : s.IstrOk) (hc : istrCtr s.istr = false) (i : Nat)
    (hi : i < s.cfg.nEp) : ctrRx (s.eprAt i) = false ∧ ctrTx (s.eprAt i) = false := by
  cases hf : firstCtr s.cfg.nEp s.epr with
  | none => exact (firstCtr_none hn).1 hf i hi
  | some k =>
    rw [State.IstrOk, hf] at h
    rw [h.1] at hc
    cases hc

/-- A reported completion means a running machine (44_dcd_ops.md rule R301). -/
theorem State.HeldOk.running {s : State} (h : s.HeldOk) (hc : istrCtr s.istr = true) : s.Running := by
  cases hf : s.fres with
  | false => exact hf
  | true =>
    obtain ⟨-, histr, -⟩ := h hf
    rw [histr] at hc
    cases hc

/-- An iteration takes one element of the sets. -/
theorem ctrPath_clears {c : Config} (hn : c.nEp ≤ 8) {rx tx : Finset Nat} (dir : Bool) (i : Nat) :
    Leads (State.CtrIn c rx tx) (State.CtrIn c (if dir then rx.erase i else rx) (if dir then tx else tx.erase i))
      (ctrPath dir i) := by
  cases dir
  · exact txPath_clears hn i
  · exact rxPath_clears hn i

/-- With more iterations than elements in the sets, the loop ends with no completion reported. -/
theorem ctrLoop_drains {c : Config} (hn : c.nEp ≤ 8) (fuel : Nat) {rx tx : Finset Nat} {s t : State} (hinv : InvFor c s)
    (h : s.CtrIn c rx tx) (hfuel : rx.card + tx.card < fuel) (run : ctrLoop fuel s = .ok () t) :
    InvFor c t ∧ t.busTape = [] ∧ istrCtr t.istr = false := by
  induction fuel generalizing rx tx s with
  | zero => omega
  | succ fuel ih =>
    obtain ⟨hi, hcfg⟩ := hinv
    cases hc : istrCtr s.istr with
    | false =>
      rw [ctrLoop_drained h.tape hc] at run
      cases run
      exact ⟨⟨hi, hcfg⟩, h.tape, hc⟩
    | true =>
      have body : (do ctrPath (istrDir s.istr) (istrEpId s.istr); ctrLoop fuel : Op Unit) s = .ok () t := by
        rw [← run]
        refine (bind_eq (readIstr_quiet h.tape) ?_).symm
        rw [if_pos hc]
        exact bind_eq (readIstr_quiet h.tape) (bind_eq (readIstr_quiet h.tape) rfl)
      obtain ⟨_, u, hpath, hrest⟩ := bind_ok body
      have hinv : InvFor c u := (keeps_ctrPath (closed_invFor c).toDeviceClosed _ _).leads s ⟨hi, hcfg⟩ _ _ hpath
      refine ih hinv (ctrPath_clears hn _ _ s h _ _ hpath) ?_ hrest
      have there := hi.istr.reported hc
      cases hd : istrDir s.istr with
      | false =>
        rw [hd] at there
        have := Finset.card_erase_lt_of_mem (h.inTx _ there)
        simp only [Bool.false_eq_true, if_false]
        omega
      | true =>
        rw [hd] at there
        have := Finset.card_erase_lt_of_mem (h.inRx _ there)
        simp only [if_true]
        omega

theorem keeps_serviceFlag_quiet {P : State → Prop} (v f : Half) {branch : Op Unit} (hb : ∀ {s}, P s → s.busTape = [])
    (hk : Keeps P branch) : Keeps P (serviceFlag v f branch) := by
  intro s h
  rw [serviceFlag_quiet (hb h)]
  cases hasBit v f && hasBit s.cntr f
  · exact h
  · exact hk s h

/-- No BUS step precedes the next access, and `CNTR` holds `m`. -/
structure State.Masked (m : Half) (s : State) : Prop where
  tape : s.busTape = []
  cntr : s.cntr = m

/-- The SOF part leaves the masks. -/
theorem masked_serviceSof (m v : Half) : Keeps (State.Masked m) (serviceFlag v flagSof sofBranch) := by
  refine keeps_serviceFlag_quiet v _ State.Masked.tape (.bind ?_ fun _ => .bind ?_ fun _ => ?_)
  · intro s h
    rw [clearFlag_quiet h.tape]
    exact ⟨h.tape, h.cntr⟩
  · intro s h
    rw [readReg_quiet h.tape]
    exact h
  · exact .bind (.peek _) fun _ => .ite (.change fun _ h => ⟨h.tape, h.cntr⟩) (.raise _)

/-- No register has a CTR bit, and no BUS step precedes the next access. -/
structure State.Drained (s : State) : Prop where
  tape : s.busTape = []
  none : ∀ i, ctrRx (s.eprAt i) = false ∧ ctrTx (s.eprAt i) = false

theorem drained_writeReg {f : State → State} (hb : ∀ s, (f s).busTape = s.busTape)
    (he : ∀ s, (f s).epr = s.epr ∨ (f s).epr = Vector.replicate 8 0) : Keeps State.Drained (writeReg f) := by
  intro s h
  rw [writeReg_quiet h.tape]
  refine ⟨(hb s).trans h.tape, fun i => ?_⟩
  rcases he s with he | he
  · rw [State.eprAt, he]
    exact h.none i
  · rw [eprAt_of_zeros he]
    exact ⟨rfl, rfl⟩

theorem drained_clearFlag (f : Half) : Keeps State.Drained (clearFlag f) :=
  drained_writeReg (fun _ => rfl) fun _ => .inl rfl

theorem drained_updateCntr (m v : Half) : Keeps State.Drained (updateCntr m v) := by
  intro s h
  have writes := fun w => drained_writeReg (f := (·.writeCntr w)) (fun _ => rfl) (fun s => by
    rw [State.writeCntr_epr]
    split
    · exact .inr rfl
    · exact .inl rfl) s h
  rw [updateCntr, bind_run, readCntr_quiet h.tape]
  exact writes _

theorem drained_post (ev : Event) : Keeps State.Drained (post ev) :=
  .bind (.peek _) fun _ => .ite (.change fun _ h => ⟨h.tape, h.none⟩) (.raise _)

/-- The branches after the CTR part set no CTR bit. -/
theorem drained_serviceRest (v : Half) : Keeps State.Drained (serviceRest v) := by
  have flag := fun f b (hk : Keeps State.Drained b) => keeps_serviceFlag_quiet v f State.Drained.tape hk
  refine .bind (flag _ _ ?_) fun _ => .bind (flag _ _ ?_) fun _ => flag _ _ ?_
  · exact .bind (drained_updateCntr _ _) fun _ => .bind (drained_updateCntr _ _) fun _ =>
      .bind (drained_clearFlag _) fun _ => drained_post _
  · exact .bind (drained_updateCntr _ _) fun _ => .bind (drained_updateCntr _ _) fun _ =>
      .bind (drained_clearFlag _) fun _ => drained_post _
  · exact .bind (.peek _) fun _ => .bind (.onlyIf (drained_updateCntr _ _)) fun _ =>
      .bind (.onlyIf (.change fun _ h => ⟨h.tape, h.none⟩)) fun _ => drained_clearFlag _

/-! #### The whole sequence -/

theorem perform_next_ok {op : Op Unit} {s t : State} (h : perform op s = .next t) (hfault : t.fault = none) :
    op s = .ok () t := by
  rw [perform] at h
  split at h
  · cases h
  · split at h
    · cases ho : op s with
      | ok a u => rw [ho] at h; cases h; rfl
      | error e u => rw [ho] at h; cases h; cases hfault
    · cases h

/-- The CTR part, with CTR unmasked, leaves no register with a CTR bit. -/
theorem serviceCtr_drains {c : Config} {s t : State} (hinv : InvFor c s) (hb : s.busTape = [])
    (hctr : hasBit s.cntr flagCtr = true) (run : serviceCtr s = .ok () t) : t.Drained := by
  obtain ⟨hi, rfl⟩ := hinv
  obtain ⟨-, hn, -⟩ := Config.legal_bounds hi.legal
  rw [serviceCtr_quiet hb, if_pos hctr, show ctrFuel s = 24 by rw [ctrFuel, hb]; rfl] at run
  have drained : InvFor s.cfg t ∧ t.busTape = [] ∧ istrCtr t.istr = false := by
    cases hc : istrCtr s.istr with
    | false =>
      rw [ctrLoop_drained hb hc] at run
      cases run
      exact ⟨⟨hi, rfl⟩, hb, hc⟩
    | true =>
      have inside : ∀ j, (s.eprAt j = 0#16 → False) → j ∈ Finset.range s.cfg.nEp := fun j hj =>
        Finset.mem_range.2 (Nat.lt_of_not_le fun hle => hj (hi.registers.absent j hle))
      refine ctrLoop_drains hn 24 ⟨hi, rfl⟩ (rx := Finset.range s.cfg.nEp) (tx := Finset.range s.cfg.nEp)
        ⟨hb, hi.held.running hc, rfl, fun j hj => inside j fun h0 => ?_, fun j hj => inside j fun h0 => ?_⟩ ?_ run
      · rw [h0] at hj; cases hj
      · rw [h0] at hj; cases hj
      · rw [Finset.card_range]; omega
  obtain ⟨⟨ht, hcfg⟩, tape, hc⟩ := drained
  refine ⟨tape, fun i => ?_⟩
  by_cases hin : i < t.cfg.nEp
  · exact ht.istr.none (hcfg ▸ hn) hc i hin
  · rw [ht.registers.absent i (Nat.le_of_not_lt hin)]
    exact ⟨rfl, rfl⟩

/-- Settles O35: each iteration takes one of at most 16 CTR bits, none of the paths sets one, and the branches that
follow the loop leave them. -/
theorem isrDrainsCtr : Obligations.IsrDrainsCtr := by
  intro s t hinv hb hctr hreset hexec hfault
  obtain ⟨ht, hcfg⟩ : InvFor s.cfg t := exec_keeps (closed_invFor s.cfg) .isrService ⟨hinv, rfl⟩ hexec
  obtain ⟨-, hn, -⟩ := Config.legal_bounds ht.legal
  have run := perform_next_ok hexec hfault
  rw [isrOp_quiet hb] at run
  obtain ⟨_, u, hsof, run⟩ := bind_ok run
  obtain ⟨hub, hum⟩ := (masked_serviceSof s.cntr s.istr).leads s ⟨hb, rfl⟩ _ _ hsof
  have hu : InvFor s.cfg u :=
    (keeps_serviceFlag (closed_invFor s.cfg).toDeviceClosed _ _
      (keeps_sofBranch (closed_invFor s.cfg).toDeviceClosed)).leads s ⟨hinv, rfl⟩ _ _ hsof
  rw [afterSof_noReset hub (by rw [hum, hasBit_pending hreset (by decide) rfl]; rfl)] at run
  obtain ⟨_, w, hloop, hrest⟩ := bind_ok run
  have drained := (drained_serviceRest s.istr).leads w (serviceCtr_drains hu hub (hum ▸ hctr) hloop) _ _ hrest
  exact ⟨istrCtr_of_none hn ht.istr fun j _ => drained.none j, fun i _ => drained.none i⟩

end Sys2Proof.Machine

/-! PROOFS. The law of the status wrapper: every step keeps it (O60). -/

namespace Sys2Proof.Machine

/-! ### Where an operation ends

`Keeps` speaks of every state a property holds in. `EndsIn` speaks of one, so that what the operation has just read of
it can be used. -/

/-- From `s` the operation ends, with a value or with a fault, in a state with the property `P`. -/
def EndsIn (P : State → Prop) {α : Type} (op : Op α) (s : State) : Prop :=
  match op s with | .ok _ t => P t | .error _ t => P t

section
variable {P Q : State → Prop} {α β : Type} {s : State}

theorem Keeps.endsIn {op : Op α} (h : Keeps Q op) (hs : Q s) (hQP : ∀ t, Q t → P t) : EndsIn P op s := by
  have ht := h s hs
  unfold EndsIn
  cases e : op s with
  | ok a t => rw [e] at ht; exact hQP t ht
  | error f t => rw [e] at ht; exact hQP t ht

theorem EndsIn.bind {x : Op α} {f : α → Op β} (hx : EndsIn Q x s) (hQP : ∀ t, Q t → P t)
    (hf : ∀ a t, Q t → EndsIn P (f a) t) : EndsIn P (x >>= f) s := by
  unfold EndsIn at hx ⊢
  rw [bind_run]
  cases e : x s with
  | ok a t => rw [e] at hx; exact hf a t hx
  | error f t => rw [e] at hx; exact hQP t hx

theorem EndsIn.peek_bind {f : State → α} {g : α → Op β} (h : EndsIn P (g (f s)) s) : EndsIn P (peek f >>= g) s := by
  unfold EndsIn
  rwa [bind_run, peek_run]

theorem EndsIn.change_bind {f : State → State} {g : Unit → Op β} (h : EndsIn P (g ()) (f s)) :
    EndsIn P (change f >>= g) s := by
  unfold EndsIn
  rwa [bind_run, change_run]

theorem EndsIn.ite {c : Prop} [Decidable c] {x y : Op α} (hx : c → EndsIn P x s) (hy : ¬ c → EndsIn P y s) :
    EndsIn P (if c then x else y) s := by
  split
  · exact hx ‹_›
  · exact hy ‹_›

theorem EndsIn.pure (a : α) (h : P s) : EndsIn P (pure a : Op α) s := h

end

/-! ### The part of the record the law reads (47_bot_fsm.md rule R454) -/

/-- What the law of the status wrapper reads of the record. -/
def Msc.wrapper (m : Msc) : Bool × Stage × Word × Word × Word :=
  (m.pendingIo, m.stage, m.csw.signature, m.csw.tag, m.cbw.tag)

/-- The property reads no more of the state than the law of the status wrapper does. -/
def ReadsWrapper (P : State → Prop) : Prop := ∀ {s t : State}, t.msc.wrapper = s.msc.wrapper → P s → P t

/-- The CSW carries the signature and the tag of the CBW. -/
def State.Tagged (s : State) : Prop := s.msc.csw.signature = cswSignature ∧ s.msc.csw.tag = s.msc.cbw.tag

/-- No command is in progress and no answer awaited. -/
def State.NoCommand (s : State) : Prop :=
  s.msc.pendingIo = false ∧ (s.msc.stage = .cmd ∨ s.msc.stage = .needReset)

theorem State.Tagged.cswOk {s : State} (h : s.Tagged) : s.CswOk := fun _ => h

theorem State.NoCommand.cswOk {s : State} (h : s.NoCommand) : s.CswOk := by
  obtain ⟨pending, stage⟩ := h
  intro progress
  rcases stage with stage | stage <;> simp [pending, stage] at progress

theorem Msc.wrapper_inj {m m' : Msc} (h : m'.wrapper = m.wrapper) :
    m'.pendingIo = m.pendingIo ∧ m'.stage = m.stage ∧ m'.csw.signature = m.csw.signature ∧ m'.csw.tag = m.csw.tag
      ∧ m'.cbw.tag = m.cbw.tag := by
  simpa only [Msc.wrapper, Prod.mk.injEq] using h

theorem readsWrapper_tagged : ReadsWrapper State.Tagged := by
  intro s t h ⟨hsig, htag⟩
  obtain ⟨-, -, esig, etag, ecbw⟩ := Msc.wrapper_inj h
  exact ⟨esig.trans hsig, etag.trans (htag.trans ecbw.symm)⟩

theorem readsWrapper_noCommand : ReadsWrapper State.NoCommand := by
  intro s t h hs
  obtain ⟨pending, stage, -⟩ := Msc.wrapper_inj h
  rwa [State.NoCommand, pending, stage]

theorem readsWrapper_cswOk : ReadsWrapper State.CswOk := by
  intro s t h hs progress
  obtain ⟨pending, stage, -⟩ := Msc.wrapper_inj h
  rw [pending, stage] at progress
  exact readsWrapper_tagged h (hs progress)

/-! ### What leaves that part as it is -/

section
variable {P : State → Prop} (R : ReadsWrapper P)
include R

/-- The device controller, its interrupt service and BUS do not write the record. -/
theorem ReadsWrapper.deviceClosed : DeviceClosed P where
  outputs _    := R rfl
  post _ _     := R rfl
  pma _ _      := R rfl
  ram _ _      := R rfl
  fifo _ _ _   := R rfl
  ctx _ _ _    := R rfl
  slotFree _   := R rfl
  slotTake _ _ := R rfl
  reopen       := R rfl
  cursor _ _   := R rfl
  busTape _    := R rfl
  epr _ _      := R rfl
  istr _       := R rfl
  cntr _       := R rfl
  daddr _      := R rfl
  flag _ _     := R rfl
  busReset _   := R rfl
  sof _ _      := R rfl
  wake _       := R rfl

/-- A change of the rest of the state, or of the rest of the record. -/
theorem ReadsWrapper.change {f : State → State} (h : ∀ s, (f s).msc.wrapper = s.msc.wrapper) : Keeps P (change f) :=
  .change fun s => R (h s)

/-- The application's callbacks write the sense triple only (48_scsi.md rule R485). -/
theorem ReadsWrapper.appOnly {α : Type} {op : Op α} (h : AppOnly op) : Keeps P op := by
  have only : ∀ {s t : State}, s.OnlyApp t → P s → P t := fun {s t} ⟨rest⟩ => R (by rw [rest]; rfl)
  intro s hs
  have ht := h s
  cases e : op s with
  | ok a t => rw [e] at ht; exact only ht hs
  | error f t => rw [e] at ht; exact only ht hs

theorem ReadsWrapper.isrSteps (n : Nat) : Keeps P (isrSteps n) := by
  induction n with
  | zero => exact .pure _
  | succ n ih =>
    exact .bind (keeps_busWindow R.deviceClosed) fun _ => .bind (.peek _) fun _ =>
      .bind (.onlyIf (keeps_isrOp R.deviceClosed)) fun _ => ih

theorem ReadsWrapper.boundary : Keeps P boundary := by
  intro s h
  unfold Machine.boundary
  cases s.isrTape with
  | nil => exact h
  | cons n rest => exact R.isrSteps n _ (R (s := s) rfl h)

theorem ReadsWrapper.callDcd {op : Op Unit} (h : Keeps P op) : Keeps P (callDcd op) :=
  .bind R.boundary fun _ => .bind h fun _ => R.boundary

theorem ReadsWrapper.edptXferOp (ep : Byte) (b : Word) (n : Half) : Keeps P (edptXferOp ep b n) :=
  .bind (.peek _) fun _ => .ite (.pure _) <| .bind (R.change fun _ => rfl) fun _ =>
    .bind (R.callDcd (keeps_xferOp R.deviceClosed _ _ _ _)) fun _ => .pure _

theorem ReadsWrapper.edptStallOp (ep : Byte) : Keeps P (edptStallOp ep) :=
  .bind (.peek _) fun _ => .ite (.pure _) <| .bind (R.callDcd (keeps_epStallOp R.deviceClosed _)) fun _ =>
    R.change fun _ => rfl

theorem ReadsWrapper.edptClearStallOp (ep : Byte) : Keeps P (edptClearStallOp ep) :=
  .bind (.peek _) fun _ => .ite (.bind (R.callDcd (keeps_epClearStallOp R.deviceClosed _)) fun _ =>
    R.change fun _ => rfl) (.pure _)

theorem ReadsWrapper.xferStaging (ep : Byte) (n : Nat) : Keeps P (xferStaging ep n) :=
  .bind (.peek _) fun _ => .bind (R.edptXferOp _ _ _) fun _ => .pure _

theorem ReadsWrapper.openPair (n p : Nat) : Keeps P (openPair n p) := by
  induction n generalizing p with
  | zero => exact .pure _
  | succ n ih =>
    refine .bind (keeps_memRead _ _) fun _ => .ite (.pure _) <| .bind (R.change fun _ => rfl) fun _ =>
      .bind (R.callDcd (keeps_epOpenOp R.deviceClosed _ _ _)) fun _ => .bind (R.change fun s => ?_) fun _ => ih _
    dsimp only [State.updMsc_msc]
    split <;> rfl

theorem ReadsWrapper.setRes (r : Word) : Keeps P (setRes r) := R.change fun _ => rfl

end

/-! ### A tagged CSW stays tagged through the SCSI processor and the stages after CMD

Of the CSW they write the status and the residue only, and nothing of the CBW. -/

theorem tagged_toStatus : Keeps State.Tagged toStatus := .change fun _ h => h

theorem tagged_addXferred (x : Word) : Keeps State.Tagged (addXferred x) := .change fun _ h => h

theorem tagged_failScsiOp (status : Byte) : Keeps State.Tagged (failScsiOp status) :=
  .bind (.change fun _ h => h) fun _ => .bind (readsWrapper_tagged.appOnly (appOnly_defaultSense _)) fun _ =>
    .bind (.peek _) fun _ => .onlyIf (readsWrapper_tagged.edptStallOp _)

theorem tagged_senseFailed (v : Sense) (status : Byte) :
    Keeps State.Tagged (do setSenseTo v; failScsiOp status) :=
  .bind (readsWrapper_tagged.appOnly (appOnly_setSenseTo _)) fun _ => tagged_failScsiOp _

theorem tagged_post (ev : Event) : Keeps State.Tagged (post ev) := keeps_post readsWrapper_tagged.deviceClosed ev

theorem tagged_sendCsw : Keeps State.Tagged sendCsw :=
  .bind (.change fun _ h => h) fun _ => .bind (.peek _) fun _ =>
    .bind (readsWrapper_tagged.appOnly (appOnly_stagingWrite _ _)) fun _ => readsWrapper_tagged.xferStaging _ _

theorem tagged_readIoData (r : Int) : Keeps State.Tagged (readIoData r) :=
  .bind (.peek _) fun _ => .ite (tagged_senseFailed _ _) <|
    .ite (tagged_post _) (readsWrapper_tagged.xferStaging _ _)

theorem tagged_procRead10 : Keeps State.Tagged procRead10 := by
  refine .bind (.peek _) fun _ => .bind (readsWrapper_tagged.appOnly (appOnly_ask _)) fun _ =>
    .bind (keeps_ioAnswer _ _ _) fun r => ?_
  cases r with
  | none => exact .change fun _ h => h
  | some r => exact .bind (readsWrapper_tagged.appOnly (appOnly_stagingWrite _ _)) fun _ => tagged_readIoData _

theorem tagged_procWrite10Cmd : Keeps State.Tagged procWrite10Cmd :=
  .bind (.peek _) fun _ => readsWrapper_tagged.xferStaging _ _

theorem tagged_procWrite10Dispatch : Keeps State.Tagged procWrite10Dispatch :=
  .bind (.peek _) fun _ => .bind (readsWrapper_tagged.appOnly (appOnly_ask _)) fun _ =>
    .ite tagged_procWrite10Cmd (tagged_senseFailed _ _)

theorem tagged_keepRest (r : Int) (n : Nat) : Keeps State.Tagged (keepRest r n) :=
  .bind (tagged_addXferred _) fun _ => .bind (keeps_stagingRead _ _) fun _ =>
    readsWrapper_tagged.appOnly (appOnly_stagingWrite _ _)

theorem tagged_writeIoData (x : Word) (r : Int) : Keeps State.Tagged (writeIoData x r) :=
  .bind (.peek _) fun _ => .ite (.bind (tagged_addXferred _) fun _ => tagged_senseFailed _ _) <|
    .ite (.bind (.onlyIf (tagged_keepRest _ _)) fun _ => tagged_post _) <|
      .bind (tagged_addXferred _) fun _ => .bind (.peek _) fun _ => .ite tagged_toStatus tagged_procWrite10Cmd

theorem tagged_write10NewData (x : Word) : Keeps State.Tagged (write10NewData x) := by
  refine .bind (.peek _) fun _ => .bind (keeps_stagingRead _ _) fun _ =>
    .bind (readsWrapper_tagged.appOnly (appOnly_ask _)) fun _ => .bind (keeps_ioAnswer _ _ _) fun r => ?_
  cases r with
  | none => exact .change fun _ h => h
  | some r => exact tagged_writeIoData _ _

theorem tagged_replayIo (s : State) (v : Word) : Keeps State.Tagged (replayIo s v) :=
  .ite (.bind (keeps_deferredAnswer _ _ _) fun _ => tagged_readIoData _) <|
    .ite (.bind (keeps_deferredAnswer _ _ _) fun _ => tagged_writeIoData _ _) (.pure _)

theorem tagged_scsiAnswer (s : State) : Keeps State.Tagged (scsiAnswer s) :=
  .ite (readsWrapper_tagged.appOnly appOnly_procBuiltin) (readsWrapper_tagged.appOnly (appOnly_appScsi _ _))

theorem tagged_answerOther (t : Word) (r : Int) : Keeps State.Tagged (answerOther t r) :=
  .ite (tagged_failScsiOp _) <| .ite (.ite (tagged_failScsiOp _) tagged_toStatus) <| .ite (tagged_failScsiOp _) <|
    .bind (.change fun _ h => h) fun _ => .bind (.peek _) fun _ => readsWrapper_tagged.xferStaging _ _

theorem tagged_dispatchOther : Keeps State.Tagged dispatchOther :=
  .bind (.peek _) fun _ => .ite (.ite (tagged_failScsiOp _) (readsWrapper_tagged.xferStaging _ _)) <|
    .bind (tagged_scsiAnswer _) fun _ => tagged_answerOther _ _

theorem tagged_dispatchRw (c : Cbw) : Keeps State.Tagged (dispatchRw c) :=
  .ite (tagged_failScsiOp _) <| .ite tagged_toStatus <| .ite tagged_procRead10 tagged_procWrite10Dispatch

theorem tagged_endOther : Keeps State.Tagged endOther := .bind (.peek _) fun _ => .ite tagged_toStatus (.raise _)

theorem tagged_outArrived (t : Word) : Keeps State.Tagged (outArrived t) :=
  .bind (readsWrapper_tagged.appOnly (appOnly_appScsi _ _)) fun _ => .onlyIf (tagged_failScsiOp _)

theorem tagged_dataStage (n : Word) : Keeps State.Tagged (dataStage n) :=
  .bind (.peek _) fun _ => .ite (.bind (tagged_addXferred _) fun _ => .bind (.peek _) fun _ =>
      .ite tagged_toStatus tagged_procRead10) <|
    .ite (tagged_write10NewData _) <| .bind (tagged_addXferred _) fun _ =>
      .bind (.onlyIf (tagged_outArrived _)) fun _ => tagged_endOther

/-! ### The law through the class machine -/

/-- The dispatch of a valid CBW tags the CSW (rule R435). -/
theorem dispatchCbw_tags {s : State} {c : Cbw} (h : s.msc.cbw = c) : EndsIn State.Tagged (dispatchCbw c) s := by
  refine .change_bind ?_
  have run : Keeps State.Tagged (if c.op = opRead10 ∨ c.op = opWrite10 then dispatchRw c else dispatchOther) :=
    .ite (tagged_dispatchRw c) tagged_dispatchOther
  exact run.endsIn ⟨rfl, congrArg Cbw.tag h.symm⟩ fun _ ht => ht

theorem noCommand_rejectCbw : Keeps State.NoCommand rejectCbw :=
  .bind (.peek _) fun _ => .bind (.change fun _ h => ⟨h.1, .inr rfl⟩) fun _ =>
    .bind (readsWrapper_noCommand.edptStallOp _) fun _ => readsWrapper_noCommand.edptStallOp _

/-- The command stage starts with no command in progress: the CBW that arrives is accepted and tags the CSW, or is
rejected (rule R435). -/
theorem cmdStage_cswOk {s : State} (h : s.NoCommand) (ep : Byte) (len : Word) :
    EndsIn State.CswOk (cmdStage ep len) s := by
  refine .peek_bind (.ite (fun _ => .pure _ h.cswOk) fun _ => ?_)
  refine .bind (Q := State.NoCommand) ((keeps_stagingRead 0 31).endsIn h fun _ ht => ht) (fun _ ht => ht.cswOk)
    fun bs t ht => .change_bind (.ite (fun _ => ?_) fun _ => ?_)
  · exact .bind (dispatchCbw_tags rfl) (fun _ hu => hu.cswOk) fun _ _ hu => .pure _ hu.cswOk
  · have ht' : (t.updMsc fun m => { m with cbw := decodeCbw bs }).NoCommand := ht
    exact .bind (noCommand_rejectCbw.endsIn ht' fun _ hu => hu) (fun _ hu => hu.cswOk) fun _ _ hu => .pure _ hu.cswOk

/-- The command read is armed in CMD, where the law asks less (rule R432). -/
theorem cswOk_prepareCbw : Keeps State.CswOk prepareCbw := by
  refine .bind (.change fun s h progress => h ?_) fun _ => .bind (.peek _) fun _ =>
    readsWrapper_cswOk.xferStaging _ _
  rcases progress with pending | stage | stage | stage
  · exact .inl pending
  all_goals exact nomatch stage

theorem cswOk_statusSentStage (ep : Byte) (n : Word) : Keeps State.CswOk (statusSentStage ep n) :=
  .bind (.peek _) fun _ => .ite (.bind (keeps_emit readsWrapper_cswOk.deviceClosed _) fun _ => cswOk_prepareCbw)
    (.pure _)

/-- The status step acts in STATUS only, where the CSW is tagged (rule R439). -/
theorem cswOk_statusStep : Keeps State.CswOk statusStep := by
  intro s h
  refine EndsIn.peek_bind (.ite (fun hs => ?_) fun _ => .pure _ h)
  have stage : s.msc.stage = .status := by simp only [Bool.and_eq_true, beq_iff_eq] at hs; exact hs.1
  have run : Keeps State.Tagged (if s.msc.cbw.isIn ∧ s.msc.xferredLen.toNat < s.msc.cbw.totalBytes.toNat
      then edptStallOp s.msc.epIn else sendCsw) := .ite (readsWrapper_tagged.edptStallOp _) tagged_sendCsw
  exact run.endsIn (h (.inr (.inr (.inl stage)))) fun _ ht => ht.cswOk

/-- The handler of the stage the machine is in, no answer being awaited (rule R430). -/
theorem stageHandler_cswOk {s : State} (h : s.CswOk) (hp : s.msc.pendingIo = false) (ep : Byte) (n : Word) :
    EndsIn State.CswOk (stageHandler s.msc.stage ep n) s := by
  cases hstage : s.msc.stage with
  | cmd => exact cmdStage_cswOk ⟨hp, .inl hstage⟩ ep n
  | data =>
    have tagged : s.Tagged := h (.inr (.inl hstage))
    exact .bind ((tagged_dataStage n).endsIn tagged fun _ ht => ht) (fun _ ht => ht.cswOk) fun _ _ ht =>
      .pure _ ht.cswOk
  | statusSent =>
    exact .bind ((cswOk_statusSentStage ep n).endsIn h fun _ ht => ht) (fun _ ht => ht) fun _ _ ht => .pure _ ht
  | status => exact .pure _ h
  | needReset => exact .pure _ h

theorem cswOk_mscEvent (ep : Byte) (n : Word) : Keeps State.CswOk (mscEvent ep n) := by
  intro s h
  refine EndsIn.peek_bind (.ite (fun _ => .pure _ h) fun hi => ?_)
  have pending : s.msc.pendingIo = false := by
    simp only [Msc.ignored, Bool.or_eq_true, not_or] at hi
    simpa using hi.2
  exact .bind (stageHandler_cswOk h pending ep n) (fun _ ht => ht) fun _ _ ht =>
    (Keeps.onlyIf cswOk_statusStep).endsIn ht fun _ hu => hu

theorem cswOk_mscXferCbOp (ep : Byte) (n : Word) : Keeps State.CswOk (mscXferCbOp ep n) :=
  .bind (readsWrapper_cswOk.setRes 1) fun _ => cswOk_mscEvent ep n

/-- A deferred answer is used while it is awaited, and then the CSW is tagged (48_scsi.md rule R515). -/
theorem cswOk_replayDeferred (v : Word) : Keeps State.CswOk (replayDeferred v) := by
  intro s h
  refine EndsIn.peek_bind (.ite (fun pending => .change_bind ?_) fun _ => .pure _ h)
  exact .bind (Q := State.Tagged) ((tagged_replayIo s v).endsIn (h (.inl pending)) fun _ ht => ht)
    (fun _ ht => ht.cswOk) fun _ _ ht => cswOk_statusStep.endsIn ht.cswOk fun _ hu => hu

theorem cswOk_mscClear : Keeps State.CswOk mscClear :=
  .change fun _ _ => State.NoCommand.cswOk ⟨rfl, .inl rfl⟩

theorem cswOk_botReset : Keeps State.CswOk botReset :=
  .change fun _ _ => State.NoCommand.cswOk ⟨rfl, .inl rfl⟩

theorem cswOk_mscOpenOp (d n : Nat) : Keeps State.CswOk (mscOpenOp d n) :=
  .bind (keeps_memRead _ _) fun _ => .ite (.pure _) <| .ite (.pure _) <|
    .bind (readsWrapper_cswOk.change fun _ => rfl) fun _ => .bind (readsWrapper_cswOk.openPair _ _) fun _ =>
      .ite (.bind cswOk_prepareCbw fun _ => .pure _) (.pure _)

/-- The deferred CSW is sent in STATUS only, where it is tagged (rule R441). -/
theorem cswOk_clearFeatureHalt (ea : Byte) : Keeps State.CswOk (clearFeatureHalt ea) := by
  refine .bind (readsWrapper_cswOk.edptClearStallOp ea) fun _ s h => EndsIn.peek_bind ?_
  refine .ite (fun _ => (readsWrapper_cswOk.edptStallOp ea).endsIn h fun _ ht => ht) fun _ =>
    .ite (fun _ => ?_) fun _ => ?_
  · exact .ite (fun stage => tagged_sendCsw.endsIn (h (.inr (.inr (.inl stage)))) fun _ ht => ht.cswOk)
      fun _ => .pure _ h
  · have run : Keeps State.CswOk (if ea = s.msc.epOut then
        if s.msc.stage = .cmd ∧ s.ready s.msc.epOut then prepareCbw else pure () else pure ()) :=
      .ite (.ite cswOk_prepareCbw (.pure _)) (.pure _)
    exact run.endsIn h fun _ ht => ht

theorem cswOk_mscControlOp (a b : Word) : Keeps State.CswOk (mscControlOp a b) :=
  .ite (.bind (cswOk_clearFeatureHalt _) fun _ => .pure _) <| .ite (.pure _) <|
    .ite (.ite (.pure _) (.bind cswOk_botReset fun _ => .pure _)) <|
      .ite (.ite (.pure _) (.bind (.peek _) fun _ =>
        .bind (keeps_emit readsWrapper_cswOk.deviceClosed _) fun _ => .pure _)) (.pure _)

theorem cswOk_handleEvent (ev : Event) : Keeps State.CswOk (handleEvent ev) := by
  have hemit : ∀ o, Keeps State.CswOk (emit o) := keeps_emit readsWrapper_cswOk.deviceClosed
  cases ev with
  | busReset => exact .bind (readsWrapper_cswOk.change fun _ => rfl) fun _ => .bind cswOk_mscClear fun _ => hemit _
  | setupReceived b => exact .bind (readsWrapper_cswOk.change fun _ => rfl) fun _ => hemit _
  | xferComplete ep n =>
    exact .bind (readsWrapper_cswOk.change fun _ => rfl) fun _ => .bind (.peek _) fun _ =>
      .ite (cswOk_mscXferCbOp ep n) (hemit _)
  | deferred v => exact cswOk_replayDeferred v
  | sof f => exact hemit _
  | suspend => exact hemit _
  | resume => exact hemit _

theorem cswOk_taskOp : Keeps State.CswOk taskOp := by
  refine .bind (.peek _) fun q => ?_
  cases q with
  | nil => exact readsWrapper_cswOk.setRes 0
  | cons ev rest =>
    exact .bind (readsWrapper_cswOk.change fun _ => rfl) fun _ => .bind (cswOk_handleEvent ev) fun _ =>
      readsWrapper_cswOk.setRes 1

/-! ### The law through a step -/

theorem perform_cswOk {op : Op Unit} (hk : Keeps State.CswOk op) {s t : State} (hs : s.CswOk)
    (h : perform op s = .next t) : t.CswOk :=
  perform_keeps_of hk (fun _ => readsWrapper_cswOk rfl) hs h

/-- Every command keeps the law: those of files 41 to 46 do not write the record. -/
theorem exec_cswOk (i : Instr) {s t : State} (hs : s.CswOk) (h : exec i s = .next t) : t.CswOk := by
  have R := @readsWrapper_cswOk
  have D : DeviceClosed State.CswOk := ReadsWrapper.deviceClosed R
  have hc : ∀ {op : Op Unit} (ep : Byte), Keeps State.CswOk op → Keeps State.CswOk (checkEp ep >>= fun _ => op) :=
    fun ep hop => .bind (keeps_checkOperand _) fun _ => hop
  have hx : ∀ {α : Type} {op : Op α} {f : α → Word}, Keeps State.CswOk op →
      Keeps State.CswOk (op >>= fun a => setRes (f a)) := fun hop => .bind hop fun _ => ReadsWrapper.setRes R _
  have hu : ∀ {f : State → State}, (∀ s, (f s).msc.wrapper = s.msc.wrapper) → Keeps State.CswOk (change f) :=
    ReadsWrapper.change R
  cases i with
  | eprRead i => exact perform_cswOk (hx (keeps_readEpr D _)) hs h
  | eprWrite i w => exact perform_cswOk (keeps_writeEpr D _ _) hs h
  | eprSetTxStat i st | eprSetRxStat i st => exact perform_cswOk (keeps_rmwEpr D _ _) hs h
  | eprSetTxDtog i d | eprSetRxDtog i d => exact perform_cswOk (keeps_rmwEpr D _ _) hs h
  | eprClrTxCtr i | eprClrRxCtr i => exact perform_cswOk (keeps_rmwEpr D _ _) hs h
  | eprSetType i ty | eprSetEa i ea => exact perform_cswOk (keeps_rmwEpr D _ _) hs h
  | eprMux i ctl => exact perform_cswOk (.bind (keeps_checkOperand _) fun _ => keeps_rmwEpr D _ _) hs h
  | pmaAlloc d n => exact perform_cswOk (hx (keeps_pmaAllocOp D _ _)) hs h
  | pmaReset => exact perform_cswOk (hu (f := fun s => { s with pmaCursor := pmaFirst s.cfg }) fun _ => rfl) hs h
  | btSetAddr i b a => exact perform_cswOk (keeps_btSetAddrOp D _ _ _) hs h
  | btGetAddr i b => exact perform_cswOk (hx (keeps_btGetAddrOp D _ _)) hs h
  | btSetCount i b n => exact perform_cswOk (keeps_btSetCountOp D _ _ _) hs h
  | btGetCount i b => exact perform_cswOk (hx (keeps_btGetCountOp D _ _)) hs h
  | btSetRxBufsize i b n => exact perform_cswOk (keeps_btSetRxBufsizeOp D _ _ _) hs h
  | epAlloc ep ty => exact perform_cswOk (hc _ (hx (keeps_epAllocOp D _ _))) hs h
  | pmaWrite o r n => exact perform_cswOk (keeps_pmaWriteOp D _ _ _) hs h
  | pmaRead o r n => exact perform_cswOk (keeps_pmaReadOp D _ _ _) hs h
  | pmaWriteFifo o f n => exact perform_cswOk (keeps_pmaWriteFifoOp D _ _ _) hs h
  | pmaReadFifo o f n => exact perform_cswOk (keeps_pmaReadFifoOp D _ _ _) hs h
  | dcdInit => exact perform_cswOk (keeps_dcdInitOp D (fun _ => R rfl) fun _ _ => R rfl) hs h
  | epOpen ep ty m => exact perform_cswOk (hc _ (hx (keeps_epOpenOp D _ _ _))) hs h
  | isoAlloc ep n => exact perform_cswOk (hc _ (hx (keeps_isoAllocOp D _ _))) hs h
  | isoActivate ep m => exact perform_cswOk (hc _ (hx (keeps_isoActivateOp D _ _))) hs h
  | epCloseAll => exact perform_cswOk (keeps_epCloseAllOp D) hs h
  | xfer ep b n => exact perform_cswOk (hc _ (hx (keeps_xferOp D _ _ _ _))) hs h
  | xferFifo ep f n => exact perform_cswOk (hc _ (hx (keeps_xferOp D _ _ _ _))) hs h
  | epStall ep => exact perform_cswOk (hc _ (keeps_epStallOp D _)) hs h
  | epClearStall ep => exact perform_cswOk (hc _ (keeps_epClearStallOp D _)) hs h
  | setAddress a => exact perform_cswOk (keeps_writeReg D fun _ => R (by rfl)) hs h
  | remoteWakeup => exact perform_cswOk (.bind (keeps_updateCntr D _ _) fun _ => hu fun _ => by rfl) hs h
  | sofEnable en => exact perform_cswOk (keeps_updateCntr D _ _) hs h
  | connect en => exact perform_cswOk (hu (f := fun s => { s with pullup := en }) fun _ => rfl) hs h
  | irqEnable en => exact perform_cswOk (hu (f := fun s => { s with irqEn := en }) fun _ => rfl) hs h
  | isrService => exact perform_cswOk (keeps_isrOp D) hs h
  | mscInit | mscReset => exact perform_cswOk cswOk_mscClear hs h
  | mscDeinit => exact perform_cswOk (ReadsWrapper.setRes R _) hs h
  | mscOpen d n => exact perform_cswOk (hx (f := id) (cswOk_mscOpenOp _ _)) hs h
  | mscControl st a b =>
    exact perform_cswOk (.bind (keeps_checkOperand _) fun _ => .bind (ReadsWrapper.setRes R _) fun _ =>
      .onlyIf (hx (f := id) (cswOk_mscControlOp _ _))) hs h
  | mscXferCb ep r n => exact perform_cswOk (hc _ (cswOk_mscXferCbOp _ _)) hs h
  | asyncIoDone f v =>
    exact perform_cswOk (.bind (.peek _) fun _ => .ite (.bind (keeps_post D _) fun _ => ReadsWrapper.setRes R _)
      (ReadsWrapper.setRes R _)) hs h
  | taskStep => exact perform_cswOk cswOk_taskOp hs h
  | setSense k a q => exact perform_cswOk (ReadsWrapper.appOnly R (appOnly_setSenseTo _)) hs h
  | edptXfer ep b n => exact perform_cswOk (hc _ (hx (ReadsWrapper.edptXferOp R _ _ _))) hs h
  | edptStall ep => exact perform_cswOk (hc _ (ReadsWrapper.edptStallOp R _)) hs h
  | edptClearStall ep => exact perform_cswOk (hc _ (ReadsWrapper.edptClearStallOp R _)) hs h
  | edptStalled ep | edptReady ep => exact perform_cswOk (hc _ (hx (.peek _))) hs h

theorem issue_cswOk {cmd arg0 arg1 : Word} {s t : State} (hs : s.CswOk) (h : issue cmd arg0 arg1 s = .next t) :
    t.CswOk := by
  have hw : (s.withCommand cmd arg0 arg1).CswOk := readsWrapper_cswOk rfl hs
  unfold issue at h
  split at h
  · exact exec_cswOk _ hw h
  · exact perform_cswOk (.raise _) hw h

theorem cswOk_isrTurn : Keeps State.CswOk isrTurn :=
  .bind (.peek _) fun _ => .onlyIf (keeps_isrOp readsWrapper_cswOk.deviceClosed)

theorem cswOk_taskTurn : Keeps State.CswOk taskTurn := .bind (.peek _) fun _ => .ite (.pure _) cswOk_taskOp

theorem runTurn_cswOk (u : Turn) {s t : State} (hs : s.CswOk) (h : runTurn u s = .next t) : t.CswOk := by
  have D : DeviceClosed State.CswOk := readsWrapper_cswOk.deviceClosed
  cases u with
  | command cmd arg0 arg1 => exact issue_cswOk hs h
  | bus r => exact perform_cswOk (keeps_busStep D r) hs h
  | isr => exact perform_cswOk cswOk_isrTurn hs h
  | task => exact perform_cswOk cswOk_taskTurn hs h
  | ramStore addr bytes => exact perform_cswOk (keeps_memWrite D _ _) hs h
  | setFifo k f => exact perform_cswOk (.ite (readsWrapper_cswOk.change fun _ => by rfl) (.pure _)) hs h

/-- Settles O60: outside the class machine nothing writes the record; in it a CBW is replaced only while no command is
in progress, its acceptance tags the CSW, and everything after CMD leaves signature and tags as they are. -/
theorem stepCswOk : Obligations.StepCswOk := by
  intro s t hs h
  unfold step at h
  split at h
  · cases h
  · unfold nextTurn at h
    split at h
    · exact perform_cswOk (.ite cswOk_isrTurn cswOk_taskTurn) hs h
    · next u rest _ =>
      have scheduled : State.CswOk { s with schedule := rest } := readsWrapper_cswOk (s := s) rfl hs
      exact runTurn_cswOk u scheduled h

end Sys2Proof.Machine

/-! PROOFS. The core endpoint operations (O42), `fail_scsi_op` (O50), and the commands of the class machine that move no
data (O43, O45). -/

namespace Sys2Proof.Machine

/-! ### A choice whose condition is known -/

section
variable {α : Type} {s : State} {r : EStateM.Result Fault State α}

theorem ite_run_pos {c : Prop} [Decidable c] {x y : Op α} (hc : c) (h : x s = r) : (if c then x else y) s = r := by
  rwa [if_pos hc]

theorem ite_run_neg {c : Prop} [Decidable c] {x y : Op α} (hc : ¬ c) (h : y s = r) : (if c then x else y) s = r := by
  rwa [if_neg hc]

end

theorem onlyIf_false {s : State} {b : Bool} (h : b = false) (op : Op Unit) : onlyIf b op s = .ok () s := by
  rw [onlyIf_run, h]
  rfl

theorem onlyIf_true {s : State} {b : Bool} (h : b = true) (op : Op Unit) : onlyIf b op s = op s := by
  rw [onlyIf_run, h]
  rfl

/-! ### The core endpoint operations (47_bot_fsm.md rules R426 to R428) -/

section
variable {s : State} {ep : Byte}

/-- A busy endpoint refuses a transfer (rule R426). -/
theorem edptXferOp_busy (h : s.busyAt ep = true) (buf : Word) (n : Half) : edptXferOp ep buf n s = .ok false s :=
  bind_eq (peek_run _ _) (ite_run_pos h (pure_run false s))

theorem coreStalled_of_stalled (h : s.stalledAt ep = true) : s.coreStalled ep = s := if_pos h

theorem coreStalled_of_unstalled (h : s.stalledAt ep = false) :
    s.coreStalled ep = ((s.epStalledBy ep).putStalled ep true).putBusy ep true := if_neg (by simp [h])

theorem coreUnstalled_of_unstalled (h : s.stalledAt ep = false) : s.coreUnstalled ep = s := if_neg (by simp [h])

theorem coreUnstalled_of_stalled (h : s.stalledAt ep = true) :
    s.coreUnstalled ep = ((s.epUnstalledBy ep).putStalled ep false).putBusy ep false := if_pos h

end

/-- The shadow after both its flags of `ep` are set to `b`. -/
theorem shadow_put (s : State) (ep : Byte) (b : Bool) :
    ((s.putStalled ep b).putBusy ep b).stalledAt ep = b ∧ ((s.putStalled ep b).putBusy ep b).busyAt ep = b
      ∧ ∀ q, epIx q ≠ epIx ep → ((s.putStalled ep b).putBusy ep b).stalledAt q = s.stalledAt q
        ∧ ((s.putStalled ep b).putBusy ep b).busyAt q = s.busyAt q := by
  refine ⟨?_, ?_, fun q hq => ⟨?_, ?_⟩⟩
  · rw [putBusy_stalledAt, putStalled_stalledAt, if_pos rfl]
  · rw [putBusy_busyAt, if_pos rfl]
  · rw [putBusy_stalledAt, putStalled_stalledAt, if_neg hq]
  · rw [putBusy_busyAt, putStalled_busyAt, if_neg hq]

/-- Settles O42: a busy endpoint stops the transfer before its first effect, a matching shadow the stall or its
clearing; else the register is written and both flags of the shadow follow. -/
theorem coreEndpointOperations : Obligations.CoreEndpointOperations := by
  intro s ep hs hq hw hr hep
  have hn : s.cfg.nEp ≤ 8 := (Config.legal_bounds hs.legal).2.1
  have written : s.isOpened ep → ∀ v, (s.putEpr true (s.epIdxOf ep) v).eprAt (s.epIdxOf ep) = v :=
    fun ho v => by rw [putEpr_eprAt ho.inside hn, if_pos rfl]
  have stall (h : s.stalledAt ep = false → s.isOpened ep) : exec (.edptStall ep) s = .next (s.coreStalled ep) :=
    perform_ok hs (bind_eq (checkEp_ok hep) (edptStallOp_quiet hq hr h))
  have clear (h : s.stalledAt ep = true → s.isOpened ep) : exec (.edptClearStall ep) s = .next (s.coreUnstalled ep) :=
    perform_ok hs (bind_eq (checkEp_ok hep) (edptClearStallOp_quiet hq hr h))
  refine ⟨fun buf n hb => ?_, fun buf n hb h => ?_, fun hst => ?_, fun hst ho => ?_, fun hst => ?_, fun hst ho => ?_⟩
  · exact perform_ok hs (bind_eq (checkEp_ok hep) (bind_eq (edptXferOp_busy hb buf n) rfl))
  · exact perform_ok hs (bind_eq (checkEp_ok hep) (bind_eq (edptXferOp_quiet hs.legal hq hw hr hb h) rfl))
  · rw [stall fun h => absurd (hst.symm.trans h) nofun, coreStalled_of_stalled hst]
  · obtain ⟨stalled, busy, others⟩ := shadow_put (s.epStalledBy ep) ep true
    refine ⟨_, stall fun _ => ho, rfl, ?_⟩
    rw [coreStalled_of_unstalled hst]
    refine ⟨stalled, busy, others, ?_⟩
    rw [putBusy_eprAt, putStalled_eprAt, State.epStalledBy, written ho]
    exact statOf_stalledReg _ _
  · rw [clear fun h => absurd (hst.symm.trans h) nofun, coreUnstalled_of_unstalled hst]
  · obtain ⟨unstalled, idle, others⟩ := shadow_put (s.epUnstalledBy ep) ep false
    refine ⟨_, clear fun _ => ho, rfl, ?_⟩
    rw [coreUnstalled_of_stalled hst]
    refine ⟨unstalled, idle, others, ?_⟩
    rw [putBusy_eprAt, putStalled_eprAt, State.epUnstalledBy, written ho]
    exact statOf_unstalledReg _ _

/-! ### `fail_scsi_op` (rule R434) -/

@[simp] theorem coreStalled_msc (s : State) (ep : Byte) : (s.coreStalled ep).msc = s.msc := by
  unfold State.coreStalled
  split <;> rfl

theorem coreStalled_stalledAt (s : State) (ep : Byte) : (s.coreStalled ep).stalledAt ep = true := by
  cases h : s.stalledAt ep
  · rw [coreStalled_of_unstalled h]
    exact (shadow_put _ ep true).1
  · rwa [coreStalled_of_stalled h]

/-- What `fail_scsi_op` leaves before its stall: the record with the status, the residue, the stage and, where none is
set, the default sense. -/
theorem scsiFailed_eq (s : State) (status : Byte) : s.scsiFailed status = s.withMsc { s.msc with
    csw := { s.msc.csw with status := status, dataResidue := s.msc.residue }
    stage := .status
    sense := if s.msc.sense.key = 0 then senseIllegalRequest else s.msc.sense } := by
  unfold State.scsiFailed State.senseDefaulted
  by_cases h : s.msc.sense.key = 0
  · rw [if_pos (by exact h), if_pos h]; rfl
  · rw [if_neg (by exact h), if_neg h]; rfl

theorem opFailed_msc (s : State) (status : Byte) : (s.opFailed status).msc = { s.msc with
    csw := { s.msc.csw with status := status, dataResidue := s.msc.residue }
    stage := .status
    sense := if s.msc.sense.key = 0 then senseIllegalRequest else s.msc.sense } := by
  have before := congrArg State.msc (scsiFailed_eq s status)
  unfold State.opFailed
  split
  · exact (coreStalled_msc _ _).trans before
  · exact before

/-- `fail_scsi_op(status)` with nothing falling inside. -/
theorem failScsiOp_quiet {s : State} (hq : s.Quiet) (hr : s.Running) (h : s.CanFail) (status : Byte) :
    failScsiOp status s = .ok () (s.opFailed status) := by
  have run : failScsiOp status s = onlyIf ((s.scsiFailed status).msc.cbw.totalBytes != 0
        && (s.scsiFailed status).msc.csw.dataResidue != 0)
      (edptStallOp (s.scsiFailed status).msc.dataEp) (s.scsiFailed status) :=
    bind_eq (change_run _ _) (bind_eq (defaultSense_run _ _) rfl)
  have dataEp : (s.scsiFailed status).msc.dataEp = s.msc.dataEp := by rw [scsiFailed_eq]; rfl
  have total : (s.scsiFailed status).msc.cbw.totalBytes = s.msc.cbw.totalBytes := by rw [scsiFailed_eq]; rfl
  have residue : (s.scsiFailed status).msc.csw.dataResidue = s.msc.residue := by rw [scsiFailed_eq]; rfl
  rw [run, onlyIf_run, dataEp, total, residue, State.opFailed]
  by_cases incomplete : s.msc.cbw.totalBytes ≠ 0 ∧ s.msc.residue ≠ 0
  · rw [if_pos incomplete, if_pos (by simpa using incomplete)]
    have opened : s.stalledAt s.msc.dataEp = false → s.isOpened s.msc.dataEp := h incomplete.1 incomplete.2
    rw [scsiFailed_eq]
    generalize ({ s.msc with csw := _, stage := _, sense := _ } : Msc) = m
    exact edptStallOp_quiet (s := s.withMsc m) ⟨hq.bus, hq.isr⟩ hr opened
  · rw [if_neg incomplete, if_neg (by simpa using incomplete)]

/-- Settles O50: the record is written first, and the stall leaves it. -/
theorem failScsiOpResult : Obligations.FailScsiOp := by
  intro s status hq hr _ hopen
  refine ⟨_, failScsiOp_quiet hq hr hopen status, rfl, ?_, fun htotal hresidue => ?_⟩
  · exact opFailed_msc s status
  · rw [State.opFailed, if_pos ⟨htotal, hresidue⟩]
    exact coreStalled_stalledAt _ _

/-! ### Commands of the class machine that move no data (rules R420 to R422, R440, R442; 48_scsi.md rules R481 and
R514) -/

/-- Settles O43: each is one change of the state, but for the post of a deferred answer to a full queue. -/
theorem classCommands : Obligations.ClassCommands := by
  intro s hs
  have async (f : Bool) (v : Word) : exec (.asyncIoDone f v) s
      = perform (if s.msc.pendingIo then do post (.deferred v); setRes 1 else setRes 0) s :=
    perform_congr (bind_eq (peek_run _ _) rfl)
  refine ⟨perform_ok (op := mscClear) hs rfl, perform_ok (op := mscClear) hs rfl, perform_ok (op := setRes 1) hs rfl,
    fun k a q => perform_ok (op := setSenseTo ⟨k, a, q⟩) hs rfl, fun f v =>
      ⟨fun hp => ?_, fun hp hroom => ?_, fun hp hroom => ?_⟩⟩
  · rw [async, hp]
    exact perform_ok (op := setRes 0) hs rfl
  · rw [async, hp]
    exact perform_ok hs (bind_eq (post_ok hroom) rfl)
  · rw [async, hp]
    exact perform_error hs (bind_eq_error (post_full hroom) _)

/-- `MSC_CONTROL` reports success and then, in SETUP, what its request gives (rule R440). -/
theorem exec_mscControl_setup {s t : State} (hs : s.Ready) {a0 a1 r : Word}
    (h : mscControlOp a0 a1 (s.withRes 1) = .ok r t) : exec (.mscControl 0 a0 a1) s = .next (t.withRes r) :=
  perform_ok hs (bind_eq (checkOperand_run _ _) (bind_eq (setRes_run _ _) (bind_eq h rfl)))

/-- The request is the standard Clear-Feature(ENDPOINT_HALT) (rule R440). -/
def IsClearHalt (a0 : Word) : Prop :=
  (a0.extractLsb' 0 8 : Byte).extractLsb' 5 2 = 0 ∧ (a0.extractLsb' 0 8 : Byte).extractLsb' 0 5 = 2
    ∧ a0.extractLsb' 8 8 = 0x01#8 ∧ a0.extractLsb' 16 16 = 0#16

/-- The request is of type CLASS (rule R440). -/
def IsClassRequest (a0 : Word) : Prop := (a0.extractLsb' 0 8 : Byte).extractLsb' 5 2 = 1#2

theorem IsClassRequest.not_clearHalt {a0 : Word} (h : IsClassRequest a0) : ¬ IsClearHalt a0 :=
  fun h' => absurd (h.symm.trans h'.1) (by decide)

section
variable {a0 : Word} (a1 : Word)

theorem mscControlOp_clearHalt (h : IsClearHalt a0) :
    mscControlOp a0 a1 = (do clearFeatureHalt ((a1.extractLsb' 0 16 : Half).setWidth 8); pure 1) := if_pos h

theorem mscControlOp_other (h : ¬ IsClearHalt a0) (h' : ¬ IsClassRequest a0) : mscControlOp a0 a1 = pure 0 :=
  (if_neg h).trans (if_pos h')

theorem mscControlOp_class (h : IsClassRequest a0) : mscControlOp a0 a1 =
    if a0.extractLsb' 8 8 = 0xFF#8 then
      if a0.extractLsb' 16 16 ≠ 0#16 ∨ a1.extractLsb' 16 16 ≠ 0#16 then pure 0 else do botReset; pure 1
    else if a0.extractLsb' 8 8 = 0xFE#8 then
      if a0.extractLsb' 16 16 ≠ 0#16 ∨ a1.extractLsb' 16 16 ≠ 1#16 then pure 0
      else do
        let c ← peek (·.cfg)
        emit (.ctrlReply [BitVec.ofNat 8 (c.lunCount - 1)])
        pure 1
    else pure 0 :=
  (if_neg h.not_clearHalt).trans (if_neg fun h' => h' h)

theorem mscControlOp_reset (h : IsClassRequest a0) (hreq : a0.extractLsb' 8 8 = 0xFF#8)
    (hval : a0.extractLsb' 16 16 = 0#16) (hlen : a1.extractLsb' 16 16 = 0#16) :
    mscControlOp a0 a1 = (do botReset; pure 1) := by
  rw [mscControlOp_class a1 h, if_pos hreq, if_neg (not_or.2 ⟨not_not.2 hval, not_not.2 hlen⟩)]

theorem mscControlOp_maxLun (h : IsClassRequest a0) (hreq : a0.extractLsb' 8 8 = 0xFE#8)
    (hval : a0.extractLsb' 16 16 = 0#16) (hlen : a1.extractLsb' 16 16 = 1#16) :
    mscControlOp a0 a1 = (do
      let c ← peek (·.cfg)
      emit (.ctrlReply [BitVec.ofNat 8 (c.lunCount - 1)])
      pure 1) := by
  rw [mscControlOp_class a1 h, if_neg (by rw [hreq]; decide), if_pos hreq,
    if_neg (not_or.2 ⟨not_not.2 hval, not_not.2 hlen⟩)]

/-- What is neither Clear-Feature(ENDPOINT_HALT) nor a class request with its own `wValue` and `wLength` is refused. -/
theorem mscControlOp_refused (hhalt : ¬ IsClearHalt a0)
    (h : ¬ (IsClassRequest a0 ∧ a0.extractLsb' 16 16 = 0#16 ∧ (a0.extractLsb' 8 8 = 0xFE#8 ∧ a1.extractLsb' 16 16 = 1#16
      ∨ a0.extractLsb' 8 8 = 0xFF#8 ∧ a1.extractLsb' 16 16 = 0#16))) : mscControlOp a0 a1 = pure 0 := by
  by_cases hclass : IsClassRequest a0
  · rw [mscControlOp_class a1 hclass]
    have fields := fun h' => h ⟨hclass, h'⟩
    split
    · next hreset => exact if_pos (by by_contra hno; push Not at hno; exact fields ⟨hno.1, .inr ⟨hreset, hno.2⟩⟩)
    · split
      · next hmax => exact if_pos (by by_contra hno; push Not at hno; exact fields ⟨hno.1, .inl ⟨hmax, hno.2⟩⟩)
      · rfl
  · exact mscControlOp_other a1 hhalt hclass

end

/-- Settles O45: the stage decides first, then the kind of request. -/
theorem mscControlRequests : Obligations.MscControlRequests := by
  intro s a0 a1 hs bm req wValue wLength halt
  have late {st : BitVec 2} (hok : stageOk st = true) (hst : st ≠ 0) :
      exec (.mscControl st a0 a1) s = .next { s with res := 1 } :=
    perform_ok hs (bind_eq ((checkOperand_run _ _).trans (if_pos hok))
      (bind_eq (setRes_run _ _) (onlyIf_false (by simpa using hst) _)))
  refine ⟨late rfl (by decide), late rfl (by decide), fun hclass hreq hval hlen => ?_,
    fun hclass hreq hval hlen => ?_, fun hhalt hclass => ?_⟩
  · refine exec_mscControl_setup (r := 1) (t := (s.withRes 1).observed _) hs ?_
    rw [mscControlOp_maxLun a1 hclass hreq hval hlen]
    rfl
  · have run : mscControlOp a0 a1 (s.withRes 1) = .ok 1 ((s.withRes 1).updMsc fun m =>
        { m with stage := .cmd, totalLen := 0, xferredLen := 0, sense := ⟨0, 0, 0⟩, pendingIo := false }) := by
      rw [mscControlOp_reset a1 hclass hreq hval hlen]
      rfl
    exact exec_mscControl_setup hs run
  · exact exec_mscControl_setup (r := 0) (t := s.withRes 1) hs (by rw [mscControlOp_refused a1 hhalt hclass]; rfl)

end Sys2Proof.Machine

/-! PROOFS. Clear-Feature(ENDPOINT_HALT) (O46), and `MSC_XFER_CB` where no data moves (O47). -/

namespace Sys2Proof.Machine

/-! ### A clear-stall inside a class operation (47_bot_fsm.md rule R428) -/

theorem withRes_self {s : State} {r : Word} (h : s.res = r) : s.withRes r = s := by
  subst h
  rfl

theorem coreUnstalled_withRes (s : State) (ep : Byte) (r : Word) :
    (s.withRes r).coreUnstalled ep = (s.coreUnstalled ep).withRes r := by
  cases h : s.stalledAt ep
  · rw [coreUnstalled_of_unstalled h]
    exact coreUnstalled_of_unstalled (s := s.withRes r) h
  · rw [coreUnstalled_of_stalled h]
    exact coreUnstalled_of_stalled (s := s.withRes r) h

@[simp] theorem coreUnstalled_msc (s : State) (ep : Byte) : (s.coreUnstalled ep).msc = s.msc := by
  unfold State.coreUnstalled
  split <;> rfl

theorem coreUnstalled_isOpened {s : State} {ep q : Byte} (h : s.isOpened q) : (s.coreUnstalled ep).isOpened q := by
  unfold State.coreUnstalled
  split
  · exact h
  · exact h

theorem State.Calm.coreUnstalled {s : State} (h : s.Calm) (ep : Byte) : (s.coreUnstalled ep).Calm := by
  obtain ⟨⟨bus, isr⟩, running, legal, pmaWf⟩ := h
  unfold State.coreUnstalled
  split
  · exact ⟨⟨bus, isr⟩, running, legal, pmaWf⟩
  · exact ⟨⟨bus, isr⟩, running, legal, pmaWf⟩

theorem State.Calm.withRes {s : State} (h : s.Calm) (r : Word) : (s.withRes r).Calm := by
  obtain ⟨⟨bus, isr⟩, running, legal, pmaWf⟩ := h
  exact ⟨⟨bus, isr⟩, running, legal, pmaWf⟩

/-! ### Clear-Feature(ENDPOINT_HALT) (rule R441) -/

/-- The request and the endpoint of rule R441 as the statement reads them off the two words. -/
theorem isClearHalt_of_fields {a0 : Word} (h : a0.extractLsb' 5 2 = 0#2 ∧ a0.extractLsb' 0 5 = 2#5
    ∧ a0.extractLsb' 8 8 = 0x01#8 ∧ a0.extractLsb' 16 16 = 0#16) : IsClearHalt a0 := by
  obtain ⟨type, recipient, rest⟩ := h
  refine ⟨Eq.trans ?_ type, Eq.trans ?_ recipient, rest⟩
  · ext k hk; simp
  · ext k hk; simp

theorem setWidth_extractLsb'_low (a : Word) : (a.extractLsb' 0 16 : Half).setWidth 8 = a.extractLsb' 0 8 := by
  ext k hk; simp; omega

/-- The request leaves 1 in `RES`, whatever `clear_feature_halt` did. -/
theorem exec_clearHalt {s t : State} (hs : s.Ready) {a0 a1 : Word} (h : IsClearHalt a0)
    (run : clearFeatureHalt (a1.extractLsb' 0 8) (s.withRes 1) = .ok () t) :
    exec (.mscControl 0 a0 a1) s = .next t := by
  have res : t.res = 1 := by
    have kept := keeps_clearFeatureHalt (classClosed_res 1) (a1.extractLsb' 0 8) (s.withRes 1) rfl
    rwa [run] at kept
  have op : mscControlOp a0 a1 (s.withRes 1) = .ok 1 t := by
    rw [mscControlOp_clearHalt a1 h, setWidth_extractLsb'_low]
    exact bind_eq run rfl
  rw [exec_mscControl_setup hs op, withRes_self res]

/-- `clear_feature_halt(ea)` once the stall is cleared (rule R441). -/
theorem clearFeatureHalt_run {s u : State} {ea : Byte} (h : edptClearStallOp ea s = .ok () u) :
    clearFeatureHalt ea s =
      if u.msc.stage = .needReset then edptStallOp ea u
      else if ea = u.msc.epIn then if u.msc.stage = .status then sendCsw u else .ok () u
      else if ea = u.msc.epOut then
        if u.msc.stage = .cmd ∧ u.ready u.msc.epOut then prepareCbw u else .ok () u
      else .ok () u := by
  refine bind_eq h (bind_eq (peek_run _ _) ?_)
  simp only [id, ite_run, pure_run]

/-- Settles O46: the stage and the endpoint choose the one operation that follows the clearing. -/
theorem clearFeatureHaltRequest : Obligations.ClearFeatureHalt := by
  intro s a0 a1 hs hq hw hr hreq ea u hopen
  have calm : u.Calm := (State.Calm.coreUnstalled ⟨hq, hr, hs.legal, hw⟩ ea).withRes 1
  have msc : u.msc = s.msc := coreUnstalled_msc s ea
  have cleared : edptClearStallOp ea (s.withRes 1) = .ok () u := by
    rw [edptClearStallOp_quiet (s := s.withRes 1) ⟨hq.bus, hq.isr⟩ hr hopen, coreUnstalled_withRes]
  have run := clearFeatureHalt_run cleared
  rw [msc] at run
  have done {t : State} (h : clearFeatureHalt ea (s.withRes 1) = .ok () t) : exec (.mscControl 0 a0 a1) s = .next t :=
    exec_clearHalt hs (isClearHalt_of_fields hreq) h
  refine ⟨fun hst ho => ?_, fun hst hea h => ?_, fun hst hea hne hready h => ?_, fun hst hin hout => ?_⟩
  · have opened : u.isOpened ea := coreUnstalled_isOpened (s := s) ho
    exact done (run.trans ((if_pos hst).trans (edptStallOp_quiet calm.quiet calm.running fun _ => opened)))
  · rw [← show u.msc.epIn = ea by rw [msc, hea]] at h
    refine done (run.trans ?_)
    rw [if_neg (by simp [hst]), if_pos hea, if_pos hst]
    exact sendCsw_quiet calm.legal calm.quiet calm.pmaWf calm.running h
  · rw [← show u.msc.epOut = ea by rw [msc, hea]] at h
    refine done (run.trans ?_)
    rw [if_neg (by simp [hst]), if_neg hne, if_pos hea, if_pos ⟨hst, hea ▸ hready⟩]
    exact prepareCbw_quiet calm.legal calm.quiet calm.pmaWf calm.running h
  · refine done (run.trans ?_)
    rw [if_neg hst]
    split
    · next hea => exact if_neg fun h => hin ⟨h, hea⟩
    · next hne =>
      split
      · next hea => exact if_neg fun h => hout ⟨h.1, hea, hne, hea ▸ h.2⟩
      · rfl

/-! ### The transfer callback (47_bot_fsm.md rules R430, R431) -/

/-- A transfer changes the registers, the contexts, packet memory and the FIFOs only (44_dcd_ops.md rules R313 to
R315). -/
structure State.OnlyXfer (s t : State) : Prop where
  rest : t = { s with epr := t.epr, istr := t.istr, xc := t.xc, pma := t.pma, fifos := t.fifos }

theorem State.OnlyXfer.trans {s t u : State} (h : s.OnlyXfer t) (h' : t.OnlyXfer u) : s.OnlyXfer u := by
  obtain ⟨h⟩ := h
  obtain ⟨h'⟩ := h'
  constructor
  rw [h'] at *
  rw [h]

section
variable (s : State) (n : BitVec 4)

theorem sent_only : s.OnlyXfer (s.sent n) := by
  have taken (u : State) (x : XferCtx) : u.OnlyXfer (u.packetTaken x) := by
    unfold State.packetTaken
    split
    · exact ⟨rfl⟩
    · exact ⟨rfl⟩
  have stored (u : State) (a : Nat) (bs : List Byte) : u.OnlyXfer (u.pmaStored a bs) := ⟨rfl⟩
  have ctx (u : State) (f : XferCtx → XferCtx) : u.OnlyXfer (u.updCtx n .inn f) := ⟨rfl⟩
  have count (u : State) (i : Nat) (b : Bool) (k : Nat) : u.OnlyXfer (u.countStored i b k) := ⟨rfl⟩
  have epr (u : State) (i : Nat) (v : Half) : u.OnlyXfer (u.putEpr true i v) := ⟨rfl⟩
  exact ((((taken s _).trans (stored _ _ _)).trans (ctx _ _)).trans (count _ _ _ _)).trans (epr _ _ _)

theorem armed_only : s.OnlyXfer (s.armed n) := by
  have countw (u : State) (i : Nat) (b : Bool) (v : Half) : u.OnlyXfer (u.countwStored i b v) := ⟨rfl⟩
  have epr (u : State) (i : Nat) (v : Half) : u.OnlyXfer (u.putEpr true i v) := ⟨rfl⟩
  unfold State.armed
  refine .trans (.trans ?_ (countw _ _ _ _)) (epr _ _ _)
  split
  · exact countw s _ _ _
  · exact ⟨rfl⟩

theorem xferred_only (ep : Byte) (buf : Word) (ff : Option Word) (total : Half) :
    s.OnlyXfer (s.xferred ep buf ff total) := by
  have started : s.OnlyXfer (s.started ep buf ff total) := ⟨rfl⟩
  unfold State.xferred
  cases epDir ep
  · exact started.trans (armed_only _ _)
  · exact started.trans (sent_only _ _)

end

theorem xferred_msc (s : State) (ep : Byte) (buf : Word) (ff : Option Word) (n : Half) :
    (s.xferred ep buf ff n).msc = s.msc := by
  rw [(xferred_only s ep buf ff n).rest]

/-- A transfer that is started, and one that is refused, leaves its endpoint busy (rule R426). -/
theorem coreXferred_busyAt (s : State) (ep : Byte) (n : Nat) : (s.coreXferred ep n).busyAt ep = true := by
  unfold State.coreXferred
  split
  · next h => exact h
  · have busy : (s.putBusy ep true).busyAt ep = true := (putBusy_busyAt s ep ep true).trans (if_pos rfl)
    rw [State.busyAt, (xferred_only _ _ _ _ _).rest]
    exact busy

@[simp] theorem coreXferred_msc (s : State) (ep : Byte) (n : Nat) : (s.coreXferred ep n).msc = s.msc := by
  unfold State.coreXferred
  split
  · rfl
  · exact xferred_msc _ _ _ _ _

@[simp] theorem cbwPrepared_msc (s : State) : s.cbwPrepared.msc = { s.msc with stage := .cmd } := coreXferred_msc _ _ _

/-- Which events the class machine handles (rule R431). -/
theorem Msc.ignored_eq_false_iff {m : Msc} {ep : Byte} :
    m.ignored ep = false ↔ m.epOut ≠ 0 ∧ (ep = m.epIn ∨ ep = m.epOut) ∧ m.pendingIo = false := by
  simp only [Msc.ignored, Bool.or_eq_false_iff, Bool.and_eq_false_iff, beq_eq_false_iff_ne, bne_eq_false_iff_eq,
    and_assoc]
  rfl

section
variable {s t : State} {ep : Byte} {len : Word}

theorem mscEvent_ignored (h : s.msc.ignored ep = true) : mscEvent ep len s = .ok () s :=
  bind_eq (peek_run _ _) (ite_run_pos h rfl)

/-- The handler of the stage and the status step (rule R430). -/
theorem mscEvent_handled (hi : s.msc.ignored ep = false) {go : Bool}
    (h : stageHandler s.msc.stage ep len s = .ok go t) :
    mscEvent ep len s = if go then statusStep t else .ok () t :=
  bind_eq (peek_run _ _) (ite_run_neg (by simp [hi]) (bind_eq h (onlyIf_run _ _ _)))

theorem mscEvent_fault (hi : s.msc.ignored ep = false) {f : Fault}
    (h : stageHandler s.msc.stage ep len s = .error f t) : mscEvent ep len s = .error f t :=
  bind_eq (peek_run _ _) (ite_run_neg (by simp [hi]) (bind_eq_error h _))

theorem statusStep_idle (h : s.msc.stage ≠ .status) : statusStep s = .ok () s :=
  bind_eq (peek_run _ _) (onlyIf_false (by simp [h]) _)

/-- A handler that leaves a stage other than STATUS ends the callback (rule R439). -/
theorem mscEvent_ends (hi : s.msc.ignored ep = false) {go : Bool} (h : stageHandler s.msc.stage ep len s = .ok go t)
    (hstage : t.msc.stage ≠ .status) : mscEvent ep len s = .ok () t := by
  rw [mscEvent_handled hi h]
  split
  · exact statusStep_idle hstage
  · rfl

variable (hs : s.Ready) (hep : epOk ep = true) (result : BitVec 2)
include hs hep

theorem exec_mscXferCb_ok (h : mscEvent ep len (s.withRes 1) = .ok () t) :
    exec (.mscXferCb ep result len) s = .next t :=
  perform_ok hs (bind_eq (checkEp_ok hep) (bind_eq (setRes_run _ _) h))

theorem exec_mscXferCb_error {f : Fault} (h : mscEvent ep len (s.withRes 1) = .error f t) :
    exec (.mscXferCb ep result len) s = .next (takeFault f t) :=
  perform_error hs (bind_eq (checkEp_ok hep) (bind_eq (setRes_run _ _) h))

end

/-! ### Events that move no data (rules R431, R435, R438) -/

section
variable {s : State} {ep : Byte} {len : Word}

/-- A handler that changes nothing outside STATUS is as good as an ignored event. -/
theorem mscEvent_unchanged {go : Bool} (h : stageHandler s.msc.stage ep len s = .ok go s)
    (hstage : s.msc.stage ≠ .status) : mscEvent ep len s = .ok () s := by
  cases hi : s.msc.ignored ep
  · exact mscEvent_ends hi h hstage
  · exact mscEvent_ignored hi

theorem cmdStage_in (h : ep ≠ s.msc.epOut) : cmdStage ep len s = .ok false s :=
  bind_eq (peek_run _ _) (ite_run_pos h rfl)

theorem statusSentStage_other (h : ¬ (ep = s.msc.epIn ∧ len = 13)) : statusSentStage ep len s = .ok () s :=
  bind_eq (peek_run _ _) (ite_run_neg h rfl)

/-- The completion of the CSW (rule R438). -/
theorem statusSentStage_csw (hc : s.Calm) (hep : ep = s.msc.epIn) (hlen : len = 13)
    (h : ((s.observed (.app (.complete s.msc.cbw.lunNum s.msc.cbw.op))).updMsc fun m =>
      { m with stage := .cmd }).CanCoreXfer s.msc.epOut 31) :
    statusSentStage ep len s = .ok () (s.observed (.app (.complete s.msc.cbw.lunNum s.msc.cbw.op))).cbwPrepared := by
  refine bind_eq (peek_run _ _) (ite_run_pos ⟨hep, hlen⟩ (bind_eq (emit_run _ _) ?_))
  exact prepareCbw_quiet (s := s.observed _) hc.legal ⟨hc.quiet.bus, hc.quiet.isr⟩ hc.pmaWf hc.running h

end

/-- Settles O47: outside STATUS a handler that changes nothing ends the callback; the CSW's completion leads to CMD. -/
theorem mscXferCbIdleStages : Obligations.MscXferCbIdleStages := by
  intro s ep result len hs hq hw hr hep u member
  have done {t : State} (h : mscEvent ep len u = .ok () t) : exec (.mscXferCb ep result len) s = .next t :=
    exec_mscXferCb_ok hs hep result h
  have unchanged {go : Bool} {st : Stage} (hst : s.msc.stage = st) (hne : st ≠ .status)
      (h : stageHandler st ep len u = .ok go u) : exec (.mscXferCb ep result len) s = .next u :=
    done (mscEvent_unchanged (s := u) (go := go) (by rwa [← hst] at h) (by rw [← hst] at hne; exact hne))
  refine ⟨fun hm => ?_, fun hst => ?_, fun hst hne => ?_, fun hst hother => ?_, fun hm hst hin hlen => ?_⟩
  · exact done (mscEvent_ignored (Bool.eq_true_of_not_eq_false fun hi => hm (Msc.ignored_eq_false_iff.1 hi)))
  · exact unchanged (go := true) hst nofun rfl
  · exact unchanged hst nofun (cmdStage_in hne)
  · exact unchanged hst nofun (bind_eq (statusSentStage_other (s := u) hother) (pure_run true u))
  · intro v h
    have calm : u.Calm := State.Calm.withRes ⟨hq, hr, hs.legal, hw⟩ 1
    have handled : stageHandler u.msc.stage ep len u = .ok true v.cbwPrepared := by
      rw [show u.msc.stage = .statusSent from hst]
      exact bind_eq (statusSentStage_csw calm hin hlen h) (pure_run true _)
    refine done (mscEvent_ends (Msc.ignored_eq_false_iff.2 hm) handled ?_)
    rw [cbwPrepared_msc]
    nofun

end Sys2Proof.Machine

/-! PROOFS. `MSC_OPEN` (O44). -/

namespace Sys2Proof.Machine

/-! ### Opening one bulk endpoint (47_bot_fsm.md rule R423) -/

/-- The shadow of an endpoint is cleared. -/
def State.shadowCleared (s : State) (ea : Byte) : State := (s.putBusy ea false).putStalled ea false

/-- The address of a bulk endpoint is kept by its direction. -/
def Msc.withBulk (m : Msc) (ea : Byte) : Msc := if ea.getLsbD 7 then { m with epIn := ea } else { m with epOut := ea }

/-- One endpoint descriptor of `MSC_OPEN` is opened on slot `i`. -/
def State.bulkOpened (s : State) (ea : Byte) (mps : Half) (i : Nat) : State :=
  ((s.shadowCleared ea).epOpened ea xferBulk (mps.setWidth 11) i).updMsc (·.withBulk ea)

/-- The endpoint descriptor at `p` names a bulk endpoint. -/
structure State.BulkDescriptor (s : State) (p : Nat) : Prop where
  mapped : Config.MappedRange s.cfg p 7
  type   : Memory.read s.ram (p + 1) = 0x05
  bulk   : (Memory.read s.ram (p + 3)).extractLsb' 0 2 = xferBulk

/-- `wMaxPacketSize` of the endpoint descriptor at `p`. -/
def State.descriptorSize (s : State) (p : Nat) : Half := le16 (Memory.read s.ram (p + 4)) (Memory.read s.ram (p + 5))

/-- Opening changes the registers, the slots, the contexts, packet memory and the cursor only (44_dcd_ops.md rule
R304). -/
structure State.OnlyOpened (s t : State) : Prop where
  rest : t = { s with
    epr := t.epr, istr := t.istr, slots := t.slots, xc := t.xc, pma := t.pma, pmaCursor := t.pmaCursor }

theorem State.OnlyOpened.trans {s t u : State} (h : s.OnlyOpened t) (h' : t.OnlyOpened u) : s.OnlyOpened u := by
  obtain ⟨h⟩ := h
  obtain ⟨h'⟩ := h'
  constructor
  rw [h'] at *
  rw [h]

theorem epOpened_only (s : State) (ep : Byte) (ty : BitVec 2) (mps : BitVec 11) (i : Nat) :
    s.OnlyOpened (s.epOpened ep ty mps i) := by
  have slot (u : State) : u.OnlyOpened (u.slotTaken ep ty i) := ⟨rfl⟩
  have cursor (u : State) (k : Nat) : u.OnlyOpened (u.withCursor k) := ⟨rfl⟩
  have addr (u : State) (a : Half) : u.OnlyOpened (u.addrStored i (bufOf (epDir ep)) a) := ⟨rfl⟩
  have ctx (u : State) (f : XferCtx → XferCtx) : u.OnlyOpened (u.updCtx (epNum ep) (epDir ep) f) := ⟨rfl⟩
  have epr (u : State) (v : Half) : u.OnlyOpened (u.putEpr true i v) := ⟨rfl⟩
  exact ((((slot s).trans (cursor _ _)).trans (addr _ _)).trans (ctx _ _)).trans (epr _ _)

section
variable (s : State) (ea : Byte) (mps : Half) (i : Nat)

/-- One endpoint of the pair: its shadow and its address in the record change too. -/
theorem bulkOpened_rest : s.bulkOpened ea mps i = { s with
    epr := (s.bulkOpened ea mps i).epr, istr := (s.bulkOpened ea mps i).istr
    slots := (s.bulkOpened ea mps i).slots, xc := (s.bulkOpened ea mps i).xc, pma := (s.bulkOpened ea mps i).pma
    pmaCursor := (s.bulkOpened ea mps i).pmaCursor
    epBusy := (s.shadowCleared ea).epBusy, epStalled := (s.shadowCleared ea).epStalled, msc := s.msc.withBulk ea } := by
  obtain ⟨rest⟩ := epOpened_only (s.shadowCleared ea) ea xferBulk (mps.setWidth 11) i
  unfold State.bulkOpened
  generalize (s.shadowCleared ea).epOpened ea xferBulk (mps.setWidth 11) i = t at rest ⊢
  rw [rest]
  rfl

theorem bulkOpened_cfg : (s.bulkOpened ea mps i).cfg = s.cfg := by rw [bulkOpened_rest]

theorem bulkOpened_ram : (s.bulkOpened ea mps i).ram = s.ram := by rw [bulkOpened_rest]

theorem bulkOpened_msc : (s.bulkOpened ea mps i).msc = s.msc.withBulk ea := by rw [bulkOpened_rest]

theorem bulkOpened_ctx_other {n : BitVec 4} {d : Dir} (hd : d ≠ epDir ea) :
    (s.bulkOpened ea mps i).ctx n d = s.ctx n d := by
  have updMsc_ctx (u : State) (f : Msc → Msc) : (u.updMsc f).ctx n d = u.ctx n d := rfl
  rw [State.bulkOpened, updMsc_ctx, State.epOpened, putEpr_ctx, updCtx_ctx, if_neg fun h => hd h.2, addrStored_ctx,
    withCursor_ctx, slotTaken_ctx]
  rfl

theorem Msc.withBulk_in {m : Msc} (h : ea.getLsbD 7 = true) : m.withBulk ea = { m with epIn := ea } := if_pos h

theorem Msc.withBulk_out {m : Msc} (h : ea.getLsbD 7 = false) : m.withBulk ea = { m with epOut := ea } :=
  if_neg (by rw [h]; decide)

end

theorem State.Calm.bulkOpened {s : State} (h : s.Calm) (ea : Byte) (mps : Half) (i : Nat) :
    (s.bulkOpened ea mps i).Calm := by
  obtain ⟨⟨bus, isr⟩, running, legal, pmaWf⟩ := h
  have stored : Memory.wf (s.bulkOpened ea mps i).pma := by
    rw [State.bulkOpened, State.updMsc_pma, (epOpened_rest _ _ _ _ _).1]
    exact Memory.wf_writeBytes pmaWf _ _
  have rest := bulkOpened_rest s ea mps i
  generalize s.bulkOpened ea mps i = t at stored rest ⊢
  rw [rest]
  exact ⟨⟨bus, isr⟩, running, legal, stored⟩

section
variable {s : State} {ea : Byte} {mps : Half} {i : Nat} (hl : s.cfg.legal = true)
  (h : (s.shadowCleared ea).CanOpen ea xferBulk (mps.setWidth 11) i)
include hl h

theorem bulkOpened_isOpened : (s.bulkOpened ea mps i).isOpened ea :=
  epOpened_opened (s := s.shadowCleared ea) hl h.slot

theorem bulkOpened_slotAt (j : Nat) : (s.bulkOpened ea mps i).slotAt j
    = if j = i then (s.slotAt i).take (epNum ea) (epDir ea) xferBulk else s.slotAt j :=
  epOpened_slotAt (s := s.shadowCleared ea) (mps := mps.setWidth 11) hl h.slot j

/-- Opening an endpoint leaves an open one of the other direction open, in the same slot or not (rule R251). -/
theorem bulkOpened_isOpened_opp {q : Byte} (hd : epDir q = (epDir ea).opp) (ho : s.isOpened q) :
    (s.bulkOpened ea mps i).isOpened q := by
  have idx : (s.bulkOpened ea mps i).ctx (epNum q) (epDir q) = s.ctx (epNum q) (epDir q) :=
    bulkOpened_ctx_other s ea mps i (by rw [hd]; cases epDir ea <;> nofun)
  have ho' : s.opened (epNum q) (epDir q) = true := ho
  change State.opened _ _ _ = true
  rw [State.opened, idx, bulkOpened_cfg]
  rw [State.opened] at ho'
  simp only [Bool.and_eq_true, decide_eq_true_eq, beq_iff_eq] at ho' ⊢
  obtain ⟨⟨inside, alloc⟩, number⟩ := ho'
  refine ⟨⟨inside, ?_⟩, ?_⟩
  · rw [bulkOpened_slotAt hl h]
    split
    · next hi =>
      rw [hi] at alloc
      rw [hd] at alloc ⊢
      exact (Slot.take_fields _ _ _ _).2.2.2.trans alloc
    · exact alloc
  · rw [bulkOpened_slotAt hl h]
    split
    · next hi =>
      rw [hi] at number
      have taken : (s.slotAt i).epNum = (epNum ea).setWidth 8 := by
        have here : (s.slotAt i).isOpen (epNum ea) (epDir ea) xferBulk = true
          ∨ (s.slotAt i).fits (epNum ea) (epDir ea) xferBulk = true := h.slot.here
        simp only [Slot.isOpen, Slot.fits, Bool.and_eq_true, Bool.or_eq_true, beq_iff_eq] at here
        rcases here with ⟨⟨-, same⟩, -⟩ | ⟨⟨-, free | same⟩, -⟩
        · exact same
        · rw [number] at free
          exact absurd free (by generalize epNum q = n; revert n; decide)
        · exact same
      exact taken.symm.trans number
    · exact number

/-- One step of the pair (rule R423). -/
theorem openPair_succ (hc : s.Calm) {p : Nat} (hd : s.BulkDescriptor p) (hea : Memory.read s.ram (p + 2) = ea)
    (hmps : s.descriptorSize p = mps) (n : Nat) :
    openPair (n + 1) p s = openPair n (p + (Memory.read s.ram p).toNat) (s.bulkOpened ea mps i) := by
  have byte : ∀ k, k < 7 → (Memory.readBytes s.ram p 7).getD k 0 = Memory.read s.ram (p + k) :=
    fun k hk => (Memory.getD_readBytes _ _ _ _).trans (if_pos hk)
  have isr : ((s.shadowCleared ea).epOpened ea xferBulk (mps.setWidth 11) i).isrTape = [] := by
    rw [(epOpened_only _ _ _ _ _).rest]
    exact hc.quiet.isr
  have run : callDcd (epOpenOp ea xferBulk (mps.setWidth 11)) (s.shadowCleared ea)
      = .ok () ((s.shadowCleared ea).epOpened ea xferBulk (mps.setWidth 11) i) :=
    callDcd_eq hc.quiet.isr (epOpenOp_quiet (s := s.shadowCleared ea) hl hc.quiet.bus hc.pmaWf hc.running h) isr
  have accepted : ¬ ((Memory.readBytes s.ram p 7).getD 1 0 ≠ 0x05
      ∨ ((Memory.readBytes s.ram p 7).getD 3 0).extractLsb' 0 2 ≠ xferBulk) := by
    rw [byte 1 (by decide), byte 3 (by decide), hd.type, hd.bulk]
    simp
  have cleared : change (fun s => (s.putBusy ea false).putStalled ea false) s = .ok () (s.shadowCleared ea) := rfl
  have named : changeMsc (·.withBulk ea) ((s.shadowCleared ea).epOpened ea xferBulk (mps.setWidth 11) i)
      = .ok () (s.bulkOpened ea mps i) := change_run _ _
  refine bind_eq (memRead_ok hd.mapped) (ite_run_neg accepted ?_)
  simp only [byte 2 (by decide), byte 4 (by decide), byte 5 (by decide), byte 0 (by decide), hea]
  rw [← State.descriptorSize, hmps]
  generalize (s.shadowCleared ea).epOpened ea xferBulk (mps.setWidth 11) i = t at run named
  generalize s.bulkOpened ea mps i = u at named ⊢
  exact bind_eq cleared (bind_eq run (bind_eq named rfl))

end

/-! ### `MSC_OPEN` (rule R423) -/

/-- An OUT transfer to the staging buffer completes on every open endpoint (44_dcd_ops.md rule R313). -/
theorem canCoreXfer_out {s : State} {ep : Byte} (ho : s.isOpened ep) (hd : epDir ep = .out) {n : Nat} (hn : n ≤ 1024) :
    s.CanCoreXfer ep n := by
  intro _
  refine ⟨ho, fun h => absurd (hd.symm.trans h) nofun, fun _ => ?_⟩
  have ctx := started_ctx (s.putBusy ep true) ep (BitVec.ofNat 32 s.cfg.mscBufAddr) none (BitVec.ofNat 16 n)
  rw [hd] at ctx
  refine ⟨?_, ?_⟩
  · rw [ctx, ← hd]
    exact ho.inside
  · rw [ctx]
    refine Nat.le_trans (Nat.min_le_left _ _) (Nat.le_trans ?_ hn)
    change (BitVec.ofNat 16 n).toNat ≤ n
    rw [BitVec.toNat_ofNat]
    exact Nat.mod_le _ _

section
variable {s : State} {desc maxLen : Nat} (hm : Config.MappedRange s.cfg desc 9)
include hm

/-- The fields of the interface descriptor decide whether it is claimed. -/
theorem mscOpenOp_run : mscOpenOp desc maxLen s =
    if Memory.read s.ram (desc + 5) ≠ 0x08 ∨ Memory.read s.ram (desc + 6) ≠ 0x06
        ∨ Memory.read s.ram (desc + 7) ≠ 0x50 then .ok 0 s
    else if maxLen < 23 then .ok 0 s
    else (do
      let ok ← openPair 2 (desc + (Memory.read s.ram desc).toNat)
      if ok then do prepareCbw; pure 23 else pure 0 : Op Word)
        (s.updMsc fun m => { m with itfNum := Memory.read s.ram (desc + 2) }) := by
  have byte : ∀ k, k < 9 → (Memory.readBytes s.ram desc 9).getD k 0 = Memory.read s.ram (desc + k) :=
    fun k hk => (Memory.getD_readBytes _ _ _ _).trans (if_pos hk)
  refine bind_eq (memRead_ok hm) ?_
  simp only [byte 0 (by decide), byte 2 (by decide), byte 5 (by decide), byte 6 (by decide), byte 7 (by decide),
    ite_run]
  rfl

theorem mscOpenOp_unclaimed (h : Memory.read s.ram (desc + 5) ≠ 0x08 ∨ Memory.read s.ram (desc + 6) ≠ 0x06
    ∨ Memory.read s.ram (desc + 7) ≠ 0x50 ∨ maxLen < 23) : mscOpenOp desc maxLen s = .ok 0 s := by
  rw [mscOpenOp_run hm]
  split
  · rfl
  · next hd => exact if_pos (by tauto)

/-- A claimed interface whose pair opens (rule R423). -/
theorem mscOpenOp_claimed (h5 : Memory.read s.ram (desc + 5) = 0x08) (h6 : Memory.read s.ram (desc + 6) = 0x06)
    (h7 : Memory.read s.ram (desc + 7) = 0x50) (hlen : 23 ≤ maxLen) {u t : State}
    (hpair : openPair 2 (desc + (Memory.read s.ram desc).toNat)
      (s.updMsc fun m => { m with itfNum := Memory.read s.ram (desc + 2) }) = .ok true u)
    (hcbw : prepareCbw u = .ok () t) : mscOpenOp desc maxLen s = .ok 23 t := by
  rw [mscOpenOp_run hm, if_neg (by simp [h5, h6, h7]), if_neg (by omega)]
  exact bind_eq hpair (bind_eq hcbw rfl)

end

/-- The pair's addresses in the record, whichever direction comes first. -/
theorem Msc.withBulk_pair (m : Msc) {a b : Byte} (hab : a.getLsbD 7 = !b.getLsbD 7) :
    (m.withBulk a).withBulk b = { m with
      epIn := if a.getLsbD 7 then a else b, epOut := if a.getLsbD 7 then b else a } := by
  cases hb : b.getLsbD 7
  · rw [hb] at hab
    rw [Msc.withBulk_in a hab, Msc.withBulk_out b hb, hab]
    rfl
  · rw [hb] at hab
    rw [Msc.withBulk_out a hab, Msc.withBulk_in b hb, hab]
    rfl

/-- Once both endpoints are opened, the OUT one is open and not busy. -/
theorem pair_outReady {s : State} (hl : s.cfg.legal = true) {a b : Byte} {mps mps' : Half} {i i' : Nat}
    (hab : a.getLsbD 7 = !b.getLsbD 7) (ha : (s.shadowCleared a).CanOpen a xferBulk (mps.setWidth 11) i)
    (hb : ((s.bulkOpened a mps i).shadowCleared b).CanOpen b xferBulk (mps'.setWidth 11) i') :
    ((s.bulkOpened a mps i).bulkOpened b mps' i').isOpened (if a.getLsbD 7 then b else a)
      ∧ epDir (if a.getLsbD 7 then b else a) = .out := by
  have hl' : (s.bulkOpened a mps i).cfg.legal = true := by rwa [bulkOpened_cfg]
  cases ha7 : a.getLsbD 7
  · have hb7 : b.getLsbD 7 = true := by rw [ha7] at hab; simpa using hab
    have da : epDir a = .out := if_neg (by rw [ha7]; decide)
    have db : epDir b = .inn := if_pos hb7
    rw [if_neg Bool.false_ne_true]
    exact ⟨bulkOpened_isOpened_opp hl' hb (by rw [da, db]; rfl) (bulkOpened_isOpened hl ha), da⟩
  · have hb7 : b.getLsbD 7 = false := by rw [ha7] at hab; simpa using hab
    rw [if_pos rfl]
    exact ⟨bulkOpened_isOpened hl' hb, if_neg (by rw [hb7]; decide)⟩

/-- Settles O44: the two descriptors are opened one after the other; the OUT endpoint is then open and idle, so that the
CBW read is armed. -/
theorem mscOpen : Obligations.MscOpen := by
  intro s desc maxLen hs hq hw hr hm d
  refine ⟨fun hno => ?_, fun h5 h6 h7 hlen => ?_⟩
  · exact perform_ok hs (bind_eq (mscOpenOp_unclaimed hm hno) (setRes_run 0 s))
  · intro p e p' e' opens s0 hp hp' he1 he3 he1' he3' hab i i' ho ho' s2
    have hl : s0.cfg.legal = true := hs.legal
    have calm : s0.Calm := ⟨⟨hq.bus, hq.isr⟩, hr, hs.legal, hw⟩
    have hs2 : s2 = (s0.bulkOpened (e 2) (le16 (e 4) (e 5)) i).bulkOpened (e' 2) (le16 (e' 4) (e' 5)) i' := rfl
    have first := openPair_succ hl ho calm (p := p) ⟨hp, he1, he3⟩ rfl rfl 1
    have calm1 := calm.bulkOpened (e 2) (le16 (e 4) (e 5)) i
    have ram1 : (s0.bulkOpened (e 2) (le16 (e 4) (e 5)) i).ram = s.ram := bulkOpened_ram _ _ _ _
    have cfg1 : (s0.bulkOpened (e 2) (le16 (e 4) (e 5)) i).cfg = s.cfg := bulkOpened_cfg _ _ _ _
    have second := openPair_succ calm1.legal ho' calm1 (p := p') ⟨by rw [cfg1]; exact hp', by rw [ram1]; exact he1',
      by rw [ram1]; exact he3'⟩ (by rw [ram1]) (by rw [State.descriptorSize, ram1]) 0
    have calm2 := calm1.bulkOpened (e' 2) (le16 (e' 4) (e' 5)) i'
    have msc : s2.msc = { s0.msc with
        epIn := if (e 2).getLsbD 7 then e 2 else e' 2, epOut := if (e 2).getLsbD 7 then e' 2 else e 2 } := by
      rw [hs2, bulkOpened_msc, bulkOpened_msc, Msc.withBulk_pair _ hab]
    have epOut : s2.msc.epOut = if (e 2).getLsbD 7 then e' 2 else e 2 := by rw [msc]
    obtain ⟨opened, out⟩ := pair_outReady hl hab ho ho'
    rw [← hs2] at calm2 second opened
    rw [← epOut] at opened out
    generalize s2 = u at *
    have armed : prepareCbw u = .ok () u.cbwPrepared :=
      prepareCbw_quiet calm2.legal calm2.quiet calm2.pmaWf calm2.running
        (canCoreXfer_out (s := u.updMsc fun m => { m with stage := .cmd }) opened out (by decide))
    have run := mscOpenOp_claimed hm h5 h6 h7 hlen ((first.trans second).trans (pure_run true u)) armed
    refine ⟨u.cbwPrepared.withRes 23, perform_ok hs (bind_eq run rfl), rfl, ?_⟩
    have msc' : (u.cbwPrepared.withRes 23).msc = { u.msc with stage := .cmd } := cbwPrepared_msc u
    rw [msc', msc]
    refine ⟨rfl, rfl, rfl, rfl, ?_⟩
    have busy : u.cbwPrepared.busyAt u.msc.epOut = true := coreXferred_busyAt _ _ _
    rw [epOut] at busy
    exact busy

end Sys2Proof.Machine

/-! PROOFS. `MSC_XFER_CB` in STATUS and in DATA (O48). -/

namespace Sys2Proof.Machine

/-! ### The application's answer to `app_scsi` (48_scsi.md rules R485, R486, R498) -/

theorem asked_msc (s : State) (c : AppCall) (a : Answer) (rest : List Answer) :
    (s.asked c a rest).msc = { s.msc with sense := a.sense.getD s.msc.sense } := by
  unfold State.asked
  cases a.sense <;> rfl

theorem State.Calm.asked {s : State} (h : s.Calm) (c : AppCall) (a : Answer) (rest : List Answer) :
    (s.asked c a rest).Calm := by
  obtain ⟨⟨bus, isr⟩, running, legal, pmaWf⟩ := h
  exact ⟨⟨bus, isr⟩, running, legal, pmaWf⟩

theorem State.Calm.updMsc {s : State} (h : s.Calm) (f : Msc → Msc) : (s.updMsc f).Calm := by
  obtain ⟨⟨bus, isr⟩, running, legal, pmaWf⟩ := h
  exact ⟨⟨bus, isr⟩, running, legal, pmaWf⟩

/-- The callback `app_scsi` as it is issued in `s` (rule R498). -/
def State.scsiCall (s : State) (bufsize : Nat) : AppCall :=
  .scsi s.msc.cbw.lunNum s.msc.cbw.command
    (Memory.readBytes s.ram s.cfg.mscBufAddr (min bufsize s.cfg.mscBufSize)) bufsize

section
variable {s : State} {a : Answer} {rest : List Answer} (hl : s.cfg.legal = true) (ha : s.answers = a :: rest) (n : Nat)
include hl ha

theorem appScsi_beyond (outPath : Bool) (h : (s.cfg.mscBufSize : Int) < a.ret.toInt) :
    appScsi outPath n s = .error (.appContract .scsi) (s.asked (s.scsiCall n) a rest) := by
  refine bind_eq (peek_run _ _) (bind_eq (stagingRead_ok hl (Nat.min_le_right _ _)) (bind_eq (ask_listed ha) ?_))
  exact bind_eq_error (ite_run_neg (by rw [decide_eq_true_iff]; exact not_le.2 h) rfl) _

/-- On the OUT path the answer writes nothing. -/
theorem appScsi_out (h : a.ret.toInt ≤ s.cfg.mscBufSize) :
    appScsi true n s = .ok a.ret.toInt (s.asked (s.scsiCall n) a rest) := by
  refine bind_eq (peek_run _ _) (bind_eq (stagingRead_ok hl (Nat.min_le_right _ _)) (bind_eq (ask_listed ha) ?_))
  exact bind_eq (ite_run_pos (by rw [decide_eq_true_iff]; exact h) rfl) rfl

/-- OUT data the application is content with (47_bot_fsm.md rule R437). -/
theorem outArrived_accepted {total : Word} (h0 : 0 ≤ a.ret.toInt) (h : a.ret.toInt ≤ s.cfg.mscBufSize) :
    outArrived total s = .ok () (s.asked (s.scsiCall total.toNat) a rest) :=
  bind_eq (appScsi_out hl ha _ h) (onlyIf_false (by simpa using h0) _)

theorem outArrived_refused {total : Word} (hc : s.Calm) (h0 : a.ret.toInt < 0)
    (hf : (s.asked (s.scsiCall total.toNat) a rest).CanFail) :
    outArrived total s = .ok () ((s.asked (s.scsiCall total.toNat) a rest).opFailed statusFailed) := by
  have calm := hc.asked (s.scsiCall total.toNat) a rest
  exact bind_eq (appScsi_out hl ha _ (by omega)) ((onlyIf_true (by simpa using h0) _).trans
    (failScsiOp_quiet calm.quiet calm.running hf statusFailed))

end

/-! ### The data stage (rule R437) -/

@[simp] theorem addXferred_run (x : Word) (s : State) : addXferred x s = .ok () (s.moved x) := rfl

section
variable {s : State} {len : Word}

theorem dataStage_read10_done (hop : s.msc.cbw.op = opRead10)
    (h : s.msc.totalLen.toNat ≤ (s.msc.xferredLen + len).toNat) :
    dataStage len s = .ok () (s.moved len).toStatusStage :=
  bind_eq (peek_run _ _) (ite_run_pos hop (bind_eq (addXferred_run _ _) (bind_eq (peek_run _ _) (ite_run_pos h rfl))))

theorem dataStage_read10_next (hop : s.msc.cbw.op = opRead10)
    (h : ¬ s.msc.totalLen.toNat ≤ (s.msc.xferredLen + len).toNat) : dataStage len s = procRead10 (s.moved len) :=
  bind_eq (peek_run _ _) (ite_run_pos hop (bind_eq (addXferred_run _ _) (bind_eq (peek_run _ _) (ite_run_neg h rfl))))

theorem dataStage_write10 (hop : s.msc.cbw.op = opWrite10) : dataStage len s = write10NewData len s :=
  bind_eq (peek_run _ _) (ite_run_neg (by rw [hop]; decide) (ite_run_pos hop rfl))

/-- The end of the data stage of another command: `end_other` from the state `v` its data leaves. -/
theorem dataStage_other (hr : s.msc.cbw.op ≠ opRead10) (hw : s.msc.cbw.op ≠ opWrite10) {v : State}
    (h : onlyIf (!s.msc.cbw.isIn) (outArrived s.msc.totalLen) (s.moved len) = .ok () v) :
    dataStage len s = endOther v :=
  bind_eq (peek_run _ _) (ite_run_neg hr (ite_run_neg hw (bind_eq (addXferred_run _ _) (bind_eq h rfl))))

theorem dataStage_other_fault (hr : s.msc.cbw.op ≠ opRead10) (hw : s.msc.cbw.op ≠ opWrite10) {f : Fault} {v : State}
    (h : onlyIf (!s.msc.cbw.isIn) (outArrived s.msc.totalLen) (s.moved len) = .error f v) :
    dataStage len s = .error f v :=
  bind_eq (peek_run _ _) (ite_run_neg hr (ite_run_neg hw (bind_eq (addXferred_run _ _) (bind_eq_error h _))))

theorem endOther_done (h : s.msc.totalLen.toNat ≤ s.msc.xferredLen.toNat) : endOther s = .ok () s.toStatusStage :=
  bind_eq (peek_run _ _) (ite_run_pos h rfl)

theorem endOther_short (h : ¬ s.msc.totalLen.toNat ≤ s.msc.xferredLen.toNat) :
    endOther s = .error (.undefinedMultiXfer s.msc.xferredLen) s :=
  bind_eq (peek_run _ _) (ite_run_neg h rfl)

/-- In STATUS already, `fail_scsi_op` having put it there. -/
theorem toStatusStage_of_status (h : s.msc.stage = .status) : s.toStatusStage = s := by
  unfold State.toStatusStage State.updMsc
  rw [← h]

end

/-! ### The status step (rules R433, R439) -/

section
variable {s : State}

theorem statusStepped_stalled (h : s.stalledAt s.msc.epIn = true) : s.statusStepped = s :=
  if_neg fun ⟨_, h'⟩ => Bool.false_ne_true (h'.symm.trans h)

theorem statusStepped_stalls (hst : s.msc.stage = .status) (h : s.stalledAt s.msc.epIn = false)
    (he : s.msc.expectsIn) : s.statusStepped = s.coreStalled s.msc.epIn :=
  (if_pos ⟨hst, h⟩).trans (if_pos he)

theorem statusStepped_sends (hst : s.msc.stage = .status) (h : s.stalledAt s.msc.epIn = false)
    (he : ¬ s.msc.expectsIn) : s.statusStepped = s.cswSent :=
  (if_pos ⟨hst, h⟩).trans (if_neg he)

end

theorem cswBytes_length (c : Csw) : (cswBytes c).length = 13 := by
  simp [cswBytes, leBytes32]

@[simp] theorem coreXferred_ram (s : State) (ep : Byte) (n : Nat) : (s.coreXferred ep n).ram = s.ram := by
  unfold State.coreXferred
  split
  · rfl
  · rw [(xferred_only _ _ _ _ _).rest]
    rfl

/-- What `send_csw()` leaves: the record, and the CSW in the staging buffer (rule R433). -/
theorem cswSent_effects (s : State) :
    s.cswSent.msc = { s.msc with
        csw := { s.msc.csw with dataResidue := s.msc.residue }, stage := .statusSent }
      ∧ s.cswSent.ram = Memory.writeBytes s.ram s.cfg.mscBufAddr (cswBytes s.cswSent.msc.csw) := by
  have msc : s.cswSent.msc = s.cswStored.msc := coreXferred_msc _ _ _
  refine ⟨msc, ?_⟩
  rw [msc]
  exact coreXferred_ram _ _ _

/-! ### From a handler to the next state (rules R430, R439) -/

/-- The class machine handles a completion on `ep`, and nothing falls inside (rules R430, R431). -/
structure State.Handles (s : State) (ep : Byte) : Prop where
  ready   : s.Ready
  calm    : s.Calm
  operand : epOk ep = true
  heeded  : s.msc.ignored ep = false

section
variable {s v : State} {ep : Byte} {len : Word} (h : s.Handles ep) (result : BitVec 2)
include h

/-- The status step follows the handler. -/
theorem exec_handled_goes (hv : stageHandler s.msc.stage ep len (s.withRes 1) = .ok true v) (hstep : v.CanStatus) :
    exec (.mscXferCb ep result len) s = .next v.statusStepped :=
  exec_mscXferCb_ok h.ready h.operand result
    ((mscEvent_handled (s := s.withRes 1) h.heeded hv).trans ((if_pos rfl).trans (statusStep_quiet hstep)))

/-- Outside STATUS, and where the handler stops, nothing follows it. -/
theorem exec_handled_ends {go : Bool} (hv : stageHandler s.msc.stage ep len (s.withRes 1) = .ok go v)
    (hstage : v.msc.stage ≠ .status) : exec (.mscXferCb ep result len) s = .next v :=
  exec_mscXferCb_ok h.ready h.operand result (mscEvent_ends (s := s.withRes 1) h.heeded hv hstage)

theorem exec_handled_fault {f : Fault} (hv : stageHandler s.msc.stage ep len (s.withRes 1) = .error f v) :
    exec (.mscXferCb ep result len) s = .next (takeFault f v) :=
  exec_mscXferCb_error h.ready h.operand result (mscEvent_fault (s := s.withRes 1) h.heeded hv)

section
variable (hst : s.msc.stage = .data)
include hst

theorem exec_data_goes (hv : dataStage len (s.withRes 1) = .ok () v) (hstep : v.CanStatus) :
    exec (.mscXferCb ep result len) s = .next v.statusStepped :=
  exec_handled_goes h result (by rw [hst]; exact bind_eq hv (pure_run true v)) hstep

theorem exec_data_fault {f : Fault} (hv : dataStage len (s.withRes 1) = .error f v) :
    exec (.mscXferCb ep result len) s = .next (takeFault f v) :=
  exec_handled_fault h result (by rw [hst]; exact bind_eq_error hv _)

/-- The end of the data stage of a command other than READ_10 and WRITE_10, by the bytes moved and expected. -/
theorem exec_data_endOther (hv : dataStage len (s.withRes 1) = endOther v) (htotal : v.msc.totalLen = s.msc.totalLen)
    (hmoved : v.msc.xferredLen = s.msc.xferredLen + len) :
    (s.msc.totalLen.toNat ≤ (s.msc.xferredLen + len).toNat → v.toStatusStage.CanStatus →
        exec (.mscXferCb ep result len) s = .next v.toStatusStage.statusStepped)
      ∧ (¬ s.msc.totalLen.toNat ≤ (s.msc.xferredLen + len).toNat →
        exec (.mscXferCb ep result len) s = .next (takeFault (.undefinedMultiXfer (s.msc.xferredLen + len)) v)) := by
  rw [← hmoved, ← htotal]
  exact ⟨fun hdone => exec_data_goes h result hst (hv.trans (endOther_done hdone)),
    fun hshort => exec_data_fault h result hst (hv.trans (endOther_short hshort))⟩

end

section
variable (hst : s.msc.stage = .status)
include hst

/-- In STATUS the status step runs at once. -/
theorem exec_status (hstep : (s.withRes 1).CanStatus) :
    exec (.mscXferCb ep result len) s = .next (s.withRes 1).statusStepped :=
  exec_handled_goes h result (by rw [hst]; rfl) hstep

theorem exec_status_stalled (hin : s.stalledAt s.msc.epIn = true) :
    exec (.mscXferCb ep result len) s = .next (s.withRes 1) := by
  have no : ¬ s.stalledAt s.msc.epIn = false := fun h => Bool.false_ne_true (h.symm.trans hin)
  rw [exec_status h result hst ⟨h.calm.withRes 1, fun _ h => absurd h no, fun _ h => absurd h no⟩]
  exact congrArg _ (statusStepped_stalled (s := s.withRes 1) hin)

theorem exec_status_stalls (hin : s.stalledAt s.msc.epIn = false) (he : s.msc.expectsIn)
    (ho : s.isOpened s.msc.epIn) :
    exec (.mscXferCb ep result len) s = .next ((s.withRes 1).coreStalled s.msc.epIn) := by
  rw [exec_status h result hst ⟨h.calm.withRes 1, fun _ _ _ => ho, fun _ _ h => absurd he h⟩]
  exact congrArg _ (statusStepped_stalls (s := s.withRes 1) hst hin he)

theorem exec_status_sends (hin : s.stalledAt s.msc.epIn = false) (he : ¬ s.msc.expectsIn)
    (hx : (s.withRes 1).cswStored.CanCoreXfer s.msc.epIn 13) :
    exec (.mscXferCb ep result len) s = .next (s.withRes 1).cswSent := by
  rw [exec_status h result hst ⟨h.calm.withRes 1, fun _ _ h => absurd h he, fun _ _ _ => hx⟩]
  exact congrArg _ (statusStepped_sends (s := s.withRes 1) hst hin he)

end

end

/-- Settles O48: in STATUS the status step runs at once; in DATA it follows what the command's data stage leaves. -/
theorem statusStepResult : Obligations.StatusStep := by
  intro s ep result len hs hc hep hi u d ended goes faults
  have h : s.Handles ep := ⟨hs, hc, hep, hi⟩
  have calmD : d.Calm := (hc.withRes 1).updMsc _
  refine ⟨fun hst => ⟨exec_status_stalled h result hst, fun hin he ho => ?_, fun hin he hx => ?_⟩,
    fun hst hop => ⟨fun he => ?_, fun he => ⟨fun v hv => ?_, fun f v hv => ?_⟩⟩,
    fun hst hop => ⟨fun v hv => ?_, fun f v hv => ?_⟩, fun hst hr hw hin => ?_, fun hst hr hw hout => ?_⟩
  · exact ⟨_, exec_status_stalls h result hst hin he ho, rfl, by rw [coreStalled_msc]; exact hst,
      coreStalled_stalledAt _ _⟩
  · obtain ⟨msc, ram⟩ := cswSent_effects u
    refine ⟨_, exec_status_sends h result hst hin he hx, rfl, by rw [msc], by rw [msc]; rfl, fun k hk ok => ?_,
      fun ok => ?_⟩
    · rw [ram]
      exact Memory.read_writeBytes_add ok.ramWf _ _ (by rwa [cswBytes_length])
    · have outside := Memory.sameOutside_writeBytes ok.ramWf s.cfg.mscBufAddr (cswBytes u.cswSent.msc.csw)
      rw [cswBytes_length] at outside
      rwa [ram]
  · exact exec_data_goes h result hst (dataStage_read10_done (s := u) hop he)
  · exact exec_data_goes h result hst ((dataStage_read10_next (s := u) hop he).trans hv)
  · exact exec_data_fault h result hst ((dataStage_read10_next (s := u) hop he).trans hv)
  · exact exec_data_goes h result hst ((dataStage_write10 (s := u) hop).trans hv)
  · exact exec_data_fault h result hst ((dataStage_write10 (s := u) hop).trans hv)
  · have noOut : (!u.msc.cbw.isIn) = false := congrArg (!·) hin
    exact exec_data_endOther h result hst (dataStage_other (s := u) hr hw (onlyIf_false noOut _)) rfl rfl
  · intro a rest ha n v
    have msc : v.msc = { d.msc with sense := a.sense.getD d.msc.sense } := asked_msc _ _ _ _
    have arrived : onlyIf (!u.msc.cbw.isIn) (outArrived u.msc.totalLen) d = outArrived u.msc.totalLen d :=
      onlyIf_true (congrArg (!·) hout) _
    refine ⟨fun hbeyond => ?_, fun h0 hle => ?_, fun h0 hf => ?_⟩
    · have run : outArrived u.msc.totalLen d = .error (.appContract .scsi) v :=
        bind_eq_error (appScsi_beyond calmD.legal ha n true hbeyond) _
      exact exec_data_fault h result hst (dataStage_other_fault (s := u) hr hw (arrived.trans run))
    · have run : outArrived u.msc.totalLen d = .ok () v := outArrived_accepted calmD.legal ha h0 hle
      exact exec_data_endOther h result hst (dataStage_other (s := u) hr hw (arrived.trans run)) (by rw [msc]; rfl)
        (by rw [msc]; rfl)
    · have run : outArrived u.msc.totalLen d = .ok () (v.opFailed statusFailed) :=
        outArrived_refused calmD.legal ha calmD h0 hf
      have failed := opFailed_msc v statusFailed
      have ends := exec_data_endOther h result hst (dataStage_other (s := u) hr hw (arrived.trans run))
        (by rw [failed, msc]; rfl) (by rw [failed, msc]; rfl)
      rwa [toStatusStage_of_status (by rw [failed])] at ends

end Sys2Proof.Machine

/-! PROOFS. `MSC_XFER_CB` in CMD (O49). -/

namespace Sys2Proof.Machine

/-! ### Stalling two endpoints (47_bot_fsm.md rules R427, R435) -/

section
variable {s : State} {ep q : Byte}

theorem coreStalled_keeps_stalled (h : s.stalledAt q = true) : (s.coreStalled ep).stalledAt q = true := by
  cases he : s.stalledAt ep
  · rw [coreStalled_of_unstalled he]
    by_cases hq : epIx q = epIx ep
    · rw [putBusy_stalledAt, putStalled_stalledAt, if_pos hq]
    · rw [putBusy_stalledAt, putStalled_stalledAt, if_neg hq]
      exact h
  · rwa [coreStalled_of_stalled he]

theorem coreStalled_isOpened (h : s.isOpened q) : (s.coreStalled ep).isOpened q := by
  unfold State.coreStalled
  split
  · exact h
  · exact h

theorem State.Calm.coreStalled (h : s.Calm) (ep : Byte) : (s.coreStalled ep).Calm := by
  obtain ⟨⟨bus, isr⟩, running, legal, pmaWf⟩ := h
  unfold State.coreStalled
  split
  · exact ⟨⟨bus, isr⟩, running, legal, pmaWf⟩
  · exact ⟨⟨bus, isr⟩, running, legal, pmaWf⟩

end

/-! ### The command stage (rule R435) -/

/-- A CBW of the right length and signature. -/
def Cbw.Valid (c : Cbw) (len : Word) : Prop := len = 31 ∧ c.signature = cbwSignature

/-- The dispatch once the CSW is tagged (rule R435). -/
def dispatchAccepted (c : Cbw) : Op Unit :=
  if c.op = opRead10 ∨ c.op = opWrite10 then dispatchRw c else dispatchOther

/-- The state in which an invalid CBW stalls both endpoints. -/
def State.cbwRejected (s : State) : State := s.withMsc { s.msc with cbw := s.stagedCbw, stage := .needReset }

section
variable {s v : State} {len : Word}

/-- The CSW takes the tag, and the command is dispatched. -/
theorem dispatchCbw_run : dispatchCbw s.stagedCbw (s.updMsc fun m => { m with cbw := s.stagedCbw })
    = dispatchAccepted s.stagedCbw s.cbwAccepted := bind_eq (t := s.cbwAccepted) (change_run _ _) rfl

variable (hc : s.Calm)
include hc

/-- The CBW in the staging buffer is taken and judged. -/
theorem cmdStage_run : cmdStage s.msc.epOut len s =
    (if len = 31 ∧ s.stagedCbw.signature = cbwSignature then do dispatchCbw s.stagedCbw; pure true
     else do rejectCbw; pure false : Op Bool) (s.updMsc fun m => { m with cbw := s.stagedCbw }) := by
  have bound := (Config.legal_bounds hc.legal).2.2.2.2.2.2.1
  exact bind_eq (peek_run _ _) (ite_run_neg (fun h => h rfl)
    (bind_eq (stagingRead_ok hc.legal (by omega)) (bind_eq (change_run _ _) rfl)))

theorem cmdStage_accepted (h : s.stagedCbw.Valid len) (hv : dispatchAccepted s.stagedCbw s.cbwAccepted = .ok () v) :
    cmdStage s.msc.epOut len s = .ok true v :=
  (cmdStage_run hc).trans (ite_run_pos h (bind_eq (dispatchCbw_run.trans hv) rfl))

theorem cmdStage_fault (h : s.stagedCbw.Valid len) {f : Fault}
    (hv : dispatchAccepted s.stagedCbw s.cbwAccepted = .error f v) : cmdStage s.msc.epOut len s = .error f v :=
  (cmdStage_run hc).trans (ite_run_pos h (bind_eq_error (dispatchCbw_run.trans hv) _))

theorem cmdStage_rejected (h : ¬ s.stagedCbw.Valid len)
    (hin : s.stalledAt s.msc.epIn = false → s.isOpened s.msc.epIn)
    (hout : s.stalledAt s.msc.epOut = false → s.isOpened s.msc.epOut) :
    cmdStage s.msc.epOut len s = .ok false ((s.cbwRejected.coreStalled s.msc.epIn).coreStalled s.msc.epOut) := by
  have calm : s.cbwRejected.Calm := hc.updMsc fun _ => { s.msc with cbw := s.stagedCbw, stage := .needReset }
  have calm1 := calm.coreStalled s.msc.epIn
  have first : edptStallOp s.msc.epIn s.cbwRejected = .ok () (s.cbwRejected.coreStalled s.msc.epIn) :=
    edptStallOp_quiet calm.quiet calm.running hin
  have second : edptStallOp s.msc.epOut (s.cbwRejected.coreStalled s.msc.epIn) = .ok () _ :=
    edptStallOp_quiet calm1.quiet calm1.running fun hst => coreStalled_isOpened (s := s.cbwRejected) <| hout <|
      Bool.eq_false_of_not_eq_true fun h => Bool.false_ne_true
        (hst.symm.trans (coreStalled_keeps_stalled (s := s.cbwRejected) h))
  have reject : rejectCbw (s.updMsc fun m => { m with cbw := s.stagedCbw })
      = .ok () ((s.cbwRejected.coreStalled s.msc.epIn).coreStalled s.msc.epOut) :=
    bind_eq (peek_run _ _) (bind_eq (t := s.cbwRejected) (change_run _ _) (bind_eq first second))
  exact (cmdStage_run hc).trans (ite_run_neg h (bind_eq reject rfl))

end

/-! ### READ_10 and WRITE_10 (rules R435, R510, R513) -/

section
variable {s : State} {c : Cbw}

theorem dispatchRw_invalid (h : rdwr10Validate c ≠ statusPassed) :
    dispatchRw c s = failScsiOp (rdwr10Validate c) s := ite_run_pos h rfl

theorem dispatchRw_noData (h : rdwr10Validate c = statusPassed) (ht : c.totalBytes = 0) :
    dispatchRw c s = .ok () s.toStatusStage := ite_run_neg (not_not.2 h) (ite_run_pos ht rfl)

theorem dispatchRw_read (h : rdwr10Validate c = statusPassed) (ht : c.totalBytes ≠ 0) (hop : c.op = opRead10) :
    dispatchRw c s = procRead10 s := ite_run_neg (not_not.2 h) (ite_run_neg ht (ite_run_pos hop rfl))

theorem dispatchRw_write (h : rdwr10Validate c = statusPassed) (ht : c.totalBytes ≠ 0) (hop : c.op = opWrite10) :
    dispatchRw c s = procWrite10Dispatch s :=
  ite_run_neg (not_not.2 h) (ite_run_neg ht (ite_run_neg (by rw [hop]; decide) rfl))

/-- A command that moves no data and asks for none is valid (48_scsi.md rule R503). -/
theorem rdwr10Validate_noData (ht : c.totalBytes = 0) (hcount : c.count = 0) : rdwr10Validate c = statusPassed := by
  rw [rdwr10Validate, if_pos ht, if_neg (not_not.2 hcount)]

variable {a : Answer} {rest : List Answer}

theorem procWrite10Dispatch_writable (ha : s.answers = a :: rest) (hf : a.flag = true) :
    procWrite10Dispatch s = procWrite10Cmd (s.asked (.isWritable s.msc.cbw.lunNum) a rest) :=
  bind_eq (peek_run _ _) (bind_eq (ask_listed ha) (ite_run_pos hf rfl))

variable (hc : s.Calm)
include hc

/-- The next OUT transfer of a WRITE_10 (48_scsi.md rule R513). -/
theorem procWrite10Cmd_quiet {n : Nat} (hn : s.msc.chunkSize s.cfg = n) (h : s.CanCoreXfer s.msc.epOut n) :
    procWrite10Cmd s = .ok () (s.coreXferred s.msc.epOut n) := by
  subst hn
  exact bind_eq (peek_run _ _) (xferStaging_quiet hc.legal hc.quiet hc.pmaWf hc.running h)

/-- A failed READ_10 or WRITE_10: the sense triple of the failure, then `fail_scsi_op` (48_scsi.md rules R506, R510,
R512). -/
theorem senseFailed_quiet {v : Sense} {st : Byte} (hf : (s.updMsc fun m => { m with sense := v }).CanFail) :
    (do setSenseTo v; failScsiOp st : Op Unit) s = .ok () ((s.updMsc fun m => { m with sense := v }).opFailed st) := by
  have calm := hc.updMsc fun m => { m with sense := v }
  exact bind_eq (change_run _ _) (failScsiOp_quiet calm.quiet calm.running hf st)

theorem procWrite10Dispatch_protected (ha : s.answers = a :: rest) (hf : a.flag = false)
    (h : ((s.asked (.isWritable s.msc.cbw.lunNum) a rest).updMsc fun m =>
      { m with sense := senseDataProtect }).CanFail) :
    procWrite10Dispatch s = .ok () (((s.asked (.isWritable s.msc.cbw.lunNum) a rest).updMsc fun m =>
      { m with sense := senseDataProtect }).opFailed statusFailed) :=
  bind_eq (peek_run _ _) (bind_eq (ask_listed ha) (ite_run_neg (by rw [hf]; decide)
    (senseFailed_quiet (hc.asked _ a rest) h)))

end

/-! ### Every other command (rules R436, R498, R499) -/

section
variable {s v : State}

theorem dispatchOther_tooLong (ht : s.msc.cbw.totalBytes ≠ 0) (hd : s.msc.cbw.isIn = false)
    (h : s.cfg.mscBufSize < s.msc.cbw.totalBytes.toNat) : dispatchOther s = failScsiOp statusFailed s :=
  bind_eq (peek_run _ _) (ite_run_pos ⟨ht, hd⟩ (ite_run_pos h rfl))

theorem dispatchOther_out (ht : s.msc.cbw.totalBytes ≠ 0) (hd : s.msc.cbw.isIn = false)
    (h : s.msc.cbw.totalBytes.toNat ≤ s.cfg.mscBufSize) :
    dispatchOther s = xferStaging s.msc.epOut s.msc.cbw.totalBytes.toNat s :=
  bind_eq (peek_run _ _) (ite_run_pos ⟨ht, hd⟩ (ite_run_neg (not_lt.2 h) rfl))

variable (hd : s.msc.cbw.totalBytes = 0 ∨ s.msc.cbw.isIn = true)
include hd

theorem dispatchOther_answered {r : Int} (h : scsiAnswer s s = .ok r v) :
    dispatchOther s = answerOther s.msc.cbw.totalBytes r v :=
  bind_eq (peek_run _ _) (ite_run_neg (fun ⟨ht, ho⟩ => hd.elim ht fun hin => Bool.false_ne_true (ho.symm.trans hin))
    (bind_eq h rfl))

theorem dispatchOther_fault {f : Fault} (h : scsiAnswer s s = .error f v) : dispatchOther s = .error f v :=
  bind_eq (peek_run _ _) (ite_run_neg (fun ⟨ht, ho⟩ => hd.elim ht fun hin => Bool.false_ne_true (ho.symm.trans hin))
    (bind_eq_error h _))

end

/-- Who answers: the built-in dispatcher or the application (48_scsi.md rules R488, R498). -/
theorem scsiAnswer_eq (s : State) : scsiAnswer s = if s.msc.cbw.op ∈ builtinOps then procBuiltin
    else appScsi false (min s.msc.cbw.totalBytes.toNat s.cfg.mscBufSize) := by
  simp only [scsiAnswer, List.contains_iff_mem]

/-- The answer changes RAM, the observations, the answers and the sense, and nothing else. -/
theorem scsiAnswer_only {s v : State} {r : Int} (h : scsiAnswer s s = .ok r v) : s.OnlyApp v := by
  have only : AppOnly (scsiAnswer s) := .ite appOnly_procBuiltin (appOnly_appScsi _ _)
  have hs := only s
  rwa [h] at hs

section
variable {s : State} {t : Word} {r : Int}

theorem answerOther_passes (ht : t = 0) : answerOther t 0 s = .ok () s.toStatusStage :=
  ite_run_neg (by decide) (ite_run_pos rfl (ite_run_neg (not_not.2 ht) rfl))

theorem answerOther_fails (h : r < 0 ∨ (r = 0 ∧ t ≠ 0) ∨ (0 < r ∧ t = 0)) :
    answerOther t r s = failScsiOp statusFailed s := by
  rcases h with h | ⟨h, ht⟩ | ⟨h, ht⟩
  · exact ite_run_pos h rfl
  · exact ite_run_neg (by omega) (ite_run_pos h (ite_run_pos ht rfl))
  · exact ite_run_neg (by omega) (ite_run_neg (by omega) (ite_run_pos ht rfl))

/-- A response is sent, clipped to what the host expects (rule R499). -/
theorem answerOther_sends (hc : s.Calm) (h : 0 < r) (ht : t ≠ 0)
    (hx : (s.updMsc fun m => { m with totalLen := BitVec.ofNat 32 (min r.toNat t.toNat) }).CanCoreXfer s.msc.epIn
      (min r.toNat t.toNat)) :
    answerOther t r s = .ok () ((s.updMsc fun m => { m with
      totalLen := BitVec.ofNat 32 (min r.toNat t.toNat) }).coreXferred s.msc.epIn (min r.toNat t.toNat)) := by
  have calm := hc.updMsc fun m => { m with totalLen := BitVec.ofNat 32 (min r.toNat t.toNat) }
  exact ite_run_neg (by omega) (ite_run_neg (by omega) (ite_run_neg ht (bind_eq (change_run _ _)
    (bind_eq (peek_run _ _) (xferStaging_quiet calm.legal calm.quiet calm.pmaWf calm.running hx)))))

end

/-! ### From the dispatch to the next state (rules R435, R439) -/

section
variable {s v : State} {len : Word} (h : s.Handles s.msc.epOut) (result : BitVec 2) (hst : s.msc.stage = .cmd)
include h hst

/-- An invalid CBW stalls both endpoints, and no status step follows. -/
theorem exec_cmd_rejected (hno : ¬ s.stagedCbw.Valid len) (hin : s.stalledAt s.msc.epIn = false → s.isOpened s.msc.epIn)
    (hout : s.stalledAt s.msc.epOut = false → s.isOpened s.msc.epOut) :
    exec (.mscXferCb s.msc.epOut result len) s
      = .next (((s.withRes 1).cbwRejected.coreStalled s.msc.epIn).coreStalled s.msc.epOut) := by
  refine exec_handled_ends (go := false) h result ?_ (by rw [coreStalled_msc, coreStalled_msc]; nofun)
  rw [hst]
  exact cmdStage_rejected (h.calm.withRes 1) hno hin hout

variable (valid : s.stagedCbw.Valid len)
include valid

theorem exec_cmd_goes (hv : dispatchAccepted s.stagedCbw (s.withRes 1).cbwAccepted = .ok () v) (hstep : v.CanStatus) :
    exec (.mscXferCb s.msc.epOut result len) s = .next v.statusStepped :=
  exec_handled_goes h result (by rw [hst]; exact cmdStage_accepted (h.calm.withRes 1) valid hv) hstep

/-- A transfer armed by the dispatch leaves the stage DATA. -/
theorem exec_cmd_ends (hv : dispatchAccepted s.stagedCbw (s.withRes 1).cbwAccepted = .ok () v)
    (hdata : v.msc.stage = .data) : exec (.mscXferCb s.msc.epOut result len) s = .next v :=
  exec_handled_ends h result (by rw [hst]; exact cmdStage_accepted (h.calm.withRes 1) valid hv) (by rw [hdata]; nofun)

theorem exec_cmd_fault {f : Fault} (hv : dispatchAccepted s.stagedCbw (s.withRes 1).cbwAccepted = .error f v) :
    exec (.mscXferCb s.msc.epOut result len) s = .next (takeFault f v) :=
  exec_handled_fault h result (by rw [hst]; exact cmdStage_fault (h.calm.withRes 1) valid hv)

end

/-- Settles O49: the CBW is rejected, or accepted and dispatched by its operation code; a transfer leaves the stage
DATA, every other end is followed by the status step. -/
theorem commandStage : Obligations.CommandStage := by
  intro s result len hs hc hep hi hst c u size runs goes rw
  have handles : s.Handles s.msc.epOut := ⟨hs, hc, hep, hi⟩
  have calmU : u.Calm := (hc.withRes 1).updMsc fun _ => u.msc
  have dispatchGoes (hlen : len = 31) (hsig : c.signature = cbwSignature) {v : State}
      (hv : dispatchAccepted c u = .ok () v) : goes v := exec_cmd_goes handles result hst ⟨hlen, hsig⟩ hv
  have isRw (h : rw) : dispatchAccepted c u = dispatchRw c u := ite_run_pos h rfl
  have isOther (h : ¬ rw) : dispatchAccepted c u = dispatchOther u := ite_run_neg h rfl
  have fails {v : State} (hv : v.Calm) (hf : v.CanFail) (st : Byte) : failScsiOp st v = .ok () (v.opFailed st) :=
    failScsiOp_quiet hv.quiet hv.running hf st
  refine ⟨fun hno hin hout => ?_, fun hlen hsig hrw ht hcount hstalled hx => ?_, fun hlen hsig hrw hval hf => ?_,
    fun hlen hsig hval ht => ⟨fun hop => ⟨fun v h => ?_, fun f v h => ?_⟩, fun hop a rest ha => ?_⟩,
    fun hlen hsig hno ht hd => ⟨fun hbig hf => ?_, fun hfits hx => ?_⟩, fun hlen hsig hno hd => ?_⟩
  · intro u'
    have msc : ((u'.coreStalled s.msc.epIn).coreStalled s.msc.epOut).msc = u'.msc := by
      rw [coreStalled_msc, coreStalled_msc]
    exact ⟨_, exec_cmd_rejected handles result hst hno hin hout, rfl, msc,
      coreStalled_keeps_stalled (coreStalled_stalledAt u' _), coreStalled_stalledAt _ _⟩
  · have run := (isRw hrw).trans (dispatchRw_noData (s := u) (rdwr10Validate_noData ht hcount) ht)
    have stage : u.toStatusStage.msc.stage = .status := rfl
    have noneExpected : ¬ u.toStatusStage.msc.expectsIn := by
      rintro ⟨-, h⟩
      change (0 : Nat) < c.totalBytes.toNat at h
      rw [ht] at h
      exact absurd h (by decide)
    have can : u.toStatusStage.CanStatus :=
      ⟨calmU.updMsc _, fun _ _ h => absurd h noneExpected, fun _ _ _ => hx⟩
    have sent := dispatchGoes hlen hsig run can
    rw [statusStepped_sends stage hstalled noneExpected] at sent
    obtain ⟨msc, -⟩ := cswSent_effects u.toStatusStage
    refine ⟨_, sent, rfl, by rw [msc], ?_⟩
    have residue : u.toStatusStage.msc.residue = 0 := congrArg (· - 0#32) ht
    rw [msc, residue]
    rfl
  · exact dispatchGoes hlen hsig (((isRw hrw).trans (dispatchRw_invalid hval)).trans (fails calmU hf _))
  · exact dispatchGoes hlen hsig (((isRw (.inl hop)).trans (dispatchRw_read hval ht hop)).trans h)
  · exact exec_cmd_fault handles result hst ⟨hlen, hsig⟩
      (((isRw (.inl hop)).trans (dispatchRw_read hval ht hop)).trans h)
  · intro w n
    have msc : w.msc = { u.msc with sense := a.sense.getD u.msc.sense } := asked_msc _ _ _ _
    have run := (isRw (.inr hop)).trans (dispatchRw_write (s := u) hval ht hop)
    refine ⟨fun hflag hx => ?_, fun hflag hf => ?_⟩
    · have epOut : w.msc.epOut = s.msc.epOut := by rw [msc]; rfl
      have chunk : w.msc.chunkSize w.cfg = n := by
        have residue : w.msc.residue = c.totalBytes := by rw [msc]; exact BitVec.sub_zero _
        rw [Msc.chunkSize, residue]
        rfl
      rw [← epOut] at hx ⊢
      refine exec_cmd_ends handles result hst ⟨hlen, hsig⟩
        ((run.trans (procWrite10Dispatch_writable (s := u) ha hflag)).trans
          (procWrite10Cmd_quiet (calmU.asked _ _ _) chunk hx)) ?_
      rw [coreXferred_msc, msc]
      rfl
    · exact dispatchGoes hlen hsig (run.trans (procWrite10Dispatch_protected calmU ha hflag hf))
  · exact dispatchGoes hlen hsig (((isOther hno).trans (dispatchOther_tooLong ht hd hbig)).trans (fails calmU hf _))
  · refine exec_cmd_ends handles result hst ⟨hlen, hsig⟩ (((isOther hno).trans (dispatchOther_out ht hd hfits)).trans
      (xferStaging_quiet calmU.legal calmU.quiet calmU.pmaWf calmU.running hx)) ?_
    rw [coreXferred_msc]
    rfl
  · intro answer
    have asks : scsiAnswer u = answer := scsiAnswer_eq u
    refine ⟨fun f v h => ?_, fun r v h => ?_⟩
    · rw [← asks] at h
      exact exec_cmd_fault handles result hst ⟨hlen, hsig⟩ ((isOther hno).trans (dispatchOther_fault hd h))
    · intro n w
      rw [← asks] at h
      have run := (isOther hno).trans (dispatchOther_answered hd h)
      have only := scsiAnswer_only h
      have calmV : v.Calm := only.calm calmU
      have msc : v.msc = { u.msc with sense := v.msc.sense } := congrArg State.msc only.rest
      refine ⟨fun hr ht hx => ?_, fun hr ht => ?_, fun hr hf => ?_⟩
      · have epIn : v.msc.epIn = s.msc.epIn := by rw [msc]; rfl
        have stage : w.msc.stage = .data := by
          change v.msc.stage = .data
          rw [msc]
          rfl
        rw [← epIn] at hx ⊢
        exact exec_cmd_ends handles result hst ⟨hlen, hsig⟩ (run.trans (answerOther_sends calmV hr ht hx))
          ((congrArg Msc.stage (coreXferred_msc _ _ _)).trans stage)
      · subst hr
        exact dispatchGoes hlen hsig (run.trans (answerOther_passes ht))
      · exact dispatchGoes hlen hsig ((run.trans (answerOther_fails hr)).trans (fails calmV hf _))

end Sys2Proof.Machine

/-! PROOFS. `TASK_STEP` (O55). -/

namespace Sys2Proof.Machine

/-! ### Answers as integers (48_scsi.md rule R486) -/

theorem toInt_of_nonneg {v : Word} (h : 0 ≤ v.toInt) : v.toInt = v.toNat := by
  have lt := v.isLt
  rw [BitVec.toInt_eq_toNat_cond] at h ⊢
  split at h
  · next hs => exact if_pos hs
  · omega

/-- ASYNC is below every other answer that is not negative (00_scope.md rule R9). -/
theorem ne_asyncRet {c : Config} (hl : c.legal = true) {v : Word} (h : 0 ≤ v.toInt) : v ≠ c.asyncRet := by
  have low : c.asyncRet.toInt < -1 := by
    simp only [Config.legal, Bool.and_eq_true, decide_eq_true_eq] at hl
    tauto
  rintro rfl
  omega

/-- A deferred answer within its bounds (rule R515). -/
theorem deferredAnswer_ok {s : State} {cb : Callback} {bound : Nat} {v : Word} (h : v ≠ s.cfg.asyncRet)
    (hb : v.toInt ≤ bound) : deferredAnswer cb bound v s = .ok v.toInt s :=
  bind_eq (peek_run _ _) (bind_eq (ite_run_pos (by simp [h, hb]) (pure_run () s)) rfl)

theorem deferredAnswer_fault {s : State} {cb : Callback} {bound : Nat} {v : Word}
    (h : v = s.cfg.asyncRet ∨ (bound : Int) < v.toInt) : deferredAnswer cb bound v s = .error (.appContract cb) s := by
  refine bind_eq (peek_run _ _) (bind_eq_error (ite_run_neg ?_ (raise_run _ _)) _)
  simp only [Bool.and_eq_true, bne_iff_ne, decide_eq_true_eq]
  rintro ⟨hne, hb⟩
  exact h.elim hne fun hlt => absurd hb (not_le.2 hlt)

/-! ### What follows the answer of READ_10 (48_scsi.md rule R506) -/

section
variable {s : State} {r : Int}

theorem readIoData_failed (hc : s.Calm) (hr : r < 0) (hf : (s.updMsc fun m => { m with sense := senseMnp }).CanFail) :
    readIoData r s = .ok () ((s.updMsc fun m => { m with sense := senseMnp }).opFailed statusFailed) :=
  bind_eq (peek_run _ _) (ite_run_pos hr (senseFailed_quiet hc hf))

theorem readIoData_again (h : s.Room) : readIoData 0 s = .ok () (s.posted (.xferComplete s.msc.epIn 0)) :=
  bind_eq (peek_run _ _) (ite_run_neg (by decide) (ite_run_pos rfl (post_ok h)))

theorem readIoData_sends (hc : s.Calm) (hr : 0 < r) (h : s.CanCoreXfer s.msc.epIn r.toNat) :
    readIoData r s = .ok () (s.coreXferred s.msc.epIn r.toNat) :=
  bind_eq (peek_run _ _) (ite_run_neg (by omega) (ite_run_neg (by omega)
    (xferStaging_quiet hc.legal hc.quiet hc.pmaWf hc.running h)))

end

/-! ### What follows the answer of WRITE_10 (48_scsi.md rule R512) -/

section
variable {s : State} {x : Word} {r : Int}

theorem writeIoData_failed (hc : s.Calm) (hr : r < 0)
    (hf : ((s.moved x).updMsc fun m => { m with sense := senseMnp }).CanFail) :
    writeIoData x r s = .ok () (((s.moved x).updMsc fun m => { m with sense := senseMnp }).opFailed statusFailed) :=
  bind_eq (peek_run _ _) (ite_run_pos hr (bind_eq (addXferred_run _ _) (senseFailed_quiet (hc.updMsc _) hf)))

/-- Nothing consumed: the whole chunk is offered again. -/
theorem writeIoData_again (hx : 0 < x.toNat) (h : s.Room) :
    writeIoData x 0 s = .ok () (s.posted (.xferComplete s.msc.epOut x)) := by
  have left : BitVec.ofNat 32 (x.toNat - (0 : Int).toNat) = x := by simp
  have posted : post (.xferComplete s.msc.epOut (BitVec.ofNat 32 (x.toNat - (0 : Int).toNat))) s
      = .ok () (s.posted (.xferComplete s.msc.epOut x)) := by
    rw [left]
    exact post_ok h
  exact bind_eq (peek_run _ _) (ite_run_neg (by decide) (ite_run_pos (by omega)
    (bind_eq (onlyIf_false (by decide) _) posted)))

/-- A part of the chunk consumed: the rest of it moves to the front. -/
theorem keepRest_run (hl : s.cfg.legal = true) {v : Word} (hv : 0 ≤ v.toInt) {left : Nat}
    (hb : v.toNat + left ≤ s.cfg.mscBufSize) :
    keepRest v.toInt left s = .ok () ((s.moved v).ramStored s.cfg.mscBufAddr
      (Memory.readBytes s.ram (s.cfg.mscBufAddr + v.toNat) left)) := by
  have nat : v.toInt.toNat = v.toNat := by rw [toInt_of_nonneg hv, Int.toNat_natCast]
  have mapped : Config.MappedRange s.cfg (s.cfg.mscBufAddr + v.toNat) left := fun k hk => by
    rw [Nat.add_assoc]
    exact Config.staging_mapped hl hb (v.toNat + k) (by omega)
  have read : stagingRead v.toInt.toNat left (s.moved v)
      = .ok (Memory.readBytes s.ram (s.cfg.mscBufAddr + v.toNat) left) (s.moved v) := by
    rw [nat]
    exact bind_eq (peek_run _ _) (memRead_ok (s := s.moved v) mapped)
  have moved : addXferred (BitVec.ofInt 32 v.toInt) s = .ok () (s.moved v) := by
    rw [BitVec.ofInt_toInt]
    exact addXferred_run v s
  have fits : (Memory.readBytes s.ram (s.cfg.mscBufAddr + v.toNat) left).length ≤ s.cfg.mscBufSize := by
    rw [Memory.readBytes_length]
    omega
  exact bind_eq moved (bind_eq read (stagingWrite_ok (s := s.moved v) hl fits))

theorem writeIoData_kept (hl : s.cfg.legal = true) {v : Word} (hv : 0 < v.toInt) (hlt : v.toNat < x.toNat)
    (hb : x.toNat ≤ s.cfg.mscBufSize) (h : s.Room) :
    writeIoData x v.toInt s = .ok () (((s.moved v).ramStored s.cfg.mscBufAddr
      (Memory.readBytes s.ram (s.cfg.mscBufAddr + v.toNat) (x.toNat - v.toNat))).posted
        (.xferComplete s.msc.epOut (x - v))) := by
  have int : v.toInt = v.toNat := toInt_of_nonneg hv.le
  have nat : v.toInt.toNat = v.toNat := by rw [int, Int.toNat_natCast]
  have left : BitVec.ofNat 32 (x.toNat - v.toNat) = x - v := by
    apply BitVec.eq_of_toNat_eq
    have bound := x.isLt
    rw [BitVec.toNat_sub_of_le (BitVec.le_def.2 hlt.le), BitVec.toNat_ofNat, Nat.mod_eq_of_lt (by omega)]
  have keep := (onlyIf_true (decide_eq_true hv) _).trans
    (keepRest_run hl hv.le (left := x.toNat - v.toInt.toNat) (by omega))
  refine bind_eq (peek_run _ _) (ite_run_neg (by omega) (ite_run_pos (by omega) (bind_eq keep ?_)))
  rw [nat, left]
  exact post_ok (s := (s.moved v).ramStored _ _) h

/-- The whole chunk consumed. -/
theorem writeIoData_all (hr : r = x.toNat) : writeIoData x r s =
    if s.msc.totalLen.toNat ≤ (s.msc.xferredLen + x).toNat then .ok () (s.moved x).toStatusStage
    else procWrite10Cmd (s.moved x) := by
  refine bind_eq (peek_run _ _) (ite_run_neg (by omega) (ite_run_neg (by omega)
    (bind_eq (addXferred_run _ _) (bind_eq (peek_run _ _) ?_))))
  rw [ite_run]
  rfl

end

/-! ### The replay of a deferred answer (48_scsi.md rule R515) -/

section
variable {s z : State} {v : Word}

/-- The wait is over. -/
def State.waitEnded (s : State) : State := s.updMsc fun m => { m with pendingIo := false }

theorem replayDeferred_dropped (h : s.msc.pendingIo = false) : replayDeferred v s = .ok () s :=
  bind_eq (peek_run _ _) (ite_run_neg (by rw [id, h]; decide) rfl)

variable (hp : s.msc.pendingIo = true)
include hp

theorem replayDeferred_run (h : replayIo s v s.waitEnded = .ok () z) : replayDeferred v s = statusStep z :=
  bind_eq (peek_run _ _) (ite_run_pos hp (bind_eq (t := s.waitEnded) (change_run _ _) (bind_eq h rfl)))

theorem replayDeferred_fault {f : Fault} (h : replayIo s v s.waitEnded = .error f z) :
    replayDeferred v s = .error f z :=
  bind_eq (peek_run _ _) (ite_run_pos hp (bind_eq (t := s.waitEnded) (change_run _ _) (bind_eq_error h _)))

end

section
variable {s w : State} {v : Word}

theorem replayIo_read (hop : s.msc.cbw.op = opRead10) (hne : v ≠ w.cfg.asyncRet)
    (hb : v.toInt ≤ s.msc.chunkSize s.cfg) : replayIo s v w = readIoData v.toInt w :=
  ite_run_pos hop (bind_eq (deferredAnswer_ok hne hb) rfl)

theorem replayIo_read_fault (hop : s.msc.cbw.op = opRead10)
    (h : v = w.cfg.asyncRet ∨ (s.msc.chunkSize s.cfg : Int) < v.toInt) :
    replayIo s v w = .error (.appContract .read10) w :=
  ite_run_pos hop (bind_eq_error (deferredAnswer_fault h) _)

theorem replayIo_write (hop : s.msc.cbw.op = opWrite10) (hne : v ≠ w.cfg.asyncRet)
    (hb : v.toInt ≤ s.msc.ioLen.toNat) : replayIo s v w = writeIoData s.msc.ioLen v.toInt w :=
  ite_run_neg (by rw [hop]; decide) (ite_run_pos hop (bind_eq (deferredAnswer_ok hne hb) rfl))

theorem replayIo_write_fault (hop : s.msc.cbw.op = opWrite10)
    (h : v = w.cfg.asyncRet ∨ (s.msc.ioLen.toNat : Int) < v.toInt) :
    replayIo s v w = .error (.appContract .write10) w :=
  ite_run_neg (by rw [hop]; decide) (ite_run_pos hop (bind_eq_error (deferredAnswer_fault h) _))

theorem replayIo_other (hr : s.msc.cbw.op ≠ opRead10) (hw : s.msc.cbw.op ≠ opWrite10) : replayIo s v w = .ok () w :=
  ite_run_neg hr (ite_run_neg hw rfl)

end

/-! ### `TASK_STEP` (47_bot_fsm.md rules R450, R451) -/

section
variable {s t : State} {ev : Event} {rest : List Event} (hs : s.Ready) (hq : s.evq = ev :: rest)
include hq

/-- The head of the queue is removed and handled. -/
theorem taskOp_run : taskOp s = (do handleEvent ev; setRes 1 : Op Unit) { s with evq := rest } := by
  refine bind_eq (peek_run _ _) ?_
  rw [hq]
  exact bind_eq (t := { s with evq := rest }) (change_run _ _) rfl

include hs

theorem exec_taskStep_ok (h : handleEvent ev { s with evq := rest } = .ok () t) :
    exec .taskStep s = .next (t.withRes 1) :=
  perform_ok hs ((taskOp_run hq).trans (bind_eq h rfl))

theorem exec_taskStep_error {f : Fault} (h : handleEvent ev { s with evq := rest } = .error f t) :
    exec .taskStep s = .next (takeFault f t) :=
  perform_error hs ((taskOp_run hq).trans (bind_eq_error h _))

end

/-- A completion of the class machine's endpoint is its callback, `RES` included (rule R451). -/
theorem exec_taskStep_mscXferCb {s : State} {ep : Byte} {len : Word} {rest : List Event} (hs : s.Ready)
    (hq : s.evq = .xferComplete ep len :: rest) (hout : s.msc.epOut ≠ 0) (hmine : ep = s.msc.epIn ∨ ep = s.msc.epOut)
    (hep : epOk ep = true) (result : BitVec 2) :
    exec .taskStep s = exec (.mscXferCb ep result len) (State.putBusy { s with evq := rest } ep false) := by
  have ready : (State.putBusy { s with evq := rest } ep false).Ready := ⟨hs.noFault, hs.legal⟩
  generalize hu : State.putBusy { s with evq := rest } ep false = u at ready ⊢
  have handled : handleEvent (.xferComplete ep len) { s with evq := rest } = mscXferCbOp ep len u :=
    bind_eq (t := u) (by rw [change_run, hu]) (bind_eq (peek_run _ _)
      (ite_run_pos (by rw [← hu]; exact ⟨hout, hmine⟩) rfl))
  have callback {r} (h : mscXferCbOp ep len u = r) : (do checkEp ep; mscXferCbOp ep len : Op Unit) u = r :=
    bind_eq (checkEp_ok hep) h
  cases run : mscXferCbOp ep len u with
  | ok _ t =>
    rw [exec_taskStep_ok hs hq (handled.trans run), withRes_self (mscXferCbOp_res run)]
    exact (perform_ok ready (callback run)).symm
  | error f t =>
    rw [exec_taskStep_error hs hq (handled.trans run)]
    exact (perform_error ready (callback run)).symm

/-- Settles O55: the kind of the event chooses its handler; a deferred answer takes the way of the callback's answer. -/
theorem taskStep : Obligations.TaskStep := by
  intro s rest hs out u
  refine ⟨fun hq => ?_, fun e he hq => ?_, fun hq => ?_, fun b hq => ?_, fun ep len hq hother => ?_,
    fun ep len result hq hout hmine hep => exec_taskStep_mscXferCb hs hq hout hmine hep result,
    fun v hq hp => ?_, fun v hq hp hc => ?_⟩
  · have idle : taskOp s = .ok () (s.withRes 0) := by
      refine bind_eq (peek_run _ _) ?_
      rw [hq]
      rfl
    exact perform_ok hs idle
  · have seen : handleEvent e u = .ok () (u.observed (.core e)) := by
      rcases he with rfl | rfl | ⟨f, rfl⟩ <;> rfl
    exact exec_taskStep_ok hs hq seen
  · exact exec_taskStep_ok hs hq rfl
  · exact exec_taskStep_ok hs hq rfl
  · have notMine : ¬ (s.msc.epOut ≠ 0 ∧ (ep = s.msc.epIn ∨ ep = s.msc.epOut)) := by tauto
    exact exec_taskStep_ok hs hq (bind_eq (change_run _ _) (bind_eq (peek_run _ _) (ite_run_neg notMine rfl)))
  · exact exec_taskStep_ok hs hq (replayDeferred_dropped (s := u) hp)
  · intro w n x buf failed goes
    have calm : w.Calm := State.Calm.updMsc (s := u) ⟨⟨hc.quiet.bus, hc.quiet.isr⟩, hc.running, hc.legal, hc.pmaWf⟩ _
    have replays {z : State} (h : replayIo u v w = .ok () z) : goes z := fun hz =>
      exec_taskStep_ok hs hq ((replayDeferred_run (s := u) hp h).trans (statusStep_quiet hz))
    have ends {z : State} (h : replayIo u v w = .ok () z) (hz : z.msc.stage = .data) :
        exec .taskStep s = .next (z.withRes 1) :=
      exec_taskStep_ok hs hq ((replayDeferred_run (s := u) hp h).trans (statusStep_idle (by rw [hz]; nofun)))
    have faults {f : Fault} {z : State} (h : replayIo u v w = .error f z) : exec .taskStep s = .next (takeFault f z) :=
      exec_taskStep_error hs hq (replayDeferred_fault (s := u) hp h)
    have notAsync (h : 0 ≤ v.toInt) : v ≠ s.cfg.asyncRet := ne_asyncRet hs.legal h
    refine ⟨fun hop => ?_, fun hop => ?_, fun hr hw => replays (replayIo_other (s := u) hr hw)⟩
    · have answered := replayIo_read (s := u) (w := w) (v := v) hop
      refine ⟨fun h => faults (replayIo_read_fault (s := u) hop h), fun hne hneg hf => ?_, fun hv hst hroom => ?_,
        fun hpos hle hst hx => ?_⟩
      · exact replays ((answered hne (by omega)).trans (readIoData_failed calm hneg hf))
      · subst hv
        exact ends ((answered (notAsync le_rfl) (Int.natCast_nonneg _)).trans (readIoData_again (s := w) hroom)) hst
      · have nat : v.toInt.toNat = v.toNat := by rw [toInt_of_nonneg hpos.le, Int.toNat_natCast]
        have run := (answered (notAsync hpos.le) hle).trans (readIoData_sends calm hpos (by rw [nat]; exact hx))
        rw [nat] at run
        exact ends run ((congrArg Msc.stage (coreXferred_msc _ _ _)).trans hst)
    · have answered := replayIo_write (s := u) (w := w) (v := v) hop
      refine ⟨fun h => faults (replayIo_write_fault (s := u) hop h), fun hne hneg hf => ?_, fun hv hx hst hroom => ?_,
        fun hpos hlt hb hst hroom => ?_, fun hv hpos he => ?_, fun hv hpos he hst hx => ?_⟩
      · exact replays ((answered hne (by omega)).trans (writeIoData_failed calm hneg hf))
      · subst hv
        exact ends ((answered (notAsync le_rfl) (Int.natCast_nonneg _)).trans (writeIoData_again (s := w) hx hroom)) hst
      · have le : v.toInt ≤ x.toNat := by rw [toInt_of_nonneg hpos.le]; omega
        exact ends ((answered (notAsync hpos.le) le).trans (writeIoData_kept (s := w) hs.legal hpos hlt hb hroom)) hst
      · have int : v.toInt = x.toNat := by rw [toInt_of_nonneg hpos, hv]
        exact replays ((answered (notAsync hpos) int.le).trans ((writeIoData_all (s := w) int).trans (if_pos he)))
      · have int : v.toInt = x.toNat := by rw [toInt_of_nonneg hpos, hv]
        have next := procWrite10Cmd_quiet (s := w.moved x) (calm.updMsc _) rfl hx
        exact ends ((answered (notAsync hpos) int.le).trans
          (((writeIoData_all (s := w) int).trans (if_neg (not_le.2 he))).trans next))
          ((congrArg Msc.stage (coreXferred_msc _ _ _)).trans hst)

end Sys2Proof.Machine

/-! PROOFS. The validation of READ_10 and WRITE_10 (O51), one chunk of each (O52, O53), and the built-in commands with
the application's fallback (O54). -/

namespace Sys2Proof.Machine

/-! ### The block size (48_scsi.md rules R502, R504) -/

section
variable {c : Cbw} (h : c.count ≠ 0)
include h

theorem Cbw.count_setWidth_ne_zero : c.count.setWidth 32 ≠ 0 := fun h0 => h <| by
  have low := congrArg (BitVec.setWidth 16) h0
  rwa [BitVec.setWidth_setWidth_of_le _ (by decide), BitVec.setWidth_eq] at low

theorem Cbw.blockSize_eq : c.blockSize = c.totalBytes / c.count.setWidth 32 :=
  if_neg (Cbw.count_setWidth_ne_zero h)

theorem Cbw.blockSize_toNat : c.blockSize.toNat = c.totalBytes.toNat / c.count.toNat := by
  rw [Cbw.blockSize_eq h, BitVec.toNat_udiv, BitVec.toNat_setWidth_of_le (by decide)]

/-- A command for more blocks than bytes has no block size. -/
theorem Cbw.blockSize_eq_zero_iff : c.blockSize = 0 ↔ c.totalBytes.toNat < c.count.toNat := by
  have positive : c.count.toNat ≠ 0 := fun h0 => h (BitVec.eq_of_toNat_eq h0)
  rw [← BitVec.toNat_inj, Cbw.blockSize_toNat h]
  exact Nat.div_eq_zero_iff.trans (or_iff_right positive)

end

section
variable {m : Msc} (h : m.cbw.count ≠ 0) (hle : m.cbw.count.toNat ≤ m.cbw.totalBytes.toNat)
include h hle

theorem Cbw.blockSize_ne_zero : m.cbw.blockSize ≠ 0 := fun h0 =>
  absurd ((Cbw.blockSize_eq_zero_iff h).1 h0) (not_lt.2 hle)

theorem Msc.chunkLba_eq : m.chunkLba
    = m.cbw.lba0 + m.xferredLen / (m.cbw.totalBytes / m.cbw.count.setWidth 32) := by
  rw [Msc.chunkLba, udivide, if_neg (Cbw.blockSize_ne_zero h hle), Cbw.blockSize_eq h]

theorem Msc.chunkOffset_eq : m.chunkOffset = m.xferredLen % (m.cbw.totalBytes / m.cbw.count.setWidth 32) := by
  rw [Msc.chunkOffset, uremainder, if_neg (Cbw.blockSize_ne_zero h hle), Cbw.blockSize_eq h]

end

/-! ### `rdwr10_validate` (rule R503) -/

/-- The data phase has the direction of the command: IN for READ_10, OUT for WRITE_10. -/
def Cbw.OwnDirection (c : Cbw) : Prop := c.isIn = (c.op == opRead10)

section
variable {c : Cbw}

theorem rdwr10Validate_countWithoutData (ht : c.totalBytes = 0) (h : c.count ≠ 0) :
    rdwr10Validate c = statusPhaseError := by
  rw [rdwr10Validate, if_pos ht, if_pos h]

variable (ht : c.totalBytes ≠ 0) (hop : c.op = opRead10 ∨ c.op = opWrite10)
include ht hop

theorem rdwr10Validate_wrongDirection (h : ¬ c.OwnDirection) : rdwr10Validate c = statusPhaseError := by
  rw [rdwr10Validate, if_neg ht]
  rcases hop with hop | hop
  · have out : c.isIn = false := by simpa [Cbw.OwnDirection, hop] using h
    rw [if_pos ⟨hop, out⟩]
  · have inn : c.isIn = true := by simpa [Cbw.OwnDirection, hop, opRead10, opWrite10] using h
    rw [if_neg (by simp [inn]), if_pos ⟨hop, inn⟩]

/-- In the command's own direction, the count decides. -/
theorem rdwr10Validate_ownDirection (h : c.OwnDirection) : rdwr10Validate c =
    if c.count = 0 then statusFailed else if c.blockSize = 0 then statusPhaseError else statusPassed := by
  rw [rdwr10Validate, if_neg ht]
  rcases hop with hop | hop
  · have inn : c.isIn = true := by simpa [Cbw.OwnDirection, hop] using h
    rw [if_neg (by simp [inn]), if_neg fun h => absurd (hop.symm.trans h.1) (by decide)]
  · have out : c.isIn = false := by simpa [Cbw.OwnDirection, hop, opRead10, opWrite10] using h
    rw [if_neg fun h => absurd (hop.symm.trans h.1) (by decide), if_neg (by simp [out])]

end

/-- Settles O51: with no data only the count matters; with data the direction is held against the command first, then
the count against 0, then the block size, which is 0 exactly where the count is above the byte count. -/
theorem rdwrValidate : Obligations.RdwrValidate := by
  intro c hop sameDir
  have apart : statusPassed ≠ statusFailed ∧ statusPhaseError ≠ statusPassed ∧ statusPhaseError ≠ statusFailed := by
    decide
  by_cases ht : c.totalBytes = 0
  · by_cases h0 : c.count = 0
    · have passed := rdwr10Validate_noData ht h0
      grind
    · have mismatch := rdwr10Validate_countWithoutData ht h0
      grind
  by_cases hd : sameDir
  · have value := rdwr10Validate_ownDirection ht hop hd
    by_cases h0 : c.count = 0
    · rw [if_pos h0] at value
      grind
    · rw [if_neg h0] at value
      have noBlock := Cbw.blockSize_eq_zero_iff h0
      grind
  · have mismatch := rdwr10Validate_wrongDirection ht hop hd
    grind

/-! ### Answers and their bounds (rules R485, R486) -/

section
variable {s : State} {cb : Callback} {bound : Nat} {v : Word}

theorem contract_ok {b : Bool} (h : b = true) : contract cb b s = .ok () s := ite_run_pos h rfl

theorem contract_fault {b : Bool} (h : b = false) : contract cb b s = .error (.appContract cb) s :=
  ite_run_neg (by rw [h]; decide) rfl

theorem ioAnswer_async (h : v = s.cfg.asyncRet) : ioAnswer cb bound v s = .ok none s :=
  bind_eq (peek_run _ _) (ite_run_pos h rfl)

theorem ioAnswer_ok (h : v ≠ s.cfg.asyncRet) (hb : v.toInt ≤ bound) : ioAnswer cb bound v s = .ok (some v.toInt) s :=
  bind_eq (peek_run _ _) (ite_run_neg h (bind_eq (contract_ok (decide_eq_true hb)) rfl))

theorem ioAnswer_beyond (h : v ≠ s.cfg.asyncRet) (hb : (bound : Int) < v.toInt) :
    ioAnswer cb bound v s = .error (.appContract cb) s :=
  bind_eq (peek_run _ _) (ite_run_neg h (bind_eq_error (contract_fault (decide_eq_false (not_le.2 hb))) _))

/-- A store to the staging buffer from its byte `off` up, in a state of configuration `c`. -/
theorem stagingWrite_run {c : Config} (hc : s.cfg = c) (hl : c.legal = true) {off : Nat} {bs : List Byte}
    (h : off + bs.length ≤ c.mscBufSize) : stagingWrite off bs s = .ok () (s.ramStored (c.mscBufAddr + off) bs) := by
  subst hc
  refine bind_eq (peek_run _ _) (memWrite_ok fun k hk => ?_)
  rw [Nat.add_assoc]
  exact Config.staging_mapped hl h (off + k) (by omega)

/-- The bytes of an answer within the staging buffer. -/
theorem answerBytes_run {c : Config} (hc : s.cfg = c) (hl : c.legal = true) {r : Int} (h : r ≤ c.mscBufSize)
    (data : List Byte) : answerBytes r data s = .ok () (s.ramStored c.mscBufAddr (takeBytes r.toNat data)) :=
  stagingWrite_run (off := 0) hc hl (by rw [takeBytes_length]; omega)

end

/-! ### What a callback leaves of the record -/

section
variable (s : State) (c : AppCall) (a : Answer) (rest : List Answer)

theorem asked_cfg : (s.asked c a rest).cfg = s.cfg := rfl

theorem asked_epIn : (s.asked c a rest).msc.epIn = s.msc.epIn := by rw [asked_msc]

theorem asked_epOut : (s.asked c a rest).msc.epOut = s.msc.epOut := by rw [asked_msc]

theorem asked_dataEp : (s.asked c a rest).msc.dataEp = s.msc.dataEp := by rw [asked_msc]; rfl

theorem asked_residue : (s.asked c a rest).msc.residue = s.msc.residue := by rw [asked_msc]; rfl

theorem asked_cbw : (s.asked c a rest).msc.cbw = s.msc.cbw := by rw [asked_msc]

theorem asked_xferredLen : (s.asked c a rest).msc.xferredLen = s.msc.xferredLen := by rw [asked_msc]

theorem asked_totalLen : (s.asked c a rest).msc.totalLen = s.msc.totalLen := by rw [asked_msc]

end

/-! ### One chunk of READ_10 (rules R505, R506) -/

/-- The callback for the next chunk of a READ_10 as it is issued in `s`. -/
def State.readCall (s : State) : AppCall :=
  .read10 s.msc.cbw.lunNum s.msc.chunkLba s.msc.chunkOffset (s.msc.chunkSize s.cfg)

section
variable {s : State} {a : Answer} {rest : List Answer} (ha : s.answers = a :: rest)
include ha

theorem procRead10_waits (h : a.ret = s.cfg.asyncRet) :
    procRead10 s = .ok () ((s.asked s.readCall a rest).updMsc fun m => { m with pendingIo := true }) :=
  bind_eq (peek_run _ _) (bind_eq (ask_listed ha) (bind_eq (ioAnswer_async h) rfl))

theorem procRead10_beyond (h : a.ret ≠ s.cfg.asyncRet) (hb : (s.msc.chunkSize s.cfg : Int) < a.ret.toInt) :
    procRead10 s = .error (.appContract .read10) (s.asked s.readCall a rest) :=
  bind_eq (peek_run _ _) (bind_eq (ask_listed ha) (bind_eq_error
    (ioAnswer_beyond (s := s.asked s.readCall a rest) h hb) _))

/-- An answer within the chunk stages its bytes, and `read_io_data` goes on. -/
theorem procRead10_answered (hl : s.cfg.legal = true) (h : a.ret ≠ s.cfg.asyncRet)
    (hb : a.ret.toInt ≤ s.msc.chunkSize s.cfg) :
    procRead10 s = readIoData a.ret.toInt ((s.asked s.readCall a rest).ramStored s.cfg.mscBufAddr
      (takeBytes a.ret.toInt.toNat a.data)) := by
  have fits : a.ret.toInt ≤ s.cfg.mscBufSize := hb.trans (Int.ofNat_le.2 (Nat.min_le_left _ _))
  exact bind_eq (peek_run _ _) (bind_eq (ask_listed ha) (bind_eq (ioAnswer_ok h hb)
    (bind_eq (answerBytes_run (s := s.asked s.readCall a rest) rfl hl fits _) rfl)))

/-- An answer that is not positive stages nothing. -/
theorem procRead10_nothing (hl : s.cfg.legal = true) (h : a.ret ≠ s.cfg.asyncRet) (h0 : a.ret.toInt ≤ 0) :
    procRead10 s = readIoData a.ret.toInt (s.asked s.readCall a rest) := by
  rw [procRead10_answered ha hl h (h0.trans (Int.natCast_nonneg _)), Int.toNat_of_nonpos h0]
  rfl

end

/-- Settles O52: the answer is held against ASYNC and the chunk, and `read_io_data` goes on with its sign. -/
theorem read10Chunk : Obligations.Read10Chunk := by
  intro s a rest hq hl hw hr ha h0 hle bs n u
  have asked : s.asked s.readCall a rest = u := by
    rw [State.readCall, Msc.chunkLba_eq h0 hle, Msc.chunkOffset_eq h0 hle]
    rfl
  have calm : u.Calm := State.Calm.asked ⟨hq, hr, hl, hw⟩ _ _ _
  have epIn : u.msc.epIn = s.msc.epIn := asked_epIn _ _ _ _
  refine ⟨fun h => ?_, fun h hb => ?_, fun h hneg => ?_, fun h hroom => ?_, fun hpos hb => ?_⟩
  · exact asked ▸ procRead10_waits ha h
  · exact asked ▸ procRead10_beyond ha h hb
  · intro v hopen
    have can : v.CanFail := fun _ hres hst => by
      have dataEp : v.msc.dataEp = s.msc.dataEp := asked_dataEp s _ a rest
      have residue : v.msc.residue = s.msc.residue := asked_residue s _ a rest
      rw [dataEp] at hst ⊢
      exact hopen (residue ▸ hres) hst
    rw [procRead10_nothing ha hl h hneg.le, asked]
    exact readIoData_failed calm hneg can
  · have int : a.ret.toInt = 0 := by rw [h]; rfl
    rw [procRead10_nothing ha hl (ne_asyncRet hl int.ge) int.le, asked, int, ← epIn]
    exact readIoData_again (s := u) hroom
  · intro v hx
    have nat : a.ret.toInt.toNat = a.ret.toNat := by rw [toInt_of_nonneg hpos.le, Int.toNat_natCast]
    have staged : v.Calm := ⟨⟨calm.quiet.bus, calm.quiet.isr⟩, calm.running, calm.legal, calm.pmaWf⟩
    have vIn : v.msc.epIn = s.msc.epIn := epIn
    have sends := readIoData_sends staged hpos (by rw [nat, vIn]; exact hx)
    rw [nat, vIn] at sends
    rw [procRead10_answered ha hl (ne_asyncRet hl hpos.le) hb, asked, nat]
    exact sends

/-! ### The data of one completion of WRITE_10 (rules R511 to R513) -/

/-- The callback for the `x` bytes in the staging buffer of a WRITE_10 as it is issued in `s`. -/
def State.writeCall (s : State) (x : Word) : AppCall :=
  .write10 s.msc.cbw.lunNum s.msc.chunkLba s.msc.chunkOffset (Memory.readBytes s.ram s.cfg.mscBufAddr x.toNat)

section
variable {s : State} {x : Word} {a : Answer} {rest : List Answer} (hl : s.cfg.legal = true)
  (hx : x.toNat ≤ s.cfg.mscBufSize) (ha : s.answers = a :: rest)
include hl hx ha

theorem write10NewData_waits (h : a.ret = s.cfg.asyncRet) :
    write10NewData x s
      = .ok () ((s.asked (s.writeCall x) a rest).updMsc fun m => { m with pendingIo := true, ioLen := x }) :=
  bind_eq (peek_run _ _) (bind_eq (stagingRead_ok hl hx) (bind_eq (ask_listed ha) (bind_eq (ioAnswer_async h) rfl)))

theorem write10NewData_beyond (h : a.ret ≠ s.cfg.asyncRet) (hb : (x.toNat : Int) < a.ret.toInt) :
    write10NewData x s = .error (.appContract .write10) (s.asked (s.writeCall x) a rest) :=
  bind_eq (peek_run _ _) (bind_eq (stagingRead_ok hl hx) (bind_eq (ask_listed ha)
    (bind_eq_error (ioAnswer_beyond (s := s.asked (s.writeCall x) a rest) h hb) _)))

/-- An answer within the completion: `write_io_data` goes on. -/
theorem write10NewData_answered (h : a.ret ≠ s.cfg.asyncRet) (hb : a.ret.toInt ≤ x.toNat) :
    write10NewData x s = writeIoData x a.ret.toInt (s.asked (s.writeCall x) a rest) :=
  bind_eq (peek_run _ _) (bind_eq (stagingRead_ok hl hx) (bind_eq (ask_listed ha) (bind_eq (ioAnswer_ok h hb) rfl)))

end

section
variable {s : State} (hq : s.Quiet) (hr : s.Running)
include hq hr

/-- A sense triple, then `fail_scsi_op`; packet memory is not read. -/
theorem senseFailed_running {v : Sense} {st : Byte} (hf : (s.updMsc fun m => { m with sense := v }).CanFail) :
    (do setSenseTo v; failScsiOp st : Op Unit) s
      = .ok () ((s.updMsc fun m => { m with sense := v }).opFailed st) :=
  bind_eq (change_run _ _) (failScsiOp_quiet (s := s.updMsc fun m => { m with sense := v }) ⟨hq.bus, hq.isr⟩ hr hf st)

/-- An error counts the whole chunk as moved and fails the command. -/
theorem writeIoData_refused {x : Word} {r : Int} (hneg : r < 0)
    (hf : ((s.moved x).updMsc fun m => { m with sense := senseMnp }).CanFail) :
    writeIoData x r s = .ok () (((s.moved x).updMsc fun m => { m with sense := senseMnp }).opFailed statusFailed) :=
  bind_eq (peek_run _ _) (ite_run_pos hneg (bind_eq (addXferred_run _ _)
    (senseFailed_running (s := s.moved x) ⟨hq.bus, hq.isr⟩ hr hf)))

end

/-- Bytes stored where others stood read as those, and no byte outside their place changes. -/
theorem Memory.writeBytes_readBytes {m : List Host.Cell} (h : Memory.wf m) (a b n : Nat) :
    (∀ k, k < n → Memory.read (Memory.writeBytes m a (Memory.readBytes m b n)) (a + k) = Memory.read m (b + k))
      ∧ Memory.SameOutside m (Memory.writeBytes m a (Memory.readBytes m b n)) a n := by
  have outside := Memory.sameOutside_writeBytes h a (Memory.readBytes m b n)
  rw [Memory.readBytes_length] at outside
  refine ⟨fun k hk => ?_, outside⟩
  rw [Memory.read_writeBytes_add h _ _ (by rwa [Memory.readBytes_length]), Memory.getD_readBytes, if_pos hk]

/-- Settles O53: the answer is held against ASYNC and the bytes offered, and `write_io_data` goes on with how many of
them it consumed. -/
theorem write10Data : Obligations.Write10Data := by
  intro s x a rest hq hl hram hr ha h0 hle hx bs data u moved
  have asked : s.asked (s.writeCall x) a rest = u := by
    rw [State.writeCall, Msc.chunkLba_eq h0 hle, Msc.chunkOffset_eq h0 hle]
  have answered (h : a.ret ≠ s.cfg.asyncRet) (hb : a.ret.toInt ≤ x.toNat) :
      write10NewData x s = writeIoData x a.ret.toInt u := asked ▸ write10NewData_answered hl hx ha h hb
  have notAsync (h : 0 ≤ a.ret.toInt) : a.ret ≠ s.cfg.asyncRet := ne_asyncRet hl h
  have epOut : u.msc.epOut = s.msc.epOut := asked_epOut _ _ _ _
  have total : u.msc.totalLen = s.msc.totalLen := asked_totalLen _ _ _ _
  have before : u.msc.xferredLen = s.msc.xferredLen := asked_xferredLen _ _ _ _
  refine ⟨fun h => ?_, fun h hb => ?_, fun h hneg => ?_, fun h hpos hroom => ?_, fun hpos hlt hroom => ?_,
    fun h hpos hend => ?_, fun h hpos hmore hpma => ?_⟩
  · exact asked ▸ write10NewData_waits hl hx ha h
  · exact asked ▸ write10NewData_beyond hl hx ha h hb
  · intro v hopen
    have can : v.CanFail := fun _ hres hst => by
      have dataEp : v.msc.dataEp = s.msc.dataEp := asked_dataEp s _ a rest
      rw [dataEp] at hst ⊢
      exact hopen hres hst
    rw [answered h (by omega)]
    exact writeIoData_refused (s := u) ⟨hq.bus, hq.isr⟩ hr hneg can
  · have int : a.ret.toInt = 0 := by rw [h]; rfl
    rw [answered (notAsync int.ge) (by omega), int, ← epOut]
    exact writeIoData_again (s := u) hpos hroom
  · have int : a.ret.toInt = a.ret.toNat := toInt_of_nonneg hpos.le
    have kept := writeIoData_kept (s := u) (x := x) hl hpos hlt hx hroom
    obtain ⟨front, outside⟩ := Memory.writeBytes_readBytes hram s.cfg.mscBufAddr (s.cfg.mscBufAddr + a.ret.toNat)
      (x.toNat - a.ret.toNat)
    rw [epOut] at kept
    exact ⟨_, (answered (notAsync hpos.le) (by omega)).trans kept, rfl, front, outside⟩
  · have int : a.ret.toInt = x.toNat := by rw [toInt_of_nonneg hpos, h]
    rw [← total, ← before] at hend
    exact (answered (notAsync hpos) int.le).trans ((writeIoData_all (s := u) int).trans (if_pos hend))
  · have int : a.ret.toInt = x.toNat := by rw [toInt_of_nonneg hpos, h]
    intro n hcan
    have calm : State.Calm (u.moved x) := (State.Calm.asked ⟨hq, hr, hl, hpma⟩ _ _ _).updMsc _
    have chunk : (u.moved x).msc.chunkSize s.cfg = n := by
      have residue : (u.moved x).msc.residue = s.msc.cbw.totalBytes - (s.msc.xferredLen + x) := by
        rw [← before, ← asked_cbw s _ a rest]
        rfl
      rw [Msc.chunkSize, residue]
    have next := procWrite10Cmd_quiet calm chunk (epOut ▸ hcan)
    rw [← total, ← before] at hmore
    exact (answered (notAsync hpos) int.le).trans
      (((writeIoData_all (s := u) int).trans (if_neg (not_le.2 hmore))).trans (epOut ▸ next))

/-! ### The dispatch of the built-in commands (rule R488) -/

section
variable {s : State}

theorem procBuiltin_testUnitReady (h : s.msc.cbw.op = opTestUnitReady) :
    procBuiltin s = testUnitReady s.msc.cbw.lunNum s := bind_eq (peek_run _ _) (by simp only [h]; rfl)

theorem procBuiltin_requestSense (h : s.msc.cbw.op = opRequestSense) :
    procBuiltin s = requestSense s.msc.cbw.lunNum s := bind_eq (peek_run _ _) (by simp only [h]; rfl)

theorem procBuiltin_inquiry (h : s.msc.cbw.op = opInquiry) :
    procBuiltin s = inquiry s.msc.cbw.lunNum s := bind_eq (peek_run _ _) (by simp only [h]; rfl)

theorem procBuiltin_modeSense6 (h : s.msc.cbw.op = opModeSense6) :
    procBuiltin s = modeSense6 s.msc.cbw.lunNum s := bind_eq (peek_run _ _) (by simp only [h]; rfl)

theorem procBuiltin_startStopUnit (h : s.msc.cbw.op = opStartStopUnit) :
    procBuiltin s = startStopUnit s.msc.cbw.lunNum s.msc.cbw.command s :=
  bind_eq (peek_run _ _) (by simp only [h]; rfl)

theorem procBuiltin_preventAllow (h : s.msc.cbw.op = opPreventAllow) :
    procBuiltin s = preventAllow s.msc.cbw.lunNum s.msc.cbw.command s :=
  bind_eq (peek_run _ _) (by simp only [h]; rfl)

theorem procBuiltin_readFormatCapacity (h : s.msc.cbw.op = opReadFormatCapacity) :
    procBuiltin s = capacityResponse s.msc.cbw.lunNum readFormatCapacityBytes s :=
  bind_eq (peek_run _ _) (by simp only [h]; rfl)

theorem procBuiltin_readCapacity10 (h : s.msc.cbw.op = opReadCapacity10) :
    procBuiltin s = capacityResponse s.msc.cbw.lunNum readCapacityBytes s :=
  bind_eq (peek_run _ _) (by simp only [h]; rfl)

end

/-! ### The built-in commands (rules R490 to R497) -/

section
variable {s : State} {a b : Answer} {rest : List Answer}

/-- A command answered by a bool. -/
theorem boolAsked_run (ha : s.answers = a :: rest) (c : AppCall) :
    (do let a ← ask c; boolAnswer a.flag : Op Int) s = if a.flag then .ok 0 (s.asked c a rest)
      else .ok (-1) ((s.asked c a rest).senseDefaulted senseMnp) := by
  refine bind_eq (ask_listed ha) ?_
  cases a.flag
  · exact bind_eq (defaultSense_run _ _) rfl
  · rfl

variable (lun : Byte)

theorem capacityResponse_missing (ha : s.answers = a :: rest) (h : a.ret = 0 ∨ a.size = 0)
    (bytes : Word → Half → List Byte) :
    capacityResponse lun bytes s = .ok (-1) ((s.asked (.capacity lun) a rest).senseDefaulted senseMnp) :=
  bind_eq (ask_listed ha) (ite_run_pos h (bind_eq (defaultSense_run _ _) rfl))

variable (hl : s.cfg.legal = true)
include hl

theorem capacityResponse_known (ha : s.answers = a :: rest) (hret : a.ret ≠ 0) (hsize : a.size ≠ 0)
    {bytes : Word → Half → List Byte} (h : (bytes a.ret a.size).length ≤ s.cfg.mscBufSize) :
    capacityResponse lun bytes s = .ok ((bytes a.ret a.size).length : Int)
      ((s.asked (.capacity lun) a rest).ramStored s.cfg.mscBufAddr (bytes a.ret a.size)) :=
  bind_eq (ask_listed ha) (ite_run_neg (not_or.2 ⟨hret, hsize⟩)
    (bind_eq (stagingWrite_ok (s := s.asked (.capacity lun) a rest) hl h) rfl))

theorem modeSense6_run (ha : s.answers = a :: rest) :
    modeSense6 lun s = .ok 4 ((s.asked (.isWritable lun) a rest).ramStored s.cfg.mscBufAddr
      [0x03, 0x00, if a.flag then 0x00 else 0x80, 0x00]) := by
  have room : 4 ≤ s.cfg.mscBufSize := by have := Config.legal_bounds hl; omega
  exact bind_eq (ask_listed ha) (bind_eq (stagingWrite_ok (s := s.asked (.isWritable lun) a rest) hl room) rfl)

end

/-! #### REQUEST_SENSE (rule R497) -/

/-- The application has been asked over the staged response `bs`. -/
def State.senseAsked (s : State) (bs : List Byte) (lun : Byte) (a : Answer) (rest : List Answer) : State :=
  (s.ramStored s.cfg.mscBufAddr bs).asked (.requestSense lun
    (Memory.readBytes (s.ramStored s.cfg.mscBufAddr bs).ram s.cfg.mscBufAddr s.cfg.mscBufSize) s.cfg.mscBufSize) a rest

/-- The sense triple is cleared. -/
def State.senseCleared (s : State) : State := s.updMsc fun m => { m with sense := ⟨0, 0, 0⟩ }

theorem clearSense_run (r : Int) (s : State) :
    (do setSenseTo ⟨0, 0, 0⟩; pure r : Op Int) s = .ok r s.senseCleared := rfl

section
variable {s : State} {a : Answer} {rest : List Answer} (lun : Byte) (hl : s.cfg.legal = true)

theorem senseAsked_cfg (bs : List Byte) : (s.senseAsked bs lun a rest).cfg = s.cfg := rfl

variable (ha : s.answers = a :: rest)
include hl ha

/-- For any bytes staged, so that no check of the proof computes the memory they leave. -/
theorem stageAndAskSense_run {bs : List Byte} (h : bs.length ≤ s.cfg.mscBufSize) {f : Answer → Op Int}
    {r : EStateM.Result Fault State Int} (hf : f a (s.senseAsked bs lun a rest) = r) :
    (do
      stagingWrite 0 bs
      let buf ← stagingRead 0 s.cfg.mscBufSize
      let a ← ask (.requestSense lun buf s.cfg.mscBufSize)
      f a : Op Int) s = r :=
  bind_eq (stagingWrite_ok hl h) (bind_eq (stagingRead_ok (s := s.ramStored s.cfg.mscBufAddr bs) hl le_rfl)
    (bind_eq (ask_listed (s := s.ramStored s.cfg.mscBufAddr bs) ha) hf))

/-- The response is staged and the callback made; `r` is what follows its answer. -/
theorem requestSense_run {r : EStateM.Result Fault State Int}
    (h : (if a.keep then do
        setSenseTo ⟨0, 0, 0⟩
        pure 18
      else do
        contract .requestSense (decide (answerInt a ≤ s.cfg.mscBufSize))
        answerBytes (answerInt a) a.data
        setSenseTo ⟨0, 0, 0⟩
        pure (answerInt a) : Op Int) (s.senseAsked (requestSenseBytes s.msc.sense) lun a rest) = r) :
    requestSense lun s = r := by
  have room : (requestSenseBytes s.msc.sense).length ≤ s.cfg.mscBufSize := by
    have := Config.legal_bounds hl
    simp only [requestSenseBytes, List.length_cons, List.length_nil]
    omega
  exact bind_eq (peek_run _ _) (stageAndAskSense_run lun hl ha room h)

theorem requestSense_kept (hk : a.keep = true) :
    requestSense lun s = .ok 18 (s.senseAsked (requestSenseBytes s.msc.sense) lun a rest).senseCleared :=
  requestSense_run lun hl ha (ite_run_pos hk (clearSense_run _ _))

variable (hk : a.keep = false)
include hk

theorem requestSense_answered (h : a.ret.toInt ≤ s.cfg.mscBufSize) :
    requestSense lun s = .ok a.ret.toInt ((s.senseAsked (requestSenseBytes s.msc.sense) lun a rest).ramStored
      s.cfg.mscBufAddr (takeBytes a.ret.toInt.toNat a.data)).senseCleared :=
  requestSense_run lun hl ha (ite_run_neg (by rw [hk]; decide) (bind_eq (contract_ok (decide_eq_true h))
    (bind_eq (answerBytes_run (senseAsked_cfg lun _) hl h _) (clearSense_run _ _))))

theorem requestSense_beyond (h : (s.cfg.mscBufSize : Int) < a.ret.toInt) : requestSense lun s
    = .error (.appContract .requestSense) (s.senseAsked (requestSenseBytes s.msc.sense) lun a rest) :=
  requestSense_run lun hl ha (ite_run_neg (by rw [hk]; decide)
    (bind_eq_error (contract_fault (decide_eq_false (not_le.2 h))) _))

end

/-! #### INQUIRY (rule R495) -/

/-- The bytes `bs` are staged and `inquiry2` is asked. -/
def State.inquiryAsked (s : State) (bs : List Byte) (lun : Byte) (a : Answer) (rest : List Answer) : State :=
  (s.ramStored s.cfg.mscBufAddr bs).asked (.inquiry2 lun s.cfg.mscBufSize) a rest

section
variable {s : State} {a b : Answer} {rest : List Answer} (lun : Byte) (hl : s.cfg.legal = true)

theorem inquiryAsked_cfg (bs : List Byte) : (s.inquiryAsked bs lun a rest).cfg = s.cfg := rfl

theorem inquiryAsked_answers (bs : List Byte) : (s.inquiryAsked bs lun a rest).answers = rest := rfl

include hl

/-- For any bytes staged, as `stageAndAskSense_run`. -/
theorem stageAndAskInquiry_run (ha : s.answers = a :: rest) {bs : List Byte} (h : bs.length ≤ s.cfg.mscBufSize)
    {f : Config → Answer → Op Int} {r : EStateM.Result Fault State Int}
    (hf : f s.cfg a (s.inquiryAsked bs lun a rest) = r) :
    (do
      stagingWrite 0 bs
      let c ← peek (·.cfg)
      let a ← ask (.inquiry2 lun c.mscBufSize)
      f c a : Op Int) s = r :=
  bind_eq (stagingWrite_ok hl h) (bind_eq (peek_run _ _)
    (bind_eq (ask_listed (s := s.ramStored s.cfg.mscBufAddr bs) ha) hf))

/-- The template is staged and the first callback made; `r` is what follows its answer. -/
theorem inquiry_run (ha : s.answers = a :: rest) {r : EStateM.Result Fault State Int}
    (h : (do
      contract .inquiry2 (decide (a.ret.toNat ≤ s.cfg.mscBufSize))
      if a.ret ≠ 0 then do
        stagingWrite 0 (takeBytes a.ret.toNat a.data)
        pure (a.ret.toNat : Int)
      else do
        let v ← ask (.inquiry lun)
        stagingWrite 8 (takeBytes 28 v.data)
        pure 36 : Op Int) (s.inquiryAsked inquiryTemplate lun a rest) = r) : inquiry lun s = r := by
  have room : inquiryTemplate.length ≤ s.cfg.mscBufSize :=
    le_trans (by decide : inquiryTemplate.length ≤ 36) (Config.legal_bounds hl).2.2.2.2.2.2.1
  exact stageAndAskInquiry_run lun hl ha room h

theorem inquiry_full (ha : s.answers = a :: rest) (h : a.ret ≠ 0) (hb : a.ret.toNat ≤ s.cfg.mscBufSize) :
    inquiry lun s = .ok (a.ret.toNat : Int) ((s.inquiryAsked inquiryTemplate lun a rest).ramStored s.cfg.mscBufAddr
      (takeBytes a.ret.toNat a.data)) := by
  have room : 0 + (takeBytes a.ret.toNat a.data).length ≤ s.cfg.mscBufSize := by
    rw [takeBytes_length, Nat.zero_add]
    exact hb
  exact inquiry_run lun hl ha (bind_eq (contract_ok (decide_eq_true hb))
    (ite_run_pos h (bind_eq (stagingWrite_run (inquiryAsked_cfg lun _) hl room) rfl)))

theorem inquiry_beyond (ha : s.answers = a :: rest) (hb : s.cfg.mscBufSize < a.ret.toNat) :
    inquiry lun s = .error (.appContract .inquiry2) (s.inquiryAsked inquiryTemplate lun a rest) :=
  inquiry_run lun hl ha (bind_eq_error (contract_fault (decide_eq_false (not_le.2 hb))) _)

/-- Where `inquiry2` gives no data, the strings of `inquiry` go behind the first 8 bytes. -/
theorem inquiry_strings (ha : s.answers = a :: b :: rest) (h : a.ret = 0) :
    inquiry lun s = .ok 36 (((s.inquiryAsked inquiryTemplate lun a (b :: rest)).asked (.inquiry lun) b rest).ramStored
      (s.cfg.mscBufAddr + 8) (takeBytes 28 b.data)) := by
  have within : a.ret.toNat ≤ s.cfg.mscBufSize := by rw [h]; exact Nat.zero_le _
  have room : 8 + (takeBytes 28 b.data).length ≤ s.cfg.mscBufSize := by
    rw [takeBytes_length]
    exact (Config.legal_bounds hl).2.2.2.2.2.2.1
  have second := ask_listed (c := .inquiry lun) (inquiryAsked_answers (s := s) (a := a) (rest := b :: rest) lun
    inquiryTemplate)
  exact inquiry_run lun hl ha (bind_eq (contract_ok (decide_eq_true within)) (ite_run_neg (not_not.2 h)
    (bind_eq second (bind_eq (stagingWrite_run ((asked_cfg _ _ _ _).trans (inquiryAsked_cfg lun _)) hl room) rfl))))

end

/-! ### The application's fallback (rule R498) -/

/-- Before a phase that is not OUT, the answer's bytes go to the staging buffer (log entry 36). -/
theorem appScsi_stages {s : State} {a : Answer} {rest : List Answer} (hl : s.cfg.legal = true)
    (ha : s.answers = a :: rest) (n : Nat) (h : a.ret.toInt ≤ s.cfg.mscBufSize) :
    appScsi false n s = .ok a.ret.toInt ((s.asked (s.scsiCall n) a rest).ramStored s.cfg.mscBufAddr
      (takeBytes a.ret.toInt.toNat a.data)) := by
  refine bind_eq (peek_run _ _) (bind_eq (stagingRead_ok hl (Nat.min_le_right _ _)) (bind_eq (ask_listed ha) ?_))
  exact bind_eq (contract_ok (decide_eq_true h))
    (bind_eq (answerBytes_run (s := s.asked (s.scsiCall n) a rest) rfl hl h _) rfl)

/-- Settles O54: the opcode chooses the command, and the command's answer its result. -/
theorem builtinCommands : Obligations.BuiltinCommands := by
  intro s a b rest hl ha lun cdb buf size cap sensed asked unsensed full
  have room : 36 ≤ s.cfg.mscBufSize := (Config.legal_bounds hl).2.2.2.2.2.2.1
  refine ⟨?_, fun hop hc => ?_, fun hop hret hsize => ?_, fun hop hret hsize => ?_, fun hop => ?_, fun hop => ?_,
    fun hop => ?_, fun outPath n => ⟨fun h => ?_, appScsi_beyond hl ha n outPath⟩⟩
  · rintro call (⟨hop, rfl⟩ | ⟨hop, rfl⟩ | ⟨hop, rfl⟩)
    · exact (procBuiltin_testUnitReady hop).trans (boolAsked_run ha _)
    · exact (procBuiltin_startStopUnit hop).trans (boolAsked_run ha _)
    · exact (procBuiltin_preventAllow hop).trans (boolAsked_run ha _)
  · rcases hop with hop | hop
    · exact (procBuiltin_readCapacity10 hop).trans (capacityResponse_missing _ ha hc _)
    · exact (procBuiltin_readFormatCapacity hop).trans (capacityResponse_missing _ ha hc _)
  · have short : (readCapacityBytes a.ret a.size).length ≤ s.cfg.mscBufSize := le_trans (by decide : 8 ≤ 36) room
    exact (procBuiltin_readCapacity10 hop).trans (capacityResponse_known _ hl ha hret hsize short)
  · have short : (readFormatCapacityBytes a.ret a.size).length ≤ s.cfg.mscBufSize :=
      le_trans (by decide : 12 ≤ 36) room
    exact (procBuiltin_readFormatCapacity hop).trans (capacityResponse_known _ hl ha hret hsize short)
  · exact (procBuiltin_modeSense6 hop).trans (modeSense6_run _ hl ha)
  · rw [procBuiltin_requestSense hop]
    exact ⟨requestSense_kept lun hl ha, requestSense_answered lun hl ha, requestSense_beyond lun hl ha⟩
  · rw [procBuiltin_inquiry hop]
    exact ⟨inquiry_strings lun hl ha, inquiry_full lun hl ha, inquiry_beyond lun hl ha⟩
  · cases outPath
    · exact appScsi_stages hl ha n h
    · exact appScsi_out hl ha n h

end Sys2Proof.Machine

/-! PROOFS. The power-on state, and the two invariants in it (O58; 70_reset_and_hazards.md rule R581). -/

namespace Sys2Proof.Machine

/-! ### The tables, every entry of which holds its reset value -/

theorem getD_replicate_default {α : Type} {n : Nat} (a : α) (i : Nat) :
    (Vector.replicate n a)[i]?.getD a = a := by
  rw [Vector.getElem?_replicate]
  split <;> rfl

theorem reset_eprAt (i : Nat) : State.reset.eprAt i = 0#16 := eprAt_of_zeros rfl i

theorem reset_slotAt (i : Nat) : State.reset.slotAt i = Slot.free := getD_replicate_default _ _

theorem reset_ctx (n : BitVec 4) (d : Dir) : State.reset.ctx n d = XferCtx.zero := getD_replicate_default _ _

theorem reset_busyAt (ep : Byte) : State.reset.busyAt ep = false := getD_replicate_default _ _

theorem reset_stalledAt (ep : Byte) : State.reset.stalledAt ep = false := getD_replicate_default _ _

/-! ### The invariants (rules R48, R252, R301, R454) -/

/-- Neither memory lists a byte. -/
theorem reset_memoryOk : State.reset.MemoryOk where
  pmaWf := by decide
  ramWf := by decide
  pmaInside := List.forall_mem_nil _
  ramInside := List.forall_mem_nil _

theorem reset_registersOk : State.reset.RegistersOk where
  absent i _ := reset_eprAt i
  cntr := by decide
  istr := by decide
  daddr := by decide
  btable := by decide

/-- No endpoint register has a CTR bit, so `ISTR` has nothing to report. -/
theorem reset_istrOk : State.reset.IstrOk := by
  have unreported : istrOf State.reset.cfg.nEp State.reset.epr 0 = 0 := by
    rw [istrOf, State.reset, firstCtr_zero]
    rfl
  exact State.istrOk_of_istrOf unreported.symm

theorem reset_inv : State.reset.Inv where
  legal := by decide
  memory := reset_memoryOk
  registers := reset_registersOk
  istr := reset_istrOk
  held _ := ⟨reset_eprAt, rfl, rfl⟩
  cursor := ⟨by decide, by decide⟩
  slots i := (reset_slotAt i).symm ▸ Slot.free_ok
  queue := Nat.zero_le _
  fifos := List.forall_mem_nil _

/-- The cleared record awaits a command. -/
theorem reset_cswOk : State.reset.CswOk := State.NoCommand.cswOk ⟨rfl, .inl rfl⟩

/-- Settles O58: the tables entry by entry, every other value as the power-on state lists it. -/
theorem resetState : Obligations.ResetState :=
  ⟨reset_inv, reset_cswOk, reset_eprAt, rfl, rfl, rfl, rfl, reset_ctx, fun ep => ⟨reset_busyAt ep, reset_stalledAt ep⟩,
    rfl, rfl, rfl, rfl, rfl, rfl, rfl, rfl, rfl, rfl⟩

end Sys2Proof.Machine
